-- ==== Sys2Proof/Word.lean ====
section
/-! DEFINITION. The word types of the block: bytes and the unsigned widths u16, u32, u64 of rule R8, IQ samples
(R22), exact integer pairs (R45) and byte stores as sorted cell lists (R60). -/

namespace Sys2Proof

/-- A `u8`, one byte of a wire block or of a byte store (rules R8, R9). -/
abbrev Byte := BitVec 8

/-- A `u16` (rule R8): a frame index, a cursor. -/
abbrev U16 := BitVec 16

/-- A `u32` (rule R8): a counter, a configuration register. -/
abbrev U32 := BitVec 32

/-- A `u64` (rule R8): a time in microseconds, a frequency. -/
abbrev U64 := BitVec 64

/-- A byte store: address and byte, addresses rising, no entry holding 0, the value an unlisted address reads as
(rules R20, R60). The form is `Memory.wf`. -/
abbrev Memory := List Host.Cell

/-- An IQ sample as it stands in a queue, in `rx_cur` and in the interpolator: a pair of `i16` (rules R22, R46). -/
structure Sample where
  i : BitVec 16
  q : BitVec 16
deriving DecidableEq, Repr

/-- An IQ pair of exact integers, as it stands in a decimator stage (rule R45: 17 bits signed are enough). -/
structure Pair where
  i : Int
  q : Int
deriving DecidableEq, Repr

/-- Silence: I = Q = 0 (rule R13). -/
abbrev Sample.zero : Sample := ⟨0, 0⟩

/-- The pair (0, 0) of a cleared delay line (rule R150). -/
abbrev Pair.zero : Pair := ⟨0, 0⟩

end Sys2Proof
end

