-- ==== Sys2Proof/Config.lean ====
section
/-! DEFINITION. What is fixed for one machine: the fixed and decided parameters of rule R7 as constants, the open
parameters (`GF_POLY`, `HB_TAPS`, `HB_SHIFT`, `SB_CAP`) as the record `Params` that the state carries unchanged, and the
values nobody fixes as opaque constants. -/

namespace Sys2Proof

/-- `K`: data blocks in a frame (rule R7). -/
abbrev Config.dataBlocks : Nat := 128
/-- `NSB`: sample blocks in a frame, blocks 1 to 127 (rule R7). -/
abbrev Config.sampleBlocks : Nat := 127
/-- Bodies of `FB` and slots of a window entry, blocks 0 to 254 (rules R20, R21). -/
abbrev Config.bodies : Nat := 255
/-- `R_MAX`: the largest number of parity blocks (rule R7). -/
abbrev Config.parityMax : Nat := 127
/-- `BLOCK`: bytes in a datagram (rule R7). -/
abbrev Config.blockLen : Nat := 512
/-- `BODY`: bytes in a block body (rule R7). -/
abbrev Config.bodyLen : Nat := 508
/-- `W/2`: the eviction distance (rules R7, R206). -/
abbrev Config.evictDistance : Nat := 4
/-- Half of `FIDX_MOD`: from here on a frame index is behind (rule R11). -/
abbrev Config.behind : Nat := 32768
/-- `CRC_POLY`, reflected (rule R7). -/
abbrev Config.crcPoly : U32 := 0xEDB88320
/-- `OVERRUN_FACTOR` (rule R7). -/
abbrev Config.overrunFactor : Nat := 10
/-- The message size limit of 4 KiB (rules R101, R297 line 1). -/
abbrev Config.messageMax : Nat := 4096
/-- `LOG2_MAX`: also the number of halfband stages of each cascade (rules R7, R45). -/
abbrev Config.stages : Nat := 6

/-- The open parameters of rule R7 (decisions D1, D4, D27). DESIGN CHOICE (log entry 6): the state carries them, no operation
writes them, so a statement about every state holds for every value of them. -/
structure Params where
  /-- `GF_POLY`, nine bits, bit 8 set. -/
  gfPoly : BitVec 9
  /-- `HB_TAPS`. -/
  hbTaps : List Int
  /-- `HB_SHIFT`. -/
  hbShift : Nat
  /-- `SB_CAP` in samples; `none` is unbounded. -/
  sbCap : Option Nat
deriving DecidableEq, Repr

/-- The defaults of rule R7: `GF_POLY = 0x14D`, the seven-tap kernel with shift 5, unbounded buffers. -/
def Params.default : Params where
  gfPoly := 0x14D
  hbTaps := [-1, 0, 9, 16, 9, 0, -1]
  hbShift := 5
  sbCap := none

/-- `EXIT_DEVERR`, the exit code after a device error: open, no default, used by no rule (rules R7, R304; entry U6). Entry U6 also
says that cause 2 has exit code 0; the model follows rule R304 (log entry 7).
The spec gives it no width: that it is one byte, 0 to 255, is the model's choice (R7, R98(g), U6, N14). DESIGN CHOICE (log entry
7), safe in its value, unsafe in its range. -/
opaque Config.exitDevErr : Byte

/-- `inv(0)`: "undefined and is never evaluated by this spec" (rule R241). DESIGN CHOICE (log entry 8), safe: a free value. -/
opaque Config.invZero : Byte

/-- What solving a singular system `A · X = S` gives, from the number of unknowns. Rule R245 says that `A` is invertible, so
no admissible `GF_POLY` reaches it. DESIGN CHOICE (log entry 8), safe: a free value. -/
opaque Config.singularSolution : Nat → List (List Byte)

end Sys2Proof
end

