-- ==== Sys2Proof/Machine/Bytes.lean ====
section
/-! DEFINITION. Byte-order, bit-field and sign-extension helpers (rules R8, R9, R62, R97): little-endian assembly and layout,
slices, sample components, frame-index distance. -/

namespace Sys2Proof

/-- Little-endian value of a byte string of any length (rule R9: `le16`, `le32`). -/
def leNat : List Byte → Nat
  | [] => 0
  | b :: r => b.toNat + 256 * leNat r

/-- `LE_n(v)` (rule R9): `n` bytes, least significant first. -/
def leBytes : Nat → Nat → List Byte
  | 0, _ => []
  | n + 1, v => BitVec.ofNat 8 v :: leBytes n (v / 256)

/-- The shortest little-endian layout of a number of any size, by `fuel` digits at most (log entry 2). -/
def shortBytesFuel : Nat → Nat → List Byte
  | 0, _ => []
  | fuel + 1, v => if v = 0 then [] else BitVec.ofNat 8 v :: shortBytesFuel fuel (v / 256)

/-- The shortest little-endian layout of a number of any size: no byte for 0, no zero byte at the top (log entry 2). -/
def shortBytes (v : Nat) : List Byte := shortBytesFuel v v

/-- The first `n` bytes, with zeros for the bytes that are not there (log entry 2). -/
def takeZ : Nat → List Byte → List Byte
  | 0, _ => []
  | n + 1, [] => 0 :: takeZ n []
  | n + 1, b :: r => b :: takeZ n r

/-- `b[off .. off+n)` (rule R9). -/
def slice (b : List Byte) (off n : Nat) : List Byte := takeZ n (b.drop off)

/-- `b[off]` (rule R9). -/
def byteAt (b : List Byte) (off : Nat) : Byte := b.getD off 0

/-- `le16(b, off)` (rule R9). -/
def le16 (b : List Byte) (off : Nat) : U16 := BitVec.ofNat 16 (leNat (slice b off 2))

/-- `le32(b, off)` (rule R9). -/
def le32 (b : List Byte) (off : Nat) : U32 := BitVec.ofNat 32 (leNat (slice b off 4))

/-- Eight bytes little-endian, for a clock operand. -/
def le64 (b : List Byte) (off : Nat) : U64 := BitVec.ofNat 64 (leNat (slice b off 8))

/-- `sext_{8B}(le_B(c, 0))` as an `i16` (rule R97(e)), `c` the `B` bytes of a sample component. -/
def componentOf (width : Nat) (c : List Byte) : BitVec 16 :=
  (BitVec.ofNat (8 * width) (leNat c)).signExtend 16

/-- The low `8B` bits of a sample component, little-endian (rule R97(f)). -/
def componentBytes (width : Nat) (x : BitVec 16) : List Byte := leBytes width x.toNat

/-- `SPB(B) = 508 / (2·B)`: IQ samples in a body (rules R7, R95). -/
def samplesPerBlock (width : Nat) : Nat := Config.bodyLen / (2 * width)

/-- `SPF(B) = 127 · SPB(B)`: IQ samples in a frame (rule R7). -/
def samplesPerFrame (width : Nat) : Nat := Config.sampleBlocks * samplesPerBlock width

/-- `dist(a, b) = (a − b) mod 65536` (rule R11). -/
def dist (a b : U16) : Nat := (a - b).toNat

/-- `sat16` (rule R8). -/
def sat16 (v : Int) : Int := max (-32768) (min 32767 v)

/-- A sample read as a pair of exact integers. -/
def Sample.toPair (x : Sample) : Pair := ⟨x.i.toInt, x.q.toInt⟩

/-- A pair of integers in the range of `i16` as a sample (rule R8). -/
def Pair.toSample (x : Pair) : Sample := ⟨BitVec.ofInt 16 x.i, BitVec.ofInt 16 x.q⟩

/-- The 32-bit header word `H` of rule R91 (`rsv` in bits 31..24). -/
def headerWord (fidx : U16) (blk rsv : Byte) : U32 :=
  fidx.setWidth 32 ||| (blk.setWidth 32 <<< 16) ||| (rsv.setWidth 32 <<< 24)

/-- A wire block: header and body (rules R90, R91). -/
def blockBytes (fidx : U16) (blk rsv : Byte) (body : List Byte) : List Byte :=
  leBytes 4 (headerWord fidx blk rsv).toNat ++ body

/-- Decimal characters as text bytes (rule R101: messages are UTF-8; every key is ASCII). -/
def ascii (cs : List Char) : List Byte := cs.map fun c => BitVec.ofNat 8 c.toNat

end Sys2Proof
end

