-- ==== Sys2Proof/Machine/Memory.lean ====
section
/-! DEFINITION. Byte stores (rules R20, R21, R60): a sorted list of cells that holds the non-zero bytes only. -/

namespace Sys2Proof

/-- What an address that no cell lists reads as: 0, the reset contents of `FB` (rules R20, R370). -/
def Memory.unlisted : Byte := 0

/-- One byte (`MemRead(space, a, 1)`, rule R10). -/
def Memory.get : Memory → Nat → Byte
  | [], _ => Memory.unlisted
  | (x, b) :: r, a => if x = a then b else Memory.get r a

/-- `n` bytes from address `a` (`MemRead`, rule R10). -/
def Memory.read (m : Memory) (a n : Nat) : List Byte :=
  let part := m.filter fun c => decide (a ≤ c.1) && decide (c.1 < a + n)
  (List.range n).map fun k => Memory.get part (a + k)

/-- The cells of a byte string laid down from address `a`: none for a byte that an unlisted address reads as. -/
def Memory.cells : Nat → List Byte → Memory
  | _, [] => []
  | a, b :: r => if b = Memory.unlisted then Memory.cells (a + 1) r else (a, b) :: Memory.cells (a + 1) r

/-- A byte string written from address `a` on (`MemWrite`, rule R10), all or nothing (rule R65). -/
def Memory.write (m : Memory) (a : Nat) (bs : List Byte) : Memory :=
  (m.filter fun c => decide (c.1 < a)) ++ Memory.cells a bs ++ m.filter fun c => decide (a + bs.length ≤ c.1)

/-- The canonical form from address `lo` on: addresses strictly rising, no cell with the value an unlisted address reads as. -/
def Memory.wfFrom : Nat → Memory → Bool
  | _, [] => true
  | lo, (a, b) :: r => decide (lo ≤ a) && b != Memory.unlisted && Memory.wfFrom (a + 1) r

/-- The canonical form of a byte store. -/
def Memory.wf (m : Memory) : Bool := Memory.wfFrom 0 m

/-- The canonical form, and every address inside a store of `bodies` bodies (rule R48: `blk ∈ 0..254`, `off ∈ 0..507`). -/
def Memory.within (m : Memory) (bodies : Nat) : Bool :=
  m.wf && m.all fun c => decide (c.1 < Config.bodyLen * bodies)

/-- The address of byte `off` of body `blk` (rule R48). -/
def bodyAddr (blk off : Nat) : Nat := Config.bodyLen * blk + off

/-- Rule R60's bounds of an access of `n` bytes at `(blk, off)`. -/
def inBody (blk off n : Nat) : Bool := decide (blk < Config.bodies) && decide (off + n ≤ Config.bodyLen)

end Sys2Proof
end

