-- ==== Sys2Proof/Syntax.lean ====
section
/-! DEFINITION. The operations of the block as abstract syntax: one constructor of `Instr` for each row of
spec/opcode_table.json (the 28 operations of rule R100, the three block kinds of rule R92, the 28 configuration keys of rule
R101), their operand types, and the transactions in which they arrive at the ports. -/

namespace Sys2Proof

/-- The queue operand of the `SB.*` operations (rule R130). -/
inductive QueueId where
  | rxq
  | txq
deriving DecidableEq, Repr

/-- The operand of `DSP.RESET` (rule R150). -/
inductive Half where
  | rx
  | tx
deriving DecidableEq, Repr

/-- The wall clock input `(sec, usec)` of rule R49. -/
structure Wall where
  sec : U32
  usec : U32
deriving DecidableEq, Repr

/-- One populated slot of the operand of `FEC.DECODE`: a block index and a body (rule R248). -/
structure Slot where
  blk : Byte
  body : List Byte
deriving DecidableEq, Repr

/-- What the device adapter answers to one device-level key: `ok`, `clamped` or `rejected:device:<text>` (rule R298). -/
inductive DevOutcome where
  | ok
  | clamped
  | rejected (text : List Byte)
deriving DecidableEq, Repr

/-- The adapter's whole answer to one device-level item: its outcome and what `get_frequency()` and `get_sample_rate()` return
afterwards (rule R298; log entry 16). -/
structure DevAnswer where
  outcome : DevOutcome
  frequency : U64
  sampleRate : U32
deriving DecidableEq, Repr

/-- The 28 keys of the table of rule R101. -/
inductive Key where
  | txdelay
  | fecblk
  | decim
  | interp
  | fcpos
  | freq
  | srate
  | ppmp
  | ppmn
  | agc
  | antbias
  | gain
  | lgain
  | mgain
  | vgain
  | v1gain
  | v2gain
  | bwfilter
  | bw
  | extamp
  | lagc
  | magc
  | pwidle
  | blklen
  | power
  | dfp
  | dfn
  | file
deriving DecidableEq, Repr

/-- The operations of the block, one constructor for each row of spec/opcode_table.json. -/
inductive Instr where
  /-- `CTL.RESET` (rule R300). -/
  | ctlReset
  /-- `CTL.START dev_ok` (rule R301). -/
  | ctlStart (devOk : Bool)
  /-- `CTL.STOP` (rule R302). -/
  | ctlStop
  /-- `CTL.DEVERR` (rule R304). -/
  | ctlDeverr
  /-- `CFG.WRITE reg, value` (rule R293). -/
  | cfgWrite (reg : Byte) (value : Nat)
  /-- `CFG.READ reg` (rule R294). -/
  | cfgRead (reg : Byte)
  /-- `CFG.APPLY msg, dev` (rule R297). -/
  | cfgApply (msg : List Byte) (dev : List DevAnswer)
  /-- `SB.PUSH q, v` (rule R132). -/
  | sbPush (queue : QueueId) (v : List Sample)
  /-- `SB.PULL q` (rule R133). -/
  | sbPull (queue : QueueId)
  /-- `SB.END q` (rule R134). -/
  | sbEnd (queue : QueueId)
  /-- `SB.WAITFILL q, n` (rule R135). -/
  | sbWaitfill (queue : QueueId) (n : Nat)
  /-- `SB.QUEUED q` (rule R137). -/
  | sbQueued (queue : QueueId)
  /-- `DEC.PROCESS x` (rule R146). -/
  | decProcess (x : Sample)
  /-- `INT.PROCESS v` (rule R148). -/
  | intProcess (v : List Sample)
  /-- `DSP.RESET half` (rule R150). -/
  | dspReset (half : Half)
  /-- `MIX.FS4 x` (rule R142). -/
  | mixFs4 (x : Sample)
  /-- `RXW.STEP now_us, wall` (rule R171). -/
  | rxwStep (now : U64) (wall : Wall)
  /-- `RX.ADOPT` (rule R172). -/
  | rxAdopt
  /-- `RX.SAMPLE x, wall` (rule R174). -/
  | rxSample (x : Sample) (wall : Wall)
  /-- `PACK.FRAME wall` (rule R176). -/
  | packFrame (wall : Wall)
  /-- `CRC32 bytes` (rule R178). -/
  | crc32 (bytes : List Byte)
  /-- `NET.RECV d`, a byte string of any length (rule R200). -/
  | netRecv (d : List Byte)
  /-- `TX.ADOPT` (rule R201). -/
  | txAdopt
  /-- `TX.RETIRE` (rule R210). -/
  | txRetire
  /-- `UNPACK.EXPAND bodies[1..127], B` (rule R213). -/
  | unpackExpand (bodies : List (List Byte)) (b : Byte)
  /-- `FEC.ENCODE data[0..128), m` (rule R246). -/
  | fecEncode (data : List (List Byte)) (m : Byte)
  /-- `FEC.DECODE e`, the populated slots in rising order (rule R248). -/
  | fecDecode (slots : List Slot)
  /-- `NET.SEND now_us` (rule R272). -/
  | netSend (now : U64)
  /-- `BLK.META`: the arrival of a block with `blk = 0` (rules R92, R93). -/
  | blkMeta (fidx : U16) (rsv : Byte) (body : List Byte)
  /-- `BLK.SAMPLE`: the arrival of a block with `1 <= blk <= 127` (rules R92, R95). -/
  | blkSample (fidx : U16) (b : BitVec 7) (rsv : Byte) (body : List Byte)
  /-- `BLK.PARITY`: the arrival of a block with `blk = 128 + b` (rules R92, R96, R98(d)). -/
  | blkParity (fidx : U16) (b : BitVec 7) (rsv : Byte) (body : List Byte)
  /-- `KEY.txdelay`: the configuration item `txdelay` or `txdelay=<value>` (rule R101). -/
  | keyTxdelay (val : Option (List Byte))
  /-- `KEY.fecblk`: the configuration item `fecblk` or `fecblk=<value>` (rule R101). -/
  | keyFecblk (val : Option (List Byte))
  /-- `KEY.decim`: the configuration item `decim` or `decim=<value>` (rule R101). -/
  | keyDecim (val : Option (List Byte))
  /-- `KEY.interp`: the configuration item `interp` or `interp=<value>` (rule R101). -/
  | keyInterp (val : Option (List Byte))
  /-- `KEY.fcpos`: the configuration item `fcpos` or `fcpos=<value>` (rule R101). -/
  | keyFcpos (val : Option (List Byte))
  /-- `KEY.freq`: the configuration item `freq` or `freq=<value>` (rule R101). -/
  | keyFreq (val : Option (List Byte)) (dev : Option DevAnswer)
  /-- `KEY.srate`: the configuration item `srate` or `srate=<value>` (rule R101). -/
  | keySrate (val : Option (List Byte)) (dev : Option DevAnswer)
  /-- `KEY.ppmp`: the configuration item `ppmp` or `ppmp=<value>` (rule R101). -/
  | keyPpmp (val : Option (List Byte)) (dev : Option DevAnswer)
  /-- `KEY.ppmn`: the configuration item `ppmn` or `ppmn=<value>` (rule R101). -/
  | keyPpmn (val : Option (List Byte)) (dev : Option DevAnswer)
  /-- `KEY.agc`: the configuration item `agc` or `agc=<value>` (rule R101). -/
  | keyAgc (val : Option (List Byte)) (dev : Option DevAnswer)
  /-- `KEY.antbias`: the configuration item `antbias` or `antbias=<value>` (rule R101). -/
  | keyAntbias (val : Option (List Byte)) (dev : Option DevAnswer)
  /-- `KEY.gain`: the configuration item `gain` or `gain=<value>` (rule R101). -/
  | keyGain (val : Option (List Byte)) (dev : Option DevAnswer)
  /-- `KEY.lgain`: the configuration item `lgain` or `lgain=<value>` (rule R101). -/
  | keyLgain (val : Option (List Byte)) (dev : Option DevAnswer)
  /-- `KEY.mgain`: the configuration item `mgain` or `mgain=<value>` (rule R101). -/
  | keyMgain (val : Option (List Byte)) (dev : Option DevAnswer)
  /-- `KEY.vgain`: the configuration item `vgain` or `vgain=<value>` (rule R101). -/
  | keyVgain (val : Option (List Byte)) (dev : Option DevAnswer)
  /-- `KEY.v1gain`: the configuration item `v1gain` or `v1gain=<value>` (rule R101). -/
  | keyV1gain (val : Option (List Byte)) (dev : Option DevAnswer)
  /-- `KEY.v2gain`: the configuration item `v2gain` or `v2gain=<value>` (rule R101). -/
  | keyV2gain (val : Option (List Byte)) (dev : Option DevAnswer)
  /-- `KEY.bwfilter`: the configuration item `bwfilter` or `bwfilter=<value>` (rule R101). -/
  | keyBwfilter (val : Option (List Byte)) (dev : Option DevAnswer)
  /-- `KEY.bw`: the configuration item `bw` or `bw=<value>` (rule R101). -/
  | keyBw (val : Option (List Byte)) (dev : Option DevAnswer)
  /-- `KEY.extamp`: the configuration item `extamp` or `extamp=<value>` (rule R101). -/
  | keyExtamp (val : Option (List Byte)) (dev : Option DevAnswer)
  /-- `KEY.lagc`: the configuration item `lagc` or `lagc=<value>` (rule R101). -/
  | keyLagc (val : Option (List Byte)) (dev : Option DevAnswer)
  /-- `KEY.magc`: the configuration item `magc` or `magc=<value>` (rule R101). -/
  | keyMagc (val : Option (List Byte)) (dev : Option DevAnswer)
  /-- `KEY.pwidle`: the configuration item `pwidle` or `pwidle=<value>` (rule R101). -/
  | keyPwidle (val : Option (List Byte)) (dev : Option DevAnswer)
  /-- `KEY.blklen`: the configuration item `blklen` or `blklen=<value>` (rule R101). -/
  | keyBlklen (val : Option (List Byte)) (dev : Option DevAnswer)
  /-- `KEY.power`: the configuration item `power` or `power=<value>` (rule R101). -/
  | keyPower (val : Option (List Byte)) (dev : Option DevAnswer)
  /-- `KEY.dfp`: the configuration item `dfp` or `dfp=<value>` (rule R101). -/
  | keyDfp (val : Option (List Byte)) (dev : Option DevAnswer)
  /-- `KEY.dfn`: the configuration item `dfn` or `dfn=<value>` (rule R101). -/
  | keyDfn (val : Option (List Byte)) (dev : Option DevAnswer)
  /-- `KEY.file`: the configuration item `file` or `file=<value>` (rule R101). -/
  | keyFile (val : Option (List Byte)) (dev : Option DevAnswer)
deriving DecidableEq, Repr

/-- The ports a transaction can arrive at: the operation-code port (rule R100), the wire (rule R276: raw datagrams), the
control channel (rule R291: raw configuration messages). DESIGN CHOICE (log entries 1 and 2). -/
inductive Port where
  | op
  | wire
  | control
deriving DecidableEq, Repr

/-- One transaction at a port: its bytes, and the device adapter's answers where it carries a configuration message
(rule R298; the answers are an input of the step, not bytes of the message). -/
structure Transaction where
  port : Port
  bytes : List Byte
  dev : List DevAnswer
deriving DecidableEq, Repr

/-- Why a transaction is no operation of the block (rule R98(f)). -/
inductive DecodeError where
  /-- An operation-code transaction with no byte. -/
  | empty
  /-- An operation code that rule R100 does not list. -/
  | illegalOpcode (code : Byte)
  /-- Operand bytes that stand for no operand of the operation (log entry 2). -/
  | illegalOperand (code : Byte)
  /-- Device answers beside a transaction that carries no configuration message. -/
  | strayAnswers
deriving DecidableEq, Repr

end Sys2Proof
end

