-- ==== Sys2Proof/Machine/State.lean ====
section
/-! DEFINITION. The state of the block (10_state R20 to R46), plain data, and its reset value (70_reset_and_hazards R370);
the reasons a step can stop. -/

namespace Sys2Proof.Machine

/-- The reason of a `rejected:<reason>` outcome (decision D34). -/
inductive Reason where
  | parse
  | unknown
  | aborted
  | range
  | state
  | size
  | device (text : List Byte)
deriving DecidableEq, Repr

/-- The outcome of one configuration write or key (rule R296). -/
inductive CfgOutcome where
  | ok
  | clamped
  | rejected (why : Reason)
deriving DecidableEq, Repr

/-- The error kinds of rule R330 that are raised, with the information `raise` is given (a frame index, a queue). Kind 2,
`ConfigRejected`, "is reported, not raised" (rule R293): it is the outcome `CfgOutcome.rejected`. -/
inductive ErrorEvent where
  /-- Code 1 (rule R332). -/
  | configParse
  /-- Code 3 (rule R334). -/
  | deviceError
  /-- Code 4 (rule R335). -/
  | bufferOverrun (queue : QueueId)
  /-- Code 5 (rule R336). -/
  | frameLoss (fidx : U16)
  /-- Code 6 (rule R337). -/
  | crcFailure (fidx : U16)
  /-- Code 7 (rule R338). -/
  | insufficientBlocks (fidx : U16)
  /-- Code 8, wrong length (rules R202, R339). -/
  | protocolLength
  /-- Code 8, block index outside the frame (rules R203, R339). -/
  | protocolHeader
  /-- Code 9 (rule R341). -/
  | metaInvalid (fidx : U16)
deriving DecidableEq, Repr

/-- What an operation returned at its port (the `→` of each operation rule). The field is the model's own (log entry 9). -/
inductive Result where
  /-- No operation has run since reset. -/
  | idle
  /-- The operation was performed and returns nothing. -/
  | done
  /-- The operation is ignored in this lifecycle state (rule R305). -/
  | ignored
  /-- The operation is not enabled: its agent waits (rules R133, R135, R171, R355; log entry 3). -/
  | noStep
  /-- A number: `CFG.READ`, `SB.QUEUED`. -/
  | value (v : U64)
  /-- The outcome of `CFG.WRITE`, or of a `CFG.READ` of a number that is no register. -/
  | outcome (o : CfgOutcome)
  /-- The reply of `CFG.APPLY`. -/
  | reply (text : List Byte)
  /-- `SB.PULL`, `INT.PROCESS`, `UNPACK.EXPAND`. -/
  | vector (v : List Sample)
  /-- `DEC.PROCESS`: a sample or none. -/
  | sample (y : Option Sample)
  /-- `MIX.FS4`: exact integers. -/
  | pair (y : Pair)
  /-- `CRC32`. -/
  | crc (c : U32)
  /-- `FEC.ENCODE`: the parity bodies; `FEC.DECODE`: the data bodies. -/
  | bodies (d : List (List Byte))
  /-- `FEC.DECODE` of fewer than 128 slots (rule R249). -/
  | insufficientBlocks
deriving DecidableEq, Repr

/-- `LIFECYCLE` (rule R27). -/
inductive Lifecycle where
  | created
  | streaming
  | draining
  | stopped
deriving DecidableEq, Repr

/-- `STOP_CAUSE` (rule R27). -/
inductive StopCause where
  /-- 0. -/
  | none
  /-- 1: stop signal (drained). -/
  | stopSignal
  /-- 2. -/
  | deviceError
  /-- 3: fatal startup error. -/
  | startupError
  /-- 4: end of the input sample stream (drained). -/
  | endOfStream
deriving DecidableEq, Repr

/-- The lifecycle registers of rule R27. -/
structure Control where
  lifecycle : Lifecycle
  stopCause : StopCause
  stopFlag : Bool
deriving DecidableEq, Repr

/-- One bank of the configuration registers 0x00 to 0x08 (rules R30 to R40). -/
structure Bank where
  /-- 0x00, microseconds (rule R32). -/
  txdelay : U32
  /-- 0x01, R, legal 0..127 (rule R33). -/
  fecblk : Byte
  /-- 0x02, legal 0..6 (rule R34). -/
  decim : Byte
  /-- 0x03, legal 0..6 (rule R35). -/
  interp : Byte
  /-- 0x04, legal 0 infra, 1 supra, 2 center (rule R36). -/
  fcpos : Byte
  /-- 0x05, hertz (rule R37). -/
  freq : U64
  /-- 0x06, samples per second (rule R38). -/
  srate : U32
  /-- 0x07, legal 1 and 2 (rule R39). -/
  bps : Byte
  /-- 0x08, legal 8..16 (rule R40). -/
  ebits : Byte
deriving DecidableEq, Repr

/-- The three banks and the sequence numbers (rule R31). -/
structure ConfigRegs where
  /-- `P`. -/
  pending : Bank
  /-- `A_rx`. -/
  activeRx : Bank
  /-- `A_tx`. -/
  activeTx : Bank
  /-- `CFG_SEQ_P`. -/
  seqP : U32
  /-- `CFG_SEQ_RX`. -/
  seqRx : U32
  /-- `CFG_SEQ_TX`. -/
  seqTx : U32
deriving DecidableEq, Repr

/-- One decimating stage `dec[s]`: its delay line, newest first, and its input parity, `u1` (rule R45). -/
structure DecStage where
  d : List Pair
  par : Bool
deriving DecidableEq, Repr

/-- The Rx half (rules R20, R23 to R25, R28, R42, R45). -/
structure RxHalf where
  /-- `FB`: byte `(blk, off)` at address `508·blk + off` (rule R20). -/
  fb : Memory
  /-- `rx_cur` (rule R23). -/
  cur : List Sample
  /-- `rx_frame_ctr` (rule R24). -/
  frameCtr : U16
  /-- `acc_count` (rule R25). -/
  accCount : U16
  /-- `rx_emitting` (rule R25). -/
  emitting : Bool
  /-- `emit_idx` (rule R25). -/
  emitIdx : Byte
  /-- `emit_R` (rule R25). -/
  emitR : Byte
  /-- `frame_bps` (rule R25). -/
  frameBps : Byte
  /-- `pace_ready_at` (rule R28). -/
  paceReadyAt : U64
  /-- `rx_promoted` (rule R42). -/
  promoted : Bool
  /-- `mix_phase`, `u2` (rule R45). -/
  mixPhase : BitVec 2
  /-- `dec[0..5]` (rule R45). -/
  dec : List DecStage
deriving DecidableEq, Repr

/-- An entry of `WIN` (rule R21). -/
structure WinEntry where
  /-- `e.fidx`. -/
  fidx : U16
  /-- The slots whose `e.present` is true, in rising order. -/
  present : List Nat
  /-- `e.body`: byte `(blk, off)` at address `508·blk + off`, meaningful where the slot is present. -/
  body : Memory
  /-- `e.count`. -/
  count : Nat
deriving DecidableEq, Repr

/-- The registers of the last accepted meta body (rule R44). -/
structure LastMeta where
  freqKHz : U32
  srate : U32
  bps : Byte
  ebits : Byte
  ndata : Byte
  nfec : Byte
  tsSec : U32
  tsUsec : U32
  valid : Bool
deriving DecidableEq, Repr

/-- The Tx half (rules R21, R26, R44, R46). -/
structure TxHalf where
  /-- `WIN`, in rising order of `fidx` (log entry 18). -/
  win : List WinEntry
  /-- `tx_synced`. -/
  synced : Bool
  /-- `tx_base`. -/
  base : U16
  /-- `LAST_*`. -/
  last : LastMeta
  /-- `pad_bps`. -/
  padBps : Byte
  /-- `int[0..5].d`, newest first (rule R46). -/
  intp : List (List Sample)
deriving DecidableEq, Repr

/-- A sample buffer (rule R22). -/
structure SampleQueue where
  vecs : List (List Sample)
  ended : Bool
  /-- The overrun latch `q.over` (rule R136). -/
  overLatch : Bool
deriving DecidableEq, Repr

/-- The counters of rule R43. -/
structure Counters where
  proto : U32
  late : U32
  dup : U32
  lost : U32
  insuff : U32
  crc : U32
  badMeta : U32
  ok : U32
  overrun : U32
  framesSent : U32
  dgramsSent : U32
deriving DecidableEq, Repr

/-- The model's own view of the block's ports: what is offered, what was emitted, what was raised, what was returned
(log entries 1 and 9). -/
structure Io where
  /-- Transactions offered and not yet taken, oldest first. -/
  inbox : List Transaction
  /-- Datagrams handed to the network, oldest first (rule R272: `emit d`). -/
  sent : List (List Byte)
  /-- The trace of raised error kinds, oldest first (rule R340). -/
  errors : List ErrorEvent
  /-- What the last operation returned. -/
  result : Result
deriving DecidableEq, Repr

/-- The whole state. -/
structure State where
  /-- The parameters of rule R7; no operation writes them (log entry 6). -/
  params : Params
  ctl : Control
  cfg : ConfigRegs
  rx : RxHalf
  tx : TxHalf
  /-- `RXQ`. -/
  rxq : SampleQueue
  /-- `TXQ`. -/
  txq : SampleQueue
  cnt : Counters
  io : Io
deriving DecidableEq, Repr

/-- Faults: none. The block has no fault: an error kind is raised in a next state (rule R340), and what the spec does not let an
operation do is refused (rules R10, R60). -/
inductive Fault where
deriving DecidableEq, Repr

/-- Refusals: the spec's own `refuse` (rule R10), each safe, since no next state is claimed. -/
inductive Refusal where
  /-- Raised by `exec` for an instruction without a meaning. Safe. -/
  | notModelled (mnemonic : String)
  /-- Raised by `step` for a transaction that is no operation (rule R98(f)). Safe. -/
  | undecodable (e : DecodeError)
  /-- Raised by `CTL.START` outside `Created` (rule R301). Safe. -/
  | startOutsideCreated
  /-- Raised by `SB.PUSH` on a queue that has ended (rule R132). Safe. -/
  | pushAfterEnd (queue : QueueId)
  /-- Raised by `SB.PUSH RXQ` with a sample outside the device's width (rule R131). Safe. -/
  | sampleOutOfRange
  /-- Raised by `RX.SAMPLE`, `PACK.FRAME` and `NET.SEND` where they would reach outside `FB`, and by `TX.RETIRE` and `NET.RECV` where
  they would reach outside a frame of `WIN`: blocks 0 to 254, `off + n ≤ 508` (rule R60). Safe: no sound state makes such an
  access (log entry 20). -/
  | outsideStore
deriving DecidableEq, Repr

/-- The reset bank (rules R32 to R40, R370). -/
def Bank.reset : Bank where
  txdelay := 0
  fecblk := 0
  decim := 0
  interp := 0
  fcpos := 2
  freq := 0
  srate := 0
  bps := 2
  ebits := 16

/-- An empty sample buffer (rules R22, R301). -/
def SampleQueue.empty : SampleQueue where
  vecs := []
  ended := false
  overLatch := false

/-- The counters at 0 (rule R43). -/
def Counters.zero : Counters where
  proto := 0
  late := 0
  dup := 0
  lost := 0
  insuff := 0
  crc := 0
  badMeta := 0
  ok := 0
  overrun := 0
  framesSent := 0
  dgramsSent := 0

/-- `dec[0..5]` after `DSP.RESET rx` (rules R45, R150): delay lines of `len(HB_TAPS)` zeros, parities 0. -/
def decReset (p : Params) : List DecStage :=
  List.replicate Config.stages ⟨List.replicate p.hbTaps.length Pair.zero, false⟩

/-- `int[0..5]` after `DSP.RESET tx` (rules R46, R150). -/
def intReset (p : Params) : List (List Sample) :=
  List.replicate Config.stages (List.replicate p.hbTaps.length Sample.zero)

/-- The Rx half at reset (rule R370). -/
def RxHalf.reset (p : Params) : RxHalf where
  fb := []
  cur := []
  frameCtr := 0
  accCount := 0
  emitting := false
  emitIdx := 0
  emitR := 0
  frameBps := 2
  paceReadyAt := 0
  promoted := false
  mixPhase := 0
  dec := decReset p

/-- `LAST_*` at reset (rules R44, R370). -/
def LastMeta.zero : LastMeta where
  freqKHz := 0
  srate := 0
  bps := 0
  ebits := 0
  ndata := 0
  nfec := 0
  tsSec := 0
  tsUsec := 0
  valid := false

/-- The Tx half at reset (rule R370). -/
def TxHalf.reset (p : Params) : TxHalf where
  win := []
  synced := false
  base := 0
  last := LastMeta.zero
  padBps := 2
  intp := intReset p

/-- Every element of the block's state at its reset value (rule R370), for given parameters and ports. -/
def State.initial (p : Params) (io : Io) : State where
  params := p
  ctl := ⟨.created, .none, false⟩
  cfg := ⟨Bank.reset, Bank.reset, Bank.reset, 0, 0, 0⟩
  rx := RxHalf.reset p
  tx := TxHalf.reset p
  rxq := SampleQueue.empty
  txq := SampleQueue.empty
  cnt := Counters.zero
  io := io

/-- The block right after power-on (rule R370), with the default parameters of rule R7 and nothing at its ports. -/
def State.reset : State := State.initial Params.default ⟨[], [], [], .idle⟩

end Sys2Proof.Machine
end

