-- ==== Sys2Proof/Machine/Operands.lean ====
section
/-! DEFINITION. The operand forms: register numbers and their ranges (rules R30, R32 to R40, R296), the configuration grammar
(rules R101 to R103), outcome words (decision D34), queue and bank selection. -/

namespace Sys2Proof

open Machine

/-- The nine configuration registers (rule R30). -/
inductive CfgReg where
  | txdelay
  | fecblk
  | decim
  | interp
  | fcpos
  | freq
  | srate
  | bps
  | ebits
deriving DecidableEq, Repr

/-- The configuration register of a register number (rules R32 to R40). -/
def CfgReg.ofCode (reg : Byte) : Option CfgReg :=
  match reg.toNat with
  | 0x00 => some .txdelay
  | 0x01 => some .fecblk
  | 0x02 => some .decim
  | 0x03 => some .interp
  | 0x04 => some .fcpos
  | 0x05 => some .freq
  | 0x06 => some .srate
  | 0x07 => some .bps
  | 0x08 => some .ebits
  | _ => none

/-- A value kept up to `top` and clamped to it above (rule R296). -/
def clampTop (top v : Nat) : Nat × CfgOutcome := if v ≤ top then (v, .ok) else (top, .clamped)

/-- A value accepted where `legal` holds and rejected elsewhere (rule R296). -/
def selectOnly (legal : Bool) (v : Nat) : Nat × CfgOutcome :=
  if legal then (v, .ok) else (v, .rejected .range)

/-- `RANGE(reg, value)` (rule R296); the value counts where the outcome is not a rejection. -/
def range (r : CfgReg) (v : Nat) : Nat × CfgOutcome :=
  match r with
  | .txdelay => clampTop (2 ^ 32 - 1) v
  | .fecblk => clampTop 127 v
  | .decim => clampTop 6 v
  | .interp => clampTop 6 v
  | .fcpos => selectOnly (decide (v ≤ 2)) v
  | .freq => selectOnly (decide (v < 2 ^ 64)) v
  | .srate => selectOnly (decide (v < 2 ^ 32)) v
  | .bps => selectOnly (decide (v = 1) || decide (v = 2)) v
  | .ebits => if v < 8 then (8, .clamped) else clampTop 16 v

/-- An outcome that is no rejection. -/
def Machine.CfgOutcome.accepted : CfgOutcome → Bool
  | .rejected _ => false
  | _ => true

/-- `P[reg] <- v` (rule R293). -/
def Machine.Bank.write (b : Bank) (r : CfgReg) (v : Nat) : Bank :=
  match r with
  | .txdelay => { b with txdelay := BitVec.ofNat 32 v }
  | .fecblk => { b with fecblk := BitVec.ofNat 8 v }
  | .decim => { b with decim := BitVec.ofNat 8 v }
  | .interp => { b with interp := BitVec.ofNat 8 v }
  | .fcpos => { b with fcpos := BitVec.ofNat 8 v }
  | .freq => { b with freq := BitVec.ofNat 64 v }
  | .srate => { b with srate := BitVec.ofNat 32 v }
  | .bps => { b with bps := BitVec.ofNat 8 v }
  | .ebits => { b with ebits := BitVec.ofNat 8 v }

/-- `P[reg]` (rule R294). -/
def Machine.Bank.read (b : Bank) (r : CfgReg) : Nat :=
  match r with
  | .txdelay => b.txdelay.toNat
  | .fecblk => b.fecblk.toNat
  | .decim => b.decim.toNat
  | .interp => b.interp.toNat
  | .fcpos => b.fcpos.toNat
  | .freq => b.freq.toNat
  | .srate => b.srate.toNat
  | .bps => b.bps.toNat
  | .ebits => b.ebits.toNat

/-- The queue an `SB.*` operand names (rule R130). -/
def Machine.State.queue (s : State) (q : QueueId) : SampleQueue :=
  match q with
  | .rxq => s.rxq
  | .txq => s.txq

/-- The state with one queue replaced. -/
def Machine.State.setQueue (s : State) (q : QueueId) (x : SampleQueue) : State :=
  match q with
  | .rxq => { s with rxq := x }
  | .txq => { s with txq := x }

/-- The text of a key, compared byte for byte (rules R101, R103). -/
def Key.text : Key → List Byte
  | .txdelay => ascii ['t', 'x', 'd', 'e', 'l', 'a', 'y']
  | .fecblk => ascii ['f', 'e', 'c', 'b', 'l', 'k']
  | .decim => ascii ['d', 'e', 'c', 'i', 'm']
  | .interp => ascii ['i', 'n', 't', 'e', 'r', 'p']
  | .fcpos => ascii ['f', 'c', 'p', 'o', 's']
  | .freq => ascii ['f', 'r', 'e', 'q']
  | .srate => ascii ['s', 'r', 'a', 't', 'e']
  | .ppmp => ascii ['p', 'p', 'm', 'p']
  | .ppmn => ascii ['p', 'p', 'm', 'n']
  | .agc => ascii ['a', 'g', 'c']
  | .antbias => ascii ['a', 'n', 't', 'b', 'i', 'a', 's']
  | .gain => ascii ['g', 'a', 'i', 'n']
  | .lgain => ascii ['l', 'g', 'a', 'i', 'n']
  | .mgain => ascii ['m', 'g', 'a', 'i', 'n']
  | .vgain => ascii ['v', 'g', 'a', 'i', 'n']
  | .v1gain => ascii ['v', '1', 'g', 'a', 'i', 'n']
  | .v2gain => ascii ['v', '2', 'g', 'a', 'i', 'n']
  | .bwfilter => ascii ['b', 'w', 'f', 'i', 'l', 't', 'e', 'r']
  | .bw => ascii ['b', 'w']
  | .extamp => ascii ['e', 'x', 't', 'a', 'm', 'p']
  | .lagc => ascii ['l', 'a', 'g', 'c']
  | .magc => ascii ['m', 'a', 'g', 'c']
  | .pwidle => ascii ['p', 'w', 'i', 'd', 'l', 'e']
  | .blklen => ascii ['b', 'l', 'k', 'l', 'e', 'n']
  | .power => ascii ['p', 'o', 'w', 'e', 'r']
  | .dfp => ascii ['d', 'f', 'p']
  | .dfn => ascii ['d', 'f', 'n']
  | .file => ascii ['f', 'i', 'l', 'e']

/-- The table of rule R101. -/
def Key.all : List Key :=
  [.txdelay, .fecblk, .decim, .interp, .fcpos, .freq, .srate, .ppmp, .ppmn, .agc, .antbias, .gain, .lgain, .mgain,
   .vgain, .v1gain, .v2gain, .bwfilter, .bw, .extamp, .lagc, .magc, .pwidle, .blklen, .power, .dfp, .dfn, .file]

/-- The key a text names, if the table has it (rule R103). -/
def Key.ofText (t : List Byte) : Option Key := Key.all.find? fun k => k.text == t

/-- The three groups of the order of application (rule R101, last column). -/
inductive KeyGroup where
  /-- First: device-level keys. -/
  | device
  /-- Second: DSP keys. -/
  | dsp
  /-- Third: packaging keys. -/
  | packaging
deriving DecidableEq, Repr

/-- The group of a key (rule R101). -/
def Key.group : Key → KeyGroup
  | .txdelay => .packaging
  | .fecblk => .packaging
  | .decim => .dsp
  | .interp => .dsp
  | .fcpos => .dsp
  | _ => .device

/-- The register a key writes, if any (rule R101). -/
def Key.reg : Key → Option CfgReg
  | .txdelay => some .txdelay
  | .fecblk => some .fecblk
  | .decim => some .decim
  | .interp => some .interp
  | .fcpos => some .fcpos
  | .freq => some .freq
  | .srate => some .srate
  | _ => none

/-- `,` -/
abbrev comma : Byte := 0x2C
/-- `=` -/
abbrev equals : Byte := 0x3D

/-- The items of a message: its parts between commas (rule R101, R297 line 2). -/
def splitItems : List Byte → List (List Byte)
  | [] => [[]]
  | c :: r =>
    if c = comma then [] :: splitItems r
    else
      match splitItems r with
      | [] => [[c]]
      | h :: t => (c :: h) :: t

/-- The key of an item: the run before the first `=`, or the whole item (rule R103). -/
def itemKey (it : List Byte) : List Byte := it.takeWhile fun c => c != equals

/-- The value of an item: the text after the first `=`, or `1` for a bare key (rules R101, R297 line 4). -/
def itemValue (it : List Byte) : List Byte :=
  match it.dropWhile fun c => c != equals with
  | [] => ascii ['1']
  | _ :: v => v

/-- The text after the first `=`, if there is one: the operand of the `KEY` rows. -/
def itemValue? (it : List Byte) : Option (List Byte) :=
  match it.dropWhile fun c => c != equals with
  | [] => none
  | _ :: v => some v

/-- An ASCII digit (rule R103). -/
def isDigit (c : Byte) : Bool := decide (0x30 ≤ c.toNat) && decide (c.toNat ≤ 0x39)

/-- The decimal number of a digit string, of any size (rule R103). -/
def decimal (t : List Byte) : Nat := t.foldl (fun a c => 10 * a + (c.toNat - 0x30)) 0

/-- The class of an item (rule R297 line 4). -/
inductive ItemClass where
  | unknown
  | badValue
  | number (k : Key) (v : Nat)
  | text (k : Key)
deriving DecidableEq, Repr

/-- Rule R297 line 4. -/
def classify (it : List Byte) : ItemClass :=
  match Key.ofText (itemKey it) with
  | none => .unknown
  | some k =>
    if k = .file then .text k
    else if (itemValue it).isEmpty || !(itemValue it).all isDigit then .badValue
    else .number k (decimal (itemValue it))

/-- The key of a known item. -/
def ItemClass.key : ItemClass → Option Key
  | .number k _ => some k
  | .text k => some k
  | _ => none

/-- The item of one key and one value text (rule R101: `key[=value]`). -/
def itemText (k : Key) (val : Option (List Byte)) : List Byte :=
  match val with
  | none => k.text
  | some v => k.text ++ equals :: v

/-- The reason word of decision D34. -/
def Machine.Reason.text : Reason → List Byte
  | .parse => ascii ['p', 'a', 'r', 's', 'e']
  | .unknown => ascii ['u', 'n', 'k', 'n', 'o', 'w', 'n']
  | .aborted => ascii ['a', 'b', 'o', 'r', 't', 'e', 'd']
  | .range => ascii ['r', 'a', 'n', 'g', 'e']
  | .state => ascii ['s', 't', 'a', 't', 'e']
  | .size => ascii ['s', 'i', 'z', 'e']
  | .device t => ascii ['d', 'e', 'v', 'i', 'c', 'e', ':'] ++ t

/-- The outcome word of rule R296 and decision D34. -/
def Machine.CfgOutcome.text : CfgOutcome → List Byte
  | .ok => ascii ['o', 'k']
  | .clamped => ascii ['c', 'l', 'a', 'm', 'p', 'e', 'd']
  | .rejected r => ascii ['r', 'e', 'j', 'e', 'c', 't', 'e', 'd', ':'] ++ r.text

/-- Texts joined by `,` (rule R297 line 12). -/
def joinItems : List (List Byte) → List Byte
  | [] => []
  | [t] => t
  | t :: r => t ++ comma :: joinItems r

/-- `key=outcome` (rule R297 lines 5 and 12). -/
def replyItem (it : List Byte) (o : CfgOutcome) : List Byte := itemKey it ++ equals :: o.text

end Sys2Proof
end

