-- ==== Sys2Proof/WellFormed.lean ====
section
/-! DEFINITION. Which operands the operations admit: the operand forms of the operation rules and the field ranges of the
encodings. -/

namespace Sys2Proof

/-- `wall`: `usec < 1000000` (rule R49). -/
def Wall.wf (w : Wall) : Bool := decide (w.usec.toNat < 1000000)

/-- `n` bodies of 508 bytes (rules R213, R246). -/
def bodiesWf (n : Nat) (d : List (List Byte)) : Bool :=
  decide (d.length = n) && d.all fun b => decide (b.length = Config.bodyLen)

/-- Slots 0 to 254 in rising order, each with a body of 508 bytes (rules R21, R248). -/
def slotsWf (sl : List Slot) : Bool :=
  decide (sl.Pairwise fun a b => a.blk.toNat < b.blk.toNat) &&
    sl.all fun x => decide (x.blk.toNat < Config.bodies) && decide (x.body.length = Config.bodyLen)

/-- One item of a message: no comma in the value, the item within the message limit (rules R101, R103). -/
def keyWf (k : Key) (val : Option (List Byte)) : Bool :=
  (val.getD []).all (fun c => c != comma) && decide ((itemText k val).length ≤ Config.messageMax)

/-- The operands an operation admits. -/
def Instr.wf : Instr → Bool
  | .ctlReset => true
  | .ctlStart _ => true
  | .ctlStop => true
  | .ctlDeverr => true
  | .cfgWrite _ _ => true
  | .cfgRead _ => true
  | .cfgApply _ _ => true
  | .sbPush _ _ => true
  | .sbPull _ => true
  | .sbEnd _ => true
  | .sbWaitfill _ _ => true
  | .sbQueued _ => true
  | .decProcess _ => true
  | .intProcess _ => true
  | .dspReset _ => true
  | .mixFs4 _ => true
  | .rxwStep _ wall => wall.wf
  | .rxAdopt => true
  | .rxSample _ wall => wall.wf
  | .packFrame wall => wall.wf
  | .crc32 _ => true
  | .netRecv _ => true
  | .txAdopt => true
  | .txRetire => true
  | .unpackExpand bodies b => bodiesWf Config.sampleBlocks bodies && (decide (b = 1) || decide (b = 2))
  | .fecEncode data m => bodiesWf Config.dataBlocks data && decide (m.toNat ≤ Config.parityMax)
  | .fecDecode slots => slotsWf slots
  | .netSend _ => true
  | .blkMeta _ _ body => decide (body.length = Config.bodyLen)
  | .blkSample _ b _ body => decide (b ≠ 0) && decide (body.length = Config.bodyLen)
  | .blkParity _ _ _ body => decide (body.length = Config.bodyLen)
  | .keyTxdelay val => keyWf .txdelay val
  | .keyFecblk val => keyWf .fecblk val
  | .keyDecim val => keyWf .decim val
  | .keyInterp val => keyWf .interp val
  | .keyFcpos val => keyWf .fcpos val
  | .keyFreq val _ => keyWf .freq val
  | .keySrate val _ => keyWf .srate val
  | .keyPpmp val _ => keyWf .ppmp val
  | .keyPpmn val _ => keyWf .ppmn val
  | .keyAgc val _ => keyWf .agc val
  | .keyAntbias val _ => keyWf .antbias val
  | .keyGain val _ => keyWf .gain val
  | .keyLgain val _ => keyWf .lgain val
  | .keyMgain val _ => keyWf .mgain val
  | .keyVgain val _ => keyWf .vgain val
  | .keyV1gain val _ => keyWf .v1gain val
  | .keyV2gain val _ => keyWf .v2gain val
  | .keyBwfilter val _ => keyWf .bwfilter val
  | .keyBw val _ => keyWf .bw val
  | .keyExtamp val _ => keyWf .extamp val
  | .keyLagc val _ => keyWf .lagc val
  | .keyMagc val _ => keyWf .magc val
  | .keyPwidle val _ => keyWf .pwidle val
  | .keyBlklen val _ => keyWf .blklen val
  | .keyPower val _ => keyWf .power val
  | .keyDfp val _ => keyWf .dfp val
  | .keyDfn val _ => keyWf .dfn val
  | .keyFile val _ => keyWf .file val

end Sys2Proof
end

