-- ==== Sys2Proof/Decode.lean ====
section
/-! DEFINITION. Decoding a transaction to an operation, total on any bytes, and the encoder beside it. The codes are those of
rule R100, the block headers those of rules R91 and R92, the keys those of rule R101. The bytes of an operation's operands
behind its code are the model's own layout (log entry 2): little-endian, in the order of the rule but for the two operations
whose bodies come last (`UNPACK.EXPAND`: the width, then the bodies; `FEC.ENCODE`: the row count, then the bodies), bytes that
are not there read as 0, bytes too many are refused. -/

namespace Sys2Proof

/-- The operation codes of rule R100. -/
abbrev Opcode.ctlReset : Byte := 0x01
abbrev Opcode.ctlStart : Byte := 0x02
abbrev Opcode.ctlStop : Byte := 0x03
abbrev Opcode.ctlDeverr : Byte := 0x04
abbrev Opcode.cfgWrite : Byte := 0x08
abbrev Opcode.cfgRead : Byte := 0x09
abbrev Opcode.cfgApply : Byte := 0x0A
abbrev Opcode.sbPush : Byte := 0x10
abbrev Opcode.sbPull : Byte := 0x11
abbrev Opcode.sbEnd : Byte := 0x12
abbrev Opcode.sbWaitfill : Byte := 0x13
abbrev Opcode.sbQueued : Byte := 0x14
abbrev Opcode.decProcess : Byte := 0x20
abbrev Opcode.intProcess : Byte := 0x21
abbrev Opcode.dspReset : Byte := 0x22
abbrev Opcode.mixFs4 : Byte := 0x23
abbrev Opcode.rxwStep : Byte := 0x30
abbrev Opcode.rxAdopt : Byte := 0x31
abbrev Opcode.rxSample : Byte := 0x32
abbrev Opcode.packFrame : Byte := 0x33
abbrev Opcode.crc32 : Byte := 0x34
abbrev Opcode.netRecv : Byte := 0x40
abbrev Opcode.txAdopt : Byte := 0x41
abbrev Opcode.txRetire : Byte := 0x42
abbrev Opcode.unpackExpand : Byte := 0x43
abbrev Opcode.fecEncode : Byte := 0x50
abbrev Opcode.fecDecode : Byte := 0x51
abbrev Opcode.netSend : Byte := 0x60

/-- The queue operand byte: 0 `RXQ`, 1 `TXQ`. -/
def queueOf (b : Byte) : Option QueueId :=
  if b = 0 then some .rxq else if b = 1 then some .txq else none

/-- The byte of a queue operand. -/
def queueByte : QueueId → Byte
  | .rxq => 0
  | .txq => 1

/-- The half operand byte: 0 `rx`, 1 `tx`. -/
def halfOf (b : Byte) : Option Half :=
  if b = 0 then some .rx else if b = 1 then some .tx else none

/-- The byte of a half operand. -/
def halfByte : Half → Byte
  | .rx => 0
  | .tx => 1

/-- A sample in four bytes: I, then Q, each little-endian. -/
def sampleBytes (x : Sample) : List Byte := leBytes 2 x.i.toNat ++ leBytes 2 x.q.toNat

/-- The sample in the four bytes from `off`. -/
def sampleAt (r : List Byte) (off : Nat) : Sample := ⟨le16 r off, le16 r (off + 2)⟩

/-- A vector of samples, four bytes each, to the end of the transaction. -/
def samplesOf : List Byte → Option (List Sample)
  | [] => some []
  | a :: b :: c :: d :: r => (samplesOf r).map fun v => sampleAt [a, b, c, d] 0 :: v
  | _ => none

/-- The wall clock in the eight bytes from `off`, where it is one (rule R49). -/
def wallAt (r : List Byte) (off : Nat) : Option Wall :=
  let w : Wall := ⟨le32 r off, le32 r (off + 4)⟩
  if w.wf then some w else none

/-- The eight bytes of a wall clock. -/
def wallBytes (w : Wall) : List Byte := leBytes 4 w.sec.toNat ++ leBytes 4 w.usec.toNat

/-- `n` bodies of 508 bytes each. -/
def bodiesOf : Nat → List Byte → List (List Byte)
  | 0, _ => []
  | n + 1, r => takeZ Config.bodyLen r :: bodiesOf n (r.drop Config.bodyLen)

/-- Slots, an index byte and 508 body bytes each, to the end of the transaction; `fuel` bounds their number. -/
def slotsFuel : Nat → List Byte → List Slot
  | 0, _ => []
  | _ + 1, [] => []
  | fuel + 1, b :: r => ⟨b, takeZ Config.bodyLen r⟩ :: slotsFuel fuel (r.drop Config.bodyLen)

/-- The slots of the operand of `FEC.DECODE`, where they are in rising order and no index is 255. -/
def slotsOf (r : List Byte) : Option (List Slot) :=
  let sl := slotsFuel r.length r
  if slotsWf sl then some sl else none

/-- An operand that is there, or the refusal of the operand bytes. -/
def operand (code : Byte) (o : Option Instr) : Except DecodeError Instr :=
  match o with
  | some i => .ok i
  | none => .error (.illegalOperand code)

/-- An operation whose operands take at most `n` bytes. -/
def sized (code : Byte) (n : Nat) (r : List Byte) (o : Option Instr) : Except DecodeError Instr :=
  if r.length ≤ n then operand code o else .error (.illegalOperand code)

/-- The operation of a code and the bytes after it (rule R100); `CFG.APPLY` alone takes device answers. The layout of the bytes is a
DESIGN CHOICE (log entry 2), for `UNPACK.EXPAND` and `FEC.ENCODE` with the number before the bodies, against the order in which
rules R213 and R246 name them. -/
def decodeOp (code : Byte) (r : List Byte) (dev : List DevAnswer) : Except DecodeError Instr :=
  if code = Opcode.cfgApply then .ok (.cfgApply r dev)
  else if !dev.isEmpty then .error .strayAnswers
  else
    match code.toNat with
    | 0x01 => sized code 0 r (some .ctlReset)
    | 0x02 => sized code 1 r
        (if byteAt r 0 = 0 then some (.ctlStart false) else if byteAt r 0 = 1 then some (.ctlStart true) else none)
    | 0x03 => sized code 0 r (some .ctlStop)
    | 0x04 => sized code 0 r (some .ctlDeverr)
    | 0x08 => .ok (.cfgWrite (byteAt r 0) (leNat (r.drop 1)))
    | 0x09 => sized code 1 r (some (.cfgRead (byteAt r 0)))
    | 0x10 => operand code ((queueOf (byteAt r 0)).bind fun q => (samplesOf (r.drop 1)).map (.sbPush q))
    | 0x11 => sized code 1 r ((queueOf (byteAt r 0)).map .sbPull)
    | 0x12 => sized code 1 r ((queueOf (byteAt r 0)).map .sbEnd)
    | 0x13 => operand code ((queueOf (byteAt r 0)).map fun q => .sbWaitfill q (leNat (r.drop 1)))
    | 0x14 => sized code 1 r ((queueOf (byteAt r 0)).map .sbQueued)
    | 0x20 => sized code 4 r (some (.decProcess (sampleAt r 0)))
    | 0x21 => operand code ((samplesOf r).map .intProcess)
    | 0x22 => sized code 1 r ((halfOf (byteAt r 0)).map .dspReset)
    | 0x23 => sized code 4 r (some (.mixFs4 (sampleAt r 0)))
    | 0x30 => sized code 16 r ((wallAt r 8).map (.rxwStep (le64 r 0)))
    | 0x31 => sized code 0 r (some .rxAdopt)
    | 0x32 => sized code 12 r ((wallAt r 4).map (.rxSample (sampleAt r 0)))
    | 0x33 => sized code 8 r ((wallAt r 0).map .packFrame)
    | 0x34 => .ok (.crc32 r)
    | 0x40 => .ok (.netRecv r)
    | 0x41 => sized code 0 r (some .txAdopt)
    | 0x42 => sized code 0 r (some .txRetire)
    | 0x43 => sized code (1 + Config.sampleBlocks * Config.bodyLen) r
        (if byteAt r 0 = 0 then some (.unpackExpand (bodiesOf Config.sampleBlocks (r.drop 1)) 1)
         else if byteAt r 0 = 1 then some (.unpackExpand (bodiesOf Config.sampleBlocks (r.drop 1)) 2)
         else none)
    | 0x50 => sized code (1 + Config.dataBlocks * Config.bodyLen) r
        (if (byteAt r 0).toNat ≤ Config.parityMax then
          some (.fecEncode (bodiesOf Config.dataBlocks (r.drop 1)) (byteAt r 0))
         else none)
    | 0x51 => operand code ((slotsOf r).map .fecDecode)
    | 0x60 => sized code 8 r (some (.netSend (le64 r 0)))
    | _ => .error (.illegalOpcode code)

/-- The block kind of a 512-byte datagram, by `blk` alone, tested in the order of rule R92. -/
def decodeBlock (d : List Byte) : Instr :=
  let blk := byteAt d 2
  if blk = 0 then .blkMeta (le16 d 0) (byteAt d 3) (d.drop 4)
  else if blk.toNat < 128 then .blkSample (le16 d 0) (blk.setWidth 7) (byteAt d 3) (d.drop 4)
  else .blkParity (le16 d 0) (blk.setWidth 7) (byteAt d 3) (d.drop 4)

/-- What arrived on the wire (rules R98, R276): a block, or a datagram of a wrong length for `NET.RECV` to drop. -/
def decodeWire (d : List Byte) (dev : List DevAnswer) : Except DecodeError Instr :=
  if !dev.isEmpty then .error .strayAnswers
  else if d.length = Config.blockLen then .ok (decodeBlock d) else .ok (.netRecv d)

/-- The `KEY` operation of a key; a key that is not device-level asks no device. -/
def keyInstr (k : Key) (val : Option (List Byte)) (dev : Option DevAnswer) : Instr :=
  match k with
  | .txdelay => .keyTxdelay val
  | .fecblk => .keyFecblk val
  | .decim => .keyDecim val
  | .interp => .keyInterp val
  | .fcpos => .keyFcpos val
  | .freq => .keyFreq val dev
  | .srate => .keySrate val dev
  | .ppmp => .keyPpmp val dev
  | .ppmn => .keyPpmn val dev
  | .agc => .keyAgc val dev
  | .antbias => .keyAntbias val dev
  | .gain => .keyGain val dev
  | .lgain => .keyLgain val dev
  | .mgain => .keyMgain val dev
  | .vgain => .keyVgain val dev
  | .v1gain => .keyV1gain val dev
  | .v2gain => .keyV2gain val dev
  | .bwfilter => .keyBwfilter val dev
  | .bw => .keyBw val dev
  | .extamp => .keyExtamp val dev
  | .lagc => .keyLagc val dev
  | .magc => .keyMagc val dev
  | .pwidle => .keyPwidle val dev
  | .blklen => .keyBlklen val dev
  | .power => .keyPower val dev
  | .dfp => .keyDfp val dev
  | .dfn => .keyDfn val dev
  | .file => .keyFile val dev

/-- How many device answers a one-item message of this key may carry (rule R298). -/
def keyAnswers (k : Key) : Nat := if k.group = .device then 1 else 0

/-- A configuration message (rule R291): the `KEY` operation of its one item, or `CFG.APPLY` of any other message. -/
def decodeControl (msg : List Byte) (dev : List DevAnswer) : Instr :=
  match splitItems msg with
  | [it] =>
    match Key.ofText (itemKey it) with
    | some k =>
      if msg.length ≤ Config.messageMax ∧ dev.length ≤ keyAnswers k then keyInstr k (itemValue? it) dev.head?
      else .cfgApply msg dev
    | none => .cfgApply msg dev
  | _ => .cfgApply msg dev

/-- The operation of a transaction. -/
def decode (t : Transaction) : Except DecodeError Instr :=
  match t.port with
  | .op =>
    match t.bytes with
    | [] => .error .empty
    | code :: r => decodeOp code r t.dev
  | .wire => decodeWire t.bytes t.dev
  | .control => .ok (decodeControl t.bytes t.dev)

/-- A transaction at the operation-code port without device answers. -/
def opTransaction (code : Byte) (r : List Byte) : Transaction := ⟨.op, code :: r, []⟩

/-- The message of one item. -/
def keyTransaction (k : Key) (val : Option (List Byte)) (dev : Option DevAnswer) : Transaction :=
  ⟨.control, itemText k val, dev.toList⟩

/-- The bytes of one slot. -/
def slotBytes (x : Slot) : List Byte := x.blk :: x.body

/-- The transaction of an operation, in the layout that `decodeOp` reads (DESIGN CHOICE, log entry 2). -/
def encode : Instr → Transaction
  | .ctlReset => opTransaction Opcode.ctlReset []
  | .ctlStart devOk => opTransaction Opcode.ctlStart [if devOk then 1 else 0]
  | .ctlStop => opTransaction Opcode.ctlStop []
  | .ctlDeverr => opTransaction Opcode.ctlDeverr []
  | .cfgWrite reg value => opTransaction Opcode.cfgWrite (reg :: shortBytes value)
  | .cfgRead reg => opTransaction Opcode.cfgRead [reg]
  | .cfgApply msg dev => ⟨.op, Opcode.cfgApply :: msg, dev⟩
  | .sbPush queue v => opTransaction Opcode.sbPush (queueByte queue :: v.flatMap sampleBytes)
  | .sbPull queue => opTransaction Opcode.sbPull [queueByte queue]
  | .sbEnd queue => opTransaction Opcode.sbEnd [queueByte queue]
  | .sbWaitfill queue n => opTransaction Opcode.sbWaitfill (queueByte queue :: shortBytes n)
  | .sbQueued queue => opTransaction Opcode.sbQueued [queueByte queue]
  | .decProcess x => opTransaction Opcode.decProcess (sampleBytes x)
  | .intProcess v => opTransaction Opcode.intProcess (v.flatMap sampleBytes)
  | .dspReset half => opTransaction Opcode.dspReset [halfByte half]
  | .mixFs4 x => opTransaction Opcode.mixFs4 (sampleBytes x)
  | .rxwStep now wall => opTransaction Opcode.rxwStep (leBytes 8 now.toNat ++ wallBytes wall)
  | .rxAdopt => opTransaction Opcode.rxAdopt []
  | .rxSample x wall => opTransaction Opcode.rxSample (sampleBytes x ++ wallBytes wall)
  | .packFrame wall => opTransaction Opcode.packFrame (wallBytes wall)
  | .crc32 bytes => opTransaction Opcode.crc32 bytes
  | .netRecv d => opTransaction Opcode.netRecv d
  | .txAdopt => opTransaction Opcode.txAdopt []
  | .txRetire => opTransaction Opcode.txRetire []
  | .unpackExpand bodies b => opTransaction Opcode.unpackExpand ((b - 1) :: bodies.flatten)
  | .fecEncode data m => opTransaction Opcode.fecEncode (m :: data.flatten)
  | .fecDecode slots => opTransaction Opcode.fecDecode (slots.flatMap slotBytes)
  | .netSend now => opTransaction Opcode.netSend (leBytes 8 now.toNat)
  | .blkMeta fidx rsv body => ⟨.wire, blockBytes fidx 0 rsv body, []⟩
  | .blkSample fidx b rsv body => ⟨.wire, blockBytes fidx (b.setWidth 8) rsv body, []⟩
  | .blkParity fidx b rsv body => ⟨.wire, blockBytes fidx (0x80 ||| b.setWidth 8) rsv body, []⟩
  | .keyTxdelay val => keyTransaction .txdelay val none
  | .keyFecblk val => keyTransaction .fecblk val none
  | .keyDecim val => keyTransaction .decim val none
  | .keyInterp val => keyTransaction .interp val none
  | .keyFcpos val => keyTransaction .fcpos val none
  | .keyFreq val dev => keyTransaction .freq val dev
  | .keySrate val dev => keyTransaction .srate val dev
  | .keyPpmp val dev => keyTransaction .ppmp val dev
  | .keyPpmn val dev => keyTransaction .ppmn val dev
  | .keyAgc val dev => keyTransaction .agc val dev
  | .keyAntbias val dev => keyTransaction .antbias val dev
  | .keyGain val dev => keyTransaction .gain val dev
  | .keyLgain val dev => keyTransaction .lgain val dev
  | .keyMgain val dev => keyTransaction .mgain val dev
  | .keyVgain val dev => keyTransaction .vgain val dev
  | .keyV1gain val dev => keyTransaction .v1gain val dev
  | .keyV2gain val dev => keyTransaction .v2gain val dev
  | .keyBwfilter val dev => keyTransaction .bwfilter val dev
  | .keyBw val dev => keyTransaction .bw val dev
  | .keyExtamp val dev => keyTransaction .extamp val dev
  | .keyLagc val dev => keyTransaction .lagc val dev
  | .keyMagc val dev => keyTransaction .magc val dev
  | .keyPwidle val dev => keyTransaction .pwidle val dev
  | .keyBlklen val dev => keyTransaction .blklen val dev
  | .keyPower val dev => keyTransaction .power val dev
  | .keyDfp val dev => keyTransaction .dfp val dev
  | .keyDfn val dev => keyTransaction .dfn val dev
  | .keyFile val dev => keyTransaction .file val dev

/-- The transaction of a table word `w` of `nbits` bits (bit 0 the lowest bit of the first byte), every bit above them 0:
8 bits are an operation code, 32 bits the header of a block, any other width the text of a key. -/
def tableTransaction (nbits w : Nat) : Transaction :=
  if nbits = 8 then ⟨.op, leBytes 1 w, []⟩
  else if nbits = 32 then ⟨.wire, leBytes 4 w ++ List.replicate Config.bodyLen 0, []⟩
  else ⟨.control, leBytes (nbits / 8) w, []⟩

/-- The instruction the decoder reads from a word of spec/opcode_table.json. -/
def decodeTableWord (nbits w : Nat) : Option Instr := (decode (tableTransaction nbits w)).toOption

end Sys2Proof
end

