-- ==== Sys2Proof/Machine/Ops.lean ====
section
/-! DEFINITION. The shared operations of the block: the outcome of an operation, raising an error kind (rule R340), the sample
buffer primitives (rules R130 to R137), the accesses to `FB` (rule R60), the window as a set of entries (rules R21, R205). -/

namespace Sys2Proof.Machine

/-- Why an operation gives no next state of its own: it is not enabled, or it stops. -/
inductive Halt where
  /-- Not enabled: its agent waits (rules R133, R135, R171). -/
  | noStep
  /-- The spec's `refuse` (rule R10). -/
  | refuse (r : Refusal)
deriving DecidableEq, Repr

/-- The state with the value an operation returns at its port. -/
def State.ret (s : State) (r : Result) : State := { s with io := { s.io with result := r } }

/-- The outcome of an operation offered in state `s` that returns `r`. An operation that is not enabled leaves the state as it
is and its agent waits (rule R355; log entry 3). -/
def finish (s : State) (r : Result) (o : Except Halt State) : Host.Outcome State Fault Refusal :=
  match o with
  | .ok t => .next (t.ret r)
  | .error .noStep => .next (s.ret .noStep)
  | .error (.refuse x) => .refused x

/-- The outcome of an internal operation offered alone: in `Stopped`, which accepts the last column of rule R305 only, it is not
enabled (rule R344; log entry 31). -/
def unlessStopped (s : State) (o : Host.Outcome State Fault Refusal) : Host.Outcome State Fault Refusal :=
  if s.ctl.lifecycle = .stopped then .next (s.ret .noStep) else o

/-! ### Raising an error kind -/

/-- The code of an error kind (rule R330). -/
def ErrorEvent.code : ErrorEvent → Nat
  | .configParse => 1
  | .deviceError => 3
  | .bufferOverrun _ => 4
  | .frameLoss _ => 5
  | .crcFailure _ => 6
  | .insufficientBlocks _ => 7
  | .protocolLength => 8
  | .protocolHeader => 8
  | .metaInvalid _ => 9

/-- The counter of an error kind (rules R43, R330, column "recorded"): step (1) of rule R340. -/
def Counters.record (c : Counters) : ErrorEvent → Counters
  | .configParse => c
  | .deviceError => c
  | .bufferOverrun _ => { c with overrun := c.overrun + 1 }
  | .frameLoss _ => { c with lost := c.lost + 1 }
  | .crcFailure _ => { c with crc := c.crc + 1 }
  | .insufficientBlocks _ => { c with insuff := c.insuff + 1 }
  | .protocolLength => { c with proto := c.proto + 1 }
  | .protocolHeader => { c with proto := c.proto + 1 }
  | .metaInvalid _ => { c with badMeta := c.badMeta + 1 }

/-- `raise K(info)` (rule R340): the kind's counter is incremented and the trace takes `(code, info)`. The local recovery (2) and
the continuation (3) stand in the operation that raises: there is no handler, nothing is saved and no mode changes. There is
no return operation either (rule R344): the next operation of any agent proceeds from the state this leaves. -/
def raise (e : ErrorEvent) (s : State) : State :=
  { s with cnt := s.cnt.record e, io := { s.io with errors := s.io.errors ++ [e] } }

/-! ### Sample buffers -/

/-- `queued_samples(q)` (rule R22): samples, not vectors. -/
def SampleQueue.samples (q : SampleQueue) : Nat := (q.vecs.map List.length).sum

/-- The overrun threshold `10 · P.SRATE` in samples (rule R136). -/
def overrunThreshold (s : State) : Nat := Config.overrunFactor * s.cfg.pending.srate.toNat

/-- `OVERRUN_CHECK(q)` (rule R136): one warning for each upward crossing, re-armed at or under the threshold. -/
def overrunCheck (q : QueueId) (s : State) : State :=
  let x := s.queue q
  if x.samples > overrunThreshold s then
    if x.overLatch then s else raise (.bufferOverrun q) (s.setQueue q { x with overLatch := true })
  else s.setQueue q { x with overLatch := false }

/-- `OVERRUN_CHECK(q)` behind a pull: the latch is re-armed at or under the threshold, and nothing is raised (rules R133, R136,
R330; log entry 12). -/
def overrunRearm (q : QueueId) (s : State) : State :=
  let x := s.queue q
  s.setQueue q { x with overLatch := x.overLatch && decide (x.samples > overrunThreshold s) }

/-- A sample that a device of `width` bytes for each component can deliver (rule R131). -/
def Sample.fitsWidth (width : Byte) (x : Sample) : Bool :=
  if width = 1 then
    decide (-128 ≤ x.i.toInt) && decide (x.i.toInt ≤ 127) && decide (-128 ≤ x.q.toInt) && decide (x.q.toInt ≤ 127)
  else true

/-- The capacity condition of rule R130. -/
def hasRoom (s : State) (q : QueueId) (v : List Sample) : Bool :=
  match s.params.sbCap with
  | none => true
  | some cap => decide ((s.queue q).samples + v.length ≤ cap)

/-- `SB.PUSH q, v` (rule R132): refused after the end in every lifecycle state, enabled in `Streaming` only (log entries 10 and
11). The width is checked at the device's queue only (rule R131). -/
def pushVec (q : QueueId) (v : List Sample) (s : State) : Except Halt State :=
  if (s.queue q).ended then .error (.refuse (.pushAfterEnd q))
  else if s.ctl.lifecycle ≠ .streaming then .error .noStep
  else if q = .rxq ∧ ¬ v.all (Sample.fitsWidth s.cfg.pending.bps) then .error (.refuse .sampleOutOfRange)
  else if ¬ hasRoom s q v then .error .noStep
  else if v.isEmpty then .ok s
  else .ok (overrunCheck q (s.setQueue q { s.queue q with vecs := (s.queue q).vecs ++ [v] }))

/-- The `Created` cell of rule R305 for the device's `SB.PULL TXQ` and `SB.WAITFILL TXQ`: no step unless `stop_flag`
(decision D24; log entry 24). -/
def notStarted (q : QueueId) (s : State) : Bool :=
  decide (q = .txq) && decide (s.ctl.lifecycle = .created) && !s.ctl.stopFlag

/-- `SB.PULL q` (rules R133, R305): the state after it and the vector, or none where the consumer waits. -/
def pullVec (q : QueueId) (s : State) : Option (State × List Sample) :=
  if notStarted q s then none
  else
    match (s.queue q).vecs with
    | v :: rest => some (overrunRearm q (s.setQueue q { s.queue q with vecs := rest }), v)
    | [] => if (s.queue q).ended || s.ctl.stopFlag then some (s, []) else none

/-- `SB.END q` (rule R134). -/
def endQueue (q : QueueId) (s : State) : State := s.setQueue q { s.queue q with ended := true }

/-- When `SB.WAITFILL q, n` is enabled (rules R135, R305). -/
def filled (q : QueueId) (n : Nat) (s : State) : Bool :=
  !notStarted q s && (decide (n ≤ (s.queue q).samples) || (s.queue q).ended || s.ctl.stopFlag)

/-! ### Accesses to `FB` -/

/-- `MemRead(FB, (blk, off), n)` with the bounds of rule R60. -/
def fbRead (m : Memory) (blk off n : Nat) : Except Halt (List Byte) :=
  if inBody blk off n then .ok (m.read (bodyAddr blk off) n) else .error (.refuse .outsideStore)

/-- `MemWrite(FB, (blk, off), len, bs)` with the bounds of rule R60. -/
def fbWrite (m : Memory) (blk off : Nat) (bs : List Byte) : Except Halt Memory :=
  if inBody blk off bs.length then .ok (m.write (bodyAddr blk off) bs) else .error (.refuse .outsideStore)

/-- Whole bodies written from block `blk` on, one `MemWrite` each. -/
def fbWriteBodies (m : Memory) (blk : Nat) : List (List Byte) → Except Halt Memory
  | [] => .ok m
  | b :: r => (fbWrite m blk 0 b).bind fun m' => fbWriteBodies m' (blk + 1) r

/-- The body of block `blk` of a store of bodies. -/
def bodyOf (m : Memory) (blk : Nat) : List Byte := m.read (bodyAddr blk 0) Config.bodyLen

/-! ### The window -/

/-- The entry of `WIN` with `fidx = f` (rule R21). -/
def winFind (w : List WinEntry) (f : U16) : Option WinEntry := w.find? fun e => e.fidx == f

/-- `WIN` without the entry of frame `f`. -/
def winDrop (w : List WinEntry) (f : U16) : List WinEntry := w.filter fun e => e.fidx != f

/-- `WIN` with entry `e` in the place of the entry of its frame, kept in rising order of `fidx`. -/
def winPut (w : List WinEntry) (e : WinEntry) : List WinEntry :=
  (w.filter fun x => decide (x.fidx.toNat < e.fidx.toNat)) ++ e :: w.filter fun x => decide (e.fidx.toNat < x.fidx.toNat)

/-- A new entry: count 0, nothing present (rule R200 line 8). -/
def WinEntry.empty (f : U16) : WinEntry where
  fidx := f
  present := []
  body := []
  count := 0

/-- A block index put into a rising list that does not hold it. -/
def insertIndex (b : Nat) (l : List Nat) : List Nat :=
  (l.filter fun x => decide (x < b)) ++ b :: l.filter fun x => decide (b < x)

/-- Line 10 of rule R200: a body into slot `b`, which is not populated. -/
def WinEntry.store (e : WinEntry) (b : Nat) (body : List Byte) : WinEntry :=
  { e with present := insertIndex b e.present, body := e.body.write (bodyAddr b 0) body, count := e.count + 1 }

/-- `MemWrite(WIN, (fidx, b, 0), 508, body)` with the bounds of rule R60, for the tracked frame of entry `e`. -/
def winWrite (e : WinEntry) (b : Nat) (body : List Byte) : Except Halt WinEntry :=
  if inBody b 0 body.length then .ok (e.store b body) else .error (.refuse .outsideStore)

end Sys2Proof.Machine
end

