-- ==== Sys2Proof/Machine/Buffer.lean ====
section
/-! DEFINITION. The sample buffer operations `SB.PUSH`, `SB.PULL`, `SB.END`, `SB.WAITFILL`, `SB.QUEUED` (40_sample_buffer). -/

namespace Sys2Proof.Machine

/-- `SB.PUSH q, v` (rules R132, R305): on `RXQ` ignored outside `Streaming`. -/
def execSbPush (queue : QueueId) (v : List Sample) (s : State) : Host.Outcome State Fault Refusal :=
  if queue = .rxq ∧ s.ctl.lifecycle ≠ .streaming then .next (s.ret .ignored)
  else finish s .done (pushVec queue v s)

/-- `SB.PULL q` (rules R133, R305): with the queue empty, not ended and no stop flag the consumer waits, and so does the device on
`TXQ` in `Created`. -/
def execSbPull (queue : QueueId) (s : State) : Host.Outcome State Fault Refusal :=
  match pullVec queue s with
  | some (t, v) => .next (t.ret (.vector v))
  | none => .next (s.ret .noStep)

/-- `SB.END q` (rule R134), in every lifecycle state (conflict C14). -/
def execSbEnd (queue : QueueId) (s : State) : Host.Outcome State Fault Refusal :=
  .next ((endQueue queue s).ret .done)

/-- `SB.WAITFILL q, n` (rules R135, R305): no effect; the consumer waits while it is not enabled. -/
def execSbWaitfill (queue : QueueId) (n : Nat) (s : State) : Host.Outcome State Fault Refusal :=
  .next (s.ret (if filled queue n s then .done else .noStep))

/-- `SB.QUEUED q → u64` (rule R137). -/
def execSbQueued (queue : QueueId) (s : State) : Host.Outcome State Fault Refusal :=
  .next (s.ret (.value (BitVec.ofNat 64 (s.queue queue).samples)))

end Sys2Proof.Machine
end

