-- ==== Sys2Proof/Machine/Flags.lean ====
section
/-! DEFINITION. The status registers of rule R41: the codes of the lifecycle registers, the `FLAGS` register, the counters and
the last-meta registers as `CFG.READ` returns them, and the process exit code of entry U6. -/

namespace Sys2Proof.Machine

/-- The code of `LIFECYCLE` (rule R27). -/
def Lifecycle.code : Lifecycle → Nat
  | .created => 0
  | .streaming => 1
  | .draining => 2
  | .stopped => 3

/-- The code of `STOP_CAUSE` (rule R27). -/
def StopCause.code : StopCause → Nat
  | .none => 0
  | .stopSignal => 1
  | .deviceError => 2
  | .startupError => 3
  | .endOfStream => 4

/-- The process exit code (rules R98(g), R301, R303, R304; entry U6): 0 after causes 1 and 4, 1 after cause 3, the open
`EXIT_DEVERR` after cause 2, none while the process runs. Cause 2 is a DESIGN CHOICE (log entry 7): entry U6 conflicts with itself
there, for one clause maps "causes 1, 2 and 4 to exit code 0" and another leaves the code after a device error open; rules R7,
R304, decision D24 and entry N14 leave it open, and the model follows them. The free value takes in 0. One byte holds a code:
DESIGN CHOICE, the spec gives it no width (log entry 7). -/
def StopCause.exitCode : StopCause → Option Byte
  | .none => Option.none
  | .stopSignal => some 0
  | .deviceError => some Config.exitDevErr
  | .startupError => some 1
  | .endOfStream => some 0

/-- A bit of `FLAGS`. -/
def flagBit (n : Nat) (b : Bool) : Nat := if b then 2 ^ n else 0

/-- `FLAGS`, register 0x15 (rule R41). -/
def flagsRegister (s : State) : Nat :=
  flagBit 0 s.rx.promoted + flagBit 1 s.rx.emitting + flagBit 2 s.tx.synced + flagBit 3 s.rxq.overLatch +
    flagBit 4 s.txq.overLatch + flagBit 5 s.rxq.ended + flagBit 6 s.txq.ended + flagBit 7 s.ctl.stopFlag

/-- The status registers of rule R41, by number. -/
def readStatus (s : State) (reg : Byte) : Option Nat :=
  match reg.toNat with
  | 0x10 => some s.ctl.lifecycle.code
  | 0x11 => some s.ctl.stopCause.code
  | 0x12 => some s.cfg.seqP.toNat
  | 0x13 => some s.cfg.seqRx.toNat
  | 0x14 => some s.cfg.seqTx.toNat
  | 0x15 => some (flagsRegister s)
  | 0x18 => some s.rx.frameCtr.toNat
  | 0x19 => some s.rx.accCount.toNat
  | 0x1A => some s.rx.emitIdx.toNat
  | 0x1B => some s.rxq.samples
  | 0x1C => some s.txq.samples
  | 0x20 => some s.tx.base.toNat
  | 0x21 => some s.tx.win.length
  | 0x28 => some s.cnt.proto.toNat
  | 0x29 => some s.cnt.late.toNat
  | 0x2A => some s.cnt.dup.toNat
  | 0x2B => some s.cnt.lost.toNat
  | 0x2C => some s.cnt.insuff.toNat
  | 0x2D => some s.cnt.crc.toNat
  | 0x2E => some s.cnt.badMeta.toNat
  | 0x2F => some s.cnt.ok.toNat
  | 0x30 => some s.cnt.overrun.toNat
  | 0x31 => some s.cnt.framesSent.toNat
  | 0x32 => some s.cnt.dgramsSent.toNat
  | 0x38 => some s.tx.last.freqKHz.toNat
  | 0x39 => some s.tx.last.srate.toNat
  | 0x3A => some s.tx.last.bps.toNat
  | 0x3B => some s.tx.last.ebits.toNat
  | 0x3C => some s.tx.last.ndata.toNat
  | 0x3D => some s.tx.last.nfec.toNat
  | 0x3E => some s.tx.last.tsSec.toNat
  | 0x3F => some s.tx.last.tsUsec.toNat
  | 0x40 => some (if s.tx.last.valid then 1 else 0)
  | _ => none

/-- What `CFG.READ reg` finds: `P[reg]`, the status register, or nothing (rule R294). -/
def readRegister (s : State) (reg : Byte) : Option Nat :=
  match CfgReg.ofCode reg with
  | some r => some (s.cfg.pending.read r)
  | none => readStatus s reg

end Sys2Proof.Machine
end

