-- ==== Sys2Proof/Machine/Crc.lean ====
section
/-! DEFINITION. `CRC32` (rule R178). -/

namespace Sys2Proof.Machine

/-- One bit of the reflected CRC: a logical right shift, with the polynomial where the bit shifted out is 1 (rule R178). -/
def crcBit (c : U32) : U32 := if c.getLsbD 0 then (c >>> 1) ^^^ Config.crcPoly else c >>> 1

/-- `n` bits. -/
def crcBits : Nat → U32 → U32
  | 0, c => c
  | n + 1, c => crcBits n (crcBit c)

/-- One byte, into the low 8 bits, then 8 bits (rule R178). -/
def crcByte (c : U32) (b : Byte) : U32 := crcBits 8 (c ^^^ b.setWidth 32)

/-- `CRC32 bytes`: initial and final XOR 0xFFFFFFFF (rule R178). -/
def crc32 (bs : List Byte) : U32 := bs.foldl crcByte 0xFFFFFFFF ^^^ 0xFFFFFFFF

/-- `CRC32` as an operation: pure, no errors (rule R178). -/
def execCrc32 (bytes : List Byte) (s : State) : Host.Outcome State Fault Refusal :=
  .next (s.ret (.crc (crc32 bytes)))

end Sys2Proof.Machine
end

