-- ==== Sys2Proof/Machine/Dsp.lean ====
section
/-! DEFINITION. The Fs/4 mixer, the decimator, the interpolator and their reset (41_dsp, rules R140 to R151). -/

namespace Sys2Proof.Machine

/-- `Σ h[i] · d[i]` over one component, exact (rule R143). -/
def dot (taps : List Int) (d : List Int) : Int := (List.zipWith (fun h x => h * x) taps d).sum

/-- `sat16(acc >> S)`: the arithmetic shift is a floor (rules R8, R143). -/
def scaled (p : Params) (acc : Int) : Int := sat16 (acc / 2 ^ p.hbShift)

/-- The mixed pair at phase `phase` (the tables of rule R142): times 1, −j, −1, +j for infra, the conjugates for supra. -/
def mixed (fcpos : Byte) (phase : BitVec 2) (x : Pair) : Pair :=
  match fcpos.toNat, phase.toNat with
  | 0, 1 => ⟨x.q, -x.i⟩
  | 0, 2 => ⟨-x.i, -x.q⟩
  | 0, 3 => ⟨-x.q, x.i⟩
  | 1, 1 => ⟨-x.q, x.i⟩
  | 1, 2 => ⟨-x.i, -x.q⟩
  | 1, 3 => ⟨x.q, -x.i⟩
  | _, _ => x

/-- `MIX.FS4 x` on the Rx half (rule R142): the phase advances for every `FCPOS`. -/
def mixFs4 (b : Bank) (x : Sample) (h : RxHalf) : RxHalf × Pair :=
  ({ h with mixPhase := h.mixPhase + 1 }, mixed b.fcpos h.mixPhase x.toPair)

/-- `HB_DEC_STEP(s, x)` (rule R143): an output on every second input. -/
def decStep (p : Params) (st : DecStage) (x : Pair) : DecStage × Option Pair :=
  let d := (x :: st.d).take p.hbTaps.length
  let st' : DecStage := ⟨d, !st.par⟩
  if st'.par then (st', none)
  else (st', some ⟨scaled p (dot p.hbTaps (d.map Pair.i)), scaled p (dot p.hbTaps (d.map Pair.q))⟩)

/-- `DEC_CASCADE` over the first `n` of the stages (rule R144). -/
def decCascade (p : Params) : Nat → List DecStage → Pair → List DecStage × Option Pair
  | 0, sts, v => (sts, some v)
  | _ + 1, [], v => ([], some v)
  | n + 1, st :: sts, v =>
    match decStep p st v with
    | (st', none) => (st' :: sts, none)
    | (st', some y) =>
      let r := decCascade p n sts y
      (st' :: r.1, r.2)

/-- `DEC.PROCESS x` on the Rx half (rule R146). -/
def decProcess (p : Params) (b : Bank) (x : Sample) (h : RxHalf) : RxHalf × Option Sample :=
  if b.decim = 0 then (h, some x)
  else
    let m := mixFs4 b x h
    let c := decCascade p b.decim.toNat m.1.dec m.2
    ({ m.1 with dec := c.1 }, c.2.map Pair.toSample)

/-- One step of an interpolating stage on an element of the zero-stuffed stream (rule R149). -/
def intPush (p : Params) (d : List Sample) (u : Sample) : List Sample × Sample :=
  let d' := (u :: d).take p.hbTaps.length
  let taps := p.hbTaps.map fun h => 2 * h
  (d', Pair.toSample ⟨scaled p (dot taps (d'.map fun x => x.i.toInt)), scaled p (dot taps (d'.map fun x => x.q.toInt))⟩)

/-- A stage on a whole vector: for each input the sample first, then the stuffed zero (rules R148, R149). -/
def intStage (p : Params) : List Sample → List Sample → List Sample × List Sample
  | d, [] => (d, [])
  | d, x :: xs =>
    let a := intPush p d x
    let b := intPush p a.1 Sample.zero
    let r := intStage p b.1 xs
    (r.1, a.2 :: b.2 :: r.2)

/-- The first `n` interpolating stages, stage 0 first (rule R148). -/
def intCascade (p : Params) : Nat → List (List Sample) → List Sample → List (List Sample) × List Sample
  | 0, sts, v => (sts, v)
  | _ + 1, [], v => ([], v)
  | n + 1, d :: sts, v =>
    let a := intStage p d v
    let r := intCascade p n sts a.2
    (a.1 :: r.1, r.2)

/-- `INT.PROCESS v` (rule R148): the state after it and the output vector. -/
def intProcess (v : List Sample) (s : State) : State × List Sample :=
  let r := intCascade s.params s.cfg.activeTx.interp.toNat s.tx.intp v
  ({ s with tx := { s.tx with intp := r.1 } }, r.2)

/-- `DSP.RESET rx` (rule R150). -/
def dspResetRx (p : Params) (h : RxHalf) : RxHalf := { h with mixPhase := 0, dec := decReset p }

/-- `DSP.RESET tx` (rule R150). -/
def dspResetTx (p : Params) (t : TxHalf) : TxHalf := { t with intp := intReset p }

/-- `DEC.PROCESS` as an operation (rule R146), not enabled in `Stopped` (rule R344; in `Created` log entry 31). -/
def execDecProcess (x : Sample) (s : State) : Host.Outcome State Fault Refusal :=
  let r := decProcess s.params s.cfg.activeRx x s.rx
  unlessStopped s (.next (({ s with rx := r.1 }).ret (.sample r.2)))

/-- `INT.PROCESS` as an operation (rule R148), not enabled in `Stopped` (rule R344; in `Created` log entry 31). -/
def execIntProcess (v : List Sample) (s : State) : Host.Outcome State Fault Refusal :=
  let r := intProcess v s
  unlessStopped s (.next (r.1.ret (.vector r.2)))

/-- `DSP.RESET` as an operation (rule R150), not enabled in `Stopped` (rule R344; in `Created` log entry 31). -/
def execDspReset (half : Half) (s : State) : Host.Outcome State Fault Refusal :=
  match half with
  | .rx => unlessStopped s (.next (({ s with rx := dspResetRx s.params s.rx }).ret .done))
  | .tx => unlessStopped s (.next (({ s with tx := dspResetTx s.params s.tx }).ret .done))

/-- `MIX.FS4` as an operation (rule R142), not enabled in `Stopped` (rule R344; in `Created` log entry 31). -/
def execMixFs4 (x : Sample) (s : State) : Host.Outcome State Fault Refusal :=
  let r := mixFs4 s.cfg.activeRx x s.rx
  unlessStopped s (.next (({ s with rx := r.1 }).ret (.pair r.2)))

end Sys2Proof.Machine
end

