-- ==== Sys2Proof/Machine/Fec.lean ====
section
/-! DEFINITION. The Cauchy-MDS erasure codec over GF(2^8) (44_fec, rules R240 to R252): the field, the coefficients,
`FEC.ENCODE` and `FEC.DECODE`. -/

namespace Sys2Proof.Machine

/-- The low eight bits of the field polynomial: what `x^8` reduces to (rule R241: 0x4D for 0x14D). -/
def reduction (p : Params) : Byte := p.gfPoly.setWidth 8

/-- The bit-serial product loop of rule R241 for `n` more bits: `acc` the product so far. -/
def gmulLoop (red : Byte) : Nat → Byte → Byte → Byte → Byte
  | 0, _, _, acc => acc
  | n + 1, a, b, acc =>
    gmulLoop red n (if a.getLsbD 7 then (a <<< 1) ^^^ red else a <<< 1) (b >>> 1) (if b.getLsbD 0 then acc ^^^ a else acc)

/-- `a ⊗ b` (rule R241). -/
def gmul (p : Params) (a b : Byte) : Byte := gmulLoop (reduction p) 8 a b 0

/-- The product of `acc` and the squares `a^2, a^4, …` of `a`, `n` of them. -/
def gpowSquares (p : Params) : Nat → Byte → Byte → Byte
  | 0, _, acc => acc
  | n + 1, a, acc => gpowSquares p n (gmul p a a) (gmul p acc (gmul p a a))

/-- `inv(a)` (rule R241), computed as `a^254 = a^2 · a^4 · … · a^128`; `inv(0)` is undefined. -/
def ginv (p : Params) (a : Byte) : Byte := if a = 0 then Config.invZero else gpowSquares p 7 a 1

/-- `C(i, j) = inv(x_i ⊕ y_j)` with `x_i = 128 + i`, `y_j = j` (rule R244). -/
def cauchy (p : Params) (i j : Nat) : Byte := ginv p (BitVec.ofNat 8 (128 + i) ^^^ BitVec.ofNat 8 j)

/-- Bytewise exclusive-or of two bodies. -/
def xorBytes (a b : List Byte) : List Byte := List.zipWith (fun x y => x ^^^ y) a b

/-- A body times a coefficient, byte position by byte position (rule R246). -/
def scaleBytes (p : Params) (c : Byte) (b : List Byte) : List Byte := b.map (gmul p c)

/-- A body of zeros. -/
def zeroBody : List Byte := List.replicate Config.bodyLen 0

/-- `XOR over (j, d_j) of C(i, j) ⊗ d_j`, in every byte position at once, on top of `acc` (rules R246, R248). -/
def combine (p : Params) (i : Nat) : List (Nat × List Byte) → List Byte → List Byte
  | [], acc => acc
  | (j, d) :: r, acc => combine p i r (xorBytes acc (scaleBytes p (cauchy p i j) d))

/-- Bodies with their block indices, from `j` on. -/
def indexed : Nat → List (List Byte) → List (Nat × List Byte)
  | _, [] => []
  | j, d :: r => (j, d) :: indexed (j + 1) r

/-- `parity[i]` of the data bodies (rule R246). -/
def parityBody (p : Params) (data : List (List Byte)) (i : Nat) : List Byte := combine p i (indexed 0 data) zeroBody

/-- `FEC.ENCODE data, m` (rule R246). -/
def fecEncode (p : Params) (data : List (List Byte)) (m : Nat) : List (List Byte) :=
  (List.range m).map (parityBody p data)

/-- A row of the system `A · X = S` (rule R248): the coefficients of the unknown bodies, and the syndrome body. -/
structure FecRow where
  coef : List Byte
  body : List Byte
deriving DecidableEq, Repr

/-- A row scaled by a coefficient. -/
def FecRow.scale (p : Params) (c : Byte) (r : FecRow) : FecRow :=
  ⟨r.coef.map (gmul p c), scaleBytes p c r.body⟩

/-- A row with `f ⊗ pivot` added to it, `f` its coefficient in column `c`. -/
def FecRow.eliminate (p : Params) (c : Nat) (pivot r : FecRow) : FecRow :=
  let f := byteAt r.coef c
  ⟨xorBytes r.coef (pivot.coef.map (gmul p f)), xorBytes r.body (scaleBytes p f pivot.body)⟩

/-- The first row whose coefficient in column `c` is not 0, and the other rows. -/
def pickPivot (c : Nat) : List FecRow → Option (FecRow × List FecRow)
  | [] => none
  | r :: rest =>
    if byteAt r.coef c ≠ 0 then some (r, rest)
    else (pickPivot c rest).map fun x => (x.1, r :: x.2)

/-- The Gaussian elimination of rule R248 from column `c` on, `n` columns to go: `solved` holds the rows already scaled, one a
column, `todo` the rows without a column. None where a column has no pivot. -/
def eliminate (p : Params) : Nat → Nat → List FecRow → List FecRow → Option (List FecRow)
  | 0, _, solved, _ => some solved
  | n + 1, c, solved, todo =>
    match pickPivot c todo with
    | none => none
    | some (r, rest) =>
      let pivot := r.scale p (ginv p (byteAt r.coef c))
      eliminate p n (c + 1) (solved.map (FecRow.eliminate p c pivot) ++ [pivot]) (rest.map (FecRow.eliminate p c pivot))

/-- The solution bodies `X` of a square system (rule R248); the system is invertible (rule R245). -/
def solveSystem (p : Params) (rows : List FecRow) : List (List Byte) :=
  match eliminate p rows.length 0 [] rows with
  | some done => done.map FecRow.body
  | none => Config.singularSolution rows.length

/-- `E`: the missing data blocks, ascending (rule R248). -/
def missingData (present : List Nat) : List Nat :=
  (List.range Config.dataBlocks).filter fun j => !present.contains j

/-- `Pp`: the `t` smallest present parity blocks, ascending (rule R248). -/
def chosenParity (present : List Nat) (t : Nat) : List Nat := (present.filter fun x => decide (128 ≤ x)).take t

/-- The present data blocks with their bodies. -/
def presentData (e : WinEntry) : List (Nat × List Byte) :=
  ((List.range Config.dataBlocks).filter fun j => e.present.contains j).map fun j => (j, bodyOf e.body j)

/-- Row `r` of the system: `A[r][c] = C(Pp[r] − 128, E[c])` and `S[r]` (rule R248). -/
def systemRow (p : Params) (e : WinEntry) (missing : List Nat) (pp : Nat) : FecRow where
  coef := missing.map (cauchy p (pp - 128))
  body := combine p (pp - 128) (presentData e) (bodyOf e.body pp)

/-- The body solved for block `j`, where `j` is one of the missing blocks. -/
def solvedFor (j : Nat) : List Nat → List (List Byte) → Option (List Byte)
  | m :: ms, x :: xs => if m = j then some x else solvedFor j ms xs
  | _, _ => none

/-- `FEC.DECODE e` for an entry of at least 128 slots (rule R248): present data blocks as received, missing ones solved. -/
def fecDecode (p : Params) (e : WinEntry) : List (List Byte) :=
  let missing := missingData e.present
  let solution := solveSystem p ((chosenParity e.present missing.length).map (systemRow p e missing))
  (List.range Config.dataBlocks).map fun j =>
    if e.present.contains j then bodyOf e.body j else (solvedFor j missing solution).getD []

/-- Whether every body that `FEC.DECODE e` reads, the present data blocks and the chosen parity blocks, lies inside the frame
(rule R60: blocks 0 to 254). -/
def fecReadsInside (e : WinEntry) : Bool :=
  (chosenParity e.present (missingData e.present).length).all fun b => inBody b 0 Config.bodyLen

/-- `FEC.DECODE e` of an entry of `WIN`, with the bounds of rule R60. -/
def winDecode (p : Params) (e : WinEntry) : Except Halt (List (List Byte)) :=
  if fecReadsInside e then .ok (fecDecode p e) else .error (.refuse .outsideStore)

/-- The entry that the slots of the operand of `FEC.DECODE` make. -/
def entryOfSlots : List Slot → WinEntry → WinEntry
  | [], e => e
  | x :: r, e => entryOfSlots r (e.store x.blk.toNat x.body)

/-- `FEC.ENCODE` as an operation (rule R246): the parity bodies, no state written. -/
def execFecEncode (data : List (List Byte)) (m : Byte) (s : State) : Host.Outcome State Fault Refusal :=
  .next (s.ret (.bodies (fecEncode s.params data m.toNat)))

/-- `FEC.DECODE` as an operation (rules R248, R249): the data bodies, or the report that fewer than 128 slots are populated. -/
def execFecDecode (slots : List Slot) (s : State) : Host.Outcome State Fault Refusal :=
  let e := entryOfSlots slots (WinEntry.empty 0)
  if e.count < Config.dataBlocks then .next (s.ret .insufficientBlocks)
  else .next (s.ret (.bodies (fecDecode s.params e)))

end Sys2Proof.Machine
end

