-- ==== Sys2Proof/Machine/Packer.lean ====
section
/-! DEFINITION. The frame packer: `RX.ADOPT`, `RX.SAMPLE`, `PACK.FRAME` (42_packer, rules R172 to R178). -/

namespace Sys2Proof.Machine

/-- At a frame boundary: no sample of the next frame stored, the previous frame sent (rule R172). -/
def atBoundary (s : State) : Bool := decide (s.rx.accCount = 0) && !s.rx.emitting

/-- Whether `RX.ADOPT` runs: at a frame boundary, with an update not yet adopted (rule R172). -/
def rxMustAdopt (s : State) : Bool := atBoundary s && decide (s.cfg.seqRx ≠ s.cfg.seqP)

/-- `RX.ADOPT` (rule R172): one atomic copy of `P`, the decimator reset where `DECIM` or `FCPOS` changed, the promotion. -/
def rxAdopt (s : State) : State :=
  let old := s.cfg.activeRx
  let new := s.cfg.pending
  let h := if new.decim ≠ old.decim ∨ new.fcpos ≠ old.fcpos then dspResetRx s.params s.rx else s.rx
  { s with
    cfg := { s.cfg with activeRx := new, seqRx := s.cfg.seqP }
    rx := { h with promoted := if 1 ≤ new.decim.toNat then true else h.promoted } }

/-- `B_eff` (rule R173). -/
def effectiveBps (b : Bank) (promoted : Bool) : Byte := if 1 ≤ b.decim.toNat ∨ promoted then 2 else b.bps

/-- `META_BUILD(A, B, R, wall)` (rule R177). -/
def metaBuild (b : Bank) (width : Byte) (r : Byte) (wall : Wall) : List Byte :=
  let head := leBytes 4 (b.freq.toNat / 1000) ++ leBytes 4 (b.srate >>> b.decim.toNat).toNat ++
    [width, b.ebits, 128, r] ++ leBytes 4 wall.sec.toNat ++ leBytes 4 wall.usec.toNat
  head ++ leBytes 4 (crc32 head).toNat ++ List.replicate 484 0

/-- The data bodies `FB[0 .. 127]` (rule R176). -/
def dataBodies (m : Memory) : List (List Byte) := (List.range Config.dataBlocks).map (bodyOf m)

/-- `PACK.FRAME wall` (rule R176). -/
def packFrame (wall : Wall) (s : State) : Except Halt State :=
  let r := s.cfg.activeRx.fecblk
  (fbWrite s.rx.fb 0 0 (metaBuild s.cfg.activeRx s.rx.frameBps r wall)).bind fun fb0 =>
    (fbWriteBodies fb0 Config.dataBlocks (fecEncode s.params (dataBodies fb0) r.toNat)).bind fun fb1 =>
      .ok { s with rx := { s.rx with fb := fb1, emitR := r, emitIdx := 0, emitting := true, accCount := 0 } }

/-- The start of `RX.SAMPLE` at `acc_count = 0`: the adoption where it is due, then the frame's width (rules R172 to R174). -/
def beginFrame (s : State) : State :=
  if s.rx.accCount = 0 then
    let t := if s.cfg.seqRx ≠ s.cfg.seqP then rxAdopt s else s
    { t with rx := { t.rx with frameBps := effectiveBps t.cfg.activeRx t.rx.promoted } }
  else s

/-- `RX.SAMPLE` from the decimator's output on: the sample into `FB` at the place of rule R61, then `PACK.FRAME` where the frame
is full (rules R174, R175). -/
def storeSample (y : Sample) (wall : Wall) (s : State) : Except Halt State :=
  let width := s.rx.frameBps.toNat
  let spb := samplesPerBlock width
  let n := s.rx.accCount.toNat
  let blk := 1 + n / spb
  let off := n % spb * (2 * width)
  (fbWrite s.rx.fb blk off (componentBytes width y.i)).bind fun fb1 =>
    (fbWrite fb1 blk (off + width) (componentBytes width y.q)).bind fun fb2 =>
      let t : State := { s with rx := { s.rx with fb := fb2, accCount := s.rx.accCount + 1 } }
      if t.rx.accCount.toNat = samplesPerFrame width then packFrame wall t else .ok t

/-- `RX.SAMPLE x, wall` (rule R174); not enabled while a frame is being sent (its precondition). The lifecycle
is tested by who performs it: the worker (rule R171), or `execRxSample` where it is offered alone. -/
def rxSample (x : Sample) (wall : Wall) (s : State) : Except Halt State :=
  if s.rx.emitting then .error .noStep
  else
    let t := beginFrame s
    let r := decProcess t.params t.cfg.activeRx x t.rx
    match r.2 with
    | none => .ok { t with rx := r.1 }
    | some y => storeSample y wall { t with rx := r.1 }

/-- `RX.ADOPT` as an operation: it copies only where the adoption rule allows (rules R31, R172; log entry
5), not in `Stopped` (rule R344; in `Created` log entry 31). -/
def execRxAdopt (s : State) : Host.Outcome State Fault Refusal :=
  unlessStopped s (if rxMustAdopt s then .next ((rxAdopt s).ret .done) else .next (s.ret .noStep))

/-- `RX.SAMPLE` as an operation (rule R174), not enabled in `Stopped` (rule R344; in `Created` log entry 31). -/
def execRxSample (x : Sample) (wall : Wall) (s : State) : Host.Outcome State Fault Refusal :=
  unlessStopped s (finish s .done (rxSample x wall s))

/-- `PACK.FRAME` as an operation: its precondition is a full frame (rule R176; log entry 5), and it is
not enabled in `Stopped` (rule R344; in `Created` log entry 31). -/
def execPackFrame (wall : Wall) (s : State) : Host.Outcome State Fault Refusal :=
  unlessStopped s
    (finish s .done (if s.rx.accCount.toNat = samplesPerFrame s.rx.frameBps.toNat then packFrame wall s else .error .noStep))

end Sys2Proof.Machine
end

