-- ==== Sys2Proof/Machine/Control.lean ====
section
/-! DEFINITION. Configuration, control channel and lifecycle: `CFG.WRITE`, `CFG.READ`, `CFG.APPLY`, `CTL.RESET`, `CTL.START`,
`CTL.STOP`, `CTL.DEVERR` (46_config_control). -/

namespace Sys2Proof.Machine

/-- The lifecycle states in which configuration is accepted (rules R293, R297, R305). -/
def configurable (s : State) : Bool := decide (s.ctl.lifecycle = .created ∨ s.ctl.lifecycle = .streaming)

/-- A new pending bank and one accepted update: `CFG_SEQ_P <- CFG_SEQ_P + 1` (rules R31, R293, R297 line 11). -/
def updatePending (b : Bank) (s : State) : State := { s with cfg := { s.cfg with pending := b, seqP := s.cfg.seqP + 1 } }

/-- `CFG.WRITE reg, value` (rule R293). -/
def execCfgWrite (reg : Byte) (value : Nat) (s : State) : Host.Outcome State Fault Refusal :=
  if ¬ configurable s then .next (s.ret (.outcome (.rejected .state)))
  else
    match CfgReg.ofCode reg with
    | none => .next (s.ret (.outcome (.rejected .unknown)))
    | some r =>
      let v := range r value
      if v.2.accepted then .next ((updatePending (s.cfg.pending.write r v.1) s).ret (.outcome v.2))
      else .next (s.ret (.outcome v.2))

/-- `CFG.READ reg` (rule R294): no side effect. -/
def execCfgRead (reg : Byte) (s : State) : Host.Outcome State Fault Refusal :=
  match readRegister s reg with
  | some v => .next (s.ret (.value (BitVec.ofNat 64 v)))
  | none => .next (s.ret (.outcome (.rejected .unknown)))

/-! ### A configuration message -/

/-- An item of a message, its class, and the device's answer if it is device-level (rule R298; none is the ideal device). -/
structure Item where
  text : List Byte
  cls : ItemClass
  answer : Option DevAnswer
deriving DecidableEq, Repr

/-- Whether an item is a known item of group `g`. -/
def Item.inGroup (it : Item) (g : KeyGroup) : Bool :=
  match it.cls.key with
  | some k => decide (k.group = g)
  | none => false

/-- The items of a message with their classes, the device-level items paired in message order with the device's answers
(rules R297 lines 2 and 4, R298; log entry 16). -/
def pairAnswers : List (List Byte) → List DevAnswer → List Item
  | [], _ => []
  | it :: r, dev =>
    let bare : Item := ⟨it, classify it, none⟩
    if bare.inGroup .device then { bare with answer := dev.head? } :: pairAnswers r dev.tail
    else bare :: pairAnswers r dev

/-- The outcome the device gives an item (rule R298): the ideal device answers `ok`. -/
def deviceOutcome (a : Option DevAnswer) : CfgOutcome :=
  match a with
  | none => .ok
  | some x =>
    match x.outcome with
    | .ok => .ok
    | .clamped => .clamped
    | .rejected t => .rejected (.device t)

/-- What the device returns for `get_frequency()` or `get_sample_rate()` after an item of value `v`; the ideal device returns `v`
(rule R298). -/
def readBack (r : CfgReg) (v : Nat) (a : Option DevAnswer) : Nat :=
  match a with
  | none => v
  | some x => if r = .freq then x.frequency.toNat else x.sampleRate.toNat

/-- `DEVICE_KEY(item, dev)` (rule R298): the outcome, and the register with its new value if the key has one and the outcome
is no rejection. -/
def deviceKey (k : Key) (v : Nat) (a : Option DevAnswer) : CfgOutcome × Option (CfgReg × Nat) :=
  match k.reg with
  | none => (deviceOutcome a, none)
  | some r =>
    if ¬ (range r v).2.accepted then ((range r v).2, none)
    else if ¬ (deviceOutcome a).accepted then (deviceOutcome a, none)
    else (deviceOutcome a, some (r, readBack r v a))

/-- A DSP or packaging key (rule R297 lines 8 and 9). -/
def registerKey (k : Key) (v : Nat) : CfgOutcome × Option (CfgReg × Nat) :=
  match k.reg with
  | none => (.ok, none)
  | some r => ((range r v).2, if (range r v).2.accepted then some (r, (range r v).1) else none)

/-- The outcome of an item and the register it writes (rules R297 lines 7 to 10, R298). -/
def Item.effect (it : Item) : CfgOutcome × Option (CfgReg × Nat) :=
  match it.cls with
  | .unknown => (.rejected .unknown, none)
  | .badValue => (.rejected .parse, none)
  | .text _ => (deviceOutcome it.answer, none)
  | .number k v => if k.group = .device then deviceKey k v it.answer else registerKey k v

/-- One pass of rule R297 (line 7, 8 or 9): the items of one group, in message order, into the pending bank. -/
def applyGroup (g : KeyGroup) : List Item → Bank → Bank
  | [], b => b
  | it :: r, b =>
    applyGroup g r
      (if it.inGroup g then
        match it.effect.2 with
        | some (reg, v) => b.write reg v
        | none => b
       else b)

/-- Whether an item sets `changed` (rules R297, R298): it writes a register. -/
def Item.changes (it : Item) : Bool := it.effect.2.isSome

/-- The reply of line 5 of rule R297 for one item. -/
def abortedOutcome (it : Item) : CfgOutcome :=
  match it.cls with
  | .badValue => .rejected .parse
  | .unknown => .rejected .unknown
  | _ => .rejected .aborted

/-- Line 3 of rule R297: an empty message, an empty item or an empty key. -/
def malformed (msg : List Byte) : Bool := (splitItems msg).any fun it => (itemKey it).isEmpty

/-- Lines 6 to 12 of rule R297: the three passes, the sequence number once, the reply in message order. -/
def applyItems (items : List Item) (s : State) : State :=
  let b := applyGroup .packaging items (applyGroup .dsp items (applyGroup .device items s.cfg.pending))
  let t := if items.any Item.changes then updatePending b s else s
  t.ret (.reply (joinItems (items.map fun it => replyItem it.text it.effect.1)))

/-- `CFG.APPLY msg, dev` where it is accepted (rule R297). -/
def applyMessage (msg : List Byte) (dev : List DevAnswer) (s : State) : State :=
  if Config.messageMax < msg.length then (raise .configParse s).ret (.reply (CfgOutcome.rejected .size).text)
  else if malformed msg then (raise .configParse s).ret (.reply (CfgOutcome.rejected .parse).text)
  else
    let items := pairAnswers (splitItems msg) dev
    if items.any fun it => decide (it.cls = .badValue) then
      (raise .configParse s).ret (.reply (joinItems (items.map fun it => replyItem it.text (abortedOutcome it))))
    else applyItems items s

/-- A configuration message in any lifecycle state (rules R297, R305): in `Draining` and `Stopped` it is not read. -/
def configure (msg : List Byte) (dev : List DevAnswer) (s : State) : Host.Outcome State Fault Refusal :=
  if configurable s then .next (applyMessage msg dev s) else .next (s.ret .ignored)

/-- `CFG.APPLY` as an operation (rule R297). -/
def execCfgApply (msg : List Byte) (dev : List DevAnswer) (s : State) : Host.Outcome State Fault Refusal :=
  configure msg dev s

/-! ### Lifecycle -/

/-- `CTL.RESET` (rule R300): every element of state at its reset value. The parameters, and what stands at the ports, are no
state of the block (rule R49; log entries 6 and 9). -/
def execCtlReset (s : State) : Host.Outcome State Fault Refusal :=
  .next ((State.initial s.params s.io).ret .done)

/-- The successful branch of `CTL.START` (rule R301). -/
def startStream (s : State) : State :=
  let p := s.cfg.pending
  let promoted := decide (1 ≤ p.decim.toNat)
  { s with
    ctl := { s.ctl with lifecycle := .streaming }
    cfg := { s.cfg with activeRx := p, activeTx := p, seqRx := s.cfg.seqP, seqTx := s.cfg.seqP }
    rx := { dspResetRx s.params s.rx with
      promoted := promoted
      frameCtr := 0
      accCount := 0
      emitting := false
      emitIdx := 0
      emitR := 0
      cur := []
      frameBps := effectiveBps p promoted
      paceReadyAt := 0 }
    tx := { dspResetTx s.params s.tx with
      win := []
      synced := false
      base := 0
      padBps := p.bps
      last := { s.tx.last with valid := false } }
    rxq := SampleQueue.empty
    txq := SampleQueue.empty
    cnt := Counters.zero }

/-- `CTL.START dev_ok` (rule R301): refused outside `Created`; a failed start is a `DeviceError` (rules R330, R334). -/
def execCtlStart (devOk : Bool) (s : State) : Host.Outcome State Fault Refusal :=
  if s.ctl.lifecycle ≠ .created then .refused .startOutsideCreated
  else if devOk then .next ((startStream s).ret .done)
  else .next ((raise .deviceError { s with ctl := ⟨.stopped, .startupError, true⟩ }).ret .done)

/-- `CTL.STOP` (rule R302). -/
def execCtlStop (s : State) : Host.Outcome State Fault Refusal :=
  match s.ctl.lifecycle with
  | .streaming => .next (({ s with ctl := ⟨.draining, .stopSignal, true⟩ }).ret .done)
  | .created => .next (({ s with ctl := ⟨.stopped, .stopSignal, true⟩ }).ret .done)
  | .draining => .next (({ s with ctl := { s.ctl with stopFlag := true } }).ret .ignored)
  | .stopped => .next (({ s with ctl := { s.ctl with stopFlag := true } }).ret .ignored)

/-- The entry of `DeviceError` with a cause (rules R304, R334): no draining. -/
def deviceStop (cause : StopCause) (s : State) : State :=
  raise .deviceError
    { s with
      ctl := ⟨.stopped, cause, true⟩
      rx := { s.rx with emitting := false, accCount := 0, cur := [] }
      tx := { s.tx with win := [], synced := false }
      rxq := { s.rxq with vecs := [], ended := true }
      txq := { s.txq with ended := true } }

/-- `CTL.DEVERR` (rule R304). -/
def execCtlDeverr (s : State) : Host.Outcome State Fault Refusal :=
  match s.ctl.lifecycle with
  | .streaming => .next ((deviceStop .deviceError s).ret .done)
  | .draining => .next ((deviceStop .deviceError s).ret .done)
  | .created => .next ((deviceStop .startupError s).ret .done)
  | .stopped => .next (s.ret .ignored)

end Sys2Proof.Machine
end

