-- ==== Sys2Proof/Machine/Keys.lean ====
section
/-! DEFINITION. The configuration keys (rule R101): each is the configuration message of that one item (rules R291, R297; log
entry 15). -/

namespace Sys2Proof.Machine

/-- The message of one item `key` or `key=<value>`, with the device's answer where the key is device-level (rules R101, R297). -/
def configureItem (k : Key) (val : Option (List Byte)) (dev : Option DevAnswer) (s : State) :
    Host.Outcome State Fault Refusal :=
  configure (itemText k val) dev.toList s

/-- `KEY.txdelay`: `TXDELAY`, rules R32, R297 line 9. -/
def execKeyTxdelay (val : Option (List Byte)) (s : State) : Host.Outcome State Fault Refusal :=
  configureItem .txdelay val none s

/-- `KEY.fecblk`: `FECBLK`, rules R33, R297 line 9. -/
def execKeyFecblk (val : Option (List Byte)) (s : State) : Host.Outcome State Fault Refusal :=
  configureItem .fecblk val none s

/-- `KEY.decim`: `DECIM`, rules R34, R297 line 8. -/
def execKeyDecim (val : Option (List Byte)) (s : State) : Host.Outcome State Fault Refusal :=
  configureItem .decim val none s

/-- `KEY.interp`: `INTERP`, rules R35, R297 line 8. -/
def execKeyInterp (val : Option (List Byte)) (s : State) : Host.Outcome State Fault Refusal :=
  configureItem .interp val none s

/-- `KEY.fcpos`: `FCPOS`, rules R36, R297 line 8. -/
def execKeyFcpos (val : Option (List Byte)) (s : State) : Host.Outcome State Fault Refusal :=
  configureItem .fcpos val none s

/-- `KEY.freq`: `FREQ` after the device, rules R37, R298. -/
def execKeyFreq (val : Option (List Byte)) (dev : Option DevAnswer) (s : State) : Host.Outcome State Fault Refusal :=
  configureItem .freq val dev s

/-- `KEY.srate`: `SRATE` after the device, rules R38, R298. -/
def execKeySrate (val : Option (List Byte)) (dev : Option DevAnswer) (s : State) : Host.Outcome State Fault Refusal :=
  configureItem .srate val dev s

/-- `KEY.ppmp`: device only, rule R298. -/
def execKeyPpmp (val : Option (List Byte)) (dev : Option DevAnswer) (s : State) : Host.Outcome State Fault Refusal :=
  configureItem .ppmp val dev s

/-- `KEY.ppmn`: device only, rule R298. -/
def execKeyPpmn (val : Option (List Byte)) (dev : Option DevAnswer) (s : State) : Host.Outcome State Fault Refusal :=
  configureItem .ppmn val dev s

/-- `KEY.agc`: device only, rule R298. -/
def execKeyAgc (val : Option (List Byte)) (dev : Option DevAnswer) (s : State) : Host.Outcome State Fault Refusal :=
  configureItem .agc val dev s

/-- `KEY.antbias`: device only, rule R298. -/
def execKeyAntbias (val : Option (List Byte)) (dev : Option DevAnswer) (s : State) : Host.Outcome State Fault Refusal :=
  configureItem .antbias val dev s

/-- `KEY.gain`: device only, rule R298. -/
def execKeyGain (val : Option (List Byte)) (dev : Option DevAnswer) (s : State) : Host.Outcome State Fault Refusal :=
  configureItem .gain val dev s

/-- `KEY.lgain`: device only, rule R298. -/
def execKeyLgain (val : Option (List Byte)) (dev : Option DevAnswer) (s : State) : Host.Outcome State Fault Refusal :=
  configureItem .lgain val dev s

/-- `KEY.mgain`: device only, rule R298. -/
def execKeyMgain (val : Option (List Byte)) (dev : Option DevAnswer) (s : State) : Host.Outcome State Fault Refusal :=
  configureItem .mgain val dev s

/-- `KEY.vgain`: device only, rule R298. -/
def execKeyVgain (val : Option (List Byte)) (dev : Option DevAnswer) (s : State) : Host.Outcome State Fault Refusal :=
  configureItem .vgain val dev s

/-- `KEY.v1gain`: device only, rule R298. -/
def execKeyV1gain (val : Option (List Byte)) (dev : Option DevAnswer) (s : State) : Host.Outcome State Fault Refusal :=
  configureItem .v1gain val dev s

/-- `KEY.v2gain`: device only, rule R298. -/
def execKeyV2gain (val : Option (List Byte)) (dev : Option DevAnswer) (s : State) : Host.Outcome State Fault Refusal :=
  configureItem .v2gain val dev s

/-- `KEY.bwfilter`: device only, rule R298. -/
def execKeyBwfilter (val : Option (List Byte)) (dev : Option DevAnswer) (s : State) : Host.Outcome State Fault Refusal :=
  configureItem .bwfilter val dev s

/-- `KEY.bw`: device only, rule R298. -/
def execKeyBw (val : Option (List Byte)) (dev : Option DevAnswer) (s : State) : Host.Outcome State Fault Refusal :=
  configureItem .bw val dev s

/-- `KEY.extamp`: device only, rule R298. -/
def execKeyExtamp (val : Option (List Byte)) (dev : Option DevAnswer) (s : State) : Host.Outcome State Fault Refusal :=
  configureItem .extamp val dev s

/-- `KEY.lagc`: device only, rule R298. -/
def execKeyLagc (val : Option (List Byte)) (dev : Option DevAnswer) (s : State) : Host.Outcome State Fault Refusal :=
  configureItem .lagc val dev s

/-- `KEY.magc`: device only, rule R298. -/
def execKeyMagc (val : Option (List Byte)) (dev : Option DevAnswer) (s : State) : Host.Outcome State Fault Refusal :=
  configureItem .magc val dev s

/-- `KEY.pwidle`: device only, rule R298. -/
def execKeyPwidle (val : Option (List Byte)) (dev : Option DevAnswer) (s : State) : Host.Outcome State Fault Refusal :=
  configureItem .pwidle val dev s

/-- `KEY.blklen`: device only, rule R298. -/
def execKeyBlklen (val : Option (List Byte)) (dev : Option DevAnswer) (s : State) : Host.Outcome State Fault Refusal :=
  configureItem .blklen val dev s

/-- `KEY.power`: device only, rule R298. -/
def execKeyPower (val : Option (List Byte)) (dev : Option DevAnswer) (s : State) : Host.Outcome State Fault Refusal :=
  configureItem .power val dev s

/-- `KEY.dfp`: device only, rule R298. -/
def execKeyDfp (val : Option (List Byte)) (dev : Option DevAnswer) (s : State) : Host.Outcome State Fault Refusal :=
  configureItem .dfp val dev s

/-- `KEY.dfn`: device only, rule R298. -/
def execKeyDfn (val : Option (List Byte)) (dev : Option DevAnswer) (s : State) : Host.Outcome State Fault Refusal :=
  configureItem .dfn val dev s

/-- `KEY.file`: device only, rule R298. -/
def execKeyFile (val : Option (List Byte)) (dev : Option DevAnswer) (s : State) : Host.Outcome State Fault Refusal :=
  configureItem .file val dev s

end Sys2Proof.Machine
end

