-- ==== Sys2Proof/Machine/Net.lean ====
section
/-! DEFINITION. The datagram sink: `NET.SEND` (45_udp, rules R270 to R275). -/

namespace Sys2Proof.Machine

/-- When `NET.SEND` is enabled: a frame is being sent and the pacing delay has passed (rules R171, R272). -/
def sendReady (now : U64) (s : State) : Bool := s.rx.emitting && decide (s.rx.paceReadyAt ≤ now)

/-- `NET.SEND now_us` (rule R272): one datagram to the network, the pacing, the advance of the cursors. -/
def netSend (now : U64) (s : State) : Except Halt State :=
  if ¬ sendReady now s then .error .noStep
  else
    (fbRead s.rx.fb s.rx.emitIdx.toNat 0 Config.bodyLen).bind fun body =>
      let idx := s.rx.emitIdx + 1
      let last := decide (idx.toNat = 128 + s.rx.emitR.toNat)
      .ok { s with
        io := { s.io with sent := s.io.sent ++ [blockBytes s.rx.frameCtr s.rx.emitIdx 0 body] }
        cnt := { s.cnt with
          dgramsSent := s.cnt.dgramsSent + 1
          framesSent := if last then s.cnt.framesSent + 1 else s.cnt.framesSent }
        rx := { s.rx with
          paceReadyAt := now + s.cfg.activeRx.txdelay.setWidth 64
          emitIdx := idx
          emitting := !last
          frameCtr := if last then s.rx.frameCtr + 1 else s.rx.frameCtr } }

/-- `NET.SEND` as an operation (rule R272), not enabled in `Stopped` (rules R304, R344; in `Created` log entry 31). -/
def execNetSend (now : U64) (s : State) : Host.Outcome State Fault Refusal :=
  unlessStopped s (finish s .done (netSend now s))

end Sys2Proof.Machine
end

