-- ==== Sys2Proof/Machine/RxWorker.lean ====
section
/-! DEFINITION. The Rx worker: `RXW.STEP` and the drain transition (rules R171, R303). -/

namespace Sys2Proof.Machine

/-- The drain transition (rule R303). -/
def drainTransition (s : State) : State :=
  let t := endQueue .txq s
  { t with
    rx := { t.rx with accCount := 0 }
    tx := { t.tx with win := [], synced := false }
    ctl :=
      { lifecycle := .stopped
        stopCause := if t.ctl.stopCause = .none then .endOfStream else t.ctl.stopCause
        stopFlag := true } }

/-- The lifecycle states in which the Rx worker takes steps (rule R171). -/
def workerRuns (s : State) : Bool := decide (s.ctl.lifecycle = .streaming ∨ s.ctl.lifecycle = .draining)

/-- `RXW.STEP now_us, wall`: the first arm whose condition holds, SEND, PROCESS, PULL, END (rule R171). -/
def rxwStep (now : U64) (wall : Wall) (s : State) : Except Halt State :=
  if ¬ workerRuns s then .error .noStep
  else if s.rx.emitting then netSend now s
  else
    match s.rx.cur with
    | x :: rest => rxSample x wall { s with rx := { s.rx with cur := rest } }
    | [] =>
      if s.rxq.vecs ≠ [] then
        match pullVec .rxq s with
        | some (t, v) => .ok { t with rx := { t.rx with cur := v } }
        | none => .error .noStep
      else if s.rxq.ended ∨ s.ctl.lifecycle = .draining then .ok (drainTransition s)
      else .error .noStep

/-- `RXW.STEP` as an operation (rule R171): with no arm enabled the worker is suspended. -/
def execRxwStep (now : U64) (wall : Wall) (s : State) : Host.Outcome State Fault Refusal :=
  finish s .done (rxwStep now wall s)

end Sys2Proof.Machine
end

