-- ==== Sys2Proof/Machine/Unpacker.lean ====
section
/-! DEFINITION. The Tx worker and frame unpacker: `NET.RECV`, `TX.ADOPT`, `TX.RETIRE`, `UNPACK.EXPAND` (43_unpacker). -/

namespace Sys2Proof.Machine

/-- `TX.ADOPT` (rule R201). -/
def txAdopt (s : State) : State :=
  if s.cfg.seqTx ≠ s.cfg.seqP then
    { s with
      cfg := { s.cfg with activeTx := s.cfg.pending, seqTx := s.cfg.seqP }
      tx := if s.cfg.pending.interp ≠ s.cfg.activeTx.interp then dspResetTx s.params s.tx else s.tx }
  else s

/-- The samples of one sample body (rules R95, R213). -/
def expandBody (width : Nat) (body : List Byte) : List Sample :=
  (List.range (samplesPerBlock width)).map fun k =>
    ⟨componentOf width (slice body (2 * width * k) width), componentOf width (slice body (2 * width * k + width) width)⟩

/-- `UNPACK.EXPAND bodies[1..127], B` (rule R213). -/
def unpackExpand (width : Nat) (bodies : List (List Byte)) : List Sample := bodies.flatMap (expandBody width)

/-- `DELIVER(v)` (rule R214): through the interpolator into `TXQ`, one vector. -/
def deliver (v : List Sample) (s : State) : Except Halt State :=
  let r := intProcess v s
  pushVec .txq r.2 r.1

/-- A lost frame (rule R211): the cause's kind, `FrameLoss`, then silence of the frame's length. -/
def loseFrame (cause : ErrorEvent) (f : U16) (s : State) : Except Halt State :=
  let t := raise (.frameLoss f) (raise cause s)
  deliver (List.replicate (samplesPerFrame t.tx.padBps.toNat) Sample.zero) t

/-- The registers `ACCEPT` latches from a meta body (rule R212). -/
def lastMetaOf (m : List Byte) : LastMeta where
  freqKHz := le32 m 0
  srate := le32 m 4
  bps := byteAt m 8
  ebits := byteAt m 9
  ndata := byteAt m 10
  nfec := byteAt m 11
  tsSec := le32 m 12
  tsUsec := le32 m 16
  valid := true

/-- `ACCEPT(f, m, data)` (rule R212). -/
def acceptFrame (m : List Byte) (data : List (List Byte)) (s : State) : Except Halt State :=
  deliver (unpackExpand (byteAt m 8).toNat (data.drop 1))
    { s with
      tx := { s.tx with last := lastMetaOf m, padBps := byteAt m 8 }
      cnt := { s.cnt with ok := s.cnt.ok + 1 } }

/-- The frame at `tx_base` with 128 slots or more (rules R207, R209). -/
def headEntry (s : State) : Option WinEntry :=
  match winFind s.tx.win s.tx.base with
  | some e => if Config.dataBlocks ≤ e.count then some e else none
  | none => none

/-- The part of `TX.RETIRE` that delivers the frame or declares it lost: the slot count, then the CRC, then `bytesPerSample`
(rules R210, R343(c)). -/
def settleHead (s : State) : Except Halt State :=
  let f := s.tx.base
  match headEntry s with
  | none => loseFrame (.insufficientBlocks f) f s
  | some e =>
    (winDecode s.params e).bind fun data =>
      let m := data.headD []
      if crc32 (slice m 0 20) ≠ le32 m 20 then loseFrame (.crcFailure f) f s
      else if byteAt m 8 ≠ 1 ∧ byteAt m 8 ≠ 2 then loseFrame (.metaInvalid f) f s
      else acceptFrame m data s

/-- The last two lines of rule R210: the entry leaves the window, `tx_base` advances by one. -/
def advanceBase (f : U16) (s : State) : State :=
  { s with tx := { s.tx with win := winDrop s.tx.win f, base := f + 1 } }

/-- `TX.RETIRE` (rule R210). -/
def txRetire (s : State) : Except Halt State := (settleHead s).map (advanceBase s.tx.base)

/-- Line 7 of rule R200: `TX.RETIRE` while frame `f` is more than 4 ahead, `n` times at most. -/
def evict (f : U16) : Nat → State → Except Halt State
  | 0, s => .ok s
  | n + 1, s =>
    if Config.evictDistance < dist f s.tx.base then (txRetire s).bind (evict f n) else .ok s

/-- Line 11 of rule R200: `TX.RETIRE` while the frame at `tx_base` is complete, `n` times at most. -/
def deliverComplete : Nat → State → Except Halt State
  | 0, s => .ok s
  | n + 1, s => if (headEntry s).isSome then (txRetire s).bind (deliverComplete n) else .ok s

/-- Lines 8 to 10 of rule R200: the body into its slot; the first copy wins (rule R205). -/
def storeSlot (f : U16) (b : Nat) (body : List Byte) (s : State) : Except Halt State :=
  let e := (winFind s.tx.win f).getD (WinEntry.empty f)
  if e.present.contains b then .ok { s with cnt := { s.cnt with dup := s.cnt.dup + 1 } }
  else (winWrite e b body).map fun e' => { s with tx := { s.tx with win := winPut s.tx.win e' } }

/-- Line 5 of rule R200: the first acceptable datagram synchronises the window (rule R204). -/
def synchronise (f : U16) (s : State) : State :=
  if s.tx.synced then s else { s with tx := { s.tx with synced := true, base := f } }

/-- Lines 6 to 11 of rule R200, for a synchronised window. -/
def acceptBlock (f : U16) (b : Nat) (body : List Byte) (s : State) : Except Halt State :=
  if Config.behind ≤ dist f s.tx.base then .ok { s with cnt := { s.cnt with late := s.cnt.late + 1 } }
  else
    (evict f (dist f s.tx.base) s).bind fun t =>
      (storeSlot f b body t).bind fun u => deliverComplete u.tx.win.length u

/-- `NET.RECV d` in `Streaming` (rule R200). -/
def netRecv (d : List Byte) (s : State) : Except Halt State :=
  let t := txAdopt s
  if d.length ≠ Config.blockLen then .ok (raise .protocolLength t)
  else if 128 + t.cfg.activeTx.fecblk.toNat ≤ (byteAt d 2).toNat then .ok (raise .protocolHeader t)
  else acceptBlock (le16 d 0) (byteAt d 2).toNat (d.drop 4) (synchronise (le16 d 0) t)

/-- The arrival of a datagram: ignored outside `Streaming` (rules R200, R305). -/
def receive (d : List Byte) (s : State) : Host.Outcome State Fault Refusal :=
  if s.ctl.lifecycle ≠ .streaming then .next (s.ret .ignored) else finish s .done (netRecv d s)

/-- `NET.RECV` as an operation (rule R200). -/
def execNetRecv (d : List Byte) (s : State) : Host.Outcome State Fault Refusal := receive d s

/-- `TX.ADOPT` as an operation (rule R201). Offered alone it is not enabled in `Stopped` (rule R344; in `Created` and
`Draining` log entry 31). -/
def execTxAdopt (s : State) : Host.Outcome State Fault Refusal := unlessStopped s (.next ((txAdopt s).ret .done))

/-- `TX.RETIRE` as an operation (rule R210): offered alone it waits outside `Streaming`, where the push of its delivery is not
enabled (rule R132; log entry 5). -/
def execTxRetire (s : State) : Host.Outcome State Fault Refusal :=
  finish s .done (if s.ctl.lifecycle = .streaming then txRetire s else .error .noStep)

/-- `UNPACK.EXPAND` as an operation (rule R213): pure. -/
def execUnpackExpand (bodies : List (List Byte)) (b : Byte) (s : State) : Host.Outcome State Fault Refusal :=
  .next (s.ret (.vector (unpackExpand b.toNat bodies)))

/-- `BLK.META`: the arrival of the block (rules R92, R200; log entry 14). -/
def execBlkMeta (fidx : U16) (rsv : Byte) (body : List Byte) (s : State) : Host.Outcome State Fault Refusal :=
  receive (blockBytes fidx 0 rsv body) s

/-- `BLK.SAMPLE`: the arrival of the block (rules R92, R200; log entry 14). -/
def execBlkSample (fidx : U16) (b : BitVec 7) (rsv : Byte) (body : List Byte) (s : State) :
    Host.Outcome State Fault Refusal :=
  receive (blockBytes fidx (b.setWidth 8) rsv body) s

/-- `BLK.PARITY`: the arrival of the block; an index beyond `127 + R` is a `ProtocolError` (rules R92, R98(d), R203). -/
def execBlkParity (fidx : U16) (b : BitVec 7) (rsv : Byte) (body : List Byte) (s : State) :
    Host.Outcome State Fault Refusal :=
  receive (blockBytes fidx (0x80 ||| b.setWidth 8) rsv body) s

end Sys2Proof.Machine
end

