-- ==== Sys2Proof/Machine/Dispatch.lean ====
section
/-! DEFINITION. The meaning of every operation: one arm a constructor. -/

namespace Sys2Proof.Machine

def exec (i : Instr) (s : State) : Host.Outcome State Fault Refusal :=
  match i with
  | .ctlReset => Sys2Proof.Machine.execCtlReset s
  | .ctlStart devOk => Sys2Proof.Machine.execCtlStart devOk s
  | .ctlStop => Sys2Proof.Machine.execCtlStop s
  | .ctlDeverr => Sys2Proof.Machine.execCtlDeverr s
  | .cfgWrite reg value => Sys2Proof.Machine.execCfgWrite reg value s
  | .cfgRead reg => Sys2Proof.Machine.execCfgRead reg s
  | .cfgApply msg dev => Sys2Proof.Machine.execCfgApply msg dev s
  | .sbPush queue v => Sys2Proof.Machine.execSbPush queue v s
  | .sbPull queue => Sys2Proof.Machine.execSbPull queue s
  | .sbEnd queue => Sys2Proof.Machine.execSbEnd queue s
  | .sbWaitfill queue n => Sys2Proof.Machine.execSbWaitfill queue n s
  | .sbQueued queue => Sys2Proof.Machine.execSbQueued queue s
  | .decProcess x => Sys2Proof.Machine.execDecProcess x s
  | .intProcess v => Sys2Proof.Machine.execIntProcess v s
  | .dspReset half => Sys2Proof.Machine.execDspReset half s
  | .mixFs4 x => Sys2Proof.Machine.execMixFs4 x s
  | .rxwStep now wall => Sys2Proof.Machine.execRxwStep now wall s
  | .rxAdopt => Sys2Proof.Machine.execRxAdopt s
  | .rxSample x wall => Sys2Proof.Machine.execRxSample x wall s
  | .packFrame wall => Sys2Proof.Machine.execPackFrame wall s
  | .crc32 bytes => Sys2Proof.Machine.execCrc32 bytes s
  | .netRecv d => Sys2Proof.Machine.execNetRecv d s
  | .txAdopt => Sys2Proof.Machine.execTxAdopt s
  | .txRetire => Sys2Proof.Machine.execTxRetire s
  | .unpackExpand bodies b => Sys2Proof.Machine.execUnpackExpand bodies b s
  | .fecEncode data m => Sys2Proof.Machine.execFecEncode data m s
  | .fecDecode slots => Sys2Proof.Machine.execFecDecode slots s
  | .netSend now => Sys2Proof.Machine.execNetSend now s
  | .blkMeta fidx rsv body => Sys2Proof.Machine.execBlkMeta fidx rsv body s
  | .blkSample fidx b rsv body => Sys2Proof.Machine.execBlkSample fidx b rsv body s
  | .blkParity fidx b rsv body => Sys2Proof.Machine.execBlkParity fidx b rsv body s
  | .keyTxdelay val => Sys2Proof.Machine.execKeyTxdelay val s
  | .keyFecblk val => Sys2Proof.Machine.execKeyFecblk val s
  | .keyDecim val => Sys2Proof.Machine.execKeyDecim val s
  | .keyInterp val => Sys2Proof.Machine.execKeyInterp val s
  | .keyFcpos val => Sys2Proof.Machine.execKeyFcpos val s
  | .keyFreq val dev => Sys2Proof.Machine.execKeyFreq val dev s
  | .keySrate val dev => Sys2Proof.Machine.execKeySrate val dev s
  | .keyPpmp val dev => Sys2Proof.Machine.execKeyPpmp val dev s
  | .keyPpmn val dev => Sys2Proof.Machine.execKeyPpmn val dev s
  | .keyAgc val dev => Sys2Proof.Machine.execKeyAgc val dev s
  | .keyAntbias val dev => Sys2Proof.Machine.execKeyAntbias val dev s
  | .keyGain val dev => Sys2Proof.Machine.execKeyGain val dev s
  | .keyLgain val dev => Sys2Proof.Machine.execKeyLgain val dev s
  | .keyMgain val dev => Sys2Proof.Machine.execKeyMgain val dev s
  | .keyVgain val dev => Sys2Proof.Machine.execKeyVgain val dev s
  | .keyV1gain val dev => Sys2Proof.Machine.execKeyV1gain val dev s
  | .keyV2gain val dev => Sys2Proof.Machine.execKeyV2gain val dev s
  | .keyBwfilter val dev => Sys2Proof.Machine.execKeyBwfilter val dev s
  | .keyBw val dev => Sys2Proof.Machine.execKeyBw val dev s
  | .keyExtamp val dev => Sys2Proof.Machine.execKeyExtamp val dev s
  | .keyLagc val dev => Sys2Proof.Machine.execKeyLagc val dev s
  | .keyMagc val dev => Sys2Proof.Machine.execKeyMagc val dev s
  | .keyPwidle val dev => Sys2Proof.Machine.execKeyPwidle val dev s
  | .keyBlklen val dev => Sys2Proof.Machine.execKeyBlklen val dev s
  | .keyPower val dev => Sys2Proof.Machine.execKeyPower val dev s
  | .keyDfp val dev => Sys2Proof.Machine.execKeyDfp val dev s
  | .keyDfn val dev => Sys2Proof.Machine.execKeyDfn val dev s
  | .keyFile val dev => Sys2Proof.Machine.execKeyFile val dev s

end Sys2Proof.Machine
end

