-- ==== Sys2Proof/Machine/Step.lean ====
section
/-! DEFINITION. One step: the oldest transaction offered is taken, decoded and performed; and the transaction of a table word
placed where the next step takes it. -/

namespace Sys2Proof.Machine

/-- The state with its oldest transaction taken from the ports. -/
def State.withInbox (s : State) (t : List Transaction) : State := { s with io := { s.io with inbox := t } }

/-- One step of the machine: with nothing offered every agent is suspended (rule R355) and nothing changes; a transaction that is
no operation is refused (rule R98(f)). -/
def step (s : State) : Host.Outcome State Fault Refusal :=
  match s.io.inbox with
  | [] => .next s
  | t :: rest =>
    match decode t with
    | .ok i => exec i (s.withInbox rest)
    | .error e => .refused (.undecodable e)

/-- The state with the transaction of a table word offered first. -/
def State.withFetchWord (s : State) (nbits w : Nat) : State := s.withInbox (tableTransaction nbits w :: s.io.inbox)

end Sys2Proof.Machine
end

