-- ==== Sys2Proof/Safety.lean ====
section
/-! DEFINITION. What counts as a safe state and a safe run: the legal register contents, the invariants of the cursors, of the
window and of the delay lines, the canonical form of the byte stores, in the terms the statements use. -/

namespace Sys2Proof.Machine

/-- The kernel constraints of rule R141. -/
def kernelLegal (p : Params) : Bool :=
  let n := p.hbTaps.length
  let half := n / 2
  decide (1 ≤ p.hbShift) && decide (n % 4 = 3) && decide (p.hbTaps.reverse = p.hbTaps) &&
    decide (p.hbTaps.getD half 0 = 2 ^ (p.hbShift - 1)) &&
    ((List.range n).all fun i => decide (i % 2 = 0) || decide (i = half) || decide (p.hbTaps.getD i 0 = 0)) &&
    decide (p.hbTaps.sum = 2 ^ p.hbShift) && decide ((p.hbTaps.map Int.natAbs).sum < 2 ^ 14)

/-- A bank whose registers hold legal values (rules R33 to R36, R39, R40). -/
def Bank.legal (b : Bank) : Bool :=
  decide (b.fecblk.toNat ≤ 127) && decide (b.decim.toNat ≤ 6) && decide (b.interp.toNat ≤ 6) &&
    decide (b.fcpos.toNat ≤ 2) && (decide (b.bps = 1) || decide (b.bps = 2)) &&
    decide (8 ≤ b.ebits.toNat) && decide (b.ebits.toNat ≤ 16)

/-- All three banks legal (rules R30 to R40), and `pad_bps` one of the two widths (rule R44). -/
def State.banksLegal (s : State) : Bool :=
  s.cfg.pending.legal && s.cfg.activeRx.legal && s.cfg.activeTx.legal &&
    (decide (s.tx.padBps = 1) || decide (s.tx.padBps = 2))

/-- The cursors of the Rx half within their ranges (rules R25, R180(a)): nothing is accumulated while a frame is sent, the
accumulator is short of a frame, the next block is one of the frame's, `FB` is canonical and within its bounds. -/
def State.rxCursors (s : State) : Bool :=
  (!s.rx.emitting || decide (s.rx.accCount = 0)) &&
    decide (s.rx.accCount.toNat < samplesPerFrame s.rx.frameBps.toNat) &&
    (decide (s.rx.frameBps = 1) || decide (s.rx.frameBps = 2)) &&
    (!s.rx.emitting || decide (s.rx.emitIdx.toNat < 128 + s.rx.emitR.toNat)) &&
    decide (s.rx.emitR.toNat ≤ Config.parityMax) &&
    s.rx.fb.within Config.bodies

/-- Rule R180(c): with decimation the frame under construction is two bytes wide, and so says the meta body of the frame that is being
sent (byte 8 of body 0). -/
def State.frameWide (s : State) : Bool :=
  decide (s.cfg.activeRx.decim = 0) ||
    ((decide (s.rx.accCount = 0) || decide (s.rx.frameBps = 2)) &&
      (!s.rx.emitting || decide (byteAt (bodyOf s.rx.fb 0) 8 = 2)))

/-- The Rx half is sound: legal banks and cursors in range. -/
def State.rxSound (s : State) : Bool := s.banksLegal && s.rxCursors

/-- The populated slots of an entry: rising indices below 255 and as many as `count` says, at least one, bodies canonical and
within their bounds (rules R21, R208(b)). -/
def WinEntry.sound (e : WinEntry) : Bool :=
  decide (e.present.Pairwise fun a b => a < b) && e.present.all (fun b => decide (b < Config.bodies)) &&
    decide (e.count = e.present.length) && decide (1 ≤ e.count) && e.body.within Config.bodies

/-- The window invariants of rule R208 that every operation keeps: entries in rising order of `fidx` (so no two share one), each at
most 4 ahead of `tx_base`, each sound; none before the window is synchronised. -/
def State.windowSound (s : State) : Bool :=
  decide (s.tx.win.Pairwise fun a b => a.fidx.toNat < b.fidx.toNat) &&
    s.tx.win.all (fun e => decide (dist e.fidx s.tx.base ≤ Config.evictDistance) && e.sound) &&
    (s.tx.synced || s.tx.win.isEmpty)

/-- A component that a 17-bit delay line holds (rule R45). -/
def inLine (x : Int) : Bool := decide (-32768 ≤ x) && decide (x ≤ 32768)

/-- Six stages each way, delay lines of `len(HB_TAPS)`, decimator lines within their range (rules R45, R46). -/
def State.linesSound (s : State) : Bool :=
  decide (s.rx.dec.length = Config.stages) && decide (s.tx.intp.length = Config.stages) &&
    s.rx.dec.all (fun st => decide (st.d.length = s.params.hbTaps.length) && st.d.all fun x => inLine x.i && inLine x.q) &&
    s.tx.intp.all fun d => decide (d.length = s.params.hbTaps.length)

/-- `stop_flag` is set exactly in `Draining` and `Stopped`, and a cause is recorded exactly there (rules R27, R301 to R304). -/
def State.stopSound (s : State) : Bool :=
  decide (s.ctl.stopFlag = true ↔ s.ctl.lifecycle = .draining ∨ s.ctl.lifecycle = .stopped) &&
    decide (s.ctl.stopCause = .none ↔ s.ctl.lifecycle = .created ∨ s.ctl.lifecycle = .streaming)

/-- `CNT_LOST = CNT_INSUFF + CNT_CRC + CNT_META` modulo 2^32 (rule R43). -/
def State.lossesAddUp (s : State) : Bool := decide (s.cnt.lost = s.cnt.insuff + s.cnt.crc + s.cnt.badMeta)

/-- `CNT_LOST` adds up, and the stop registers agree with the lifecycle. -/
def State.controlSound (s : State) : Bool := s.stopSound && s.lossesAddUp

/-! ### Runs of operations -/

/-- Operations performed one after another, with what each returned; none where one stops. -/
def runAll : List Instr → State → Option (State × List Result)
  | [], s => some (s, [])
  | i :: r, s =>
    match exec i s with
    | .next t => (runAll r t).map fun x => (x.1, t.io.result :: x.2)
    | .fault _ => none
    | .refused _ => none

/-- How many frames a run of operations builds: the operations after which a frame is being sent and before which none was (rule
R180). -/
def framesBuilt : List Instr → State → Nat
  | [], _ => 0
  | i :: r, s =>
    match exec i s with
    | .next t => (if t.rx.emitting && !s.rx.emitting then 1 else 0) + framesBuilt r t
    | .fault _ => 0
    | .refused _ => 0

/-- Whether an operation returned a sample. -/
def Result.isSample : Result → Bool
  | .sample (some _) => true
  | .sample none => false
  | .idle => false
  | .done => false
  | .ignored => false
  | .noStep => false
  | .value _ => false
  | .outcome _ => false
  | .reply _ => false
  | .vector _ => false
  | .pair _ => false
  | .crc _ => false
  | .bodies _ => false
  | .insufficientBlocks => false

/-- No frame waits complete at `tx_base` (rules R207, R208(c)). -/
def State.headIncomplete (s : State) : Prop := ∀ e, winFind s.tx.win s.tx.base = some e → e.count < 128

/-- The Tx half can deliver: streaming, `TXQ` not ended, no capacity to wait for (rules R130, R132). -/
def State.canDeliver (s : State) : Prop :=
  s.ctl.lifecycle = .streaming ∧ s.txq.ended = false ∧ s.params.sbCap = none

/-- State `u` is what `TX.RETIRE` after `TX.RETIRE` makes of `t` until no complete frame waits, and no further (rules R200 line 11,
R207). -/
def State.retiresHead (t u : State) : Prop :=
  ∃ (k : Nat) (rs : List Result), runAll (List.replicate k .txRetire) t = some (u, rs) ∧ (∀ r ∈ rs, r = .done) ∧
    u.headIncomplete ∧
    ∀ j, j < k → ∀ v rs', runAll (List.replicate j .txRetire) t = some (v, rs') → ¬v.headIncomplete

/-- The silence of a lost frame, or the samples of an accepted one, before interpolation: `127 · SPB(B)` (rules R7, R211). -/
def frameLength (width : Nat) : Nat := 127 * (508 / (2 * width))

/-- Times 1, j, −1 or −j: a quarter turn each (rule R142). -/
def quarterTurns : Nat → Pair → Pair
  | 0, x => x
  | n + 1, x => let y := quarterTurns n x; ⟨-y.q, y.i⟩

/-- Output `n` of a filter from reset: `sat16(floor(Σ taps[i]·x[n−i] / 2^shift))`, with nothing before input 0 (rules R8, R143). -/
def filtered (taps : List Int) (shift : Nat) (x : List Int) (n : Nat) : Int :=
  let acc := ((List.range taps.length).map fun i => if i ≤ n then taps.getD i 0 * x.getD (n - i) 0 else 0).sum
  max (-32768) (min 32767 (acc / 2 ^ shift))

/-- Filter outputs `start, start + stride, …`, `count` of them, of both components. -/
def filterPairs (taps : List Int) (shift : Nat) (start stride count : Nat) (x : List Pair) : List Pair :=
  (List.range count).map fun m =>
    ⟨filtered taps shift (x.map Pair.i) (start + stride * m), filtered taps shift (x.map Pair.q) (start + stride * m)⟩

/-- What one decimating stage makes of a whole stream from reset: the filter at every second input (rule R143). -/
def decimated (p : Params) (x : List Pair) : List Pair := filterPairs p.hbTaps p.hbShift 1 2 (x.length / 2) x

/-- What one interpolating stage makes of a whole stream from reset: the doubled filter over the zero-stuffed stream (rules R148,
R149). -/
def interpolated (p : Params) (x : List Pair) : List Pair :=
  filterPairs (p.hbTaps.map fun h => 2 * h) p.hbShift 0 1 (2 * x.length) (x.flatMap fun y => [y, ⟨0, 0⟩])

/-- The quarter turns of the mixer at input `n` since reset: back by `n` for infra, on by `n` for supra, none for center
(rule R142). -/
def mixerTurns (fcpos : Byte) (n : Nat) : Nat :=
  if fcpos = 0 then 3 * (n % 4) else if fcpos = 1 then n % 4 else 0

/-- The exclusive-or of a list of bytes. -/
def xorAll (l : List Byte) : Byte := l.foldl (fun a b => a ^^^ b) 0

/-- A body with bit `j` of byte `k` flipped. -/
def flipBit (bs : List Byte) (k j : Nat) : List Byte := bs.modify k fun b => b ^^^ (1 <<< j)

end Sys2Proof.Machine

namespace Sys2Proof

open Machine

/-! ### The operations by what they are -/

/-- The operations of the controller's configuration: `CFG.WRITE`, `CFG.READ`, `CFG.APPLY` and the keys. -/
def Instr.isConfiguration : Instr → Bool
  | .ctlReset => false
  | .ctlStart _ => false
  | .ctlStop => false
  | .ctlDeverr => false
  | .cfgWrite _ _ => true
  | .cfgRead _ => true
  | .cfgApply _ _ => true
  | .sbPush _ _ => false
  | .sbPull _ => false
  | .sbEnd _ => false
  | .sbWaitfill _ _ => false
  | .sbQueued _ => false
  | .decProcess _ => false
  | .intProcess _ => false
  | .dspReset _ => false
  | .mixFs4 _ => false
  | .rxwStep _ _ => false
  | .rxAdopt => false
  | .rxSample _ _ => false
  | .packFrame _ => false
  | .crc32 _ => false
  | .netRecv _ => false
  | .txAdopt => false
  | .txRetire => false
  | .unpackExpand _ _ => false
  | .fecEncode _ _ => false
  | .fecDecode _ => false
  | .netSend _ => false
  | .blkMeta _ _ _ => false
  | .blkSample _ _ _ _ => false
  | .blkParity _ _ _ _ => false
  | .keyTxdelay _ => true
  | .keyFecblk _ => true
  | .keyDecim _ => true
  | .keyInterp _ => true
  | .keyFcpos _ => true
  | .keyFreq _ _ => true
  | .keySrate _ _ => true
  | .keyPpmp _ _ => true
  | .keyPpmn _ _ => true
  | .keyAgc _ _ => true
  | .keyAntbias _ _ => true
  | .keyGain _ _ => true
  | .keyLgain _ _ => true
  | .keyMgain _ _ => true
  | .keyVgain _ _ => true
  | .keyV1gain _ _ => true
  | .keyV2gain _ _ => true
  | .keyBwfilter _ _ => true
  | .keyBw _ _ => true
  | .keyExtamp _ _ => true
  | .keyLagc _ _ => true
  | .keyMagc _ _ => true
  | .keyPwidle _ _ => true
  | .keyBlklen _ _ => true
  | .keyPower _ _ => true
  | .keyDfp _ _ => true
  | .keyDfn _ _ => true
  | .keyFile _ _ => true

/-- The datagram an operation brings in, byte for byte (rules R90, R91); none where it brings none. -/
def Instr.datagram : Instr → Option (List Byte)
  | .ctlReset => none
  | .ctlStart _ => none
  | .ctlStop => none
  | .ctlDeverr => none
  | .cfgWrite _ _ => none
  | .cfgRead _ => none
  | .cfgApply _ _ => none
  | .sbPush _ _ => none
  | .sbPull _ => none
  | .sbEnd _ => none
  | .sbWaitfill _ _ => none
  | .sbQueued _ => none
  | .decProcess _ => none
  | .intProcess _ => none
  | .dspReset _ => none
  | .mixFs4 _ => none
  | .rxwStep _ _ => none
  | .rxAdopt => none
  | .rxSample _ _ => none
  | .packFrame _ => none
  | .crc32 _ => none
  | .netRecv d => some d
  | .txAdopt => none
  | .txRetire => none
  | .unpackExpand _ _ => none
  | .fecEncode _ _ => none
  | .fecDecode _ => none
  | .netSend _ => none
  | .blkMeta fidx rsv body => some ([fidx.setWidth 8, (fidx >>> 8).setWidth 8, 0, rsv] ++ body)
  | .blkSample fidx b rsv body => some ([fidx.setWidth 8, (fidx >>> 8).setWidth 8, b.setWidth 8, rsv] ++ body)
  | .blkParity fidx b rsv body => some ([fidx.setWidth 8, (fidx >>> 8).setWidth 8, 0x80 + b.setWidth 8, rsv] ++ body)
  | .keyTxdelay _ => none
  | .keyFecblk _ => none
  | .keyDecim _ => none
  | .keyInterp _ => none
  | .keyFcpos _ => none
  | .keyFreq _ _ => none
  | .keySrate _ _ => none
  | .keyPpmp _ _ => none
  | .keyPpmn _ _ => none
  | .keyAgc _ _ => none
  | .keyAntbias _ _ => none
  | .keyGain _ _ => none
  | .keyLgain _ _ => none
  | .keyMgain _ _ => none
  | .keyVgain _ _ => none
  | .keyV1gain _ _ => none
  | .keyV2gain _ _ => none
  | .keyBwfilter _ _ => none
  | .keyBw _ _ => none
  | .keyExtamp _ _ => none
  | .keyLagc _ _ => none
  | .keyMagc _ _ => none
  | .keyPwidle _ _ => none
  | .keyBlklen _ _ => none
  | .keyPower _ _ => none
  | .keyDfp _ _ => none
  | .keyDfn _ _ => none
  | .keyFile _ _ => none

/-! ### Configuration values in the terms of rule R296 -/

/-- The number of a configuration register (rules R32 to R40). -/
def CfgReg.code : CfgReg → Byte
  | .txdelay => 0x00
  | .fecblk => 0x01
  | .decim => 0x02
  | .interp => 0x03
  | .fcpos => 0x04
  | .freq => 0x05
  | .srate => 0x06
  | .bps => 0x07
  | .ebits => 0x08

/-- The least value a register accepts as `ok` (rule R296). -/
def CfgReg.low : CfgReg → Nat
  | .txdelay => 0
  | .fecblk => 0
  | .decim => 0
  | .interp => 0
  | .fcpos => 0
  | .freq => 0
  | .srate => 0
  | .bps => 1
  | .ebits => 8

/-- The greatest value a register accepts as `ok` (rule R296). -/
def CfgReg.high : CfgReg → Nat
  | .txdelay => 4294967295
  | .fecblk => 127
  | .decim => 6
  | .interp => 6
  | .fcpos => 2
  | .freq => 18446744073709551615
  | .srate => 4294967295
  | .bps => 2
  | .ebits => 16

/-- Whether a value outside the range is clamped to its end rather than rejected (rule R296). -/
def CfgReg.saturates : CfgReg → Bool
  | .txdelay => true
  | .fecblk => true
  | .decim => true
  | .interp => true
  | .fcpos => false
  | .freq => false
  | .srate => false
  | .bps => false
  | .ebits => true

/-! ### Configuration messages in the terms of rules R101, R103 and R297 -/

/-- The number a numeric key's value text stands for: 1 for a bare key; for one or more ASCII digits the sum of the digits, each
times the power of ten of its place; none for anything else (rules R101, R103). -/
def numberOf : Option (List Byte) → Option Nat
  | none => some 1
  | some t =>
    if t ≠ [] ∧ ∀ c ∈ t, 0x30 ≤ c.toNat ∧ c.toNat ≤ 0x39 then
      some (t.reverse.zipIdx.map fun x => (x.1.toNat - 0x30) * 10 ^ x.2).sum
    else none

/-- The word of a reply for an outcome (rules R296, R297, decision D34), written out. -/
def outcomeWord : CfgOutcome → List Byte
  | .ok => ascii ['o', 'k']
  | .clamped => ascii ['c', 'l', 'a', 'm', 'p', 'e', 'd']
  | .rejected .parse => ascii ['r', 'e', 'j', 'e', 'c', 't', 'e', 'd', ':', 'p', 'a', 'r', 's', 'e']
  | .rejected .unknown => ascii ['r', 'e', 'j', 'e', 'c', 't', 'e', 'd', ':', 'u', 'n', 'k', 'n', 'o', 'w', 'n']
  | .rejected .aborted => ascii ['r', 'e', 'j', 'e', 'c', 't', 'e', 'd', ':', 'a', 'b', 'o', 'r', 't', 'e', 'd']
  | .rejected .range => ascii ['r', 'e', 'j', 'e', 'c', 't', 'e', 'd', ':', 'r', 'a', 'n', 'g', 'e']
  | .rejected .state => ascii ['r', 'e', 'j', 'e', 'c', 't', 'e', 'd', ':', 's', 't', 'a', 't', 'e']
  | .rejected .size => ascii ['r', 'e', 'j', 'e', 'c', 't', 'e', 'd', ':', 's', 'i', 'z', 'e']
  | .rejected (.device t) =>
    ascii ['r', 'e', 'j', 'e', 'c', 't', 'e', 'd', ':', 'd', 'e', 'v', 'i', 'c', 'e', ':'] ++ t

/-- The key column of the table of rule R101, written out. -/
def keyWords : List (Key × List Byte) :=
  [(.txdelay, ascii ['t', 'x', 'd', 'e', 'l', 'a', 'y']), (.fecblk, ascii ['f', 'e', 'c', 'b', 'l', 'k']),
   (.decim, ascii ['d', 'e', 'c', 'i', 'm']), (.interp, ascii ['i', 'n', 't', 'e', 'r', 'p']),
   (.fcpos, ascii ['f', 'c', 'p', 'o', 's']), (.freq, ascii ['f', 'r', 'e', 'q']),
   (.srate, ascii ['s', 'r', 'a', 't', 'e']), (.ppmp, ascii ['p', 'p', 'm', 'p']), (.ppmn, ascii ['p', 'p', 'm', 'n']),
   (.agc, ascii ['a', 'g', 'c']), (.antbias, ascii ['a', 'n', 't', 'b', 'i', 'a', 's']),
   (.gain, ascii ['g', 'a', 'i', 'n']), (.lgain, ascii ['l', 'g', 'a', 'i', 'n']),
   (.mgain, ascii ['m', 'g', 'a', 'i', 'n']), (.vgain, ascii ['v', 'g', 'a', 'i', 'n']),
   (.v1gain, ascii ['v', '1', 'g', 'a', 'i', 'n']), (.v2gain, ascii ['v', '2', 'g', 'a', 'i', 'n']),
   (.bwfilter, ascii ['b', 'w', 'f', 'i', 'l', 't', 'e', 'r']), (.bw, ascii ['b', 'w']),
   (.extamp, ascii ['e', 'x', 't', 'a', 'm', 'p']), (.lagc, ascii ['l', 'a', 'g', 'c']), (.magc, ascii ['m', 'a', 'g', 'c']),
   (.pwidle, ascii ['p', 'w', 'i', 'd', 'l', 'e']), (.blklen, ascii ['b', 'l', 'k', 'l', 'e', 'n']),
   (.power, ascii ['p', 'o', 'w', 'e', 'r']), (.dfp, ascii ['d', 'f', 'p']), (.dfn, ascii ['d', 'f', 'n']),
   (.file, ascii ['f', 'i', 'l', 'e'])]

/-- The word of a key. -/
def Key.word (k : Key) : List Byte := (keyWords.lookup k).getD []

/-- The key of a word, if the table has it. -/
def keyOfWord (w : List Byte) : Option Key := (keyWords.find? fun x => x.2 == w).map Prod.fst

/-- `key` or `key=value` (rule R101). -/
def keyValue (key : List Byte) : Option (List Byte) → List Byte
  | none => key
  | some v => key ++ [0x3D] ++ v

/-- Whether the device answers for a key (rule R298): every key but those of the groups Transport and DSP. -/
def Key.deviceLevel (k : Key) : Bool := decide (k ∉ [Key.txdelay, .fecblk, .decim, .interp, .fcpos])

/-- One item `key[=value]` of a message, with the device's answer to it (none: the ideal device, rule R298). -/
structure Assignment where
  key : List Byte
  value : Option (List Byte)
  answer : Option DevAnswer
deriving DecidableEq, Repr

/-- The item as it stands in the message. -/
def Assignment.text (a : Assignment) : List Byte := keyValue a.key a.value

/-- An item of the grammar of rules R101 and R103: a key that is not empty and holds no `=`, and no comma. -/
def Assignment.wf (a : Assignment) : Bool := decide (a.key ≠ []) && decide (0x3D ∉ a.key) && decide (0x2C ∉ a.text)

/-- A known numeric key whose value is no number: a parse failure for that key (rules R103, R297 line 4). -/
def Assignment.badValue (a : Assignment) : Bool :=
  match keyOfWord a.key with
  | none => false
  | some k => decide (k ≠ .file) && (numberOf a.value).isNone

/-- A known device-level item. -/
def Assignment.deviceLevel (a : Assignment) : Bool := (keyOfWord a.key).any Key.deviceLevel

/-- Texts joined by `,` (rules R101, R297 line 12). -/
def commaJoined (l : List (List Byte)) : List Byte := [0x2C].intercalate l

end Sys2Proof
end

