-- ==== Sys2Proof/Certificates/Slice0/Obligations.lean ====
section
/-! DEFINITION. The statements for the provers, family by family: encoding, one step, reset and lifecycle, configuration, sample
buffers, DSP, packer, network, unpacker, erasure code, invariants. -/

section

open Sys2Proof Sys2Proof.Machine

/-! ### Encoding -/

/-- Decoding what the encoder writes gives the instruction back, for every well-formed instruction. The operand bytes behind an
operation code are the model's own layout (log entry 2). -/
def Obligations.DecodeEncodeAgree : Prop := ∀ i : Instr, i.wf = true → decode (encode i) = .ok i

/-- Whatever the decoder answers is well formed. -/
def Obligations.DecodedIsWellFormed : Prop := ∀ (t : Transaction) (i : Instr), decode t = .ok i → i.wf = true

/-- Rules R91, R92: the fields of a 512-byte datagram, its kind by `blk` alone, and no bit of it dropped. -/
def Obligations.WireBlockFields : Prop :=
  ∀ d : List Byte, d.length = 512 →
    ∃ (fidx : U16) (i : Instr),
      fidx.toNat = (byteAt d 0).toNat + 256 * (byteAt d 1).toNat ∧ decode ⟨.wire, d, []⟩ = .ok i ∧
        encode i = ⟨.wire, d, []⟩ ∧ i.datagram = some d ∧
        ((byteAt d 2).toNat = 0 → i = .blkMeta fidx (byteAt d 3) (d.drop 4)) ∧
        (1 ≤ (byteAt d 2).toNat ∧ (byteAt d 2).toNat ≤ 127 →
          ∃ b : BitVec 7, b.toNat = (byteAt d 2).toNat ∧ i = .blkSample fidx b (byteAt d 3) (d.drop 4)) ∧
        (128 ≤ (byteAt d 2).toNat →
          ∃ b : BitVec 7, 128 + b.toNat = (byteAt d 2).toNat ∧ i = .blkParity fidx b (byteAt d 3) (d.drop 4))

/-- A few words written out from rules R91, R100 and R101, and an operation code that the table does not list. The operand bytes
behind a code (register, sample, queue) are the model's layout (log entry 2), and a control message of one item is its `KEY`
operation by log entry 15. -/
def Obligations.WrittenWordsDecode : Prop :=
  decode ⟨.op, [0x03], []⟩ = .ok .ctlStop ∧
    decode ⟨.op, [0x09, 0x15], []⟩ = .ok (.cfgRead 0x15) ∧
    decode ⟨.op, [0x23, 0x01, 0x00, 0xFE, 0xFF], []⟩ = .ok (.mixFs4 ⟨1, -2⟩) ∧
    decode ⟨.op, [0x14, 0x00], []⟩ = .ok (.sbQueued .rxq) ∧ decode ⟨.op, [0x14, 0x01], []⟩ = .ok (.sbQueued .txq) ∧
    decode ⟨.wire, [0x07, 0x00, 0x87, 0x00] ++ List.replicate 508 0xAB, []⟩ =
      .ok (.blkParity 7 7 0 (List.replicate 508 0xAB)) ∧
    decode ⟨.control, [0x64, 0x65, 0x63, 0x69, 0x6D, 0x3D, 0x35], []⟩ = .ok (.keyDecim (some [0x35])) ∧
    decode ⟨.op, [0x05], []⟩ = .error (.illegalOpcode 0x05)

/-! ### One step -/

/-- A step takes the oldest transaction and performs its operation; with nothing offered nothing changes; a transaction that is
no operation is refused. How operations arrive is the model's choice (log entry 1); rule R98(f) refuses the codes. -/
def Obligations.StepRunsDecoded : Prop :=
  ∀ s : State,
    (s.io.inbox = [] → step s = .next s) ∧
      ∀ (t : Transaction) (rest : List Transaction), s.io.inbox = t :: rest →
        (∀ i, decode t = .ok i → step s = exec i { s with io.inbox := rest }) ∧
          ∀ e, decode t = .error e → step s = .refused (.undecodable e)

/-! ### Reset and lifecycle -/

/-- Rule R370: the value of every piece of the block's state right after power-on and after `CTL.RESET`; from there neither worker
does anything and no sample is taken until `CTL.START`. -/
def Obligations.ResetValues : Prop :=
  ∀ s : State, (s = State.reset ∨ ∃ u, exec .ctlReset u = .next s) →
    s.ctl = ⟨.created, .none, false⟩ ∧
      (∀ b ∈ [s.cfg.pending, s.cfg.activeRx, s.cfg.activeTx],
        b.txdelay = 0 ∧ b.fecblk = 0 ∧ b.decim = 0 ∧ b.interp = 0 ∧ b.fcpos = 2 ∧ b.freq = 0 ∧ b.srate = 0 ∧ b.bps = 2 ∧
          b.ebits = 16) ∧
      s.cfg.seqP = 0 ∧ s.cfg.seqRx = 0 ∧ s.cfg.seqTx = 0 ∧
      (∀ a, Memory.get s.rx.fb a = 0) ∧ s.tx.win = [] ∧
      (∀ q ∈ [s.rxq, s.txq], q.vecs = [] ∧ q.ended = false ∧ q.overLatch = false) ∧
      s.rx.cur = [] ∧ s.rx.frameCtr = 0 ∧ s.rx.accCount = 0 ∧ s.rx.emitIdx = 0 ∧ s.rx.emitR = 0 ∧
      s.rx.emitting = false ∧ s.rx.promoted = false ∧ s.rx.frameBps = 2 ∧ s.tx.synced = false ∧ s.tx.base = 0 ∧
      s.rx.paceReadyAt = 0 ∧ s.tx.padBps = 2 ∧ s.tx.last = ⟨0, 0, 0, 0, 0, 0, 0, 0, false⟩ ∧
      s.cnt = ⟨0, 0, 0, 0, 0, 0, 0, 0, 0, 0, 0⟩ ∧ s.rx.mixPhase = 0 ∧
      (∀ now wall, exec (.rxwStep now wall) s = .next { s with io.result := .noStep }) ∧
      (∀ i d, i.datagram = some d → exec i s = .next { s with io.result := .ignored }) ∧
      (∀ v, exec (.sbPush .rxq v) s = .next { s with io.result := .ignored }) ∧
      (s.rx.dec.length = 6 ∧ ∀ st ∈ s.rx.dec, st.par = false ∧ st.d = List.replicate s.params.hbTaps.length ⟨0, 0⟩) ∧
      (s.tx.intp.length = 6 ∧ ∀ d ∈ s.tx.intp, d = List.replicate s.params.hbTaps.length ⟨0, 0⟩)

/-- Rule R300: `CTL.RESET` is performed in every lifecycle state. That it keeps the parameters and what stands at the ports is the
model's choice (log entries 6 and 9). -/
def Obligations.CtlResetEverywhere : Prop :=
  ∀ s : State,
    exec .ctlReset s = .next { State.initial s.params s.io with io.result := .done } ∧
      State.reset = State.initial Params.default ⟨[], [], [], .idle⟩

/-- Rule R371: `CTL.RESET` and then `CTL.START true` give the reset state with `LIFECYCLE = Streaming`; from any state that may
start, `CTL.START` keeps the configuration and puts the stream state at the values a reset gives it, but for `FB`, the other
`LAST_*` registers, and the two widths and the promotion that follow the configuration. -/
def Obligations.StartAfterReset : Prop :=
  ∀ s : State,
    ∃ r, exec .ctlReset s = .next r ∧ exec (.ctlStart true) r = .next { r with ctl.lifecycle := .streaming } ∧
      (s.ctl.lifecycle = .created →
        ∃ t, exec (.ctlStart true) s = .next t ∧ t.ctl.lifecycle = .streaming ∧ t.cfg.pending = s.cfg.pending ∧
          t.cfg.seqP = s.cfg.seqP ∧
          t.rx = { r.rx with fb := s.rx.fb, frameBps := t.rx.frameBps, promoted := t.rx.promoted } ∧
          t.tx = { r.tx with padBps := s.cfg.pending.bps, last := { s.tx.last with valid := false } } ∧
          t.rxq = r.rxq ∧ t.txq = r.txq ∧ t.cnt = r.cnt)

/-- Rule R301: what `CTL.START` writes and keeps; in any other state than `Created` it is refused. -/
def Obligations.CtlStartEffect : Prop :=
  ∀ s : State,
    (s.ctl.lifecycle = .created →
      exec (.ctlStart true) s = .next
        { params := s.params
          ctl := { s.ctl with lifecycle := .streaming }
          cfg :=
            { pending := s.cfg.pending, activeRx := s.cfg.pending, activeTx := s.cfg.pending
              seqP := s.cfg.seqP, seqRx := s.cfg.seqP, seqTx := s.cfg.seqP }
          rx :=
            { fb := s.rx.fb, cur := [], frameCtr := 0, accCount := 0, emitting := false, emitIdx := 0, emitR := 0
              frameBps := if 1 ≤ s.cfg.pending.decim.toNat then 2 else s.cfg.pending.bps
              paceReadyAt := 0, promoted := decide (1 ≤ s.cfg.pending.decim.toNat), mixPhase := 0
              dec := List.replicate 6 ⟨List.replicate s.params.hbTaps.length ⟨0, 0⟩, false⟩ }
          tx :=
            { win := [], synced := false, base := 0, last := { s.tx.last with valid := false }
              padBps := s.cfg.pending.bps
              intp := List.replicate 6 (List.replicate s.params.hbTaps.length ⟨0, 0⟩) }
          rxq := ⟨[], false, false⟩
          txq := ⟨[], false, false⟩
          cnt := ⟨0, 0, 0, 0, 0, 0, 0, 0, 0, 0, 0⟩
          io := { s.io with result := .done } } ∧
      exec (.ctlStart false) s = .next
        { s with
          ctl := ⟨.stopped, .startupError, true⟩
          io.errors := s.io.errors ++ [.deviceError]
          io.result := .done }) ∧
      (s.ctl.lifecycle ≠ .created → ∀ devOk, exec (.ctlStart devOk) s = .refused .startOutsideCreated)

/-- Rules R302, R304, R343(b): `CTL.STOP` and `CTL.DEVERR` in each lifecycle state. -/
def Obligations.CtlStopAndDeverr : Prop :=
  ∀ s : State,
    (s.ctl.lifecycle = .streaming →
      exec .ctlStop s = .next { s with ctl := ⟨.draining, .stopSignal, true⟩, io.result := .done }) ∧
    (s.ctl.lifecycle = .created →
      exec .ctlStop s = .next { s with ctl := ⟨.stopped, .stopSignal, true⟩, io.result := .done }) ∧
    (s.ctl.lifecycle = .draining ∨ s.ctl.lifecycle = .stopped →
      exec .ctlStop s = .next { s with ctl.stopFlag := true, io.result := .ignored }) ∧
    (s.ctl.lifecycle ≠ .stopped →
      exec .ctlDeverr s = .next
        { s with
          ctl := ⟨.stopped, if s.ctl.lifecycle = .created then .startupError else .deviceError, true⟩
          rx.emitting := false
          rx.accCount := 0
          rx.cur := []
          tx.win := []
          tx.synced := false
          rxq.vecs := []
          rxq.ended := true
          txq.ended := true
          io.errors := s.io.errors ++ [.deviceError]
          io.result := .done }) ∧
    (s.ctl.lifecycle = .stopped → exec .ctlDeverr s = .next { s with io.result := .ignored })

/-- Rules R27, R305, R315, R344: `LIFECYCLE` moves along the named arrows only; out of `Stopped` only by `CTL.RESET`. In `Stopped` the
internal operations offered alone wait, as the Rx worker does, and no operation but `CTL.RESET` moves anything but the queues,
`stop_flag` and the answer. Rule R344 says that they are not accepted there; that they wait, rather than being ignored, is the
model's choice (log entry 31; for `TX.RETIRE` log entry 5). -/
def Obligations.LifecycleArrows : Prop :=
  (∀ (i : Instr) (s : State), s.ctl.lifecycle = .stopped →
    (i = .rxAdopt ∨ i = .txAdopt ∨ i = .txRetire ∨ (∃ half, i = .dspReset half) ∨ (∃ x, i = .mixFs4 x) ∨
      (∃ x, i = .decProcess x) ∨ (∃ v, i = .intProcess v) ∨ (∃ x wall, i = .rxSample x wall) ∨ (∃ wall, i = .packFrame wall) ∨
      (∃ now, i = .netSend now) ∨ ∃ now wall, i = .rxwStep now wall) →
      exec i s = .next { s with io.result := .noStep }) ∧
  (∀ (i : Instr) (s t : State), s.ctl.lifecycle = .stopped → i ≠ .ctlReset → exec i s = .next t →
    ∃ (rxq txq : SampleQueue) (flag : Bool) (r : Result),
      t = { s with rxq := rxq, txq := txq, ctl.stopFlag := flag, io.result := r }) ∧
  ∀ (i : Instr) (s t : State), exec i s = .next t → t.ctl.lifecycle ≠ s.ctl.lifecycle →
    (i = .ctlReset ∧ t.ctl.lifecycle = .created) ∨
      (∃ devOk, i = .ctlStart devOk ∧ s.ctl.lifecycle = .created ∧
        t.ctl.lifecycle = if devOk then .streaming else .stopped) ∨
      (i = .ctlStop ∧ s.ctl.lifecycle = .streaming ∧ t.ctl.lifecycle = .draining) ∨
      (i = .ctlStop ∧ s.ctl.lifecycle = .created ∧ t.ctl.lifecycle = .stopped) ∨
      (∃ now wall, i = .rxwStep now wall ∧ (s.ctl.lifecycle = .streaming ∨ s.ctl.lifecycle = .draining) ∧
        t.ctl.lifecycle = .stopped) ∨
      (i = .ctlDeverr ∧ s.ctl.lifecycle ≠ .stopped ∧ t.ctl.lifecycle = .stopped)

/-! ### Configuration -/

/-- Rules R293, R296: `CFG.WRITE` in `Created` and `Streaming` clamps or rejects by the register's range, writes that register of
the pending bank alone and counts the update; it rejects other numbers; in `Draining` and `Stopped` it changes nothing. -/
def Obligations.CfgWriteRange : Prop :=
  ∀ (s : State) (v : Nat),
    (s.ctl.lifecycle = .created ∨ s.ctl.lifecycle = .streaming →
      (∀ r : CfgReg,
        (r.low ≤ v ∧ v ≤ r.high ∨ r.saturates = true →
          ∃ b : Bank,
            exec (.cfgWrite r.code v) s = .next
              { s with
                cfg.pending := b
                cfg.seqP := s.cfg.seqP + 1
                io.result := .outcome (if r.low ≤ v ∧ v ≤ r.high then .ok else .clamped) } ∧
            b.read r = max r.low (min r.high v) ∧ ∀ r', r' ≠ r → b.read r' = s.cfg.pending.read r') ∧
        (¬(r.low ≤ v ∧ v ≤ r.high) ∧ r.saturates = false →
          exec (.cfgWrite r.code v) s = .next { s with io.result := .outcome (.rejected .range) })) ∧
      ∀ reg : Byte, 8 < reg.toNat → exec (.cfgWrite reg v) s = .next { s with io.result := .outcome (.rejected .unknown) }) ∧
    (s.ctl.lifecycle = .draining ∨ s.ctl.lifecycle = .stopped →
      ∀ reg : Byte, exec (.cfgWrite reg v) s = .next { s with io.result := .outcome (.rejected .state) })

/-- Rules R27, R41, R294: what `CFG.READ` returns for each register number, with no side effect in any lifecycle state. -/
def Obligations.CfgReadTable : Prop :=
  ∀ s : State,
    let lifecycle : Nat :=
      match s.ctl.lifecycle with
      | .created => 0
      | .streaming => 1
      | .draining => 2
      | .stopped => 3
    let stopCause : Nat :=
      match s.ctl.stopCause with
      | .none => 0
      | .stopSignal => 1
      | .deviceError => 2
      | .startupError => 3
      | .endOfStream => 4
    let table : List (Byte × Nat) :=
      [(0x00, s.cfg.pending.txdelay.toNat), (0x01, s.cfg.pending.fecblk.toNat), (0x02, s.cfg.pending.decim.toNat),
       (0x03, s.cfg.pending.interp.toNat), (0x04, s.cfg.pending.fcpos.toNat), (0x05, s.cfg.pending.freq.toNat),
       (0x06, s.cfg.pending.srate.toNat), (0x07, s.cfg.pending.bps.toNat), (0x08, s.cfg.pending.ebits.toNat),
       (0x10, lifecycle), (0x11, stopCause), (0x12, s.cfg.seqP.toNat), (0x13, s.cfg.seqRx.toNat),
       (0x14, s.cfg.seqTx.toNat),
       (0x15, s.rx.promoted.toNat + 2 * s.rx.emitting.toNat + 4 * s.tx.synced.toNat + 8 * s.rxq.overLatch.toNat +
         16 * s.txq.overLatch.toNat + 32 * s.rxq.ended.toNat + 64 * s.txq.ended.toNat + 128 * s.ctl.stopFlag.toNat),
       (0x18, s.rx.frameCtr.toNat), (0x19, s.rx.accCount.toNat), (0x1A, s.rx.emitIdx.toNat), (0x1B, s.rxq.samples),
       (0x1C, s.txq.samples), (0x20, s.tx.base.toNat), (0x21, s.tx.win.length), (0x28, s.cnt.proto.toNat),
       (0x29, s.cnt.late.toNat), (0x2A, s.cnt.dup.toNat), (0x2B, s.cnt.lost.toNat), (0x2C, s.cnt.insuff.toNat),
       (0x2D, s.cnt.crc.toNat), (0x2E, s.cnt.badMeta.toNat), (0x2F, s.cnt.ok.toNat), (0x30, s.cnt.overrun.toNat),
       (0x31, s.cnt.framesSent.toNat), (0x32, s.cnt.dgramsSent.toNat), (0x38, s.tx.last.freqKHz.toNat),
       (0x39, s.tx.last.srate.toNat), (0x3A, s.tx.last.bps.toNat), (0x3B, s.tx.last.ebits.toNat),
       (0x3C, s.tx.last.ndata.toNat), (0x3D, s.tx.last.nfec.toNat), (0x3E, s.tx.last.tsSec.toNat),
       (0x3F, s.tx.last.tsUsec.toNat), (0x40, s.tx.last.valid.toNat)]
    (∀ x ∈ table, exec (.cfgRead x.1) s = .next { s with io.result := .value (BitVec.ofNat 64 x.2) }) ∧
      ∀ reg : Byte, (∀ x ∈ table, x.1 ≠ reg) →
        exec (.cfgRead reg) s = .next { s with io.result := .outcome (.rejected .unknown) }

/-- Rules R297 lines 1, 3 and 5, R332: a message too long, malformed (an empty message, an empty item, an item with an empty key)
or with a value that is no number is traced as `ConfigParseError`, applies nothing and is answered as the rule says. -/
def Obligations.CfgParseFailure : Prop :=
  ∀ (s : State) (msg : List Byte) (dev : List DevAnswer), s.ctl.lifecycle = .created ∨ s.ctl.lifecycle = .streaming →
    let failed := fun text : List Byte =>
      exec (.cfgApply msg dev) s = .next
        { s with io.errors := s.io.errors ++ [.configParse], io.result := .reply text }
    (4096 < msg.length → failed (ascii ['r', 'e', 'j', 'e', 'c', 't', 'e', 'd', ':', 's', 'i', 'z', 'e'])) ∧
      (∀ texts : List (List Byte), texts ≠ [] → (∀ t ∈ texts, 0x2C ∉ t) → msg = commaJoined texts → msg.length ≤ 4096 →
        (∃ t ∈ texts, t = [] ∨ t.head? = some 0x3D) →
          failed (ascii ['r', 'e', 'j', 'e', 'c', 't', 'e', 'd', ':', 'p', 'a', 'r', 's', 'e'])) ∧
      ∀ items : List Assignment, (∀ it ∈ items, it.wf = true) → msg = commaJoined (items.map Assignment.text) →
        msg.length ≤ 4096 → (∃ it ∈ items, it.badValue = true) →
          failed (commaJoined (items.map fun it =>
            it.key ++ ascii ['=', 'r', 'e', 'j', 'e', 'c', 't', 'e', 'd', ':'] ++
              if it.badValue then ascii ['p', 'a', 'r', 's', 'e']
              else if keyOfWord it.key = none then ascii ['u', 'n', 'k', 'n', 'o', 'w', 'n']
              else ascii ['a', 'b', 'o', 'r', 't', 'e', 'd']))

/-- Rules R101, R103, R297 lines 2 and 6 to 12: a message of well-formed items without a bad value leaves the registers as its
items, applied each as a message of its own in message order, leave them (the three passes write disjoint registers), counts one
update where any of them counts one, and is answered with their answers joined by commas. An item of an unknown key is answered
`rejected:unknown` and writes nothing (conflict C7); what an item of a known key does is `Obligations.KeyWritesRegister`,
`Obligations.KeyFreqSrate` and `Obligations.KeyRelaysDevice`, by the last part of `Obligations.ControlOutsideDataPath`. That the
device's answers meet the device-level items one by one in message order is the model's choice (log entry 16). -/
def Obligations.CfgApplyInMessageOrder : Prop :=
  ∀ (s : State) (items : List Assignment) (dev : List DevAnswer),
    s.ctl.lifecycle = .created ∨ s.ctl.lifecycle = .streaming → items ≠ [] →
    (∀ it ∈ items, it.wf = true ∧ it.badValue = false) →
    (∀ (j : Nat) (it : Assignment), (items.filter Assignment.deviceLevel)[j]? = some it → it.answer = dev[j]?) →
    (∀ it ∈ items, it.deviceLevel = false → it.answer = none) →
    let msg := commaJoined (items.map Assignment.text)
    msg.length ≤ 4096 →
      (∃ (t : State) (replies : List (List Byte)),
        runAll (items.map fun it => .cfgApply it.text it.answer.toList) s = some (t, replies.map .reply) ∧
        exec (.cfgApply msg dev) s = .next
          { s with
            cfg.pending := t.cfg.pending
            cfg.seqP := if t.cfg.seqP = s.cfg.seqP then s.cfg.seqP else s.cfg.seqP + 1
            io.result := .reply (commaJoined replies) }) ∧
      ∀ it ∈ items, keyOfWord it.key = none →
        exec (.cfgApply it.text it.answer.toList) s = .next
          { s with
            io.result := .reply
              (it.key ++ ascii ['=', 'r', 'e', 'j', 'e', 'c', 't', 'e', 'd', ':', 'u', 'n', 'k', 'n', 'o', 'w', 'n']) }

/-- Rules R101, R103, R297, R306, R307: the keys of the block's own registers behave as a `CFG.WRITE` of that register, answered as
`key=outcome`, with the bare key standing for 1. -/
def Obligations.KeyWritesRegister : Prop :=
  let keys : List ((Option (List Byte) → Instr) × Key × CfgReg) :=
    [(.keyTxdelay, .txdelay, .txdelay), (.keyFecblk, .fecblk, .fecblk), (.keyDecim, .decim, .decim),
     (.keyInterp, .interp, .interp), (.keyFcpos, .fcpos, .fcpos)]
  ∀ k ∈ keys, ∀ (s : State) (val : Option (List Byte)) (v : Nat),
    s.ctl.lifecycle = .created ∨ s.ctl.lifecycle = .streaming → numberOf val = some v →
      (keyValue k.2.1.word val).length ≤ 4096 →
        ∃ t o, exec (.cfgWrite k.2.2.code v) s = .next t ∧ t.io.result = .outcome o ∧
          exec (k.1 val) s = .next { t with io.result := .reply (k.2.1.word ++ ascii ['='] ++ outcomeWord o) }

/-- Rule R298: `freq` and `srate` ask the device and record what it reports, unless the value does not fit the register or the
device rejects it; the ideal device reports the value asked for. -/
def Obligations.KeyFreqSrate : Prop :=
  ∀ (s : State) (val : Option (List Byte)) (v : Nat) (dev : Option DevAnswer),
    s.ctl.lifecycle = .created ∨ s.ctl.lifecycle = .streaming → numberOf val = some v →
        let answered := fun (i : Instr) (k : Key) (b : Bank) (n : U32) (o : CfgOutcome) =>
          (keyValue k.word val).length ≤ 4096 →
            exec i s = .next
              { s with cfg.pending := b, cfg.seqP := n, io.result := .reply (k.word ++ ascii ['='] ++ outcomeWord o) }
        let unchanged := fun (i : Instr) (k : Key) (o : CfgOutcome) => answered i k s.cfg.pending s.cfg.seqP o
        (2 ^ 64 ≤ v → unchanged (.keyFreq val dev) .freq (.rejected .range)) ∧
          (2 ^ 32 ≤ v → unchanged (.keySrate val dev) .srate (.rejected .range)) ∧
          (∀ text f r, dev = some ⟨.rejected text, f, r⟩ →
            (v < 2 ^ 64 → unchanged (.keyFreq val dev) .freq (.rejected (.device text))) ∧
              (v < 2 ^ 32 → unchanged (.keySrate val dev) .srate (.rejected (.device text)))) ∧
          (∀ o f r, (o = .ok ∨ o = .clamped) → dev = some ⟨o, f, r⟩ →
            let word : CfgOutcome := if o = .ok then .ok else .clamped
            (v < 2 ^ 64 → answered (.keyFreq val dev) .freq { s.cfg.pending with freq := f } (s.cfg.seqP + 1) word) ∧
              (v < 2 ^ 32 →
                answered (.keySrate val dev) .srate { s.cfg.pending with srate := r } (s.cfg.seqP + 1) word)) ∧
          (dev = none →
            (v < 2 ^ 64 →
              answered (.keyFreq val dev) .freq { s.cfg.pending with freq := BitVec.ofNat 64 v } (s.cfg.seqP + 1) .ok) ∧
              (v < 2 ^ 32 →
                answered (.keySrate val dev) .srate { s.cfg.pending with srate := BitVec.ofNat 32 v } (s.cfg.seqP + 1)
                  .ok))

/-- Rule R298: the other device-level keys change no register; the device's outcome is relayed (`ok` of the ideal device). -/
def Obligations.KeyRelaysDevice : Prop :=
  let keys : List ((Option (List Byte) → Option DevAnswer → Instr) × Key) :=
    [(.keyPpmp, .ppmp), (.keyPpmn, .ppmn), (.keyAgc, .agc), (.keyAntbias, .antbias), (.keyGain, .gain), (.keyLgain, .lgain),
     (.keyMgain, .mgain), (.keyVgain, .vgain), (.keyV1gain, .v1gain), (.keyV2gain, .v2gain), (.keyBwfilter, .bwfilter),
     (.keyBw, .bw), (.keyExtamp, .extamp), (.keyLagc, .lagc), (.keyMagc, .magc), (.keyPwidle, .pwidle),
     (.keyBlklen, .blklen), (.keyPower, .power), (.keyDfp, .dfp), (.keyDfn, .dfn), (.keyFile, .file)]
  ∀ k ∈ keys, ∀ (s : State) (val : Option (List Byte)) (dev : Option DevAnswer),
    s.ctl.lifecycle = .created ∨ s.ctl.lifecycle = .streaming →
      (if k.2 = .file then 0x2C ∉ val.getD [] else numberOf val ≠ none) → (keyValue k.2.word val).length ≤ 4096 →
        ∃ o : CfgOutcome,
          exec (k.1 val dev) s = .next { s with io.result := .reply (k.2.word ++ ascii ['='] ++ outcomeWord o) } ∧
            (dev = none → o = .ok) ∧
            ∀ a, dev = some a →
              (a.outcome = .ok → o = .ok) ∧ (a.outcome = .clamped → o = .clamped) ∧
                ∀ text, a.outcome = .rejected text → o = .rejected (.device text)

/-- Rules R290, R305, R345: no configuration operation ever stops the machine or touches anything but the pending bank, its
sequence number, the trace and the answer; in `Draining` and `Stopped` it touches only the answer. A `KEY` operation is the
`CFG.APPLY` of its one item (log entry 15). -/
def Obligations.ControlOutsideDataPath : Prop :=
  (∀ (i : Instr) (s : State), i.isConfiguration = true →
    ∃ (b : Bank) (n : U32) (e : List ErrorEvent) (r : Result),
      exec i s = .next { s with cfg.pending := b, cfg.seqP := n, io.errors := e, io.result := r } ∧
        (s.ctl.lifecycle = .draining ∨ s.ctl.lifecycle = .stopped →
          b = s.cfg.pending ∧ n = s.cfg.seqP ∧ e = s.io.errors) ∧
        (n = s.cfg.seqP → b = s.cfg.pending)) ∧
    ∀ (k : Key) (val : Option (List Byte)) (dev : Option DevAnswer) (s : State),
      exec (keyInstr k val dev) s = exec (.cfgApply (keyValue k.word val) (if k.deviceLevel then dev.toList else [])) s

/-! ### Sample buffers -/

/-- Rules R131, R132, R134, R136, R305: a push is performed, with the overrun warning on an upward crossing; an empty vector is not
queued; on `RXQ` a push outside `Streaming` is ignored; a push after the end, on `TXQ` in every lifecycle state, or of a sample
outside the device's width, is refused; a push beyond the capacity waits. The order of these tests is the model's (log entry
10), and so is that a push on `TXQ`, not ended, outside `Streaming` waits (log entry 11). -/
def Obligations.SbPushEffect : Prop :=
  ∀ (q : QueueId) (v : List Sample) (s : State),
    let fits := q = .rxq → s.cfg.pending.bps = 1 →
      ∀ x ∈ v, -128 ≤ x.i.toInt ∧ x.i.toInt ≤ 127 ∧ -128 ≤ x.q.toInt ∧ x.q.toInt ≤ 127
    let room := ∀ cap, s.params.sbCap = some cap → (s.queue q).samples + v.length ≤ cap
    let above := (s.queue q).samples + v.length > 10 * s.cfg.pending.srate.toNat
    let crossing := above ∧ (s.queue q).overLatch = false
    (s.ctl.lifecycle = .streaming → (s.queue q).ended = false → fits → room → v ≠ [] →
      exec (.sbPush q v) s = .next
        { s.setQueue q ⟨(s.queue q).vecs ++ [v], false, decide above⟩ with
          cnt.overrun := if crossing then s.cnt.overrun + 1 else s.cnt.overrun
          io.errors := if crossing then s.io.errors ++ [.bufferOverrun q] else s.io.errors
          io.result := .done }) ∧
    (s.ctl.lifecycle = .streaming → (s.queue q).ended = false → room → v = [] →
      exec (.sbPush q v) s = .next { s with io.result := .done }) ∧
    (s.ctl.lifecycle ≠ .streaming → q = .rxq → exec (.sbPush q v) s = .next { s with io.result := .ignored }) ∧
    (s.ctl.lifecycle ≠ .streaming → q = .txq → (s.queue q).ended = false →
      exec (.sbPush q v) s = .next { s with io.result := .noStep }) ∧
    (s.ctl.lifecycle = .streaming ∨ q = .txq → (s.queue q).ended = true →
      exec (.sbPush q v) s = .refused (.pushAfterEnd q)) ∧
    (s.ctl.lifecycle = .streaming → (s.queue q).ended = false → ¬fits → exec (.sbPush q v) s = .refused .sampleOutOfRange) ∧
    (s.ctl.lifecycle = .streaming → (s.queue q).ended = false → fits → ¬room →
      exec (.sbPush q v) s = .next { s with io.result := .noStep })

/-- Rules R133, R135, R136, R305, R330: `SB.PULL` takes the oldest vector and re-arms the latch at or under the threshold; with the
queue empty it returns the empty vector after the end or a stop, and waits otherwise; `SB.WAITFILL` waits for the fill level, the
end or a stop. On `TXQ` in `Created` both wait unless `stop_flag` is set (that this cell of rule R305 stands before the enabling
conditions of R133 and R135 is log entry 24). That the check behind a pull counts no crossing (one could stand only after `SRATE`
was lowered) is log entry 12. -/
def Obligations.SbPullAndWaitfill : Prop :=
  ∀ (q : QueueId) (s : State),
    let early := q = .txq ∧ s.ctl.lifecycle = .created ∧ s.ctl.stopFlag = false
    (early →
      exec (.sbPull q) s = .next { s with io.result := .noStep } ∧
        ∀ n, exec (.sbWaitfill q n) s = .next { s with io.result := .noStep }) ∧
    (¬early → ∀ v rest, (s.queue q).vecs = v :: rest →
      let above := (rest.map List.length).sum > 10 * s.cfg.pending.srate.toNat
      exec (.sbPull q) s = .next
        { s.setQueue q ⟨rest, (s.queue q).ended, (s.queue q).overLatch && decide above⟩ with io.result := .vector v }) ∧
    (¬early → (s.queue q).vecs = [] → (s.queue q).ended = true ∨ s.ctl.stopFlag = true →
      exec (.sbPull q) s = .next { s with io.result := .vector [] }) ∧
    ((s.queue q).vecs = [] → (s.queue q).ended = false → s.ctl.stopFlag = false →
      exec (.sbPull q) s = .next { s with io.result := .noStep }) ∧
    ∀ n : Nat,
      (¬early → n ≤ ((s.queue q).vecs.map List.length).sum ∨ (s.queue q).ended = true ∨ s.ctl.stopFlag = true →
        exec (.sbWaitfill q n) s = .next { s with io.result := .done }) ∧
      (((s.queue q).vecs.map List.length).sum < n → (s.queue q).ended = false → s.ctl.stopFlag = false →
        exec (.sbWaitfill q n) s = .next { s with io.result := .noStep })

/-- Rules R74, R133: what is pushed comes out in order, after what was queued before, then the empty vector of the end. -/
def Obligations.QueueIsFifo : Prop :=
  ∀ (q : QueueId) (s : State) (vs : List (List Sample)), s.ctl.lifecycle = .streaming → (s.queue q).ended = false →
    s.params.sbCap = none → (∀ v ∈ vs, v ≠ [] ∧ (q = .rxq → ∀ x ∈ v, Sample.fitsWidth s.cfg.pending.bps x = true)) →
      ∃ t rs,
        runAll
            (vs.map (.sbPush q) ++ [.sbEnd q] ++ List.replicate ((s.queue q).vecs.length + vs.length + 1) (.sbPull q)) s =
          some (t, rs) ∧
        rs.drop (vs.length + 1) = ((s.queue q).vecs ++ vs ++ [[]]).map .vector ∧ (t.queue q).vecs = []

/-- Rules R132, R134: `SB.END` (code 0x12, its queue byte by log entry 2) sets `ended` and nothing else, in every lifecycle state; it is
idempotent; after it a push is refused (on `RXQ` outside `Streaming` rule R305 ignores it first, log entry 10), and a pull never
waits, but for one on `TXQ` in `Created`, which waits for `CTL.START` or a stop (rule R305, log entry 24). -/
def Obligations.SbEndEffect : Prop :=
  decode ⟨.op, [0x12, 0x00], []⟩ = .ok (.sbEnd .rxq) ∧ decode ⟨.op, [0x12, 0x01], []⟩ = .ok (.sbEnd .txq) ∧
  ∀ (q : QueueId) (s : State),
    ∃ t, exec (.sbEnd q) s = .next t ∧
      t = { s.setQueue q { s.queue q with ended := true } with io.result := .done } ∧
      exec (.sbEnd q) t = .next t ∧
      (s.ctl.lifecycle = .streaming ∨ q = .txq → ∀ v, exec (.sbPush q v) t = .refused (.pushAfterEnd q)) ∧
      let early := q = .txq ∧ s.ctl.lifecycle = .created ∧ s.ctl.stopFlag = false
      (¬early → ∃ u v, exec (.sbPull q) t = .next u ∧ u.io.result = .vector v) ∧
      (¬early → (s.queue q).vecs = [] → exec (.sbPull q) t = .next { t with io.result := .vector [] }) ∧
      (early → exec (.sbPull q) t = .next { t with io.result := .noStep })

/-- Rule R137: `SB.QUEUED` (code 0x14) returns the count in samples, writes nothing, and agrees with the status register. -/
def Obligations.SbQueuedEffect : Prop :=
  ∀ (q : QueueId) (s : State),
    (encode (.sbQueued q)).port = .op ∧ (encode (.sbQueued q)).bytes.head? = some 0x14 ∧
      exec (.sbQueued q) s = .next
        { s with io.result := .value (BitVec.ofNat 64 ((s.queue q).vecs.map List.length).sum) } ∧
      exec (.sbQueued .rxq) s = exec (.cfgRead 0x1B) s ∧ exec (.sbQueued .txq) s = exec (.cfgRead 0x1C) s ∧
      ∀ a b c : Sample, (s.queue q).vecs = [[a, b], [c]] → exec (.sbQueued q) s = .next { s with io.result := .value 3 }

/-! ### DSP -/

/-- Rules R142, R146: `MIX.FS4` turns by −90°·p (infra), +90°·p (supra) or not at all, with exact negation, and always advances
the phase (contents of `FCPOS` above 2, which no run reaches, read as center: log entry 25); `DEC.PROCESS` at `DECIM = 0` returns
its input and changes nothing; otherwise it advances the phase, changes nothing but the phase and the stages, and never stops.
What it then answers is `Obligations.DecimatorStageResponse`. Outside `Stopped` (rule R344); that both act in `Created` too is log entry 31. -/
def Obligations.MixAndDecimate : Prop :=
  ∀ (x : Sample) (s : State), s.ctl.lifecycle ≠ .stopped →
    (∀ turns : Nat,
      (s.cfg.activeRx.fcpos.toNat = 0 → turns = 3 * s.rx.mixPhase.toNat) →
      (s.cfg.activeRx.fcpos.toNat = 1 → turns = s.rx.mixPhase.toNat) →
      (2 ≤ s.cfg.activeRx.fcpos.toNat → turns = 0) →
        exec (.mixFs4 x) s = .next
          { s with
            rx.mixPhase := s.rx.mixPhase + 1
            io.result := .pair (quarterTurns turns ⟨x.i.toInt, x.q.toInt⟩) }) ∧
    (s.cfg.activeRx.decim = 0 → exec (.decProcess x) s = .next { s with io.result := .sample (some x) }) ∧
    (s.cfg.activeRx.decim ≠ 0 →
      ∃ (sts : List DecStage) (y : Option Sample),
        exec (.decProcess x) s = .next
          { s with rx.mixPhase := s.rx.mixPhase + 1, rx.dec := sts, io.result := .sample y } ∧
        sts.length = s.rx.dec.length ∧ sts.drop s.cfg.activeRx.decim.toNat = s.rx.dec.drop s.cfg.activeRx.decim.toNat)

/-- Rule R147: after `n0` inputs since the last `DSP.RESET`, `len` further inputs give
`floor((n0 + len) / 2^D) − floor(n0 / 2^D)` outputs, so `floor(n / 2^D)` in total and `len >> D` on aligned calls. Rule R180(b):
from a frame boundary with aligned stages (parities 0) and nothing to adopt, `RX.SAMPLE` packs the frame at exactly the
`127·SPB·2^D`-th input, and leaves the stages aligned. Outside `Stopped`; in `Created` log entry 31. -/
def Obligations.DecimatorLengthLaw : Prop :=
  (∀ (s : State) (xs : List (Sample × Wall)), s.ctl.lifecycle ≠ .stopped → s.rx.emitting = false → s.rx.accCount = 0 →
    s.cfg.seqRx = s.cfg.seqP → s.cfg.activeRx.decim.toNat ≤ 6 → s.cfg.activeRx.fecblk.toNat ≤ 127 → s.rx.dec.length = 6 →
    (∀ st ∈ s.rx.dec.take s.cfg.activeRx.decim.toNat, st.par = false) →
      let width : Byte := if 1 ≤ s.cfg.activeRx.decim.toNat ∨ s.rx.promoted = true then 2 else s.cfg.activeRx.bps
      width = 1 ∨ width = 2 → xs.length = frameLength width.toNat * 2 ^ s.cfg.activeRx.decim.toNat →
        (∃ t rs,
          runAll (xs.map fun x => .rxSample x.1 x.2) s = some (t, rs) ∧ (∀ r ∈ rs, r = .done) ∧ t.rx.emitting = true ∧
            t.rx.accCount = 0 ∧ t.rx.dec.length = 6 ∧
            ∀ st ∈ t.rx.dec.take s.cfg.activeRx.decim.toNat, st.par = false) ∧
        ∀ k, k < xs.length →
          ∃ u rs, runAll ((xs.take k).map fun x => .rxSample x.1 x.2) s = some (u, rs) ∧ u.rx.emitting = false) ∧
  ∀ (s : State) (earlier call : List Sample), s.ctl.lifecycle ≠ .stopped → s.cfg.activeRx.decim.toNat ≤ 6 →
    let d := s.cfg.activeRx.decim.toNat
    ∃ t rs,
      runAll (.dspReset .rx :: (earlier ++ call).map .decProcess) s = some (t, rs) ∧
        (rs.filter Result.isSample).length = (earlier.length + call.length) / 2 ^ d ∧
        ((rs.drop (1 + earlier.length)).filter Result.isSample).length =
          (earlier.length + call.length) / 2 ^ d - earlier.length / 2 ^ d ∧
        (2 ^ d ∣ earlier.length → 2 ^ d ∣ call.length →
          ((rs.drop (1 + earlier.length)).filter Result.isSample).length = call.length >>> d)

/-- Rules R142 to R144, R146, for any kernel: from reset, `DEC.PROCESS` with `DECIM = D` from 1 to 6 answers at every `2^D`-th input
the next sample of the mixed stream put through `D` stages, and nothing at the others; with one stage and no mixing, inputs
0, 2, 4, … give nothing and input `2m + 1` gives `sat16(floor(Σ h[i]·x[2m+1−i] / 2^S))`. Outside `Stopped`; in `Created` log
entry 31. -/
def Obligations.DecimatorStageResponse : Prop :=
  (∀ (s : State) (xs : List Sample), s.ctl.lifecycle ≠ .stopped → 1 ≤ s.cfg.activeRx.decim.toNat → s.cfg.activeRx.decim.toNat ≤ 6 →
    s.cfg.activeRx.fcpos.toNat ≤ 2 →
      let d := s.cfg.activeRx.decim.toNat
      let turned := xs.zipIdx.map fun x => quarterTurns (mixerTurns s.cfg.activeRx.fcpos x.2) ⟨x.1.i.toInt, x.1.q.toInt⟩
      let ys := (decimated s.params)^[d] turned
      ∃ t rs,
        runAll (.dspReset .rx :: xs.map .decProcess) s = some (t, rs) ∧
          ∀ n, n < xs.length →
            (2 ^ d ∣ n + 1 →
              ∃ y : Sample, rs[1 + n]? = some (.sample (some y)) ∧ ys[(n + 1) / 2 ^ d - 1]? = some ⟨y.i.toInt, y.q.toInt⟩) ∧
            (¬2 ^ d ∣ n + 1 → rs[1 + n]? = some (.sample none))) ∧
  ∀ (s : State) (xs : List Sample), s.ctl.lifecycle ≠ .stopped → s.cfg.activeRx.decim = 1 → s.cfg.activeRx.fcpos = 2 →
    let taps := s.params.hbTaps
    let response := fun (component : Sample → BitVec 16) (m : Nat) =>
      let acc := ((List.range taps.length).map fun i =>
        if i ≤ 2 * m + 1 then taps.getD i 0 * (component (xs.getD (2 * m + 1 - i) ⟨0, 0⟩)).toInt else 0).sum
      max (-32768) (min 32767 (acc / 2 ^ s.params.hbShift))
    ∃ t rs,
      runAll (.dspReset .rx :: xs.map .decProcess) s = some (t, rs) ∧
        ∀ m,
          (2 * m < xs.length → rs[1 + 2 * m]? = some (.sample none)) ∧
          (2 * m + 1 < xs.length →
            ∃ y : Sample, rs[1 + (2 * m + 1)]? = some (.sample (some y)) ∧ y.i.toInt = response Sample.i m ∧
              y.q.toInt = response Sample.q m)

/-- Rule R151: a constant input to a settled decimating stage comes out exactly, for every kernel that rule R141 admits. Outside
`Stopped`; in `Created` log entry 31. -/
def Obligations.DecimatorDcGain : Prop :=
  ∀ (s : State) (c : Sample) (n : Nat), s.ctl.lifecycle ≠ .stopped → kernelLegal s.params = true → s.cfg.activeRx.decim = 1 →
    s.cfg.activeRx.fcpos = 2 →
      ∃ t rs,
        runAll (.dspReset .rx :: List.replicate n (.decProcess c)) s = some (t, rs) ∧
          ∀ m, s.params.hbTaps.length ≤ 2 * m + 2 → 2 * m + 1 < n → rs[1 + (2 * m + 1)]? = some (.sample (some c))

/-- Rules R148, R149: `INT.PROCESS` gives `len(v) << INTERP` samples and writes the stages in use alone; `INTERP = 0` returns its
input; one stage from reset gives `sat16(floor(Σ 2·h[i]·u[n−i] / 2^S))` over the zero-stuffed input `u`; `INTERP` stages from
reset give one such stage upon another, and a second call goes on where the first one stopped. Outside `Stopped`; in `Created` log entry 31. -/
def Obligations.InterpolatorResponse : Prop :=
  ∀ (s : State) (v : List Sample), s.ctl.lifecycle ≠ .stopped → s.cfg.activeTx.interp.toNat ≤ 6 → s.tx.intp.length = 6 →
    (∃ (lines : List (List Sample)) (w : List Sample),
      exec (.intProcess v) s = .next { s with tx.intp := lines, io.result := .vector w } ∧
        w.length = v.length <<< s.cfg.activeTx.interp.toNat ∧
        lines.drop s.cfg.activeTx.interp.toNat = s.tx.intp.drop s.cfg.activeTx.interp.toNat ∧ lines.length = 6 ∧
        (s.cfg.activeTx.interp = 0 → w = v)) ∧
    (s.cfg.activeTx.interp = 1 →
      let taps := s.params.hbTaps
      let stuffed := fun n : Nat => if n % 2 = 0 then v.getD (n / 2) ⟨0, 0⟩ else ⟨0, 0⟩
      let response := fun (component : Sample → BitVec 16) (n : Nat) =>
        let acc := ((List.range taps.length).map fun i =>
          if i ≤ n then 2 * taps.getD i 0 * (component (stuffed (n - i))).toInt else 0).sum
        max (-32768) (min 32767 (acc / 2 ^ s.params.hbShift))
      ∃ t rs w,
        runAll [.dspReset .tx, .intProcess v] s = some (t, rs) ∧ rs[1]? = some (.vector w) ∧ w.length = 2 * v.length ∧
          ∀ n, n < 2 * v.length →
            ∃ y, w[n]? = some y ∧ y.i.toInt = response Sample.i n ∧ y.q.toInt = response Sample.q n) ∧
    ∀ v' : List Sample,
      ∃ t w w',
        runAll [.dspReset .tx, .intProcess v, .intProcess v'] s = some (t, [.done, .vector w, .vector w']) ∧
          ((w ++ w').map fun y => ⟨y.i.toInt, y.q.toInt⟩) =
            (interpolated s.params)^[s.cfg.activeTx.interp.toNat] ((v ++ v').map fun y => ⟨y.i.toInt, y.q.toInt⟩)

/-- Rule R150: `DSP.RESET` clears one half's stages and leaves everything else, outside `Stopped` (in `Created` log entry 31). -/
def Obligations.DspResetEffect : Prop :=
  ∀ s : State, s.ctl.lifecycle ≠ .stopped →
    exec (.dspReset .rx) s = .next
        { s with
          rx.mixPhase := 0
          rx.dec := List.replicate 6 ⟨List.replicate s.params.hbTaps.length ⟨0, 0⟩, false⟩
          io.result := .done } ∧
      exec (.dspReset .tx) s = .next
        { s with
          tx.intp := List.replicate 6 (List.replicate s.params.hbTaps.length ⟨0, 0⟩)
          io.result := .done }

/-! ### Adoption and packer -/

/-- Rules R172, R201: where an adoption is due it copies the whole pending bank, resets the half's DSP state where `DECIM`,
`FCPOS` or `INTERP` changed, and (Rx) promotes the width; where none is due nothing changes. That `RX.ADOPT` offered away from
its point waits is log entry 5, and that both are performed alone in `Created` too is log entry 31. -/
def Obligations.AdoptionEffect : Prop :=
  ∀ s : State, s.ctl.lifecycle ≠ .stopped →
    (s.rx.accCount = 0 → s.rx.emitting = false → s.cfg.seqRx ≠ s.cfg.seqP →
      let reset := s.cfg.pending.decim ≠ s.cfg.activeRx.decim ∨ s.cfg.pending.fcpos ≠ s.cfg.activeRx.fcpos
      exec .rxAdopt s = .next
        { s with
          cfg.activeRx := s.cfg.pending
          cfg.seqRx := s.cfg.seqP
          rx.promoted := s.rx.promoted || decide (1 ≤ s.cfg.pending.decim.toNat)
          rx.mixPhase := if reset then 0 else s.rx.mixPhase
          rx.dec :=
            if reset then List.replicate 6 ⟨List.replicate s.params.hbTaps.length ⟨0, 0⟩, false⟩ else s.rx.dec
          io.result := .done }) ∧
    (s.rx.accCount ≠ 0 ∨ s.rx.emitting = true ∨ s.cfg.seqRx = s.cfg.seqP →
      exec .rxAdopt s = .next { s with io.result := .noStep }) ∧
    (s.cfg.seqTx ≠ s.cfg.seqP →
      exec .txAdopt s = .next
        { s with
          cfg.activeTx := s.cfg.pending
          cfg.seqTx := s.cfg.seqP
          tx.intp :=
            if s.cfg.pending.interp ≠ s.cfg.activeTx.interp then
              List.replicate 6 (List.replicate s.params.hbTaps.length ⟨0, 0⟩)
            else s.tx.intp
          io.result := .done }) ∧
    (s.cfg.seqTx = s.cfg.seqP → exec .txAdopt s = .next { s with io.result := .done })

/-- Rules R31, R71, R172, R201, R300, R301 (SDRD property 7): no operation changes an active bank, or the width of the frame under
construction, but at the adoption points, by `CTL.RESET` (the reset bank) and by `CTL.START true` (the pending bank); so within
a frame `A_rx` and `frame_bps` never change. -/
def Obligations.ActiveBanksChangeOnlyAtAdoption : Prop :=
  ∀ (i : Instr) (s t : State), exec i s = .next t →
    (i = .ctlReset ∧ t.cfg.activeRx = Bank.reset ∧ t.cfg.activeTx = Bank.reset ∧ t.cfg.seqRx = 0 ∧ t.cfg.seqTx = 0 ∧
      t.rx.frameBps = 2) ∨
    (i = .ctlStart true ∧ s.ctl.lifecycle = .created ∧ t.cfg.activeRx = s.cfg.pending ∧ t.cfg.activeTx = s.cfg.pending ∧
      t.cfg.seqRx = s.cfg.seqP ∧ t.cfg.seqTx = s.cfg.seqP ∧
      t.rx.frameBps = if 1 ≤ s.cfg.pending.decim.toNat then 2 else s.cfg.pending.bps) ∨
    (t.cfg.activeRx = s.cfg.activeRx ∧ t.cfg.seqRx = s.cfg.seqRx ∧ t.rx.frameBps = s.rx.frameBps ∨
      s.rx.accCount = 0 ∧ s.rx.emitting = false ∧ t.cfg.seqRx = s.cfg.seqP ∧
        (t.cfg.activeRx = s.cfg.pending ∨ s.cfg.seqRx = s.cfg.seqP ∧ t.cfg.activeRx = s.cfg.activeRx) ∧
        (i = .rxAdopt ∨ (∃ x wall, i = .rxSample x wall) ∨ ∃ now wall, i = .rxwStep now wall)) ∧
    (t.cfg.activeTx = s.cfg.activeTx ∧ t.cfg.seqTx = s.cfg.seqTx ∨
      s.cfg.seqTx ≠ s.cfg.seqP ∧ t.cfg.activeTx = s.cfg.pending ∧ t.cfg.seqTx = s.cfg.seqP ∧
        (i = .txAdopt ∨ ∃ d, i.datagram = some d))

/-- Rules R61, R174: inside a frame, an input without an output of the decimator changes the decimator alone; an output's I and Q
land little-endian at their place in `FB`, every other byte stays, and the frame that it fills is packed. While a frame is
being sent, `RX.SAMPLE` offered alone waits (log entry 5). Outside `Stopped`; in `Created` log entry 31. -/
def Obligations.RxSampleStores : Prop :=
  ∀ (x : Sample) (wall : Wall) (s : State), s.ctl.lifecycle ≠ .stopped →
    (s.rx.emitting = true → exec (.rxSample x wall) s = .next { s with io.result := .noStep }) ∧
    (s.rx.emitting = false → s.rx.accCount ≠ 0 →
      ∃ (u : State) (z : Option Sample), exec (.decProcess x) s = .next u ∧ u.io.result = .sample z ∧
        (z = none → exec (.rxSample x wall) s = .next { u with io.result := .done }) ∧
        ∀ y, z = some y → s.rx.frameBps = 1 ∨ s.rx.frameBps = 2 →
          s.rx.accCount.toNat < frameLength s.rx.frameBps.toNat →
            let w := s.rx.frameBps.toNat
            let spb := 508 / (2 * w)
            let n := s.rx.accCount.toNat
            let place := 508 * (1 + n / spb) + n % spb * (2 * w)
            ∃ fb : Memory,
              (n + 1 < frameLength w →
                exec (.rxSample x wall) s = .next
                  { u with rx.fb := fb, rx.accCount := s.rx.accCount + 1, io.result := .done }) ∧
              (n + 1 = frameLength w →
                exec (.rxSample x wall) s =
                  exec (.packFrame wall) { u with rx.fb := fb, rx.accCount := s.rx.accCount + 1 }) ∧
              (∀ k, k < w → (Memory.get fb (place + k)).toNat = y.i.toNat / 256 ^ k % 256) ∧
              (∀ k, k < w → (Memory.get fb (place + w + k)).toNat = y.q.toNat / 256 ^ k % 256) ∧
              (∀ a, a < place ∨ place + 2 * w ≤ a → Memory.get fb a = Memory.get s.rx.fb a) ∧
              (s.rx.fb.wf = true → fb.wf = true))

/-- Rules R172, R173, R174: at a frame boundary `RX.SAMPLE` first adopts what is due, then latches `B_eff`, then goes on as
without a boundary. Outside `Stopped`; in `Created` log entry 31. -/
def Obligations.RxSampleAtBoundary : Prop :=
  ∀ (x : Sample) (wall : Wall) (s : State), s.ctl.lifecycle ≠ .stopped → s.rx.emitting = false → s.rx.accCount = 0 →
    (s.cfg.seqRx ≠ s.cfg.seqP →
      ∃ t, exec .rxAdopt s = .next t ∧ t.io.result = .done ∧ exec (.rxSample x wall) s = exec (.rxSample x wall) t) ∧
    (s.cfg.seqRx = s.cfg.seqP →
      let width : Byte := if 1 ≤ s.cfg.activeRx.decim.toNat ∨ s.rx.promoted = true then 2 else s.cfg.activeRx.bps
      (s.cfg.activeRx.decim = 0 → width = 1 ∨ width = 2 →
        ∃ fb : Memory,
          exec (.rxSample x wall) s = .next
            { s with rx.fb := fb, rx.accCount := 1, rx.frameBps := width, io.result := .done } ∧
          (∀ k, k < width.toNat → (Memory.get fb (508 + k)).toNat = x.i.toNat / 256 ^ k % 256) ∧
          (∀ k, k < width.toNat → (Memory.get fb (508 + width.toNat + k)).toNat = x.q.toNat / 256 ^ k % 256) ∧
          (∀ a, a < 508 ∨ 508 + 2 * width.toNat ≤ a → Memory.get fb a = Memory.get s.rx.fb a)) ∧
      ∀ u y, exec (.decProcess x) s = .next u → u.io.result = .sample y → s.cfg.activeRx.decim ≠ 0 →
        (y = none → exec (.rxSample x wall) s = .next { u with rx.frameBps := 2, io.result := .done }) ∧
        ∀ z, y = some z →
          ∃ fb : Memory,
            exec (.rxSample x wall) s = .next
              { u with rx.fb := fb, rx.accCount := 1, rx.frameBps := 2, io.result := .done } ∧
            (∀ k, k < 2 → (Memory.get fb (508 + k)).toNat = z.i.toNat / 256 ^ k % 256) ∧
            (∀ k, k < 2 → (Memory.get fb (510 + k)).toNat = z.q.toNat / 256 ^ k % 256) ∧
            ∀ a, a < 508 ∨ 512 ≤ a → Memory.get fb a = Memory.get s.rx.fb a)

/-- Rule R176: `PACK.FRAME` on a full frame writes the meta body and the parity bodies, leaves every other byte of `FB`, and
starts the emission. Offered alone on a frame that is not full it waits (log entry 5). Outside `Stopped`; in `Created`
log entry 31. -/
def Obligations.PackFrameEffect : Prop :=
  ∀ (wall : Wall) (s : State), s.ctl.lifecycle ≠ .stopped →
    (s.rx.accCount.toNat ≠ frameLength s.rx.frameBps.toNat →
      exec (.packFrame wall) s = .next { s with io.result := .noStep }) ∧
    (s.rx.accCount.toNat = frameLength s.rx.frameBps.toNat → s.cfg.activeRx.fecblk.toNat ≤ 127 →
      let r := s.cfg.activeRx.fecblk
      ∃ fb : Memory,
        exec (.packFrame wall) s = .next
          { s with
            rx.fb := fb
            rx.emitR := r
            rx.emitIdx := 0
            rx.emitting := true
            rx.accCount := 0
            io.result := .done } ∧
        bodyOf fb 0 = metaBuild s.cfg.activeRx s.rx.frameBps r wall ∧
        (∀ b, 1 ≤ b → b ≤ 127 → bodyOf fb b = bodyOf s.rx.fb b) ∧
        (∀ i, i < r.toNat →
          (fecEncode s.params ((List.range 128).map (bodyOf fb)) r.toNat)[i]? = some (bodyOf fb (128 + i))) ∧
        (∀ a, 508 ≤ a → a < 508 * 128 ∨ 508 * (128 + r.toNat) ≤ a → Memory.get fb a = Memory.get s.rx.fb a) ∧
        (s.rx.fb.wf = true → fb.wf = true))

/-- Rule R177: every byte of the meta body, `fcpos` without effect, and the rule's example. -/
def Obligations.MetaBuildLayout : Prop :=
  (∀ (b : Bank) (width r : Byte) (wall : Wall),
    let m := metaBuild b width r wall
    m.length = 508 ∧ leNat (m.take 4) = b.freq.toNat / 1000 % 2 ^ 32 ∧
      leNat ((m.drop 4).take 4) = b.srate.toNat / 2 ^ b.decim.toNat ∧ byteAt m 8 = width ∧ byteAt m 9 = b.ebits ∧
      byteAt m 10 = 128 ∧ byteAt m 11 = r ∧ leNat ((m.drop 12).take 4) = wall.sec.toNat ∧
      leNat ((m.drop 16).take 4) = wall.usec.toNat ∧ leNat ((m.drop 20).take 4) = (crc32 (m.take 20)).toNat ∧
      (∀ k, 24 ≤ k → k < 508 → byteAt m k = 0) ∧ ∀ f : Byte, metaBuild { b with fcpos := f } width r wall = m) ∧
    (metaBuild { Bank.reset with freq := 433970000, srate := 48000 } 2 0 ⟨1700000000, 250000⟩).take 24 =
      [0x32, 0x9F, 0x06, 0x00, 0x80, 0xBB, 0x00, 0x00, 0x02, 0x10, 0x80, 0x00, 0x00, 0xF1, 0x53, 0x65, 0x90, 0xD0, 0x03,
       0x00, 0x55, 0xA2, 0x55, 0x5D]

/-- Rules R178, R337 (SDRD property 4): `CRC32` is pure, has the standard check value, and changes whenever a single bit of its
operand does. -/
def Obligations.CrcDetectsSingleBit : Prop :=
  (∀ (bs : List Byte) (s : State), exec (.crc32 bs) s = .next { s with io.result := .crc (crc32 bs) }) ∧
    crc32 [0x31, 0x32, 0x33, 0x34, 0x35, 0x36, 0x37, 0x38, 0x39] = 0xCBF43926 ∧ crc32 [] = 0 ∧
    ∀ (bs : List Byte) (k j : Nat), k < bs.length → j < 8 → crc32 (flipBit bs k j) ≠ crc32 bs

/-- Rules R171, R303: the arms of the Rx worker, the first whose condition holds; the drain transition in full; no step
otherwise. -/
def Obligations.RxWorkerArms : Prop :=
  ∀ (now : U64) (wall : Wall) (s : State),
    (s.ctl.lifecycle = .streaming ∨ s.ctl.lifecycle = .draining →
      (s.rx.emitting = true → exec (.rxwStep now wall) s = exec (.netSend now) s) ∧
      (∀ x rest, s.rx.emitting = false → s.rx.cur = x :: rest →
        exec (.rxwStep now wall) s = exec (.rxSample x wall) { s with rx.cur := rest }) ∧
      (∀ v rest, s.rx.emitting = false → s.rx.cur = [] → s.rxq.vecs = v :: rest →
        ∃ t, exec (.sbPull .rxq) s = .next t ∧ t.rxq.vecs = rest ∧
          exec (.rxwStep now wall) s = .next { t with rx.cur := v, io.result := .done }) ∧
      (s.rx.emitting = false → s.rx.cur = [] → s.rxq.vecs = [] → s.rxq.ended = true ∨ s.ctl.lifecycle = .draining →
        exec (.rxwStep now wall) s = .next
          { s with
            rx.accCount := 0
            tx.win := []
            tx.synced := false
            txq.ended := true
            ctl := ⟨.stopped, if s.ctl.stopCause = .none then .endOfStream else s.ctl.stopCause, true⟩
            io.result := .done }) ∧
      (s.rx.emitting = false → s.rx.cur = [] → s.rxq.vecs = [] → s.rxq.ended = false → s.ctl.lifecycle = .streaming →
        exec (.rxwStep now wall) s = .next { s with io.result := .noStep })) ∧
    (s.ctl.lifecycle = .created ∨ s.ctl.lifecycle = .stopped →
      exec (.rxwStep now wall) s = .next { s with io.result := .noStep })

/-! ### Network out -/

/-- Rule R272: the datagram, the pacing, the cursors and the counters of one `NET.SEND`. That an offer before its time, or with
nothing to send, changes nothing and waits is log entry 5. Outside `Stopped`; in `Created` log entry 31. -/
def Obligations.NetSendEffect : Prop :=
  ∀ (now : U64) (s : State), s.ctl.lifecycle ≠ .stopped →
    (s.rx.emitting = true → s.rx.paceReadyAt ≤ now → s.rx.emitIdx.toNat ≤ 254 →
      let datagram : List Byte :=
        [s.rx.frameCtr.setWidth 8, (s.rx.frameCtr >>> 8).setWidth 8, s.rx.emitIdx, 0] ++ bodyOf s.rx.fb s.rx.emitIdx.toNat
      let last := s.rx.emitIdx.toNat + 1 = 128 + s.rx.emitR.toNat
      datagram.length = 512 ∧
      exec (.netSend now) s = .next
        { s with
          rx.paceReadyAt := now + s.cfg.activeRx.txdelay.setWidth 64
          rx.emitIdx := s.rx.emitIdx + 1
          rx.emitting := !decide last
          rx.frameCtr := if last then s.rx.frameCtr + 1 else s.rx.frameCtr
          cnt.dgramsSent := s.cnt.dgramsSent + 1
          cnt.framesSent := if last then s.cnt.framesSent + 1 else s.cnt.framesSent
          io.sent := s.io.sent ++ [datagram]
          io.result := .done }) ∧
    (s.rx.emitting = false ∨ now < s.rx.paceReadyAt → exec (.netSend now) s = .next { s with io.result := .noStep })

/-- Rules R69, R273: from the start of an emission, sends at times that respect the pacing emit blocks `0, 1, …, 127 + R` of the
frame, once each and in order, and then the frame counter advances by one, modulo 65536; outside `Stopped` (in `Created` log entry
31). Rule R180(d): the `n`-th frame built since `CTL.START`, from `n = 0`, is sent with frame index `n mod 65536`. -/
def Obligations.EmissionOrder : Prop :=
  (∀ (s t u : State) (l : List Instr) (rs : List Result), exec (.ctlStart true) s = .next t → (∀ i ∈ l, i ≠ .ctlReset) →
    runAll l t = some (u, rs) → u.rx.emitting = true →
      1 ≤ framesBuilt l t ∧ u.rx.frameCtr = BitVec.ofNat 16 (framesBuilt l t - 1)) ∧
  ∀ (s : State) (times : List U64), s.ctl.lifecycle ≠ .stopped → s.rx.emitting = true → s.rx.emitIdx = 0 → s.rx.emitR.toNat ≤ 127 →
    times.length = 128 + s.rx.emitR.toNat →
    (∀ t, times[0]? = some t → s.rx.paceReadyAt ≤ t) →
    (∀ k t u, times[k]? = some t → times[k + 1]? = some u → t + s.cfg.activeRx.txdelay.setWidth 64 ≤ u) →
      ∃ t rs, runAll (times.map .netSend) s = some (t, rs) ∧
        t.io.sent = s.io.sent ++ (List.range times.length).map (fun b =>
          [s.rx.frameCtr.setWidth 8, (s.rx.frameCtr >>> 8).setWidth 8, BitVec.ofNat 8 b, 0] ++ bodyOf s.rx.fb b) ∧
        t.rx.emitting = false ∧ t.rx.frameCtr = s.rx.frameCtr + 1 ∧ t.cnt.framesSent = s.cnt.framesSent + 1 ∧
        t.cnt.dgramsSent = s.cnt.dgramsSent + BitVec.ofNat 32 times.length ∧ t.rx.fb = s.rx.fb ∧ t.tx = s.tx

/-- Rule R274: whatever runs in between, the next datagram of the stream leaves no earlier than `TXDELAY` after this one. -/
def Obligations.PacingFloor : Prop :=
  ∀ (s u v w : State) (t1 t2 : U64) (l : List Instr) (rs : List Result),
    exec (.netSend t1) s = .next u → u.io.result = .done → (∀ i ∈ l, i ≠ .ctlReset ∧ ∀ devOk, i ≠ .ctlStart devOk) →
    runAll l u = some (v, rs) → v.io.sent = u.io.sent → exec (.netSend t2) v = .next w → w.io.result = .done →
    t1.toNat + s.cfg.activeRx.txdelay.toNat < 2 ^ 64 →
      t1.toNat + s.cfg.activeRx.txdelay.toNat ≤ t2.toNat

/-! ### Network in -/

/-- Rules R98, R200, R202, R203, R305: an arrival outside `Streaming` is ignored; in `Streaming` a wrong length or a block index
outside the frame is counted and dropped after the adoption. -/
def Obligations.ArrivalDropped : Prop :=
  ∀ (i : Instr) (d : List Byte) (s : State), i.datagram = some d →
    (s.ctl.lifecycle ≠ .streaming → exec i s = .next { s with io.result := .ignored }) ∧
    (s.ctl.lifecycle = .streaming →
      ∃ a, exec .txAdopt s = .next a ∧
        (d.length ≠ 512 →
          exec i s = .next
            { a with
              cnt.proto := s.cnt.proto + 1
              io.errors := s.io.errors ++ [.protocolLength]
              io.result := .done }) ∧
        (d.length = 512 → 128 + a.cfg.activeTx.fecblk.toNat ≤ (byteAt d 2).toNat →
          exec i s = .next
            { a with
              cnt.proto := s.cnt.proto + 1
              io.errors := s.io.errors ++ [.protocolHeader]
              io.result := .done }))

/-- Rules R60, R200, R201, R204, R205, R207, R208: an arrival with an adoption pending is the arrival after `TX.ADOPT`; an acceptable
one first synchronises the window; behind it is counted late; at most 4 ahead, where its slot is populated it is counted a
duplicate, where the slot is free and inside the frame it is stored, alone, and then the frames that are complete at `tx_base`
retire one after another, none where none is complete; a slot outside the frame is refused, and the reserved byte never
matters. -/
def Obligations.ArrivalStored : Prop :=
  ∀ (i : Instr) (d : List Byte) (s : State), i.datagram = some d → s.ctl.lifecycle = .streaming →
    (s.params.sbCap = none → s.cfg.seqTx ≠ s.cfg.seqP →
      ∃ a, exec .txAdopt s = .next a ∧ a.cfg.seqTx = a.cfg.seqP ∧ exec i s = exec i a) ∧
    (d.length = 512 → (byteAt d 2).toNat < 128 + s.cfg.activeTx.fecblk.toNat → s.cfg.seqTx = s.cfg.seqP →
      ∀ f : U16, f.toNat = (byteAt d 0).toNat + 256 * (byteAt d 1).toNat →
        let b := (byteAt d 2).toNat
        (s.tx.synced = false → s.tx.win = [] → ∃ t, t = { s with tx.synced := true, tx.base := f } ∧ exec i s = exec i t) ∧
        (s.tx.synced = true → 32768 ≤ dist f s.tx.base →
          exec i s = .next { s with cnt.late := s.cnt.late + 1, io.result := .done }) ∧
        (s.tx.synced = true → dist f s.tx.base ≤ 4 →
          ∀ e, e = (winFind s.tx.win f).getD ⟨f, [], [], 0⟩ →
            (b ∉ e.present → 255 ≤ b → exec i s = .refused .outsideStore) ∧
            (s.headIncomplete → b ∈ e.present → exec i s = .next { s with cnt.dup := s.cnt.dup + 1, io.result := .done }) ∧
            ∃ (w : List WinEntry) (e' : WinEntry),
              (s.headIncomplete → b ∉ e.present → b < 255 → f ≠ s.tx.base ∨ e.count + 1 < 128 →
                exec i s = .next { s with tx.win := w, io.result := .done }) ∧
              (s.canDeliver → s.windowSound = true → b < 255 →
                ∃ u, exec i s = .next { u with io.result := .done } ∧
                  (b ∈ e.present → { s with cnt.dup := s.cnt.dup + 1 }.retiresHead u) ∧
                  (b ∉ e.present → { s with tx.win := w }.retiresHead u)) ∧
              winFind w f = some e' ∧ (∀ g, g ≠ f → winFind w g = winFind s.tx.win g) ∧ e'.count = e.count + 1 ∧
              (∀ x, x ∈ e'.present ↔ x = b ∨ x ∈ e.present) ∧ bodyOf e'.body b = d.drop 4 ∧
              ∀ x, x ≠ b → bodyOf e'.body x = bodyOf e.body x)) ∧
    ∀ rsv : Byte, exec (.netRecv (d.set 3 rsv)) s = exec i s

/-- Rule R200: in `Streaming`, with `TXQ` open and unbounded, and from registers and a window that are sound, every byte string that
arrives is received to the end; and a frame more than 4 ahead first retires, by `TX.RETIRE` one after another, as many frames
as it takes to be 4 ahead, whatever they hold, each incomplete one counted lost (rule R206). -/
def Obligations.ArrivalTotal : Prop :=
  ∀ (i : Instr) (d : List Byte) (s : State), i.datagram = some d → s.canDeliver → s.banksLegal = true →
    s.windowSound = true →
    ∃ t, exec i s = .next t ∧ t.io.result = .done ∧
      (d.length = 512 → (byteAt d 2).toNat < 128 + s.cfg.activeTx.fecblk.toNat → s.cfg.seqTx = s.cfg.seqP →
        s.tx.synced = true →
        ∀ f : U16, f.toNat = (byteAt d 0).toNat + 256 * (byteAt d 1).toNat → dist f s.tx.base < 32768 →
          (∃ v rs, runAll (List.replicate (dist f s.tx.base - 4) .txRetire) s = some (v, rs) ∧ (∀ r ∈ rs, r = .done) ∧
            v.tx.base = s.tx.base + BitVec.ofNat 16 (dist f s.tx.base - 4) ∧
            dist f v.tx.base = min 4 (dist f s.tx.base) ∧ exec i s = exec i v) ∧
          ((∀ e ∈ s.tx.win, e.count < 128 ∧ e.fidx ≠ f) →
            t.tx.base = s.tx.base + BitVec.ofNat 16 (dist f s.tx.base - 4) ∧
              t.cnt.insuff = s.cnt.insuff + BitVec.ofNat 32 (dist f s.tx.base - 4) ∧
              t.cnt.lost = s.cnt.lost + BitVec.ofNat 32 (dist f s.tx.base - 4)))

/-- Rules R136, R210, R211: the frame at `tx_base` is lost for the first cause in the rule's order, counted once under it and once as
lost, replaced by `127·SPB(pad_bps) << INTERP` samples of interpolated silence in one vector, with the overrun warning where
that vector takes `TXQ` across its threshold, and the base advances by one. Offered alone outside `Streaming` it waits (log entry
5), and on a `TXQ` that has ended it is refused as its push is (rule R132; log entry 13). -/
def Obligations.TxRetireLost : Prop :=
  (∀ s : State, s.ctl.lifecycle ≠ .streaming → exec .txRetire s = .next { s with io.result := .noStep }) ∧
  (∀ s : State, s.ctl.lifecycle = .streaming → s.txq.ended = true → s.headIncomplete →
    exec .txRetire s = .refused (.pushAfterEnd .txq)) ∧
  ∀ (s : State) (cause : ErrorEvent), s.canDeliver → s.cfg.activeTx.interp.toNat ≤ 6 → s.tx.intp.length = 6 →
    s.tx.padBps = 1 ∨ s.tx.padBps = 2 →
    (s.headIncomplete ∧ cause = .insufficientBlocks s.tx.base ∨
      ∃ e, winFind s.tx.win s.tx.base = some e ∧ 128 ≤ e.count ∧ (∀ b ∈ e.present, b < 255) ∧
        let m := (fecDecode s.params e).headD []
        (crc32 (slice m 0 20) ≠ le32 m 20 ∧ cause = .crcFailure s.tx.base ∨
          crc32 (slice m 0 20) = le32 m 20 ∧ byteAt m 8 ≠ 1 ∧ byteAt m 8 ≠ 2 ∧ cause = .metaInvalid s.tx.base)) →
      ∃ (v : List Sample) (lines : List (List Sample)),
        let above := s.txq.samples + v.length > 10 * s.cfg.pending.srate.toNat
        let crossed : Nat := if above ∧ s.txq.overLatch = false then 1 else 0
        exec .txRetire s = .next
          { s with
            tx.win := s.tx.win.filter fun e => e.fidx != s.tx.base
            tx.base := s.tx.base + 1
            tx.intp := lines
            txq.vecs := s.txq.vecs ++ [v]
            txq.overLatch := decide above
            cnt.insuff := if cause = .insufficientBlocks s.tx.base then s.cnt.insuff + 1 else s.cnt.insuff
            cnt.crc := if cause = .crcFailure s.tx.base then s.cnt.crc + 1 else s.cnt.crc
            cnt.badMeta := if cause = .metaInvalid s.tx.base then s.cnt.badMeta + 1 else s.cnt.badMeta
            cnt.lost := s.cnt.lost + 1
            cnt.overrun := s.cnt.overrun + BitVec.ofNat 32 crossed
            io.errors := s.io.errors ++ [cause, .frameLoss s.tx.base] ++ List.replicate crossed (.bufferOverrun .txq)
            io.result := .done } ∧
        v.length = frameLength s.tx.padBps.toNat <<< s.cfg.activeTx.interp.toNat ∧
        exec (.intProcess (List.replicate (frameLength s.tx.padBps.toNat) ⟨0, 0⟩)) s =
          .next { s with tx.intp := lines, io.result := .vector v } ∧
        (s.cfg.activeTx.interp = 0 → v = List.replicate (frameLength s.tx.padBps.toNat) ⟨0, 0⟩)

/-- Rules R136, R210, R212 to R214: a complete frame at `tx_base` that passes its checks latches its meta fields, is counted, and is
delivered as one vector of `127·SPB(B) << INTERP` samples, with the overrun warning where that vector takes `TXQ` across its
threshold; the base advances by one. -/
def Obligations.TxRetireAccepts : Prop :=
  ∀ (s : State) (e : WinEntry), s.canDeliver → s.cfg.activeTx.interp.toNat ≤ 6 → s.tx.intp.length = 6 →
    winFind s.tx.win s.tx.base = some e → 128 ≤ e.count → (∀ b ∈ e.present, b < 255) →
      let data := fecDecode s.params e
      let m := data.headD []
      crc32 (slice m 0 20) = le32 m 20 → byteAt m 8 = 1 ∨ byteAt m 8 = 2 →
        ∃ (v : List Sample) (lines : List (List Sample)),
          let above := s.txq.samples + v.length > 10 * s.cfg.pending.srate.toNat
          let crossed : Nat := if above ∧ s.txq.overLatch = false then 1 else 0
          exec .txRetire s = .next
            { s with
              tx.win := s.tx.win.filter fun e => e.fidx != s.tx.base
              tx.base := s.tx.base + 1
              tx.intp := lines
              tx.padBps := byteAt m 8
              tx.last :=
                ⟨le32 m 0, le32 m 4, byteAt m 8, byteAt m 9, byteAt m 10, byteAt m 11, le32 m 12, le32 m 16, true⟩
              txq.vecs := s.txq.vecs ++ [v]
              txq.overLatch := decide above
              cnt.ok := s.cnt.ok + 1
              cnt.overrun := s.cnt.overrun + BitVec.ofNat 32 crossed
              io.errors := s.io.errors ++ List.replicate crossed (.bufferOverrun .txq)
              io.result := .done } ∧
          v.length = frameLength (byteAt m 8).toNat <<< s.cfg.activeTx.interp.toNat ∧
          exec (.intProcess (unpackExpand (byteAt m 8).toNat (data.drop 1))) s =
            .next { s with tx.intp := lines, io.result := .vector v } ∧
          (s.cfg.activeTx.interp = 0 → v = unpackExpand (byteAt m 8).toNat (data.drop 1))

/-- Rules R95, R97, R213: `UNPACK.EXPAND` is the inverse of the packer's layout, for both widths. -/
def Obligations.UnpackInvertsPack : Prop :=
  ∀ (b : Byte) (blocks : List (List Sample)) (s : State), b = 1 ∨ b = 2 → blocks.length = 127 →
    (∀ c ∈ blocks, c.length = 508 / (2 * b.toNat)) →
    (b = 1 → ∀ c ∈ blocks, ∀ x ∈ c, -128 ≤ x.i.toInt ∧ x.i.toInt ≤ 127 ∧ -128 ≤ x.q.toInt ∧ x.q.toInt ≤ 127) →
      exec
          (.unpackExpand (blocks.map fun c => c.flatMap fun x => leBytes b.toNat x.i.toNat ++ leBytes b.toNat x.q.toNat) b)
          s =
        .next { s with io.result := .vector blocks.flatten }

/-! ### Erasure code -/

/-- Rules R241, R244 for the default field: the laws of the product and of the inverse, the rule's examples, and Cauchy
coefficients that are the inverses of `(128 + i) ⊕ j` and never 0. -/
def Obligations.FieldLaws : Prop :=
  ∀ p : Params, p.gfPoly = 0x14D →
    (∀ a b : Byte, gmul p a b = gmul p b a) ∧ (∀ a b c : Byte, gmul p (gmul p a b) c = gmul p a (gmul p b c)) ∧
      (∀ a b c : Byte, gmul p a (b ^^^ c) = gmul p a b ^^^ gmul p a c) ∧ (∀ a : Byte, gmul p a 1 = a) ∧
      (∀ a : Byte, gmul p a 0 = 0) ∧ (∀ a : Byte, a ≠ 0 → ∀ b : Byte, gmul p a b = 1 ↔ b = ginv p a) ∧
      gmul p 2 0x80 = 0x4D ∧ gmul p 0x53 0xCA = 0x94 ∧ ginv p 2 = 0xA6 ∧ ginv p 0x80 = 0x93 ∧ ginv p 0xFF = 0x44 ∧
      ∀ i j : Nat, i ≤ 126 → j ≤ 127 →
        cauchy p i j ≠ 0 ∧ gmul p (cauchy p i j) (BitVec.ofNat 8 ((128 + i) ^^^ j)) = 1

/-- Rules R246, R251(a) to (c): every byte of every parity body is the Cauchy combination of the same byte of the data bodies;
so the code is linear, a smaller `m` is a prefix, and `m = 0` gives nothing. -/
def Obligations.FecEncodeLaws : Prop :=
  ∀ (s : State) (data : List (List Byte)) (m : Byte), data.length = 128 → (∀ d ∈ data, d.length = 508) → m.toNat ≤ 127 →
    ∃ parity : List (List Byte),
      exec (.fecEncode data m) s = .next { s with io.result := .bodies parity } ∧ parity.length = m.toNat ∧
      (∀ i b, i < m.toNat → b < 508 →
        byteAt (parity.getD i []) b =
          xorAll ((List.range 128).map fun j => gmul s.params (cauchy s.params i j) (byteAt (data.getD j []) b))) ∧
      (∀ d ∈ parity, d.length = 508) ∧ parity = (fecEncode s.params data 127).take m.toNat ∧
      ∀ data' : List (List Byte), data'.length = 128 → (∀ d ∈ data', d.length = 508) →
        fecEncode s.params (List.zipWith xorBytes data data') m.toNat =
          List.zipWith xorBytes parity (fecEncode s.params data' m.toNat)

/-- Rules R247 to R249, R251(e): with all data blocks present `FEC.DECODE` returns them as they are, whatever the parity bodies
hold; with fewer than 128 slots it reports so (what it then answers is log entry 17). -/
def Obligations.FecDecodeSystematic : Prop :=
  ∀ (s : State) (data : List (List Byte)) (parity : List Slot), data.length = 128 → (∀ d ∈ data, d.length = 508) →
    parity.Pairwise (fun a b => a.blk.toNat < b.blk.toNat) →
    (∀ x ∈ parity, 128 ≤ x.blk.toNat ∧ x.blk.toNat ≤ 254 ∧ x.body.length = 508) →
      exec (.fecDecode (data.zipIdx.map (fun x => ⟨BitVec.ofNat 8 x.2, x.1⟩) ++ parity)) s =
          .next { s with io.result := .bodies data } ∧
        ∀ slots : List Slot, slots.Pairwise (fun a b => a.blk.toNat < b.blk.toNat) → slots.length < 128 →
          exec (.fecDecode slots) s = .next { s with io.result := .insufficientBlocks }

/-- Rules R245, R251(d) (SDRD property 2): for the default field, from any 128 or more of the `128 + m` blocks of a code word
`FEC.DECODE` gives the 128 data blocks back. -/
def Obligations.FecRoundTrip : Prop :=
  ∀ (s : State) (data : List (List Byte)) (m : Nat) (mask : List Nat), s.params.gfPoly = 0x14D → data.length = 128 →
    (∀ d ∈ data, d.length = 508) → m ≤ 127 → mask.Pairwise (fun a b => a < b) → (∀ b ∈ mask, b < 128 + m) →
    128 ≤ mask.length →
      let word := data ++ fecEncode s.params data m
      exec (.fecDecode (mask.map fun b => ⟨BitVec.ofNat 8 b, word.getD b []⟩)) s = .next { s with io.result := .bodies data }

/-! ### Whole machine -/

/-- All invariants hold right after reset. -/
def Obligations.ResetSound : Prop :=
  State.reset.rxSound = true ∧ State.reset.windowSound = true ∧ State.reset.linesSound = true ∧
    State.reset.controlSound = true ∧ State.reset.frameWide = true ∧ State.reset.headIncomplete ∧ kernelLegal State.reset.params = true

/-- Rules R25, R30 to R40, R44, R60, R180(a): every step keeps the registers legal, the Rx cursors in range, nothing accumulated
while a frame is sent, and `FB` canonical and within its bounds; and from such a state, with a sound window, no step is refused
for an access outside `FB` or `WIN`. Rule R180(c): it keeps the frames two bytes wide while there is decimation, in the meta body
that is sent too. -/
def Obligations.StepKeepsRxSound : Prop :=
  ∀ s : State, s.rxSound = true →
    (∀ t, step s = .next t → t.rxSound = true ∧ (s.frameWide = true → t.frameWide = true)) ∧ (s.windowSound = true → step s ≠ .refused .outsideStore)

/-- Rules R21, R208: every step keeps the window: entries in rising order, at most 4 ahead of `tx_base`, counts equal to the slots
populated, bodies canonical, nothing before synchronisation; and never more than 5 entries. -/
def Obligations.StepKeepsWindowSound : Prop :=
  ∀ s : State, s.banksLegal = true → s.windowSound = true →
    s.tx.win.length ≤ 5 ∧ ∀ t, step s = .next t → t.banksLegal = true ∧ t.windowSound = true

/-- Rules R45, R46, R151: every step keeps six stages each way with delay lines of the kernel's length, and the decimator's
lines within 17 bits. That no step changes the parameters, `CTL.RESET` included, is the model's choice (log entry 6). -/
def Obligations.StepKeepsLinesSound : Prop :=
  ∀ s t : State, s.linesSound = true → step s = .next t → t.linesSound = true ∧ t.params = s.params

/-- Rules R27, R43, R301 to R304: every step keeps `stop_flag` and `STOP_CAUSE` in agreement with `LIFECYCLE`, and
`CNT_LOST = CNT_INSUFF + CNT_CRC + CNT_META`. -/
def Obligations.StepKeepsControlSound : Prop :=
  ∀ s t : State, s.controlSound = true → step s = .next t → t.controlSound = true

/-- Rules R207, R208(c): after an accepted arrival (neither dropped nor late) no complete frame waits at `tx_base`, and any other
arrival leaves it so where it was so. A complete frame waits before an arrival only where `TX.RETIRE` was offered alone (log
entry 30). -/
def Obligations.ArrivalLeavesHeadIncomplete : Prop :=
  ∀ (i : Instr) (d : List Byte) (s t : State), i.datagram = some d → exec i s = .next t →
    (s.headIncomplete → t.headIncomplete) ∧
      ∀ a, exec .txAdopt s = .next a → t.io.result = .done → d.length = 512 →
        (byteAt d 2).toNat < 128 + a.cfg.activeTx.fecblk.toNat →
        (∀ f : U16, f.toNat = (byteAt d 0).toNat + 256 * (byteAt d 1).toNat → a.tx.synced = true →
          dist f a.tx.base < 32768) →
          t.headIncomplete

/-- Rules R43, R330, R340: every operation extends the trace of errors, never rewrites it, and each kind's counter moves by the number
of events of that kind it added; `CTL.RESET` and `CTL.START true` alone put the counters back to 0, and add no event. That `CTL.RESET` keeps the trace, an output of the block, is the model's
choice (log entry 9). -/
def Obligations.ErrorsAreCounted : Prop :=
  ∀ (i : Instr) (s t : State), exec i s = .next t →
    (i = .ctlReset ∨ i = .ctlStart true → t.io.errors = s.io.errors ∧ t.cnt = ⟨0, 0, 0, 0, 0, 0, 0, 0, 0, 0, 0⟩) ∧
    (i ≠ .ctlReset → i ≠ .ctlStart true → ∃ new : List ErrorEvent, t.io.errors = s.io.errors ++ new ∧
      let moved := fun (before after : U32) (kind : Nat) =>
        after = before + BitVec.ofNat 32 (new.filter fun e => e.code = kind).length
      moved s.cnt.overrun t.cnt.overrun 4 ∧ moved s.cnt.lost t.cnt.lost 5 ∧ moved s.cnt.crc t.cnt.crc 6 ∧
        moved s.cnt.insuff t.cnt.insuff 7 ∧ moved s.cnt.proto t.cnt.proto 8 ∧ moved s.cnt.badMeta t.cnt.badMeta 9)

/-- Rules R14, R353: an `RXW.STEP` that does not drain and a `NET.RECV` commute, but for the order of the trace and the value
last returned. (At the drain transition they do not: it stops the block, and the datagram is then ignored; log entry 30.) -/
def Obligations.RxAndTxCommute : Prop :=
  ∀ (now : U64) (wall : Wall) (i : Instr) (d : List Byte) (s u v : State), i.datagram = some d →
    exec (.rxwStep now wall) s = .next u → u.ctl.lifecycle = s.ctl.lifecycle → exec i s = .next v →
      ∃ x y, exec i u = .next x ∧ exec (.rxwStep now wall) v = .next y ∧
        { x with io.errors := [], io.result := .idle } = { y with io.errors := [], io.result := .idle } ∧
        x.io.errors.Perm y.io.errors

/-- Rules R215, R251(d) end to end (SDRD property 2), for the default field: a frame packed by `PACK.FRAME` and sent by `NET.SEND`, of
which any 128 or more blocks arrive by `NET.RECV`, each once and in any order, at a receiver that has not synchronised, is
accepted with the sender's samples, and the blocks behind the 128th are late; and a window entry that holds any 128 or more
blocks of it is accepted at retirement. -/
def Obligations.FrameSurvivesErasures : Prop :=
  (∀ (tx sent u rx : State) (wall : Wall) (times : List U64) (rs : List Result) (order : List Nat),
    exec (.packFrame wall) tx = .next sent → sent.io.result = .done → tx.params.gfPoly = 0x14D →
    rx.params.gfPoly = 0x14D → tx.rx.frameBps = 1 ∨ tx.rx.frameBps = 2 → sent.rx.emitR.toNat ≤ 127 →
    times.length = 128 + sent.rx.emitR.toNat → runAll (times.map .netSend) sent = some (u, rs) → (∀ r ∈ rs, r = .done) →
    order.Nodup → 128 ≤ order.length → (∀ b ∈ order, b < 128 + sent.rx.emitR.toNat) →
    (∀ b ∈ order, b < 128 + rx.cfg.activeTx.fecblk.toNat) → rx.canDeliver → rx.cfg.seqTx = rx.cfg.seqP →
    rx.cfg.activeTx.interp = 0 → rx.tx.synced = false → rx.tx.win = [] →
      let datagrams := u.io.sent.drop tx.io.sent.length
      datagrams.length = 128 + sent.rx.emitR.toNat ∧
      ∃ t rs', runAll (order.map fun b => .netRecv (datagrams.getD b [])) rx = some (t, rs') ∧
        t.cnt.ok = rx.cnt.ok + 1 ∧ t.cnt.late = rx.cnt.late + BitVec.ofNat 32 (order.length - 128) ∧
        t.tx.base = tx.rx.frameCtr + 1 ∧ t.tx.win = [] ∧
        t.txq.vecs = rx.txq.vecs ++
          [unpackExpand tx.rx.frameBps.toNat ((List.range 127).map fun b => bodyOf tx.rx.fb (1 + b))]) ∧
  ∀ (tx rx sent : State) (wall : Wall) (mask : List Nat) (e : WinEntry),
    exec (.packFrame wall) tx = .next sent → sent.io.result = .done → tx.params.gfPoly = 0x14D →
    rx.params.gfPoly = 0x14D → tx.rx.frameBps = 1 ∨ tx.rx.frameBps = 2 → sent.rx.emitR.toNat ≤ 127 →
    mask.Pairwise (fun a b => a < b) → (∀ b ∈ mask, b < 128 + sent.rx.emitR.toNat) → 128 ≤ mask.length →
    e.present = mask → e.count = mask.length → (∀ b ∈ mask, bodyOf e.body b = bodyOf sent.rx.fb b) →
    winFind rx.tx.win rx.tx.base = some e → rx.canDeliver → rx.cfg.activeTx.interp = 0 →
      ∃ t, exec .txRetire rx = .next t ∧ t.cnt.ok = rx.cnt.ok + 1 ∧ t.tx.base = rx.tx.base + 1 ∧
        t.txq.vecs = rx.txq.vecs ++
          [unpackExpand tx.rx.frameBps.toNat ((List.range 127).map fun b => bodyOf tx.rx.fb (1 + b))]

end
end

