-- ==== Sys2Proof/Laws/State.lean ====
section
/-! SUPPORT. One lemma per field per update of the state, so that no proof unfolds a record update. -/

namespace Sys2Proof.Machine

/-! ### `State.ret` -/

@[simp] theorem State.ret_params (s : State) (r : Result) : (s.ret r).params = s.params := by
  rfl

@[simp] theorem State.ret_ctl (s : State) (r : Result) : (s.ret r).ctl = s.ctl := by
  rfl

@[simp] theorem State.ret_cfg (s : State) (r : Result) : (s.ret r).cfg = s.cfg := by
  rfl

@[simp] theorem State.ret_rx (s : State) (r : Result) : (s.ret r).rx = s.rx := by
  rfl

@[simp] theorem State.ret_tx (s : State) (r : Result) : (s.ret r).tx = s.tx := by
  rfl

@[simp] theorem State.ret_rxq (s : State) (r : Result) : (s.ret r).rxq = s.rxq := by
  rfl

@[simp] theorem State.ret_txq (s : State) (r : Result) : (s.ret r).txq = s.txq := by
  rfl

@[simp] theorem State.ret_cnt (s : State) (r : Result) : (s.ret r).cnt = s.cnt := by
  rfl

@[simp] theorem State.ret_io_inbox (s : State) (r : Result) : (s.ret r).io.inbox = s.io.inbox := by
  rfl

@[simp] theorem State.ret_io_sent (s : State) (r : Result) : (s.ret r).io.sent = s.io.sent := by
  rfl

@[simp] theorem State.ret_io_errors (s : State) (r : Result) : (s.ret r).io.errors = s.io.errors := by
  rfl

@[simp] theorem State.ret_io_result (s : State) (r : Result) : (s.ret r).io.result = r := by
  rfl

@[simp] theorem State.ret_ret (s : State) (r r' : Result) : (s.ret r).ret r' = s.ret r' := by
  rfl

@[simp] theorem State.ret_queue (s : State) (r : Result) (q : QueueId) : (s.ret r).queue q = s.queue q := by
  cases q <;> rfl

/-! ### `State.withInbox` -/

@[simp] theorem State.withInbox_params (s : State) (l : List Transaction) : (s.withInbox l).params = s.params := by
  rfl

@[simp] theorem State.withInbox_ctl (s : State) (l : List Transaction) : (s.withInbox l).ctl = s.ctl := by
  rfl

@[simp] theorem State.withInbox_cfg (s : State) (l : List Transaction) : (s.withInbox l).cfg = s.cfg := by
  rfl

@[simp] theorem State.withInbox_rx (s : State) (l : List Transaction) : (s.withInbox l).rx = s.rx := by
  rfl

@[simp] theorem State.withInbox_tx (s : State) (l : List Transaction) : (s.withInbox l).tx = s.tx := by
  rfl

@[simp] theorem State.withInbox_rxq (s : State) (l : List Transaction) : (s.withInbox l).rxq = s.rxq := by
  rfl

@[simp] theorem State.withInbox_txq (s : State) (l : List Transaction) : (s.withInbox l).txq = s.txq := by
  rfl

@[simp] theorem State.withInbox_cnt (s : State) (l : List Transaction) : (s.withInbox l).cnt = s.cnt := by
  rfl

@[simp] theorem State.withInbox_io_sent (s : State) (l : List Transaction) : (s.withInbox l).io.sent = s.io.sent := by
  rfl

@[simp] theorem State.withInbox_io_errors (s : State) (l : List Transaction) : (s.withInbox l).io.errors = s.io.errors := by
  rfl

@[simp] theorem State.withInbox_io_result (s : State) (l : List Transaction) : (s.withInbox l).io.result = s.io.result := by
  rfl

@[simp] theorem State.withInbox_io_inbox (s : State) (l : List Transaction) : (s.withInbox l).io.inbox = l := by
  rfl

/-! ### `raise` -/

@[simp] theorem raise_params (e : ErrorEvent) (s : State) : (raise e s).params = s.params := by
  rfl

@[simp] theorem raise_ctl (e : ErrorEvent) (s : State) : (raise e s).ctl = s.ctl := by
  rfl

@[simp] theorem raise_cfg (e : ErrorEvent) (s : State) : (raise e s).cfg = s.cfg := by
  rfl

@[simp] theorem raise_rx (e : ErrorEvent) (s : State) : (raise e s).rx = s.rx := by
  rfl

@[simp] theorem raise_tx (e : ErrorEvent) (s : State) : (raise e s).tx = s.tx := by
  rfl

@[simp] theorem raise_rxq (e : ErrorEvent) (s : State) : (raise e s).rxq = s.rxq := by
  rfl

@[simp] theorem raise_txq (e : ErrorEvent) (s : State) : (raise e s).txq = s.txq := by
  rfl

@[simp] theorem raise_cnt (e : ErrorEvent) (s : State) : (raise e s).cnt = s.cnt.record e := by
  rfl

@[simp] theorem raise_io_inbox (e : ErrorEvent) (s : State) : (raise e s).io.inbox = s.io.inbox := by
  rfl

@[simp] theorem raise_io_sent (e : ErrorEvent) (s : State) : (raise e s).io.sent = s.io.sent := by
  rfl

@[simp] theorem raise_io_result (e : ErrorEvent) (s : State) : (raise e s).io.result = s.io.result := by
  rfl

@[simp] theorem raise_io_errors (e : ErrorEvent) (s : State) : (raise e s).io.errors = s.io.errors ++ [e] := by
  rfl

@[simp] theorem raise_queue (e : ErrorEvent) (s : State) (q : QueueId) : (raise e s).queue q = s.queue q := by
  cases q <;> rfl

/-! ### `State.setQueue` -/

@[simp] theorem State.setQueue_params (s : State) (q : QueueId) (x : SampleQueue) : (s.setQueue q x).params = s.params := by
  cases q <;> rfl

@[simp] theorem State.setQueue_ctl (s : State) (q : QueueId) (x : SampleQueue) : (s.setQueue q x).ctl = s.ctl := by
  cases q <;> rfl

@[simp] theorem State.setQueue_cfg (s : State) (q : QueueId) (x : SampleQueue) : (s.setQueue q x).cfg = s.cfg := by
  cases q <;> rfl

@[simp] theorem State.setQueue_rx (s : State) (q : QueueId) (x : SampleQueue) : (s.setQueue q x).rx = s.rx := by
  cases q <;> rfl

@[simp] theorem State.setQueue_tx (s : State) (q : QueueId) (x : SampleQueue) : (s.setQueue q x).tx = s.tx := by
  cases q <;> rfl

@[simp] theorem State.setQueue_cnt (s : State) (q : QueueId) (x : SampleQueue) : (s.setQueue q x).cnt = s.cnt := by
  cases q <;> rfl

@[simp] theorem State.setQueue_io (s : State) (q : QueueId) (x : SampleQueue) : (s.setQueue q x).io = s.io := by
  cases q <;> rfl

@[simp] theorem State.setQueue_rxq_rxq (s : State) (x : SampleQueue) : (s.setQueue .rxq x).rxq = x := by
  rfl

@[simp] theorem State.setQueue_rxq_txq (s : State) (x : SampleQueue) : (s.setQueue .rxq x).txq = s.txq := by
  rfl

@[simp] theorem State.setQueue_txq_txq (s : State) (x : SampleQueue) : (s.setQueue .txq x).txq = x := by
  rfl

@[simp] theorem State.setQueue_txq_rxq (s : State) (x : SampleQueue) : (s.setQueue .txq x).rxq = s.rxq := by
  rfl

@[simp] theorem State.queue_setQueue (s : State) (q : QueueId) (x : SampleQueue) : (s.setQueue q x).queue q = x := by
  cases q <;> rfl

theorem State.queue_setQueue_ne (s : State) (q q' : QueueId) (x : SampleQueue) (h : q' ≠ q) :
    (s.setQueue q x).queue q' = s.queue q' := by
  cases q <;> cases q' <;> first | rfl | exact absurd rfl h

/-! ### `endQueue` -/

@[simp] theorem endQueue_params (q : QueueId) (s : State) : (endQueue q s).params = s.params := by
  cases q <;> rfl

@[simp] theorem endQueue_ctl (q : QueueId) (s : State) : (endQueue q s).ctl = s.ctl := by
  cases q <;> rfl

@[simp] theorem endQueue_cfg (q : QueueId) (s : State) : (endQueue q s).cfg = s.cfg := by
  cases q <;> rfl

@[simp] theorem endQueue_rx (q : QueueId) (s : State) : (endQueue q s).rx = s.rx := by
  cases q <;> rfl

@[simp] theorem endQueue_tx (q : QueueId) (s : State) : (endQueue q s).tx = s.tx := by
  cases q <;> rfl

@[simp] theorem endQueue_cnt (q : QueueId) (s : State) : (endQueue q s).cnt = s.cnt := by
  cases q <;> rfl

@[simp] theorem endQueue_io (q : QueueId) (s : State) : (endQueue q s).io = s.io := by
  cases q <;> rfl

@[simp] theorem endQueue_queue_vecs (q q' : QueueId) (s : State) : ((endQueue q s).queue q').vecs = (s.queue q').vecs := by
  cases q <;> cases q' <;> rfl

@[simp] theorem endQueue_queue_overLatch (q q' : QueueId) (s : State) :
    ((endQueue q s).queue q').overLatch = (s.queue q').overLatch := by
  cases q <;> cases q' <;> rfl

@[simp] theorem endQueue_queue_ended (q : QueueId) (s : State) : ((endQueue q s).queue q).ended = true := by
  cases q <;> rfl

/-! ### `updatePending` -/

@[simp] theorem updatePending_params (b : Bank) (s : State) : (updatePending b s).params = s.params := by
  rfl

@[simp] theorem updatePending_ctl (b : Bank) (s : State) : (updatePending b s).ctl = s.ctl := by
  rfl

@[simp] theorem updatePending_rx (b : Bank) (s : State) : (updatePending b s).rx = s.rx := by
  rfl

@[simp] theorem updatePending_tx (b : Bank) (s : State) : (updatePending b s).tx = s.tx := by
  rfl

@[simp] theorem updatePending_rxq (b : Bank) (s : State) : (updatePending b s).rxq = s.rxq := by
  rfl

@[simp] theorem updatePending_txq (b : Bank) (s : State) : (updatePending b s).txq = s.txq := by
  rfl

@[simp] theorem updatePending_cnt (b : Bank) (s : State) : (updatePending b s).cnt = s.cnt := by
  rfl

@[simp] theorem updatePending_io (b : Bank) (s : State) : (updatePending b s).io = s.io := by
  rfl

@[simp] theorem updatePending_cfg_pending (b : Bank) (s : State) : (updatePending b s).cfg.pending = b := by
  rfl

@[simp] theorem updatePending_cfg_activeRx (b : Bank) (s : State) : (updatePending b s).cfg.activeRx = s.cfg.activeRx := by
  rfl

@[simp] theorem updatePending_cfg_activeTx (b : Bank) (s : State) : (updatePending b s).cfg.activeTx = s.cfg.activeTx := by
  rfl

@[simp] theorem updatePending_cfg_seqP (b : Bank) (s : State) : (updatePending b s).cfg.seqP = s.cfg.seqP + 1 := by
  rfl

@[simp] theorem updatePending_cfg_seqRx (b : Bank) (s : State) : (updatePending b s).cfg.seqRx = s.cfg.seqRx := by
  rfl

@[simp] theorem updatePending_cfg_seqTx (b : Bank) (s : State) : (updatePending b s).cfg.seqTx = s.cfg.seqTx := by
  rfl

/-! ### `rxAdopt` -/

@[simp] theorem rxAdopt_params (s : State) : (rxAdopt s).params = s.params := by
  rfl

@[simp] theorem rxAdopt_ctl (s : State) : (rxAdopt s).ctl = s.ctl := by
  rfl

@[simp] theorem rxAdopt_tx (s : State) : (rxAdopt s).tx = s.tx := by
  rfl

@[simp] theorem rxAdopt_rxq (s : State) : (rxAdopt s).rxq = s.rxq := by
  rfl

@[simp] theorem rxAdopt_txq (s : State) : (rxAdopt s).txq = s.txq := by
  rfl

@[simp] theorem rxAdopt_cnt (s : State) : (rxAdopt s).cnt = s.cnt := by
  rfl

@[simp] theorem rxAdopt_io (s : State) : (rxAdopt s).io = s.io := by
  rfl

@[simp] theorem rxAdopt_cfg_pending (s : State) : (rxAdopt s).cfg.pending = s.cfg.pending := by
  rfl

@[simp] theorem rxAdopt_cfg_activeRx (s : State) : (rxAdopt s).cfg.activeRx = s.cfg.pending := by
  rfl

@[simp] theorem rxAdopt_cfg_activeTx (s : State) : (rxAdopt s).cfg.activeTx = s.cfg.activeTx := by
  rfl

@[simp] theorem rxAdopt_cfg_seqP (s : State) : (rxAdopt s).cfg.seqP = s.cfg.seqP := by
  rfl

@[simp] theorem rxAdopt_cfg_seqRx (s : State) : (rxAdopt s).cfg.seqRx = s.cfg.seqP := by
  rfl

@[simp] theorem rxAdopt_cfg_seqTx (s : State) : (rxAdopt s).cfg.seqTx = s.cfg.seqTx := by
  rfl

@[simp] theorem rxAdopt_rx_fb (s : State) : (rxAdopt s).rx.fb = s.rx.fb := by
  unfold rxAdopt; dsimp only; split <;> rfl

@[simp] theorem rxAdopt_rx_cur (s : State) : (rxAdopt s).rx.cur = s.rx.cur := by
  unfold rxAdopt; dsimp only; split <;> rfl

@[simp] theorem rxAdopt_rx_frameCtr (s : State) : (rxAdopt s).rx.frameCtr = s.rx.frameCtr := by
  unfold rxAdopt; dsimp only; split <;> rfl

@[simp] theorem rxAdopt_rx_accCount (s : State) : (rxAdopt s).rx.accCount = s.rx.accCount := by
  unfold rxAdopt; dsimp only; split <;> rfl

@[simp] theorem rxAdopt_rx_emitting (s : State) : (rxAdopt s).rx.emitting = s.rx.emitting := by
  unfold rxAdopt; dsimp only; split <;> rfl

@[simp] theorem rxAdopt_rx_emitIdx (s : State) : (rxAdopt s).rx.emitIdx = s.rx.emitIdx := by
  unfold rxAdopt; dsimp only; split <;> rfl

@[simp] theorem rxAdopt_rx_emitR (s : State) : (rxAdopt s).rx.emitR = s.rx.emitR := by
  unfold rxAdopt; dsimp only; split <;> rfl

@[simp] theorem rxAdopt_rx_frameBps (s : State) : (rxAdopt s).rx.frameBps = s.rx.frameBps := by
  unfold rxAdopt; dsimp only; split <;> rfl

@[simp] theorem rxAdopt_rx_paceReadyAt (s : State) : (rxAdopt s).rx.paceReadyAt = s.rx.paceReadyAt := by
  unfold rxAdopt; dsimp only; split <;> rfl

/-! ### `txAdopt` -/

@[simp] theorem txAdopt_params (s : State) : (txAdopt s).params = s.params := by
  unfold txAdopt; split <;> rfl

@[simp] theorem txAdopt_ctl (s : State) : (txAdopt s).ctl = s.ctl := by
  unfold txAdopt; split <;> rfl

@[simp] theorem txAdopt_rx (s : State) : (txAdopt s).rx = s.rx := by
  unfold txAdopt; split <;> rfl

@[simp] theorem txAdopt_rxq (s : State) : (txAdopt s).rxq = s.rxq := by
  unfold txAdopt; split <;> rfl

@[simp] theorem txAdopt_txq (s : State) : (txAdopt s).txq = s.txq := by
  unfold txAdopt; split <;> rfl

@[simp] theorem txAdopt_cnt (s : State) : (txAdopt s).cnt = s.cnt := by
  unfold txAdopt; split <;> rfl

@[simp] theorem txAdopt_io (s : State) : (txAdopt s).io = s.io := by
  unfold txAdopt; split <;> rfl

@[simp] theorem txAdopt_tx_win (s : State) : (txAdopt s).tx.win = s.tx.win := by
  unfold txAdopt; split
  · dsimp only; split <;> rfl
  · rfl

@[simp] theorem txAdopt_tx_synced (s : State) : (txAdopt s).tx.synced = s.tx.synced := by
  unfold txAdopt; split
  · dsimp only; split <;> rfl
  · rfl

@[simp] theorem txAdopt_tx_base (s : State) : (txAdopt s).tx.base = s.tx.base := by
  unfold txAdopt; split
  · dsimp only; split <;> rfl
  · rfl

@[simp] theorem txAdopt_tx_last (s : State) : (txAdopt s).tx.last = s.tx.last := by
  unfold txAdopt; split
  · dsimp only; split <;> rfl
  · rfl

@[simp] theorem txAdopt_tx_padBps (s : State) : (txAdopt s).tx.padBps = s.tx.padBps := by
  unfold txAdopt; split
  · dsimp only; split <;> rfl
  · rfl

@[simp] theorem txAdopt_cfg_pending (s : State) : (txAdopt s).cfg.pending = s.cfg.pending := by
  unfold txAdopt; split <;> rfl

@[simp] theorem txAdopt_cfg_activeRx (s : State) : (txAdopt s).cfg.activeRx = s.cfg.activeRx := by
  unfold txAdopt; split <;> rfl

@[simp] theorem txAdopt_cfg_seqP (s : State) : (txAdopt s).cfg.seqP = s.cfg.seqP := by
  unfold txAdopt; split <;> rfl

@[simp] theorem txAdopt_cfg_seqRx (s : State) : (txAdopt s).cfg.seqRx = s.cfg.seqRx := by
  unfold txAdopt; split <;> rfl

/-! ### `advanceBase` -/

@[simp] theorem advanceBase_params (f : U16) (s : State) : (advanceBase f s).params = s.params := by
  rfl

@[simp] theorem advanceBase_ctl (f : U16) (s : State) : (advanceBase f s).ctl = s.ctl := by
  rfl

@[simp] theorem advanceBase_cfg (f : U16) (s : State) : (advanceBase f s).cfg = s.cfg := by
  rfl

@[simp] theorem advanceBase_rx (f : U16) (s : State) : (advanceBase f s).rx = s.rx := by
  rfl

@[simp] theorem advanceBase_rxq (f : U16) (s : State) : (advanceBase f s).rxq = s.rxq := by
  rfl

@[simp] theorem advanceBase_txq (f : U16) (s : State) : (advanceBase f s).txq = s.txq := by
  rfl

@[simp] theorem advanceBase_cnt (f : U16) (s : State) : (advanceBase f s).cnt = s.cnt := by
  rfl

@[simp] theorem advanceBase_io (f : U16) (s : State) : (advanceBase f s).io = s.io := by
  rfl

@[simp] theorem advanceBase_tx_win (f : U16) (s : State) : (advanceBase f s).tx.win = winDrop s.tx.win f := by
  rfl

@[simp] theorem advanceBase_tx_base (f : U16) (s : State) : (advanceBase f s).tx.base = f + 1 := by
  rfl

@[simp] theorem advanceBase_tx_synced (f : U16) (s : State) : (advanceBase f s).tx.synced = s.tx.synced := by
  rfl

@[simp] theorem advanceBase_tx_last (f : U16) (s : State) : (advanceBase f s).tx.last = s.tx.last := by
  rfl

@[simp] theorem advanceBase_tx_padBps (f : U16) (s : State) : (advanceBase f s).tx.padBps = s.tx.padBps := by
  rfl

@[simp] theorem advanceBase_tx_intp (f : U16) (s : State) : (advanceBase f s).tx.intp = s.tx.intp := by
  rfl

/-! ### `synchronise` -/

@[simp] theorem synchronise_params (f : U16) (s : State) : (synchronise f s).params = s.params := by
  unfold synchronise; split <;> rfl

@[simp] theorem synchronise_ctl (f : U16) (s : State) : (synchronise f s).ctl = s.ctl := by
  unfold synchronise; split <;> rfl

@[simp] theorem synchronise_cfg (f : U16) (s : State) : (synchronise f s).cfg = s.cfg := by
  unfold synchronise; split <;> rfl

@[simp] theorem synchronise_rx (f : U16) (s : State) : (synchronise f s).rx = s.rx := by
  unfold synchronise; split <;> rfl

@[simp] theorem synchronise_rxq (f : U16) (s : State) : (synchronise f s).rxq = s.rxq := by
  unfold synchronise; split <;> rfl

@[simp] theorem synchronise_txq (f : U16) (s : State) : (synchronise f s).txq = s.txq := by
  unfold synchronise; split <;> rfl

@[simp] theorem synchronise_cnt (f : U16) (s : State) : (synchronise f s).cnt = s.cnt := by
  unfold synchronise; split <;> rfl

@[simp] theorem synchronise_io (f : U16) (s : State) : (synchronise f s).io = s.io := by
  unfold synchronise; split <;> rfl

@[simp] theorem synchronise_tx_win (f : U16) (s : State) : (synchronise f s).tx.win = s.tx.win := by
  unfold synchronise; split <;> rfl

@[simp] theorem synchronise_tx_last (f : U16) (s : State) : (synchronise f s).tx.last = s.tx.last := by
  unfold synchronise; split <;> rfl

@[simp] theorem synchronise_tx_padBps (f : U16) (s : State) : (synchronise f s).tx.padBps = s.tx.padBps := by
  unfold synchronise; split <;> rfl

@[simp] theorem synchronise_tx_intp (f : U16) (s : State) : (synchronise f s).tx.intp = s.tx.intp := by
  unfold synchronise; split <;> rfl

/-! ### `intProcess` -/

@[simp] theorem intProcess_params (v : List Sample) (s : State) : ((intProcess v s).1).params = s.params := by
  rfl

@[simp] theorem intProcess_ctl (v : List Sample) (s : State) : ((intProcess v s).1).ctl = s.ctl := by
  rfl

@[simp] theorem intProcess_cfg (v : List Sample) (s : State) : ((intProcess v s).1).cfg = s.cfg := by
  rfl

@[simp] theorem intProcess_rx (v : List Sample) (s : State) : ((intProcess v s).1).rx = s.rx := by
  rfl

@[simp] theorem intProcess_rxq (v : List Sample) (s : State) : ((intProcess v s).1).rxq = s.rxq := by
  rfl

@[simp] theorem intProcess_txq (v : List Sample) (s : State) : ((intProcess v s).1).txq = s.txq := by
  rfl

@[simp] theorem intProcess_cnt (v : List Sample) (s : State) : ((intProcess v s).1).cnt = s.cnt := by
  rfl

@[simp] theorem intProcess_io (v : List Sample) (s : State) : ((intProcess v s).1).io = s.io := by
  rfl

@[simp] theorem intProcess_tx_win (v : List Sample) (s : State) : (intProcess v s).1.tx.win = s.tx.win := by
  rfl

@[simp] theorem intProcess_tx_synced (v : List Sample) (s : State) : (intProcess v s).1.tx.synced = s.tx.synced := by
  rfl

@[simp] theorem intProcess_tx_base (v : List Sample) (s : State) : (intProcess v s).1.tx.base = s.tx.base := by
  rfl

@[simp] theorem intProcess_tx_last (v : List Sample) (s : State) : (intProcess v s).1.tx.last = s.tx.last := by
  rfl

@[simp] theorem intProcess_tx_padBps (v : List Sample) (s : State) : (intProcess v s).1.tx.padBps = s.tx.padBps := by
  rfl

/-! ### `beginFrame` -/

@[simp] theorem beginFrame_params (s : State) : (beginFrame s).params = s.params := by
  unfold beginFrame; split
  · dsimp only; split <;> rfl
  · rfl

@[simp] theorem beginFrame_ctl (s : State) : (beginFrame s).ctl = s.ctl := by
  unfold beginFrame; split
  · dsimp only; split <;> rfl
  · rfl

@[simp] theorem beginFrame_tx (s : State) : (beginFrame s).tx = s.tx := by
  unfold beginFrame; split
  · dsimp only; split <;> rfl
  · rfl

@[simp] theorem beginFrame_rxq (s : State) : (beginFrame s).rxq = s.rxq := by
  unfold beginFrame; split
  · dsimp only; split <;> rfl
  · rfl

@[simp] theorem beginFrame_txq (s : State) : (beginFrame s).txq = s.txq := by
  unfold beginFrame; split
  · dsimp only; split <;> rfl
  · rfl

@[simp] theorem beginFrame_cnt (s : State) : (beginFrame s).cnt = s.cnt := by
  unfold beginFrame; split
  · dsimp only; split <;> rfl
  · rfl

@[simp] theorem beginFrame_io (s : State) : (beginFrame s).io = s.io := by
  unfold beginFrame; split
  · dsimp only; split <;> rfl
  · rfl

@[simp] theorem beginFrame_rx_fb (s : State) : (beginFrame s).rx.fb = s.rx.fb := by
  unfold beginFrame; split
  · dsimp only; split
    · exact rxAdopt_rx_fb s
    · rfl
  · rfl

@[simp] theorem beginFrame_rx_cur (s : State) : (beginFrame s).rx.cur = s.rx.cur := by
  unfold beginFrame; split
  · dsimp only; split
    · exact rxAdopt_rx_cur s
    · rfl
  · rfl

@[simp] theorem beginFrame_rx_frameCtr (s : State) : (beginFrame s).rx.frameCtr = s.rx.frameCtr := by
  unfold beginFrame; split
  · dsimp only; split
    · exact rxAdopt_rx_frameCtr s
    · rfl
  · rfl

@[simp] theorem beginFrame_rx_accCount (s : State) : (beginFrame s).rx.accCount = s.rx.accCount := by
  unfold beginFrame; split
  · dsimp only; split
    · exact rxAdopt_rx_accCount s
    · rfl
  · rfl

@[simp] theorem beginFrame_rx_emitting (s : State) : (beginFrame s).rx.emitting = s.rx.emitting := by
  unfold beginFrame; split
  · dsimp only; split
    · exact rxAdopt_rx_emitting s
    · rfl
  · rfl

@[simp] theorem beginFrame_rx_emitIdx (s : State) : (beginFrame s).rx.emitIdx = s.rx.emitIdx := by
  unfold beginFrame; split
  · dsimp only; split
    · exact rxAdopt_rx_emitIdx s
    · rfl
  · rfl

@[simp] theorem beginFrame_rx_emitR (s : State) : (beginFrame s).rx.emitR = s.rx.emitR := by
  unfold beginFrame; split
  · dsimp only; split
    · exact rxAdopt_rx_emitR s
    · rfl
  · rfl

@[simp] theorem beginFrame_rx_paceReadyAt (s : State) : (beginFrame s).rx.paceReadyAt = s.rx.paceReadyAt := by
  unfold beginFrame; split
  · dsimp only; split
    · exact rxAdopt_rx_paceReadyAt s
    · rfl
  · rfl

end Sys2Proof.Machine
end

