-- ==== Sys2Proof/Laws/Control.lean ====
section
/-! SUPPORT. What the configuration operations can do: only the pending bank and its sequence number, the trace and the reply. -/

namespace Sys2Proof.Machine

/-- What two states have in common when only the configuration was written: everything but `P`, `CFG_SEQ_P`, the trace and the
returned value (rule R290). -/
structure SameButPending (s t : State) : Prop where
  params : t.params = s.params
  ctl : t.ctl = s.ctl
  activeRx : t.cfg.activeRx = s.cfg.activeRx
  activeTx : t.cfg.activeTx = s.cfg.activeTx
  seqRx : t.cfg.seqRx = s.cfg.seqRx
  seqTx : t.cfg.seqTx = s.cfg.seqTx
  rx : t.rx = s.rx
  tx : t.tx = s.tx
  rxq : t.rxq = s.rxq
  txq : t.txq = s.txq
  cnt : t.cnt = s.cnt
  inbox : t.io.inbox = s.io.inbox
  sent : t.io.sent = s.io.sent

/-- Everything a configuration message does to the state: a parse failure is traced and applies nothing; else the three passes
run over `P`, and the sequence number moves once if an item wrote a register (rule R297). -/
theorem applyMessage_cases (msg : List Byte) (dev : List DevAnswer) (s : State) :
    (∃ r, applyMessage msg dev s = (raise .configParse s).ret (.reply r)) ∨
      ∃ items, items = pairAnswers (splitItems msg) dev ∧ applyMessage msg dev s = applyItems items s := by
  unfold applyMessage
  split
  · exact .inl ⟨_, rfl⟩
  split
  · exact .inl ⟨_, rfl⟩
  · dsimp only
    split
    · exact .inl ⟨_, rfl⟩
    · exact .inr ⟨_, rfl, rfl⟩

theorem applyMessage_same (msg : List Byte) (dev : List DevAnswer) (s : State) :
    SameButPending s (applyMessage msg dev s) := by
  rcases applyMessage_cases msg dev s with ⟨r, h⟩ | ⟨items, -, h⟩
  · rw [h]; exact ⟨rfl, rfl, rfl, rfl, rfl, rfl, rfl, rfl, rfl, rfl, rfl, rfl, rfl⟩
  · rw [h]
    unfold applyItems
    dsimp only
    split <;> exact ⟨rfl, rfl, rfl, rfl, rfl, rfl, rfl, rfl, rfl, rfl, rfl, rfl, rfl⟩

/-- Every next state of a configuration message: it is applied, or it is not read (rule R305). -/
theorem configure_eq_next {msg : List Byte} {dev : List DevAnswer} {s t : State} (h : configure msg dev s = .next t) :
    (configurable s = true ∧ t = applyMessage msg dev s) ∨ (configurable s = false ∧ t = s.ret .ignored) := by
  unfold configure at h
  split at h
  · next hc => exact .inl ⟨hc, by injection h with h; exact h.symm⟩
  · next hc => exact .inr ⟨by simpa using hc, by injection h with h; exact h.symm⟩

/-- A configuration message never stops the machine. -/
theorem configure_completes (msg : List Byte) (dev : List DevAnswer) (s : State) : ∃ t, configure msg dev s = .next t := by
  unfold configure; split <;> exact ⟨_, rfl⟩

/-- One pass over a list of items is a pass over its parts. -/
theorem applyGroup_append (g : KeyGroup) (l l' : List Item) (b : Bank) :
    applyGroup g (l ++ l') b = applyGroup g l' (applyGroup g l b) := by
  induction l generalizing b with
  | nil => rfl
  | cons it r ih => simp only [List.cons_append, applyGroup, ih]

/-- A register written reads as the value, as far as its width goes. -/
theorem Bank.read_write_ne (b : Bank) (r r' : CfgReg) (v : Nat) (h : r' ≠ r) : (b.write r v).read r' = b.read r' := by
  cases r <;> cases r' <;> first | rfl | exact absurd rfl h

/-- Two writes to different registers commute. -/
theorem Bank.write_comm (b : Bank) (r r' : CfgReg) (v v' : Nat) (h : r' ≠ r) :
    (b.write r v).write r' v' = (b.write r' v').write r v := by
  cases r <;> cases r' <;> first | rfl | exact absurd rfl h

end Sys2Proof.Machine
end

