-- ==== Sys2Proof/Laws/Dsp.lean ====
section
/-! SUPPORT. What the stages of the decimator and the interpolator can do: ranges, lengths, parities. -/

namespace Sys2Proof

theorem sat16_bounds (v : Int) : -32768 ≤ sat16 v ∧ sat16 v ≤ 32767 := by
  unfold sat16; omega

theorem sat16_of_bounds {v : Int} (h : -32768 ≤ v) (h' : v ≤ 32767) : sat16 v = v := by
  unfold sat16; omega

/-- A value in the range of `i16` is kept by the 16-bit register. -/
theorem toInt_ofInt_of_bounds {v : Int} (h : -32768 ≤ v) (h' : v ≤ 32767) : (BitVec.ofInt 16 v).toInt = v := by
  rw [BitVec.toInt_ofInt]
  simp only [Int.bmod]
  split <;> omega

@[simp] theorem Sample.toPair_toSample (x : Sample) : x.toPair.toSample = x := by
  cases x; simp [Sample.toPair, Pair.toSample]

namespace Machine

theorem scaled_bounds (p : Params) (acc : Int) : -32768 ≤ scaled p acc ∧ scaled p acc ≤ 32767 :=
  sat16_bounds _

/-- Everything one decimating stage does (rule R143). -/
theorem decStep_eq (p : Params) (st : DecStage) (x : Pair) :
    decStep p st x =
      (⟨(x :: st.d).take p.hbTaps.length, !st.par⟩,
        if st.par then
          some ⟨scaled p (dot p.hbTaps (((x :: st.d).take p.hbTaps.length).map Pair.i)),
            scaled p (dot p.hbTaps (((x :: st.d).take p.hbTaps.length).map Pair.q))⟩
        else none) := by
  unfold decStep
  cases h : st.par <;> simp

theorem decStep_line_length (p : Params) (st : DecStage) (x : Pair) (h : st.d.length = p.hbTaps.length) :
    (decStep p st x).1.d.length = p.hbTaps.length := by
  rw [decStep_eq]; simp [h]

/-- A cascade has as many stages afterwards as before. -/
theorem decCascade_length (p : Params) (n : Nat) (sts : List DecStage) (x : Pair) :
    (decCascade p n sts x).1.length = sts.length := by
  induction n generalizing sts x with
  | zero => rfl
  | succ n ih =>
    cases sts with
    | nil => rfl
    | cons st r =>
      unfold decCascade
      split
      · simp
      · simp [ih]

/-- What each stage of the cascade keeps, the cascade keeps. -/
theorem decCascade_forall (p : Params) (P : DecStage → Prop) (Q : Pair → Prop)
    (hstep : ∀ st x, P st → Q x → P (decStep p st x).1 ∧ ∀ y, (decStep p st x).2 = some y → Q y) (n : Nat)
    (sts : List DecStage) (x : Pair) (hs : ∀ st ∈ sts, P st) (hx : Q x) :
    (∀ st ∈ (decCascade p n sts x).1, P st) ∧ ∀ y, (decCascade p n sts x).2 = some y → Q y := by
  induction n generalizing sts x with
  | zero => exact ⟨hs, fun y hy => by simp only [decCascade, Option.some.injEq] at hy; exact hy ▸ hx⟩
  | succ n ih =>
    cases sts with
    | nil => exact ⟨by simp [decCascade], fun y hy => by simp only [decCascade, Option.some.injEq] at hy; exact hy ▸ hx⟩
    | cons st r =>
      have h1 := hstep st x (hs st (by simp)) hx
      unfold decCascade
      split
      · next st' he =>
        rw [he] at h1
        refine ⟨fun u hu => ?_, by simp⟩
        rcases List.mem_cons.1 hu with rfl | hu
        · exact h1.1
        · exact hs u (by simp [hu])
      · next st' y he =>
        rw [he] at h1
        have h2 := ih r y (fun u hu => hs u (by simp [hu])) (h1.2 y rfl)
        refine ⟨fun u hu => ?_, h2.2⟩
        rcases List.mem_cons.1 hu with rfl | hu
        · exact h1.1
        · exact h2.1 u hu

theorem intPush_line_length (p : Params) (d : List Sample) (u : Sample) (h : d.length = p.hbTaps.length) :
    (intPush p d u).1.length = p.hbTaps.length := by
  simp [intPush, h]

/-- An interpolating stage gives two samples for each and keeps its line's length (rule R149). -/
theorem intStage_lengths (p : Params) (d : List Sample) (v : List Sample) (h : d.length = p.hbTaps.length) :
    (intStage p d v).1.length = p.hbTaps.length ∧ (intStage p d v).2.length = 2 * v.length := by
  induction v generalizing d with
  | nil => exact ⟨h, rfl⟩
  | cons x xs ih =>
    have h1 := intPush_line_length p (intPush p d x).1 Sample.zero (intPush_line_length p d x h)
    have h2 := ih _ h1
    refine ⟨h2.1, ?_⟩
    simp only [intStage, List.length_cons, h2.2]
    omega

end Machine

end Sys2Proof
end

