-- ==== Sys2Proof/Laws/Memory.lean ====
section
/-! SUPPORT. Laws of the byte stores: what a read after a write gives, and that every operation keeps the canonical form. -/

namespace Sys2Proof

/-! ### The canonical form -/

theorem Memory.wfFrom_mono {lo lo' : Nat} (h : lo' ≤ lo) {m : Memory} (hm : Memory.wfFrom lo m = true) :
    Memory.wfFrom lo' m = true := by
  cases m with
  | nil => rfl
  | cons c r =>
    simp only [Memory.wfFrom, Bool.and_eq_true, decide_eq_true_eq] at hm ⊢
    exact ⟨⟨by omega, hm.1.2⟩, hm.2⟩

theorem Memory.wfFrom_filter (p : Host.Cell → Bool) {lo : Nat} {m : Memory} (hm : Memory.wfFrom lo m = true) :
    Memory.wfFrom lo (m.filter p) = true := by
  induction m generalizing lo with
  | nil => rfl
  | cons c r ih =>
    simp only [Memory.wfFrom, Bool.and_eq_true, decide_eq_true_eq] at hm
    rw [List.filter_cons]
    split
    · simp only [Memory.wfFrom, Bool.and_eq_true, decide_eq_true_eq]
      exact ⟨hm.1, ih hm.2⟩
    · exact Memory.wfFrom_mono (by omega) (ih hm.2)

theorem Memory.wfFrom_append {lo hi : Nat} {m m' : Memory} (hm : Memory.wfFrom lo m = true)
    (hm' : Memory.wfFrom hi m' = true) (hb : ∀ c ∈ m, c.1 < hi) (hlo : lo ≤ hi) :
    Memory.wfFrom lo (m ++ m') = true := by
  induction m generalizing lo with
  | nil => exact Memory.wfFrom_mono hlo hm'
  | cons c r ih =>
    simp only [Memory.wfFrom, Bool.and_eq_true, decide_eq_true_eq, List.cons_append] at hm ⊢
    have hc := hb c (by simp)
    exact ⟨hm.1, ih hm.2 (fun x hx => hb x (by simp [hx])) (by omega)⟩

theorem Memory.wfFrom_of_filter {lo : Nat} {m : Memory} (hm : Memory.wf m = true) :
    Memory.wfFrom lo (m.filter fun c => decide (lo ≤ c.1)) = true := by
  have h := Memory.wfFrom_filter (fun c => decide (lo ≤ c.1)) hm
  generalize hf : m.filter (fun c => decide (lo ≤ c.1)) = f at h
  have hall : ∀ c ∈ f, lo ≤ c.1 := by
    intro c hc; rw [← hf] at hc; simpa using (List.mem_filter.1 hc).2
  cases f with
  | nil => rfl
  | cons c r =>
    simp only [Memory.wfFrom, Bool.and_eq_true, decide_eq_true_eq] at h ⊢
    exact ⟨⟨hall c (by simp), h.1.2⟩, h.2⟩

theorem Memory.cells_wfFrom (a : Nat) (bs : List Byte) : Memory.wfFrom a (Memory.cells a bs) = true := by
  induction bs generalizing a with
  | nil => rfl
  | cons b r ih =>
    simp only [Memory.cells]
    split
    · exact Memory.wfFrom_mono (by omega) (ih (a + 1))
    · next hb => simp [Memory.wfFrom, ih, hb]

theorem Memory.cells_bounds {a : Nat} {bs : List Byte} {c : Host.Cell} (h : c ∈ Memory.cells a bs) :
    a ≤ c.1 ∧ c.1 < a + bs.length := by
  induction bs generalizing a with
  | nil => simp [Memory.cells] at h
  | cons b r ih =>
    simp only [Memory.cells, List.length_cons] at h ⊢
    split at h
    · have := ih h; omega
    · rcases List.mem_cons.1 h with rfl | h
      · simp
      · have := ih h; omega

/-- Every write keeps the canonical form. -/
theorem Memory.write_wf {m : Memory} (hm : m.wf = true) (a : Nat) (bs : List Byte) : (m.write a bs).wf = true := by
  have h1 : Memory.wfFrom 0 (m.filter fun c => decide (c.1 < a)) = true := Memory.wfFrom_filter _ hm
  have h3 : Memory.wfFrom (a + bs.length) (m.filter fun c => decide (a + bs.length ≤ c.1)) = true :=
    Memory.wfFrom_of_filter hm
  have h23 := Memory.wfFrom_append (Memory.cells_wfFrom a bs) h3 (fun c hc => (Memory.cells_bounds hc).2) (by omega)
  have := Memory.wfFrom_append h1 h23 (fun c hc => by simpa using (List.mem_filter.1 hc).2) (by omega)
  simpa [Memory.wf, Memory.write, List.append_assoc] using this

/-- The empty store is canonical. -/
@[simp] theorem Memory.wf_nil : Memory.wf [] = true := by
  rfl

/-- A write inside the bounds of a store of bodies keeps it within them. -/
theorem Memory.write_within {m : Memory} {n : Nat} (hm : m.within n = true) {a : Nat} {bs : List Byte}
    (h : a + bs.length ≤ Config.bodyLen * n) : (m.write a bs).within n = true := by
  simp only [Memory.within, Bool.and_eq_true, List.all_eq_true, decide_eq_true_eq] at hm ⊢
  refine ⟨Memory.write_wf hm.1 a bs, fun c hc => ?_⟩
  simp only [Memory.write, List.mem_append, List.mem_filter] at hc
  rcases hc with (⟨hc, -⟩ | hc) | ⟨hc, -⟩
  · exact hm.2 c hc
  · have := Memory.cells_bounds hc; omega
  · exact hm.2 c hc

/-! ### Reading after writing -/

theorem Memory.get_of_not_mem {m : Memory} {a : Nat} (h : ∀ c ∈ m, c.1 ≠ a) : Memory.get m a = Memory.unlisted := by
  induction m with
  | nil => rfl
  | cons c r ih =>
    obtain ⟨x, b⟩ := c
    have hx : x ≠ a := h (x, b) (by simp)
    simp only [Memory.get, hx, if_false]
    exact ih fun c hc => h c (by simp [hc])

theorem Memory.get_append_left {m m' : Memory} {a : Nat} (h : ∀ c ∈ m', c.1 ≠ a) :
    Memory.get (m ++ m') a = Memory.get m a := by
  induction m with
  | nil => exact Memory.get_of_not_mem h
  | cons c r ih => obtain ⟨x, b⟩ := c; simp only [List.cons_append, Memory.get, ih]

theorem Memory.get_append_right {m m' : Memory} {a : Nat} (h : ∀ c ∈ m, c.1 ≠ a) :
    Memory.get (m ++ m') a = Memory.get m' a := by
  induction m with
  | nil => rfl
  | cons c r ih =>
    obtain ⟨x, b⟩ := c
    have hx : x ≠ a := h (x, b) (by simp)
    simp only [List.cons_append, Memory.get, hx, if_false]
    exact ih fun c hc => h c (by simp [hc])

theorem Memory.get_filter {m : Memory} {p : Host.Cell → Bool} {a : Nat} (h : ∀ b, p (a, b) = true) :
    Memory.get (m.filter p) a = Memory.get m a := by
  induction m with
  | nil => rfl
  | cons c r ih =>
    obtain ⟨x, b⟩ := c
    rw [List.filter_cons]
    by_cases hx : x = a
    · subst hx; simp [h, Memory.get]
    · split <;> simp [Memory.get, hx, ih]

theorem Memory.get_cells (a : Nat) (bs : List Byte) (k : Nat) (hk : k < bs.length) :
    Memory.get (Memory.cells a bs) (a + k) = bs[k] := by
  induction bs generalizing a k with
  | nil => simp at hk
  | cons b r ih =>
    cases k with
    | zero =>
      by_cases hb : b = Memory.unlisted
      · simp only [Memory.cells, hb, if_true, Nat.add_zero, List.getElem_cons_zero]
        exact Memory.get_of_not_mem fun c hc => by have := (Memory.cells_bounds hc).1; omega
      · simp [Memory.cells, hb, Memory.get]
    | succ k =>
      have hk' : k < r.length := by simpa using hk
      have := ih (a + 1) k hk'
      rw [show a + (k + 1) = a + 1 + k by omega]
      by_cases hb : b = Memory.unlisted
      · simpa [Memory.cells, hb] using this
      · have hne : a ≠ a + 1 + k := by omega
        simpa [Memory.cells, hb, Memory.get, hne] using this

/-- What a byte reads as after a write: the byte written there, or what it read as before. -/
theorem Memory.get_write (m : Memory) (a : Nat) (bs : List Byte) (x : Nat) :
    Memory.get (m.write a bs) x = if h : a ≤ x ∧ x < a + bs.length then bs[x - a]'(by omega) else Memory.get m x := by
  unfold Memory.write
  split
  · next h =>
    obtain ⟨k, rfl⟩ := Nat.exists_eq_add_of_le h.1
    have hk : k < bs.length := by omega
    rw [Memory.get_append_left, Memory.get_append_right]
    · simpa using Memory.get_cells a bs k hk
    · intro c hc; have : c.1 < a := by simpa using (List.mem_filter.1 hc).2
      omega
    · intro c hc; have : a + bs.length ≤ c.1 := by simpa using (List.mem_filter.1 hc).2
      omega
  · next h =>
    rcases Nat.lt_or_ge x a with hx | hx
    · rw [List.append_assoc, Memory.get_append_left, Memory.get_filter]
      · intro b; simpa using hx
      · intro c hc
        rcases List.mem_append.1 hc with hc | hc
        · have := (Memory.cells_bounds hc).1; omega
        · have : a + bs.length ≤ c.1 := by simpa using (List.mem_filter.1 hc).2
          omega
    · have hx' : a + bs.length ≤ x := by omega
      rw [Memory.get_append_right, Memory.get_filter]
      · intro b; simpa using hx'
      · intro c hc
        rcases List.mem_append.1 hc with hc | hc
        · have : c.1 < a := by simpa using (List.mem_filter.1 hc).2
          omega
        · have := (Memory.cells_bounds hc).2; omega

/-- A write leaves every other byte alone. -/
theorem Memory.get_write_ne (m : Memory) (a : Nat) (bs : List Byte) (x : Nat) (h : x < a ∨ a + bs.length ≤ x) :
    Memory.get (m.write a bs) x = Memory.get m x := by
  rw [Memory.get_write, dif_neg (by omega)]

@[simp] theorem Memory.read_length (m : Memory) (a n : Nat) : (m.read a n).length = n := by
  simp [Memory.read]

/-- Each byte of a read is the byte at its address. -/
theorem Memory.read_getElem (m : Memory) (a n k : Nat) (h : k < (m.read a n).length) :
    (m.read a n)[k] = Memory.get m (a + k) := by
  have hk : k < n := by simpa using h
  simp only [Memory.read, List.getElem_map, List.getElem_range]
  exact Memory.get_filter fun b => by simp; omega

/-- A read depends on nothing but the bytes it covers. -/
theorem Memory.read_congr {m m' : Memory} {a n : Nat} (h : ∀ k, k < n → Memory.get m (a + k) = Memory.get m' (a + k)) :
    m.read a n = m'.read a n := by
  apply List.ext_getElem (by simp)
  intro k hk hk'
  rw [Memory.read_getElem, Memory.read_getElem]
  exact h k (by simpa using hk)

/-- A read back of what was written. -/
theorem Memory.read_write_same (m : Memory) (a : Nat) (bs : List Byte) : (m.write a bs).read a bs.length = bs := by
  apply List.ext_getElem (by simp)
  intro k hk hk'
  rw [Memory.read_getElem, Memory.get_write, dif_pos (by omega)]
  simp

/-- A read of bytes that a write does not touch. -/
theorem Memory.read_write_disjoint (m : Memory) (a : Nat) (bs : List Byte) (a' n : Nat)
    (h : a' + n ≤ a ∨ a + bs.length ≤ a') : (m.write a bs).read a' n = m.read a' n :=
  Memory.read_congr fun k hk => Memory.get_write_ne m a bs (a' + k) (by omega)

/-! ### Equal stores -/

/-- Two canonical stores that read alike at every address are the same list. -/
theorem Memory.ext_of_wfFrom {lo : Nat} {m m' : Memory} (hm : Memory.wfFrom lo m = true)
    (hm' : Memory.wfFrom lo m' = true) (h : ∀ a, Memory.get m a = Memory.get m' a) : m = m' := by
  have below : ∀ {lo : Nat} {m : Memory}, Memory.wfFrom lo m = true → ∀ c ∈ m, lo ≤ c.1 := by
    intro lo m hm
    induction m generalizing lo with
    | nil => simp
    | cons c r ih =>
      simp only [Memory.wfFrom, Bool.and_eq_true, decide_eq_true_eq] at hm
      intro x hx
      rcases List.mem_cons.1 hx with rfl | hx
      · exact hm.1.1
      · have := ih hm.2 x hx; omega
  induction m generalizing lo m' with
  | nil =>
    cases m' with
    | nil => rfl
    | cons c r =>
      obtain ⟨x, b⟩ := c
      simp only [Memory.wfFrom, Bool.and_eq_true, decide_eq_true_eq, bne_iff_ne] at hm'
      have := h x
      simp only [Memory.get, if_true] at this
      exact absurd this.symm hm'.1.2
  | cons c r ih =>
    obtain ⟨x, b⟩ := c
    have hm0 := hm
    simp only [Memory.wfFrom, Bool.and_eq_true, decide_eq_true_eq, bne_iff_ne] at hm
    cases m' with
    | nil =>
      have := h x
      simp only [Memory.get, if_true] at this
      exact absurd this hm.1.2
    | cons c' r' =>
      obtain ⟨x', b'⟩ := c'
      simp only [Memory.wfFrom, Bool.and_eq_true, decide_eq_true_eq, bne_iff_ne] at hm'
      have hx : x = x' := by
        rcases Nat.lt_trichotomy x x' with hlt | heq | hgt
        · have h1 := h x
          rw [Memory.get_of_not_mem (m := (x', b') :: r')] at h1
          · simp only [Memory.get, if_true] at h1; exact absurd h1 hm.1.2
          · intro c hc
            rcases List.mem_cons.1 hc with rfl | hc
            · simp only; omega
            · have := below hm'.2 c hc; omega
        · exact heq
        · have h1 := h x'
          rw [Memory.get_of_not_mem (m := (x, b) :: r)] at h1
          · simp only [Memory.get, if_true] at h1; exact absurd h1.symm hm'.1.2
          · intro c hc
            rcases List.mem_cons.1 hc with rfl | hc
            · simp only; omega
            · have := below hm.2 c hc; omega
      subst hx
      have hb : b = b' := by simpa [Memory.get] using h x
      subst hb
      congr 1
      refine ih hm.2 hm'.2 fun a => ?_
      by_cases ha : x = a
      · subst ha
        rw [Memory.get_of_not_mem, Memory.get_of_not_mem]
        · intro c hc; have := below hm'.2 c hc; omega
        · intro c hc; have := below hm.2 c hc; omega
      · simpa [Memory.get, ha] using h a

/-- Equal memories are equal data. -/
theorem Memory.ext_of_wf {m m' : Memory} (hm : m.wf = true) (hm' : m'.wf = true)
    (h : ∀ a, Memory.get m a = Memory.get m' a) : m = m' :=
  Memory.ext_of_wfFrom hm hm' h

end Sys2Proof
end

