-- ==== Sys2Proof/Laws/Ops.lean ====
section
/-! SUPPORT. One lemma per shared operation that says everything it can do: outcomes, sample buffers, accesses to `FB`, the
window as a set of entries. -/

namespace Sys2Proof.Machine

/-! ### Outcomes -/

/-- Every next state of `finish`: the operation was performed, or it was not enabled. -/
theorem finish_eq_next {s t : State} {r : Result} {o : Except Halt State} :
    finish s r o = .next t ↔ (∃ u, o = .ok u ∧ t = u.ret r) ∨ (o = .error .noStep ∧ t = s.ret .noStep) := by
  rcases o with (_ | _) | u <;> simp [finish, eq_comm]

/-- Every refusal of `finish`. -/
theorem finish_eq_refused {s : State} {r : Result} {o : Except Halt State} {x : Refusal} :
    finish s r o = .refused x ↔ o = .error (.refuse x) := by
  rcases o with (_ | _) | u <;> simp [finish]

@[simp] theorem finish_ok (s t : State) (r : Result) : finish s r (.ok t) = .next (t.ret r) := by
  rfl

@[simp] theorem finish_noStep (s : State) (r : Result) : finish s r (.error .noStep) = .next (s.ret .noStep) := by
  rfl

/-- Every next state of an internal operation offered alone: it waits in `Stopped`, and acts elsewhere (rule R344). -/
theorem unlessStopped_eq_next {s t : State} {o : Host.Outcome State Fault Refusal} :
    unlessStopped s o = .next t ↔
      (s.ctl.lifecycle = .stopped ∧ t = s.ret .noStep) ∨ (s.ctl.lifecycle ≠ .stopped ∧ o = .next t) := by
  unfold unlessStopped
  split
  · next h => simp [h, eq_comm]
  · next h => simp [h]

@[simp] theorem unlessStopped_of_stopped {s : State} (h : s.ctl.lifecycle = .stopped) (o : Host.Outcome State Fault Refusal) :
    unlessStopped s o = .next (s.ret .noStep) := if_pos h

@[simp] theorem unlessStopped_of_ne {s : State} (h : s.ctl.lifecycle ≠ .stopped) (o : Host.Outcome State Fault Refusal) :
    unlessStopped s o = o := if_neg h

/-- A bind of outcomes that succeeds. -/
theorem bind_eq_ok {α β : Type} {x : Except Halt α} {f : α → Except Halt β} {b : β} :
    x.bind f = .ok b ↔ ∃ a, x = .ok a ∧ f a = .ok b := by
  cases x <;> simp [Except.bind]

/-- A map of an outcome that succeeds. -/
theorem map_eq_ok {α β : Type} {x : Except Halt α} {f : α → β} {b : β} :
    x.map f = .ok b ↔ ∃ a, x = .ok a ∧ f a = b := by
  cases x <;> simp [Except.map]

/-- A bind of outcomes that stops. -/
theorem bind_eq_error {α β : Type} {x : Except Halt α} {f : α → Except Halt β} {h : Halt} :
    x.bind f = .error h ↔ x = .error h ∨ ∃ a, x = .ok a ∧ f a = .error h := by
  cases x <;> simp [Except.bind]

/-! ### Sample buffers -/

theorem State.setQueue_self (s : State) (q : QueueId) : s.setQueue q (s.queue q) = s := by
  cases q <;> rfl

/-- `OVERRUN_CHECK` as one equation: the latch follows the threshold, and an upward crossing is raised. -/
theorem overrunCheck_eq (q : QueueId) (s : State) :
    overrunCheck q s =
      if (s.queue q).samples > overrunThreshold s ∧ (s.queue q).overLatch = false then
        raise (.bufferOverrun q) (s.setQueue q { s.queue q with overLatch := true })
      else s.setQueue q { s.queue q with overLatch := decide ((s.queue q).samples > overrunThreshold s) } := by
  unfold overrunCheck
  by_cases h : (s.queue q).samples > overrunThreshold s
  · cases hl : (s.queue q).overLatch
    · simp [h, hl]
    · have hs : s.setQueue q { s.queue q with overLatch := true } = s := by
        conv_rhs => rw [← State.setQueue_self s q]
        rw [← hl]
      simp [h, hl, hs]
  · simp [h]

@[simp] theorem overrunCheck_params (q : QueueId) (s : State) : (overrunCheck q s).params = s.params := by
  rw [overrunCheck_eq]; split <;> simp

@[simp] theorem overrunCheck_ctl (q : QueueId) (s : State) : (overrunCheck q s).ctl = s.ctl := by
  rw [overrunCheck_eq]; split <;> simp

@[simp] theorem overrunCheck_cfg (q : QueueId) (s : State) : (overrunCheck q s).cfg = s.cfg := by
  rw [overrunCheck_eq]; split <;> simp

@[simp] theorem overrunCheck_rx (q : QueueId) (s : State) : (overrunCheck q s).rx = s.rx := by
  rw [overrunCheck_eq]; split <;> simp

@[simp] theorem overrunCheck_tx (q : QueueId) (s : State) : (overrunCheck q s).tx = s.tx := by
  rw [overrunCheck_eq]; split <;> simp

@[simp] theorem overrunCheck_io_inbox (q : QueueId) (s : State) : (overrunCheck q s).io.inbox = s.io.inbox := by
  rw [overrunCheck_eq]; split <;> simp

@[simp] theorem overrunCheck_io_sent (q : QueueId) (s : State) : (overrunCheck q s).io.sent = s.io.sent := by
  rw [overrunCheck_eq]; split <;> simp

@[simp] theorem overrunCheck_io_result (q : QueueId) (s : State) : (overrunCheck q s).io.result = s.io.result := by
  rw [overrunCheck_eq]; split <;> simp

@[simp] theorem overrunCheck_vecs (q : QueueId) (s : State) : ((overrunCheck q s).queue q).vecs = (s.queue q).vecs := by
  rw [overrunCheck_eq]; split <;> simp

@[simp] theorem overrunCheck_ended (q : QueueId) (s : State) : ((overrunCheck q s).queue q).ended = (s.queue q).ended := by
  rw [overrunCheck_eq]; split <;> simp

/-- After the check the latch says whether the queue is above the threshold. -/
theorem overrunCheck_overLatch (q : QueueId) (s : State) :
    ((overrunCheck q s).queue q).overLatch = decide ((s.queue q).samples > overrunThreshold s) := by
  rw [overrunCheck_eq]
  split
  · next h => simp [h.1]
  · simp

theorem overrunCheck_queue_ne (q q' : QueueId) (s : State) (h : q' ≠ q) : (overrunCheck q s).queue q' = s.queue q' := by
  rw [overrunCheck_eq]; split <;> simp [State.queue_setQueue_ne, h]

/-- The counters the check leaves alone. -/
theorem overrunCheck_cnt (q : QueueId) (s : State) :
    (overrunCheck q s).cnt = s.cnt ∨ (overrunCheck q s).cnt = { s.cnt with overrun := s.cnt.overrun + 1 } := by
  rw [overrunCheck_eq]
  split
  · exact .inr (by simp [Counters.record])
  · exact .inl (by simp)

/-- Everything the check behind a pull does: only the latch of its own queue moves. -/
@[simp] theorem overrunRearm_eq (q : QueueId) (s : State) :
    overrunRearm q s =
      s.setQueue q
        { s.queue q with overLatch := (s.queue q).overLatch && decide ((s.queue q).samples > overrunThreshold s) } := by
  rfl

/-- Everything a successful `SB.PUSH` does. -/
theorem pushVec_ok {q : QueueId} {v : List Sample} {s t : State} (h : pushVec q v s = .ok t) :
    s.ctl.lifecycle = .streaming ∧ (s.queue q).ended = false ∧ hasRoom s q v = true ∧
      (q = .rxq → v.all (Sample.fitsWidth s.cfg.pending.bps) = true) ∧
      (v = [] ∧ t = s ∨
        v ≠ [] ∧ t = overrunCheck q (s.setQueue q { s.queue q with vecs := (s.queue q).vecs ++ [v] })) := by
  unfold pushVec at h
  split at h
  · cases h
  next h1 =>
  split at h
  · cases h
  next h2 =>
  split at h
  · cases h
  next h3 =>
  split at h
  · cases h
  next h4 =>
  refine ⟨by simpa using h2, by simpa using h1, by simpa using h4, fun hq => ?_, ?_⟩
  · cases hv : v.all (Sample.fitsWidth s.cfg.pending.bps)
    · exact absurd ⟨hq, by simp [hv]⟩ h3
    · rfl
  · split at h
    · next h5 => exact .inl ⟨by simpa using h5, by injection h with h; exact h.symm⟩
    · next h5 => exact .inr ⟨by simpa using h5, by injection h with h; exact h.symm⟩

/-- A push after the end is refused in every lifecycle state (rules R132, R134). -/
theorem pushVec_ended {q : QueueId} {v : List Sample} {s : State} (h : (s.queue q).ended = true) :
    pushVec q v s = .error (.refuse (.pushAfterEnd q)) := by
  simp [pushVec, h]

/-- Where `SB.PUSH` succeeds. -/
theorem pushVec_of_ready {q : QueueId} {v : List Sample} {s : State} (h1 : s.ctl.lifecycle = .streaming)
    (h2 : (s.queue q).ended = false) (h3 : q = .rxq → v.all (Sample.fitsWidth s.cfg.pending.bps) = true)
    (h4 : hasRoom s q v = true) :
    pushVec q v s =
      .ok (if v = [] then s else overrunCheck q (s.setQueue q { s.queue q with vecs := (s.queue q).vecs ++ [v] })) := by
  unfold pushVec
  by_cases h5 : v = []
  · subst h5; simp [h1, h2, h4]
  · cases q <;> simp_all

@[simp] theorem notStarted_rxq (s : State) : notStarted .rxq s = false := rfl

/-- When the `Created` cell of rule R305 makes the device wait on `TXQ`. -/
theorem notStarted_iff {q : QueueId} {s : State} :
    notStarted q s = true ↔ q = .txq ∧ s.ctl.lifecycle = .created ∧ s.ctl.stopFlag = false := by
  simp [notStarted, and_assoc]

/-- Everything a successful `SB.PULL` does. -/
theorem pullVec_some {q : QueueId} {s t : State} {v : List Sample} (h : pullVec q s = some (t, v)) :
    notStarted q s = false ∧ ((∃ rest, (s.queue q).vecs = v :: rest ∧ t = overrunRearm q (s.setQueue q { s.queue q with vecs := rest })) ∨
      ((s.queue q).vecs = [] ∧ ((s.queue q).ended || s.ctl.stopFlag) = true ∧ t = s ∧ v = [])) := by
  unfold pullVec at h
  split at h
  · cases h
  next hn =>
  refine ⟨by simpa using hn, ?_⟩
  split at h
  · next w rest hw =>
    simp only [Option.some.injEq, Prod.mk.injEq] at h
    exact .inl ⟨rest, by rw [hw, h.2], h.1.symm⟩
  · next hw =>
    split at h
    · next hc =>
      simp only [Option.some.injEq, Prod.mk.injEq] at h
      exact .inr ⟨hw, hc, h.1.symm, h.2.symm⟩
    · cases h

/-- When `SB.WAITFILL` is enabled. -/
theorem filled_iff {q : QueueId} {n : Nat} {s : State} :
    filled q n s = true ↔
      notStarted q s = false ∧ (n ≤ (s.queue q).samples ∨ (s.queue q).ended = true ∨ s.ctl.stopFlag = true) := by
  simp [filled, or_assoc]

/-! ### Accesses to `FB` -/

/-- Everything a read of `FB` can do. -/
theorem fbRead_ok {m : Memory} {blk off n : Nat} {b : List Byte} :
    fbRead m blk off n = .ok b ↔ inBody blk off n = true ∧ b = m.read (bodyAddr blk off) n := by
  unfold fbRead
  split
  · next h => exact ⟨fun hb => ⟨h, by injection hb with hb; exact hb.symm⟩, fun hb => by rw [hb.2]⟩
  · next h => exact ⟨fun hb => by simp at hb, fun hb => absurd hb.1 h⟩

/-- Everything a write of `FB` can do. -/
theorem fbWrite_ok {m m' : Memory} {blk off : Nat} {bs : List Byte} :
    fbWrite m blk off bs = .ok m' ↔ inBody blk off bs.length = true ∧ m' = m.write (bodyAddr blk off) bs := by
  unfold fbWrite
  split
  · next h => exact ⟨fun hb => ⟨h, by injection hb with hb; exact hb.symm⟩, fun hb => by rw [hb.2]⟩
  · next h => exact ⟨fun hb => by simp at hb, fun hb => absurd hb.1 h⟩

/-- The bounds of rule R60 keep an access inside the store. -/
theorem bodyAddr_bound {blk off n : Nat} (h : inBody blk off n = true) :
    bodyAddr blk off + n ≤ Config.bodyLen * Config.bodies := by
  simp only [inBody, Bool.and_eq_true, decide_eq_true_eq] at h
  simp only [bodyAddr, Config.bodyLen, Config.bodies] at h ⊢
  omega

/-- A write of `FB` keeps it canonical and within its bounds. -/
theorem fbWrite_within {m m' : Memory} {blk off : Nat} {bs : List Byte} (hm : m.within Config.bodies = true)
    (h : fbWrite m blk off bs = .ok m') : m'.within Config.bodies = true := by
  obtain ⟨hb, rfl⟩ := fbWrite_ok.1 h
  exact Memory.write_within hm (bodyAddr_bound hb)

/-- Whole bodies written keep `FB` canonical and within its bounds. -/
theorem fbWriteBodies_within {bodies : List (List Byte)} {m m' : Memory} {blk : Nat} (hm : m.within Config.bodies = true)
    (h : fbWriteBodies m blk bodies = .ok m') : m'.within Config.bodies = true := by
  induction bodies generalizing m blk with
  | nil => simp only [fbWriteBodies, Except.ok.injEq] at h; exact h ▸ hm
  | cons b r ih =>
    obtain ⟨m1, h1, h2⟩ := bind_eq_ok.1 h
    exact ih (fbWrite_within hm h1) h2

/-- Where whole bodies can be written. -/
theorem fbWriteBodies_succeeds {bodies : List (List Byte)} (hb : ∀ b ∈ bodies, b.length = Config.bodyLen) (m : Memory)
    {blk : Nat} (h : blk + bodies.length ≤ Config.bodies) : ∃ m', fbWriteBodies m blk bodies = .ok m' := by
  induction bodies generalizing m blk with
  | nil => exact ⟨m, rfl⟩
  | cons b r ih =>
    have hlen : b.length = Config.bodyLen := hb b (by simp)
    have hin : inBody blk 0 b.length = true := by
      simp only [List.length_cons] at h
      simp [inBody, hlen]; omega
    have h1 : fbWrite m blk 0 b = .ok (m.write (bodyAddr blk 0) b) := fbWrite_ok.2 ⟨hin, rfl⟩
    obtain ⟨m', h2⟩ := ih (fun x hx => hb x (by simp [hx])) (m.write (bodyAddr blk 0) b) (blk := blk + 1)
      (by simp only [List.length_cons] at h; omega)
    exact ⟨m', bind_eq_ok.2 ⟨_, h1, h2⟩⟩

@[simp] theorem bodyOf_length (m : Memory) (blk : Nat) : (bodyOf m blk).length = Config.bodyLen := by
  simp [bodyOf]

/-- A body in the place of another leaves the rest alone. -/
theorem bodyOf_write_ne (m : Memory) (blk blk' : Nat) (b : List Byte) (hb : b.length = Config.bodyLen) (h : blk' ≠ blk) :
    bodyOf (m.write (bodyAddr blk 0) b) blk' = bodyOf m blk' := by
  apply Memory.read_write_disjoint
  simp only [bodyAddr, hb, Config.bodyLen]; omega

/-- A body read back. -/
theorem bodyOf_write_same (m : Memory) (blk : Nat) (b : List Byte) (hb : b.length = Config.bodyLen) :
    bodyOf (m.write (bodyAddr blk 0) b) blk = b := by
  have := Memory.read_write_same m (bodyAddr blk 0) b
  rwa [hb] at this

/-- The memory of the reset state is canonical (rule R370). -/
theorem reset_fb_within : State.reset.rx.fb.within Config.bodies = true := by
  rfl

/-! ### The window -/

/-- Everything a look-up in the window can find. -/
theorem winFind_some {w : List WinEntry} {f : U16} {e : WinEntry} (h : winFind w f = some e) : e ∈ w ∧ e.fidx = f := by
  refine ⟨List.mem_of_find?_eq_some h, ?_⟩
  have := List.find?_some h
  simpa using this

theorem winFind_none {w : List WinEntry} {f : U16} (h : winFind w f = none) : ∀ e ∈ w, e.fidx ≠ f := by
  intro e he
  have := List.find?_eq_none.1 h e he
  simpa using this

/-- The entries left when a frame is dropped. -/
theorem mem_winDrop {w : List WinEntry} {f : U16} {e : WinEntry} : e ∈ winDrop w f ↔ e ∈ w ∧ e.fidx ≠ f := by
  simp [winDrop]

/-- The entries after an entry was put. -/
theorem mem_winPut {w : List WinEntry} {e x : WinEntry} :
    x ∈ winPut w e ↔ x = e ∨ (x ∈ w ∧ x.fidx ≠ e.fidx) := by
  simp only [winPut, List.mem_append, List.mem_filter, decide_eq_true_eq, List.mem_cons, ne_eq, ← BitVec.toNat_inj]
  constructor
  · rintro (⟨h1, h2⟩ | rfl | ⟨h1, h2⟩)
    · exact .inr ⟨h1, by omega⟩
    · exact .inl rfl
    · exact .inr ⟨h1, by omega⟩
  · rintro (rfl | ⟨h1, h2⟩)
    · exact .inr (.inl rfl)
    · rcases Nat.lt_or_gt_of_ne h2 with h | h
      · exact .inl ⟨h1, h⟩
      · exact .inr (.inr ⟨h1, h⟩)

theorem winDrop_rising {w : List WinEntry} (h : w.Pairwise fun a b => a.fidx.toNat < b.fidx.toNat) (f : U16) :
    (winDrop w f).Pairwise fun a b => a.fidx.toNat < b.fidx.toNat :=
  h.sublist List.filter_sublist

theorem winPut_rising {w : List WinEntry} (h : w.Pairwise fun a b => a.fidx.toNat < b.fidx.toNat) (e : WinEntry) :
    (winPut w e).Pairwise fun a b => a.fidx.toNat < b.fidx.toNat := by
  unfold winPut
  rw [List.pairwise_append, List.pairwise_cons]
  refine ⟨h.sublist List.filter_sublist, ⟨fun x hx => by simpa using (List.mem_filter.1 hx).2,
    h.sublist List.filter_sublist⟩, fun a ha b hb => ?_⟩
  have h1 : a.fidx.toNat < e.fidx.toNat := by simpa using (List.mem_filter.1 ha).2
  rcases List.mem_cons.1 hb with rfl | hb
  · exact h1
  · have h2 : e.fidx.toNat < b.fidx.toNat := by simpa using (List.mem_filter.1 hb).2
    omega

/-- The indices after one was put. -/
theorem mem_insertIndex {b x : Nat} {l : List Nat} : x ∈ insertIndex b l ↔ x = b ∨ x ∈ l := by
  simp only [insertIndex, List.mem_append, List.mem_filter, decide_eq_true_eq, List.mem_cons]
  constructor
  · rintro (⟨h, -⟩ | rfl | ⟨h, -⟩)
    · exact .inr h
    · exact .inl rfl
    · exact .inr h
  · rintro (rfl | h)
    · exact .inr (.inl rfl)
    · rcases Nat.lt_trichotomy x b with hlt | rfl | hgt
      · exact .inl ⟨h, hlt⟩
      · exact .inr (.inl rfl)
      · exact .inr (.inr ⟨h, hgt⟩)

theorem insertIndex_rising {b : Nat} {l : List Nat} (h : l.Pairwise fun x y => x < y) :
    (insertIndex b l).Pairwise fun x y => x < y := by
  unfold insertIndex
  rw [List.pairwise_append, List.pairwise_cons]
  refine ⟨h.sublist List.filter_sublist, ⟨fun x hx => by simpa using (List.mem_filter.1 hx).2,
    h.sublist List.filter_sublist⟩, fun x hx y hy => ?_⟩
  have h1 : x < b := by simpa using (List.mem_filter.1 hx).2
  rcases List.mem_cons.1 hy with rfl | hy
  · exact h1
  · have h2 : b < y := by simpa using (List.mem_filter.1 hy).2
    omega

theorem insertIndex_length {b : Nat} {l : List Nat} (h : b ∉ l) : (insertIndex b l).length = l.length + 1 := by
  have hsplit : ∀ l : List Nat, b ∉ l →
      (l.filter fun x => decide (x < b)).length + (l.filter fun x => decide (b < x)).length = l.length := by
    intro l hl
    induction l with
    | nil => rfl
    | cons x r ih =>
      have hx : x ≠ b := fun he => hl (by simp [he])
      have hr := ih fun hm => hl (by simp [hm])
      rcases Nat.lt_or_gt_of_ne hx with hlt | hgt
      · have : ¬ b < x := by omega
        simp [hlt, this]; omega
      · have : ¬ x < b := by omega
        simp [hgt, this]; omega
  have := hsplit l h
  simp only [insertIndex, List.length_append, List.length_cons]
  omega

/-- Every store of a body into a slot keeps the entry's bytes canonical and within their bounds. -/
theorem WinEntry.store_within {e : WinEntry} (h : e.body.within Config.bodies = true) {b : Nat} (hb : b < Config.bodies)
    {body : List Byte} (hl : body.length = Config.bodyLen) : (e.store b body).body.within Config.bodies = true := by
  apply Memory.write_within h
  simp only [bodyAddr, hl, Config.bodyLen, Config.bodies] at hb ⊢
  omega

/-- Everything a write of `WIN` can do. -/
theorem winWrite_ok {e e' : WinEntry} {b : Nat} {body : List Byte} :
    winWrite e b body = .ok e' ↔ inBody b 0 body.length = true ∧ e' = e.store b body := by
  unfold winWrite
  split
  · next h => exact ⟨fun hb => ⟨h, by injection hb with hb; exact hb.symm⟩, fun hb => by rw [hb.2]⟩
  · next h => exact ⟨fun hb => by simp at hb, fun hb => absurd hb.1 h⟩

/-- The slots after a store. -/
theorem WinEntry.mem_store_present {e : WinEntry} {b x : Nat} {body : List Byte} :
    x ∈ (e.store b body).present ↔ x = b ∨ x ∈ e.present := by
  rw [← mem_insertIndex]; rfl

end Sys2Proof.Machine
end

