-- ==== Sys2Proof/Laws/Packer.lean ====
section
/-! SUPPORT. What the operations of the Rx half can do: the adoption, a sample, a frame, a datagram, a step of the worker; and
the lengths of the bodies they lay down. -/

namespace Sys2Proof

@[simp] theorem leBytes_length (n v : Nat) : (leBytes n v).length = n := by
  induction n generalizing v with
  | zero => rfl
  | succ n ih => simp [leBytes, ih]

theorem leNat_lt (bs : List Byte) : leNat bs < 256 ^ bs.length := by
  induction bs with
  | nil => simp [leNat]
  | cons b r ih =>
    have := b.isLt
    simp only [leNat, List.length_cons, Nat.pow_succ]
    omega

/-- Reading back what was laid out, as far as the bytes go. -/
theorem leNat_leBytes (n v : Nat) : leNat (leBytes n v) = v % 256 ^ n := by
  induction n generalizing v with
  | zero => simp [leBytes, leNat, Nat.mod_one]
  | succ n ih =>
    change (BitVec.ofNat 8 v).toNat + 256 * leNat (leBytes n (v / 256)) = v % 256 ^ (n + 1)
    rw [ih, BitVec.toNat_ofNat, Nat.pow_succ 256 n, Nat.mul_comm (256 ^ n) 256]
    exact (Nat.mod_mul (x := v) (a := 256) (b := 256 ^ n)).symm

@[simp] theorem takeZ_length (n : Nat) (bs : List Byte) : (takeZ n bs).length = n := by
  induction n generalizing bs with
  | zero => rfl
  | succ n ih => cases bs <;> simp [takeZ, ih]

theorem takeZ_of_le {n : Nat} {bs : List Byte} (h : n ≤ bs.length) : takeZ n bs = bs.take n := by
  induction n generalizing bs with
  | zero => simp [takeZ]
  | succ n ih =>
    cases bs with
    | nil => simp at h
    | cons b r => simp [takeZ, ih (by simpa using h)]

@[simp] theorem slice_length (b : List Byte) (off n : Nat) : (slice b off n).length = n := by
  simp [slice]

@[simp] theorem componentBytes_length (w : Nat) (x : BitVec 16) : (componentBytes w x).length = w := by
  simp [componentBytes]

@[simp] theorem blockBytes_length (f : U16) (blk rsv : Byte) (body : List Byte) :
    (blockBytes f blk rsv body).length = 4 + body.length := by
  simp [blockBytes]

namespace Machine

@[simp] theorem metaBuild_length (b : Bank) (width r : Byte) (wall : Wall) :
    (metaBuild b width r wall).length = Config.bodyLen := by
  unfold metaBuild
  dsimp only
  simp only [List.length_append, leBytes_length, List.length_replicate, List.length_cons, List.length_nil]

@[simp] theorem xorBytes_length (a b : List Byte) : (xorBytes a b).length = min a.length b.length := by
  simp [xorBytes]

@[simp] theorem scaleBytes_length (p : Params) (c : Byte) (b : List Byte) : (scaleBytes p c b).length = b.length := by
  simp [scaleBytes]

theorem combine_length {p : Params} {i n : Nat} {l : List (Nat × List Byte)} (hl : ∀ x ∈ l, x.2.length = n)
    {acc : List Byte} (ha : acc.length = n) : (combine p i l acc).length = n := by
  induction l generalizing acc with
  | nil => exact ha
  | cons x r ih =>
    obtain ⟨j, d⟩ := x
    have hd : d.length = n := hl (j, d) (by simp)
    exact ih (fun y hy => hl y (by simp [hy])) (by simp [ha, hd])

theorem indexed_snd {j : Nat} {d : List (List Byte)} {x : Nat × List Byte} (h : x ∈ indexed j d) : x.2 ∈ d := by
  induction d generalizing j with
  | nil => simp [indexed] at h
  | cons b r ih =>
    rcases List.mem_cons.1 h with rfl | h
    · simp
    · exact List.mem_cons_of_mem _ (ih h)

theorem parityBody_length {p : Params} {data : List (List Byte)} {i : Nat} (h : ∀ b ∈ data, b.length = Config.bodyLen) :
    (parityBody p data i).length = Config.bodyLen :=
  combine_length (fun _ hx => h _ (indexed_snd hx)) (by simp [zeroBody])

/-- `FEC.ENCODE` gives `m` bodies of 508 bytes. -/
theorem fecEncode_bodies {p : Params} {data : List (List Byte)} {m : Nat} (h : ∀ b ∈ data, b.length = Config.bodyLen) :
    (fecEncode p data m).length = m ∧ ∀ b ∈ fecEncode p data m, b.length = Config.bodyLen := by
  refine ⟨by simp [fecEncode], fun b hb => ?_⟩
  obtain ⟨i, -, rfl⟩ := List.mem_map.1 hb
  exact parityBody_length h

theorem dataBodies_length (m : Memory) : ∀ b ∈ dataBodies m, b.length = Config.bodyLen := by
  intro b hb
  obtain ⟨i, -, rfl⟩ := List.mem_map.1 hb
  simp

/-- Everything `PACK.FRAME` does (rule R176). -/
theorem packFrame_ok {wall : Wall} {s t : State} (h : packFrame wall s = .ok t) :
    ∃ fb,
      fbWriteBodies
          (s.rx.fb.write (bodyAddr 0 0) (metaBuild s.cfg.activeRx s.rx.frameBps s.cfg.activeRx.fecblk wall))
          Config.dataBlocks
          (fecEncode s.params
            (dataBodies
              (s.rx.fb.write (bodyAddr 0 0) (metaBuild s.cfg.activeRx s.rx.frameBps s.cfg.activeRx.fecblk wall)))
            s.cfg.activeRx.fecblk.toNat) = .ok fb ∧
        t = { s with
          rx := { s.rx with fb := fb, emitR := s.cfg.activeRx.fecblk, emitIdx := 0, emitting := true, accCount := 0 } } := by
  unfold packFrame at h
  dsimp only at h
  obtain ⟨fb0, h0, h2⟩ := bind_eq_ok.1 h
  obtain ⟨-, rfl⟩ := fbWrite_ok.1 h0
  obtain ⟨fb1, h1, h3⟩ := bind_eq_ok.1 h2
  exact ⟨fb1, h1, (Except.ok.inj h3).symm⟩

/-- `PACK.FRAME` stays inside `FB` while `FECBLK` is legal. -/
theorem packFrame_succeeds (wall : Wall) {s : State} (h : s.cfg.activeRx.fecblk.toNat ≤ Config.parityMax) :
    ∃ t, packFrame wall s = .ok t := by
  have h0 : fbWrite s.rx.fb 0 0 (metaBuild s.cfg.activeRx s.rx.frameBps s.cfg.activeRx.fecblk wall) =
      .ok (s.rx.fb.write (bodyAddr 0 0) (metaBuild s.cfg.activeRx s.rx.frameBps s.cfg.activeRx.fecblk wall)) :=
    fbWrite_ok.2 ⟨by rw [metaBuild_length]; rfl, rfl⟩
  have henc := fecEncode_bodies (p := s.params) (m := s.cfg.activeRx.fecblk.toNat)
    (dataBodies_length (s.rx.fb.write (bodyAddr 0 0)
      (metaBuild s.cfg.activeRx s.rx.frameBps s.cfg.activeRx.fecblk wall)))
  obtain ⟨fb1, h1⟩ := fbWriteBodies_succeeds henc.2
    (s.rx.fb.write (bodyAddr 0 0) (metaBuild s.cfg.activeRx s.rx.frameBps s.cfg.activeRx.fecblk wall))
    (blk := Config.dataBlocks) (by rw [henc.1]; simp only [Config.dataBlocks, Config.bodies, Config.parityMax] at *; omega)
  cases hp : packFrame wall s with
  | ok t => exact ⟨t, rfl⟩
  | error e =>
    exfalso
    unfold packFrame at hp
    dsimp only at hp
    rw [h0] at hp
    simp only [Except.bind] at hp
    rw [h1] at hp
    cases hp

/-- Everything the store of one decimated sample does (rules R61, R174). -/
theorem storeSample_ok {y : Sample} {wall : Wall} {s t : State} (h : storeSample y wall s = .ok t) :
    let width := s.rx.frameBps.toNat
    let spb := samplesPerBlock width
    let n := s.rx.accCount.toNat
    let blk := 1 + n / spb
    let off := n % spb * (2 * width)
    let u : State :=
      { s with
        rx :=
          { s.rx with
            fb := (s.rx.fb.write (bodyAddr blk off) (componentBytes width y.i)).write (bodyAddr blk (off + width))
              (componentBytes width y.q)
            accCount := s.rx.accCount + 1 } }
    inBody blk off width = true ∧ inBody blk (off + width) width = true ∧
      if (s.rx.accCount + 1).toNat = samplesPerFrame width then packFrame wall u = .ok t else t = u := by
  unfold storeSample at h
  dsimp only at h ⊢
  obtain ⟨fb1, h1, h⟩ := bind_eq_ok.1 h
  obtain ⟨fb2, h2, h⟩ := bind_eq_ok.1 h
  obtain ⟨hb1, rfl⟩ := fbWrite_ok.1 h1
  obtain ⟨hb2, rfl⟩ := fbWrite_ok.1 h2
  rw [componentBytes_length] at hb1 hb2
  refine ⟨hb1, hb2, ?_⟩
  split at h
  · next hc => rw [if_pos hc]; exact h
  · next hc => rw [if_neg hc]; injection h with h; exact h.symm

/-- Everything `RX.SAMPLE` does (rule R174). -/
theorem rxSample_ok {x : Sample} {wall : Wall} {s t : State} (h : rxSample x wall s = .ok t) :
    s.rx.emitting = false ∧
      let u := beginFrame s
      let r := decProcess u.params u.cfg.activeRx x u.rx
      (r.2 = none ∧ t = { u with rx := r.1 }) ∨
        ∃ y, r.2 = some y ∧ storeSample y wall { u with rx := r.1 } = .ok t := by
  unfold rxSample at h
  split at h
  · cases h
  · next he =>
    refine ⟨by simpa using he, ?_⟩
    dsimp only at h ⊢
    split at h
    · next hr => exact .inl ⟨hr, by injection h with h; exact h.symm⟩
    · next y hr => exact .inr ⟨y, hr, h⟩

/-- Everything `NET.SEND` does (rule R272). -/
theorem netSend_ok {now : U64} {s t : State} (h : netSend now s = .ok t) :
    sendReady now s = true ∧ inBody s.rx.emitIdx.toNat 0 Config.bodyLen = true ∧
      let last := decide ((s.rx.emitIdx + 1).toNat = 128 + s.rx.emitR.toNat)
      t = { s with
        io := { s.io with sent := s.io.sent ++ [blockBytes s.rx.frameCtr s.rx.emitIdx 0 (bodyOf s.rx.fb s.rx.emitIdx.toNat)] }
        cnt := { s.cnt with
          dgramsSent := s.cnt.dgramsSent + 1
          framesSent := if last then s.cnt.framesSent + 1 else s.cnt.framesSent }
        rx := { s.rx with
          paceReadyAt := now + s.cfg.activeRx.txdelay.setWidth 64
          emitIdx := s.rx.emitIdx + 1
          emitting := !last
          frameCtr := if last then s.rx.frameCtr + 1 else s.rx.frameCtr } } := by
  unfold netSend at h
  split at h
  · cases h
  · next hr =>
    obtain ⟨body, hb, h2⟩ := bind_eq_ok.1 h
    have hb := fbRead_ok.1 hb
    rw [hb.2] at h2
    exact ⟨not_not.1 hr, hb.1, (Except.ok.inj h2).symm⟩

/-- Where `NET.SEND` succeeds, with the state after it. -/
theorem netSend_succeeds {now : U64} {s : State} (h1 : sendReady now s = true) (h2 : s.rx.emitIdx.toNat < Config.bodies) :
    ∃ t, netSend now s = .ok t := by
  have hi : inBody s.rx.emitIdx.toNat 0 Config.bodyLen = true := by
    simpa [inBody, Config.bodies, Config.bodyLen] using h2
  unfold netSend
  rw [if_neg (not_not.2 h1)]
  exact ⟨_, bind_eq_ok.2 ⟨_, fbRead_ok.2 ⟨hi, rfl⟩, rfl⟩⟩

/-- The four arms of the Rx worker (rule R171). -/
theorem rxwStep_ok {now : U64} {wall : Wall} {s t : State} (h : rxwStep now wall s = .ok t) :
    workerRuns s = true ∧
      ((s.rx.emitting = true ∧ netSend now s = .ok t) ∨
        (s.rx.emitting = false ∧ ∃ x rest, s.rx.cur = x :: rest ∧
          rxSample x wall { s with rx := { s.rx with cur := rest } } = .ok t) ∨
        (s.rx.emitting = false ∧ s.rx.cur = [] ∧ s.rxq.vecs ≠ [] ∧ ∃ u v, pullVec .rxq s = some (u, v) ∧
          t = { u with rx := { u.rx with cur := v } }) ∨
        (s.rx.emitting = false ∧ s.rx.cur = [] ∧ s.rxq.vecs = [] ∧
          (s.rxq.ended = true ∨ s.ctl.lifecycle = .draining) ∧ t = drainTransition s)) := by
  unfold rxwStep at h
  split at h
  · cases h
  next h1 =>
  refine ⟨by simpa using h1, ?_⟩
  split at h
  · next h2 => exact .inl ⟨h2, h⟩
  next h2 =>
  have h2 : s.rx.emitting = false := by simpa using h2
  split at h
  · next x rest hc => exact .inr (.inl ⟨h2, x, rest, hc, h⟩)
  next hc =>
  split at h
  · next hv =>
    split at h
    · next u v hp => exact .inr (.inr (.inl ⟨h2, hc, hv, u, v, hp, by injection h with h; exact h.symm⟩))
    · cases h
  next hv =>
  split at h
  · next he => exact .inr (.inr (.inr ⟨h2, hc, not_not.1 hv, he, by injection h with h; exact h.symm⟩))
  · cases h

end Machine

end Sys2Proof
end

