-- ==== Sys2Proof/Laws/PerInstr.lean ====
section
/-! SUPPORT. The family `TableCode`: every instruction is encoded under the code, the header pattern or the key text
that its row of spec/opcode_table.json gives. -/

namespace Sys2Proof.Laws.TableCode

/-- What a row of the table fixes: an operation code, the `blk` bits of the header word under the row's mask, or a key. -/
inductive Row where
  | code (c : Byte)
  | block (mask pattern : Byte)
  | key (text : List Char)
deriving DecidableEq, Repr

/-- The row of an instruction, written out from the table. -/
def row : Instr → Row
  | .ctlReset => .code 0x01
  | .ctlStart _ => .code 0x02
  | .ctlStop => .code 0x03
  | .ctlDeverr => .code 0x04
  | .cfgWrite _ _ => .code 0x08
  | .cfgRead _ => .code 0x09
  | .cfgApply _ _ => .code 0x0A
  | .sbPush _ _ => .code 0x10
  | .sbPull _ => .code 0x11
  | .sbEnd _ => .code 0x12
  | .sbWaitfill _ _ => .code 0x13
  | .sbQueued _ => .code 0x14
  | .decProcess _ => .code 0x20
  | .intProcess _ => .code 0x21
  | .dspReset _ => .code 0x22
  | .mixFs4 _ => .code 0x23
  | .rxwStep _ _ => .code 0x30
  | .rxAdopt => .code 0x31
  | .rxSample _ _ => .code 0x32
  | .packFrame _ => .code 0x33
  | .crc32 _ => .code 0x34
  | .netRecv _ => .code 0x40
  | .txAdopt => .code 0x41
  | .txRetire => .code 0x42
  | .unpackExpand _ _ => .code 0x43
  | .fecEncode _ _ => .code 0x50
  | .fecDecode _ => .code 0x51
  | .netSend _ => .code 0x60
  | .blkMeta _ _ _ => .block 0xFF 0x00
  | .blkSample _ _ _ _ => .block 0x80 0x00
  | .blkParity _ _ _ _ => .block 0x80 0x80
  | .keyTxdelay _ => .key ['t', 'x', 'd', 'e', 'l', 'a', 'y']
  | .keyFecblk _ => .key ['f', 'e', 'c', 'b', 'l', 'k']
  | .keyDecim _ => .key ['d', 'e', 'c', 'i', 'm']
  | .keyInterp _ => .key ['i', 'n', 't', 'e', 'r', 'p']
  | .keyFcpos _ => .key ['f', 'c', 'p', 'o', 's']
  | .keyFreq _ _ => .key ['f', 'r', 'e', 'q']
  | .keySrate _ _ => .key ['s', 'r', 'a', 't', 'e']
  | .keyPpmp _ _ => .key ['p', 'p', 'm', 'p']
  | .keyPpmn _ _ => .key ['p', 'p', 'm', 'n']
  | .keyAgc _ _ => .key ['a', 'g', 'c']
  | .keyAntbias _ _ => .key ['a', 'n', 't', 'b', 'i', 'a', 's']
  | .keyGain _ _ => .key ['g', 'a', 'i', 'n']
  | .keyLgain _ _ => .key ['l', 'g', 'a', 'i', 'n']
  | .keyMgain _ _ => .key ['m', 'g', 'a', 'i', 'n']
  | .keyVgain _ _ => .key ['v', 'g', 'a', 'i', 'n']
  | .keyV1gain _ _ => .key ['v', '1', 'g', 'a', 'i', 'n']
  | .keyV2gain _ _ => .key ['v', '2', 'g', 'a', 'i', 'n']
  | .keyBwfilter _ _ => .key ['b', 'w', 'f', 'i', 'l', 't', 'e', 'r']
  | .keyBw _ _ => .key ['b', 'w']
  | .keyExtamp _ _ => .key ['e', 'x', 't', 'a', 'm', 'p']
  | .keyLagc _ _ => .key ['l', 'a', 'g', 'c']
  | .keyMagc _ _ => .key ['m', 'a', 'g', 'c']
  | .keyPwidle _ _ => .key ['p', 'w', 'i', 'd', 'l', 'e']
  | .keyBlklen _ _ => .key ['b', 'l', 'k', 'l', 'e', 'n']
  | .keyPower _ _ => .key ['p', 'o', 'w', 'e', 'r']
  | .keyDfp _ _ => .key ['d', 'f', 'p']
  | .keyDfn _ _ => .key ['d', 'f', 'n']
  | .keyFile _ _ => .key ['f', 'i', 'l', 'e']

/-- The transaction of the instruction carries what its row fixes. -/
def carries (t : Transaction) : Row → Prop
  | .code c => t.port = .op ∧ t.bytes.head? = some c
  | .block mask pattern => t.port = .wire ∧ byteAt t.bytes 2 &&& mask = pattern
  | .key text => t.port = .control ∧ t.bytes.take text.length = ascii text

/-- An instruction is encoded under its row. -/
def Statement (i : Instr) : Prop := carries (encode i) (row i)

theorem sample_mask : ∀ b : BitVec 7, b.setWidth 8 &&& 0x80 = (0 : Byte) := by
  decide

theorem parity_mask : ∀ b : BitVec 7, (0x80 ||| b.setWidth 8) &&& 0x80 = (0x80 : Byte) := by
  decide

theorem byteAt_blockBytes (f : U16) (blk rsv : Byte) (body : List Byte) : byteAt (blockBytes f blk rsv body) 2 = blk := by
  simp only [blockBytes, leBytes, headerWord, byteAt, List.cons_append, List.getD_cons_succ, List.getD_cons_zero]
  apply BitVec.eq_of_toNat_eq
  have h : ((f.setWidth 32 ||| blk.setWidth 32 <<< 16 ||| rsv.setWidth 32 <<< 24 : U32) >>> 16).setWidth 8 = blk := by
    apply BitVec.eq_of_getLsbD_eq
    intro k hk
    have h2 : 16 + k < 24 := by omega
    have h3 : 16 + k < 32 := by omega
    simp [hk, h2, h3]
  have h' := congrArg BitVec.toNat h
  simp only [BitVec.toNat_setWidth, BitVec.toNat_ushiftRight, Nat.shiftRight_eq_div_pow] at h'
  rw [BitVec.toNat_ofNat, Nat.div_div_eq_div_mul]
  exact h'

theorem take_itemText (k : Key) (val : Option (List Byte)) : (itemText k val).take k.text.length = k.text := by
  cases val <;> simp [itemText]

theorem ctlReset : Statement (.ctlReset) :=
  And.intro rfl rfl

theorem ctlStart (devOk : Bool) : Statement (.ctlStart devOk) :=
  And.intro rfl rfl

theorem ctlStop : Statement (.ctlStop) :=
  And.intro rfl rfl

theorem ctlDeverr : Statement (.ctlDeverr) :=
  And.intro rfl rfl

theorem cfgWrite (reg : Byte) (value : Nat) : Statement (.cfgWrite reg value) :=
  And.intro rfl rfl

theorem cfgRead (reg : Byte) : Statement (.cfgRead reg) :=
  And.intro rfl rfl

theorem cfgApply (msg : List Byte) (dev : List DevAnswer) : Statement (.cfgApply msg dev) :=
  And.intro rfl rfl

theorem sbPush (queue : QueueId) (v : List Sample) : Statement (.sbPush queue v) :=
  And.intro rfl rfl

theorem sbPull (queue : QueueId) : Statement (.sbPull queue) :=
  And.intro rfl rfl

theorem sbEnd (queue : QueueId) : Statement (.sbEnd queue) :=
  And.intro rfl rfl

theorem sbWaitfill (queue : QueueId) (n : Nat) : Statement (.sbWaitfill queue n) :=
  And.intro rfl rfl

theorem sbQueued (queue : QueueId) : Statement (.sbQueued queue) :=
  And.intro rfl rfl

theorem decProcess (x : Sample) : Statement (.decProcess x) :=
  And.intro rfl rfl

theorem intProcess (v : List Sample) : Statement (.intProcess v) :=
  And.intro rfl rfl

theorem dspReset (half : Half) : Statement (.dspReset half) :=
  And.intro rfl rfl

theorem mixFs4 (x : Sample) : Statement (.mixFs4 x) :=
  And.intro rfl rfl

theorem rxwStep (now : U64) (wall : Wall) : Statement (.rxwStep now wall) :=
  And.intro rfl rfl

theorem rxAdopt : Statement (.rxAdopt) :=
  And.intro rfl rfl

theorem rxSample (x : Sample) (wall : Wall) : Statement (.rxSample x wall) :=
  And.intro rfl rfl

theorem packFrame (wall : Wall) : Statement (.packFrame wall) :=
  And.intro rfl rfl

theorem crc32 (bytes : List Byte) : Statement (.crc32 bytes) :=
  And.intro rfl rfl

theorem netRecv (d : List Byte) : Statement (.netRecv d) :=
  And.intro rfl rfl

theorem txAdopt : Statement (.txAdopt) :=
  And.intro rfl rfl

theorem txRetire : Statement (.txRetire) :=
  And.intro rfl rfl

theorem unpackExpand (bodies : List (List Byte)) (b : Byte) : Statement (.unpackExpand bodies b) :=
  And.intro rfl rfl

theorem fecEncode (data : List (List Byte)) (m : Byte) : Statement (.fecEncode data m) :=
  And.intro rfl rfl

theorem fecDecode (slots : List Slot) : Statement (.fecDecode slots) :=
  And.intro rfl rfl

theorem netSend (now : U64) : Statement (.netSend now) :=
  And.intro rfl rfl

theorem blkMeta (fidx : U16) (rsv : Byte) (body : List Byte) : Statement (.blkMeta fidx rsv body) :=
  And.intro rfl (by simp only [encode, byteAt_blockBytes]; decide)

theorem blkSample (fidx : U16) (b : BitVec 7) (rsv : Byte) (body : List Byte) : Statement (.blkSample fidx b rsv body) :=
  And.intro rfl (by simp only [encode, byteAt_blockBytes]; exact sample_mask b)

theorem blkParity (fidx : U16) (b : BitVec 7) (rsv : Byte) (body : List Byte) : Statement (.blkParity fidx b rsv body) :=
  And.intro rfl (by simp only [encode, byteAt_blockBytes]; exact parity_mask b)

theorem keyTxdelay (val : Option (List Byte)) : Statement (.keyTxdelay val) :=
  And.intro rfl (take_itemText .txdelay val)

theorem keyFecblk (val : Option (List Byte)) : Statement (.keyFecblk val) :=
  And.intro rfl (take_itemText .fecblk val)

theorem keyDecim (val : Option (List Byte)) : Statement (.keyDecim val) :=
  And.intro rfl (take_itemText .decim val)

theorem keyInterp (val : Option (List Byte)) : Statement (.keyInterp val) :=
  And.intro rfl (take_itemText .interp val)

theorem keyFcpos (val : Option (List Byte)) : Statement (.keyFcpos val) :=
  And.intro rfl (take_itemText .fcpos val)

theorem keyFreq (val : Option (List Byte)) (dev : Option DevAnswer) : Statement (.keyFreq val dev) :=
  And.intro rfl (take_itemText .freq val)

theorem keySrate (val : Option (List Byte)) (dev : Option DevAnswer) : Statement (.keySrate val dev) :=
  And.intro rfl (take_itemText .srate val)

theorem keyPpmp (val : Option (List Byte)) (dev : Option DevAnswer) : Statement (.keyPpmp val dev) :=
  And.intro rfl (take_itemText .ppmp val)

theorem keyPpmn (val : Option (List Byte)) (dev : Option DevAnswer) : Statement (.keyPpmn val dev) :=
  And.intro rfl (take_itemText .ppmn val)

theorem keyAgc (val : Option (List Byte)) (dev : Option DevAnswer) : Statement (.keyAgc val dev) :=
  And.intro rfl (take_itemText .agc val)

theorem keyAntbias (val : Option (List Byte)) (dev : Option DevAnswer) : Statement (.keyAntbias val dev) :=
  And.intro rfl (take_itemText .antbias val)

theorem keyGain (val : Option (List Byte)) (dev : Option DevAnswer) : Statement (.keyGain val dev) :=
  And.intro rfl (take_itemText .gain val)

theorem keyLgain (val : Option (List Byte)) (dev : Option DevAnswer) : Statement (.keyLgain val dev) :=
  And.intro rfl (take_itemText .lgain val)

theorem keyMgain (val : Option (List Byte)) (dev : Option DevAnswer) : Statement (.keyMgain val dev) :=
  And.intro rfl (take_itemText .mgain val)

theorem keyVgain (val : Option (List Byte)) (dev : Option DevAnswer) : Statement (.keyVgain val dev) :=
  And.intro rfl (take_itemText .vgain val)

theorem keyV1gain (val : Option (List Byte)) (dev : Option DevAnswer) : Statement (.keyV1gain val dev) :=
  And.intro rfl (take_itemText .v1gain val)

theorem keyV2gain (val : Option (List Byte)) (dev : Option DevAnswer) : Statement (.keyV2gain val dev) :=
  And.intro rfl (take_itemText .v2gain val)

theorem keyBwfilter (val : Option (List Byte)) (dev : Option DevAnswer) : Statement (.keyBwfilter val dev) :=
  And.intro rfl (take_itemText .bwfilter val)

theorem keyBw (val : Option (List Byte)) (dev : Option DevAnswer) : Statement (.keyBw val dev) :=
  And.intro rfl (take_itemText .bw val)

theorem keyExtamp (val : Option (List Byte)) (dev : Option DevAnswer) : Statement (.keyExtamp val dev) :=
  And.intro rfl (take_itemText .extamp val)

theorem keyLagc (val : Option (List Byte)) (dev : Option DevAnswer) : Statement (.keyLagc val dev) :=
  And.intro rfl (take_itemText .lagc val)

theorem keyMagc (val : Option (List Byte)) (dev : Option DevAnswer) : Statement (.keyMagc val dev) :=
  And.intro rfl (take_itemText .magc val)

theorem keyPwidle (val : Option (List Byte)) (dev : Option DevAnswer) : Statement (.keyPwidle val dev) :=
  And.intro rfl (take_itemText .pwidle val)

theorem keyBlklen (val : Option (List Byte)) (dev : Option DevAnswer) : Statement (.keyBlklen val dev) :=
  And.intro rfl (take_itemText .blklen val)

theorem keyPower (val : Option (List Byte)) (dev : Option DevAnswer) : Statement (.keyPower val dev) :=
  And.intro rfl (take_itemText .power val)

theorem keyDfp (val : Option (List Byte)) (dev : Option DevAnswer) : Statement (.keyDfp val dev) :=
  And.intro rfl (take_itemText .dfp val)

theorem keyDfn (val : Option (List Byte)) (dev : Option DevAnswer) : Statement (.keyDfn val dev) :=
  And.intro rfl (take_itemText .dfn val)

theorem keyFile (val : Option (List Byte)) (dev : Option DevAnswer) : Statement (.keyFile val dev) :=
  And.intro rfl (take_itemText .file val)

end Sys2Proof.Laws.TableCode
end

