-- ==== Sys2Proof/Laws/Runs.lean ====
section
/-! SUPPORT. Runs of operations: how they are put together. -/

namespace Sys2Proof.Machine

/-- A run behind a run. -/
theorem runAll_append {l l' : List Instr} {s t u : State} {rs rs' : List Result} (h : runAll l s = some (t, rs))
    (h' : runAll l' t = some (u, rs')) : runAll (l ++ l') s = some (u, rs ++ rs') := by
  induction l generalizing s rs with
  | nil =>
    simp only [runAll, Option.some.injEq, Prod.mk.injEq] at h
    obtain ⟨rfl, rfl⟩ := h; exact h'
  | cons i l ih =>
    rw [List.cons_append, runAll]
    rw [runAll] at h
    cases he : exec i s with
    | next v =>
      rw [he] at h
      obtain ⟨x, hx, hy⟩ := Option.map_eq_some_iff.1 h
      obtain ⟨t', rs1⟩ := x
      simp only [Prod.mk.injEq] at hy
      obtain ⟨rfl, rfl⟩ := hy
      simp only [ih hx]; rfl
    | fault _ => rw [he] at h; cases h
    | refused _ => rw [he] at h; cases h

end Sys2Proof.Machine
end

