-- ==== Sys2Proof/Laws/Unpacker.lean ====
section
/-! SUPPORT. What the operations of the Tx half can do: delivery, retirement, eviction, the arrival of a datagram. -/

namespace Sys2Proof.Machine

/-- What two states have in common when only the Tx stream moved on: everything but the interpolator, the last-meta registers,
`pad_bps`, `TXQ`, the counters and the trace. -/
structure SameButStream (s t : State) : Prop where
  params : t.params = s.params
  ctl : t.ctl = s.ctl
  cfg : t.cfg = s.cfg
  rx : t.rx = s.rx
  win : t.tx.win = s.tx.win
  synced : t.tx.synced = s.tx.synced
  base : t.tx.base = s.tx.base
  rxq : t.rxq = s.rxq
  ended : t.txq.ended = s.txq.ended
  inbox : t.io.inbox = s.io.inbox
  sent : t.io.sent = s.io.sent

theorem SameButStream.refl (s : State) : SameButStream s s :=
  ⟨rfl, rfl, rfl, rfl, rfl, rfl, rfl, rfl, rfl, rfl, rfl⟩

theorem SameButStream.trans {s t u : State} (h : SameButStream s t) (k : SameButStream t u) : SameButStream s u :=
  ⟨k.params.trans h.params, k.ctl.trans h.ctl, k.cfg.trans h.cfg, k.rx.trans h.rx, k.win.trans h.win,
    k.synced.trans h.synced, k.base.trans h.base, k.rxq.trans h.rxq, k.ended.trans h.ended, k.inbox.trans h.inbox,
    k.sent.trans h.sent⟩

theorem sameButStream_raise (e : ErrorEvent) (s : State) : SameButStream s (raise e s) :=
  ⟨rfl, rfl, rfl, rfl, rfl, rfl, rfl, rfl, rfl, rfl, rfl⟩

theorem sameButStream_push {v : List Sample} {s t : State} (h : pushVec .txq v s = .ok t) : SameButStream s t := by
  obtain ⟨-, -, -, -, ⟨-, rfl⟩ | ⟨-, rfl⟩⟩ := pushVec_ok h
  · exact .refl t
  · have hr := overrunCheck_queue_ne .txq .rxq
      (s.setQueue .txq { s.queue .txq with vecs := (s.queue .txq).vecs ++ [v] }) (by decide)
    have he := overrunCheck_ended .txq (s.setQueue .txq { s.queue .txq with vecs := (s.queue .txq).vecs ++ [v] })
    exact ⟨by simp, by simp, by simp, by simp, by simp, by simp, by simp, hr, he, by simp, by simp⟩

/-- `DELIVER` interpolates and pushes (rule R214). -/
theorem deliver_ok {v : List Sample} {s t : State} (h : deliver v s = .ok t) :
    pushVec .txq (intProcess v s).2 (intProcess v s).1 = .ok t ∧ SameButStream s t := by
  refine ⟨h, .trans ?_ (sameButStream_push h)⟩
  exact ⟨rfl, rfl, rfl, rfl, rfl, rfl, rfl, rfl, rfl, rfl, rfl⟩

theorem loseFrame_same {e : ErrorEvent} {f : U16} {s t : State} (h : loseFrame e f s = .ok t) : SameButStream s t :=
  .trans (.trans (sameButStream_raise e s) (sameButStream_raise (.frameLoss f) _)) (deliver_ok h).2

theorem acceptFrame_same {m : List Byte} {data : List (List Byte)} {s t : State} (h : acceptFrame m data s = .ok t) :
    SameButStream s t := by
  refine .trans ?_ (deliver_ok h).2
  exact ⟨rfl, rfl, rfl, rfl, rfl, rfl, rfl, rfl, rfl, rfl, rfl⟩

/-- Everything `FEC.DECODE` of an entry of `WIN` can do. -/
theorem winDecode_ok {p : Params} {e : WinEntry} {data : List (List Byte)} :
    winDecode p e = .ok data ↔ fecReadsInside e = true ∧ data = fecDecode p e := by
  unfold winDecode
  split
  · next h => exact ⟨fun hb => ⟨h, by injection hb with hb; exact hb.symm⟩, fun hb => by rw [hb.2]⟩
  · next h => exact ⟨fun hb => by simp at hb, fun hb => absurd hb.1 h⟩

/-- Where every slot lies inside the frame, so does every body that `FEC.DECODE` reads. -/
theorem fecReadsInside_of_present {e : WinEntry} (h : ∀ b ∈ e.present, b < Config.bodies) : fecReadsInside e = true := by
  refine List.all_eq_true.2 fun b hb => ?_
  have hb := h b (List.mem_of_mem_filter (List.mem_of_mem_take hb))
  simpa [inBody, Config.bodies, Config.bodyLen] using hb

/-- The four ends of the frame at `tx_base` (rule R210): too few slots, a wrong CRC, a wrong width, accepted. -/
theorem settleHead_cases {s t : State} (h : settleHead s = .ok t) :
    (headEntry s = none ∧ loseFrame (.insufficientBlocks s.tx.base) s.tx.base s = .ok t) ∨
      ∃ e, headEntry s = some e ∧ fecReadsInside e = true ∧
        let m := (fecDecode s.params e).headD []
        (crc32 (slice m 0 20) ≠ le32 m 20 ∧ loseFrame (.crcFailure s.tx.base) s.tx.base s = .ok t) ∨
          (crc32 (slice m 0 20) = le32 m 20 ∧ byteAt m 8 ≠ 1 ∧ byteAt m 8 ≠ 2 ∧
            loseFrame (.metaInvalid s.tx.base) s.tx.base s = .ok t) ∨
          (crc32 (slice m 0 20) = le32 m 20 ∧ (byteAt m 8 = 1 ∨ byteAt m 8 = 2) ∧
            acceptFrame m (fecDecode s.params e) s = .ok t) := by
  unfold settleHead at h
  dsimp only at h
  split at h
  · next he => exact .inl ⟨he, h⟩
  · next e he =>
    obtain ⟨data, hd, h⟩ := bind_eq_ok.1 h
    obtain ⟨hi, rfl⟩ := winDecode_ok.1 hd
    refine .inr ⟨e, he, hi, ?_⟩
    dsimp only
    split at h
    · next hc => exact .inl ⟨hc, h⟩
    · next hc =>
      have hc := not_not.1 hc
      split at h
      · next hb => exact .inr (.inl ⟨hc, hb.1, hb.2, h⟩)
      · next hb => exact .inr (.inr ⟨hc, by tauto, h⟩)

theorem settleHead_same {s t : State} (h : settleHead s = .ok t) : SameButStream s t := by
  rcases settleHead_cases h with ⟨-, h⟩ | ⟨e, -, -, ⟨-, h⟩ | ⟨-, -, -, h⟩ | ⟨-, -, h⟩⟩
  · exact loseFrame_same h
  · exact loseFrame_same h
  · exact loseFrame_same h
  · exact acceptFrame_same h

/-- Everything `TX.RETIRE` does: the frame at `tx_base` is settled, its entry leaves, the base advances by one. -/
theorem txRetire_ok {s t : State} (h : txRetire s = .ok t) :
    ∃ u, settleHead s = .ok u ∧ SameButStream s u ∧ t = advanceBase s.tx.base u := by
  obtain ⟨u, hu, rfl⟩ := map_eq_ok.1 h
  exact ⟨u, hu, settleHead_same hu, rfl⟩

@[simp] theorem txRetire_base {s t : State} (h : txRetire s = .ok t) : t.tx.base = s.tx.base + 1 := by
  obtain ⟨u, -, -, rfl⟩ := txRetire_ok h; rfl

theorem txRetire_win {s t : State} (h : txRetire s = .ok t) : t.tx.win = winDrop s.tx.win s.tx.base := by
  obtain ⟨u, -, hs, rfl⟩ := txRetire_ok h
  rw [advanceBase_tx_win, hs.win]

/-- What every retirement keeps, an eviction keeps. -/
theorem evict_keeps {P : State → Prop} (hP : ∀ {s t}, P s → txRetire s = .ok t → P t) {f : U16} {n : Nat} {s t : State}
    (hs : P s) (h : evict f n s = .ok t) : P t := by
  induction n generalizing s with
  | zero => simp only [evict, Except.ok.injEq] at h; exact h ▸ hs
  | succ n ih =>
    unfold evict at h
    split at h
    · obtain ⟨u, hu, h⟩ := bind_eq_ok.1 h
      exact ih (hP hs hu) h
    · injection h with h; exact h ▸ hs

/-- What every retirement keeps, the delivery of the complete frames keeps. -/
theorem deliverComplete_keeps {P : State → Prop} (hP : ∀ {s t}, P s → txRetire s = .ok t → P t) {n : Nat} {s t : State}
    (hs : P s) (h : deliverComplete n s = .ok t) : P t := by
  induction n generalizing s with
  | zero => simp only [deliverComplete, Except.ok.injEq] at h; exact h ▸ hs
  | succ n ih =>
    unfold deliverComplete at h
    split at h
    · obtain ⟨u, hu, h⟩ := bind_eq_ok.1 h
      exact ih (hP hs hu) h
    · injection h with h; exact h ▸ hs

theorem dist_succ {f b : U16} (h : dist f b ≠ 0) : dist f (b + 1) = dist f b - 1 := by
  unfold dist at *
  bv_omega

/-- Everything the store of a body does (rule R200 lines 8 to 10): a duplicate is counted, a free slot inside the frame is written. -/
theorem storeSlot_ok {f : U16} {b : Nat} {body : List Byte} {s t : State} (h : storeSlot f b body s = .ok t) :
    let e := (winFind s.tx.win f).getD (WinEntry.empty f)
    (b ∈ e.present ∧ t = { s with cnt := { s.cnt with dup := s.cnt.dup + 1 } }) ∨
      (b ∉ e.present ∧ inBody b 0 body.length = true ∧
        t = { s with tx := { s.tx with win := winPut s.tx.win (e.store b body) } }) := by
  unfold storeSlot at h
  dsimp only at h ⊢
  split at h
  · next h1 => exact .inl ⟨by simpa using h1, by injection h with h; exact h.symm⟩
  · next h1 =>
    obtain ⟨e', he, rfl⟩ := map_eq_ok.1 h
    obtain ⟨hi, rfl⟩ := winWrite_ok.1 he
    exact .inr ⟨by simpa using h1, hi, rfl⟩

/-- What the store of a body leaves alone: all but the window and the count of duplicates. -/
theorem storeSlot_same {f : U16} {b : Nat} {body : List Byte} {s t : State} (h : storeSlot f b body s = .ok t) :
    t.params = s.params ∧ t.ctl = s.ctl ∧ t.cfg = s.cfg ∧ t.rx = s.rx ∧ t.rxq = s.rxq ∧ t.txq = s.txq ∧ t.io = s.io ∧
      t.tx = { s.tx with win := t.tx.win } := by
  rcases storeSlot_ok h with ⟨-, rfl⟩ | ⟨-, -, rfl⟩ <;> exact ⟨rfl, rfl, rfl, rfl, rfl, rfl, rfl, rfl⟩

/-- After line 7 of rule R200 the frame is at most 4 ahead of `tx_base` (rule R206). -/
theorem evict_dist {f : U16} {n : Nat} {s t : State} (hn : dist f s.tx.base ≤ n) (h : evict f n s = .ok t) :
    dist f t.tx.base = min Config.evictDistance (dist f s.tx.base) := by
  induction n generalizing s with
  | zero =>
    simp only [evict, Except.ok.injEq] at h
    subst h
    rw [Nat.min_eq_right]; omega
  | succ n ih =>
    unfold evict at h
    split at h
    · next hd =>
      obtain ⟨u, hu, h⟩ := bind_eq_ok.1 h
      have hb := txRetire_base hu
      simp only [Config.evictDistance] at hd ⊢
      have h1 : dist f u.tx.base = dist f s.tx.base - 1 := by rw [hb]; exact dist_succ (by omega)
      rw [ih (by omega) h, h1]
      simp only [Config.evictDistance]; omega
    · next hd =>
      injection h with h
      subst h
      rw [Nat.min_eq_right]; omega

/-- Everything the arrival of a datagram does in `Streaming` (rule R200). -/
theorem netRecv_ok {d : List Byte} {s t : State} (h : netRecv d s = .ok t) :
    (d.length ≠ Config.blockLen ∧ t = raise .protocolLength (txAdopt s)) ∨
      (d.length = Config.blockLen ∧ 128 + (txAdopt s).cfg.activeTx.fecblk.toNat ≤ (byteAt d 2).toNat ∧
        t = raise .protocolHeader (txAdopt s)) ∨
      (d.length = Config.blockLen ∧ (byteAt d 2).toNat < 128 + (txAdopt s).cfg.activeTx.fecblk.toNat ∧
        acceptBlock (le16 d 0) (byteAt d 2).toNat (d.drop 4) (synchronise (le16 d 0) (txAdopt s)) = .ok t) := by
  unfold netRecv at h
  dsimp only at h
  split at h
  · next h1 => exact .inl ⟨h1, by injection h with h; exact h.symm⟩
  · next h1 =>
    have h1 := not_not.1 h1
    split at h
    · next h2 => exact .inr (.inl ⟨h1, h2, by injection h with h; exact h.symm⟩)
    · next h2 => exact .inr (.inr ⟨h1, by omega, h⟩)

/-- Everything an acceptable block does once the window is synchronised (rule R200 lines 6 to 11). -/
theorem acceptBlock_ok {f : U16} {b : Nat} {body : List Byte} {s t : State} (h : acceptBlock f b body s = .ok t) :
    (Config.behind ≤ dist f s.tx.base ∧ t = { s with cnt := { s.cnt with late := s.cnt.late + 1 } }) ∨
      (dist f s.tx.base < Config.behind ∧ ∃ u v, evict f (dist f s.tx.base) s = .ok u ∧ storeSlot f b body u = .ok v ∧
        deliverComplete v.tx.win.length v = .ok t) := by
  unfold acceptBlock at h
  split at h
  · next h1 => exact .inl ⟨h1, by injection h with h; exact h.symm⟩
  · next h1 =>
    obtain ⟨u, hu, h⟩ := bind_eq_ok.1 h
    obtain ⟨v, hv, h⟩ := bind_eq_ok.1 h
    exact .inr ⟨by omega, u, v, hu, hv, h⟩

/-- Every next state of an arrival: ignored, waiting, or received. -/
theorem receive_eq_next {d : List Byte} {s t : State} (h : receive d s = .next t) :
    (s.ctl.lifecycle ≠ .streaming ∧ t = s.ret .ignored) ∨ (s.ctl.lifecycle = .streaming ∧ t = s.ret .noStep) ∨
      (s.ctl.lifecycle = .streaming ∧ ∃ u, netRecv d s = .ok u ∧ t = u.ret .done) := by
  unfold receive at h
  split at h
  · next h1 => exact .inl ⟨h1, by injection h with h; exact h.symm⟩
  · next h1 =>
    have h1 := not_not.1 h1
    rcases finish_eq_next.1 h with ⟨u, hu, rfl⟩ | ⟨-, rfl⟩
    · exact .inr (.inr ⟨h1, u, hu, rfl⟩)
    · exact .inr (.inl ⟨h1, rfl⟩)

end Sys2Proof.Machine
end

