-- ==== Sys2Proof/Tests/Slice0.lean ====
section
/-! SUPPORT. The model's own tests: ill-formed terms refused, words written out from the encodings decoded, small steps with the
values of spec/95_test_vectors.md, and for each statement with hypotheses a state and operands that meet them. -/

namespace Sys2Proof.Tests

-- One theorem after another: the evaluations below would otherwise each hold a thread.
set_option Elab.async false

open Sys2Proof Sys2Proof.Machine

/-- The next state, if there is one. -/
def nextOf (o : Host.Outcome State Fault Refusal) : Option State :=
  match o with
  | .next t => some t
  | .fault _ => none
  | .refused _ => none

/-- The refusal, if there is one. -/
def refusalOf (o : Host.Outcome State Fault Refusal) : Option Refusal :=
  match o with
  | .next _ => none
  | .fault _ => none
  | .refused r => some r

/-- What an operation returned. -/
def resultOf (i : Instr) (s : State) : Option Result := (nextOf (exec i s)).map fun t => t.io.result

/-- The block after `CTL.RESET`, `CTL.START true`. -/
def running : State := { State.reset with ctl.lifecycle := .streaming }

/-- The same with a bank in all three places. -/
def runningWith (b : Bank) : State := { running with cfg := ⟨b, b, b, 0, 0, 0⟩ }

/-- A datagram with a body of zeros. -/
def datagram (f0 f1 blk rsv : Byte) : List Byte := [f0, f1, blk, rsv] ++ List.replicate 508 0

/-- A sample from its components. -/
def smp (i q : Int) : Sample := ⟨BitVec.ofInt 16 i, BitVec.ofInt 16 q⟩

/-! ### Ill-formed terms are refused -/

theorem test_wf_wall_top : (Instr.packFrame ⟨0, 999999⟩).wf = true := by decide
theorem test_wf_wall_usec : (Instr.packFrame ⟨0, 1000000⟩).wf = false := by decide
theorem test_wf_wall_worker : (Instr.rxwStep 0 ⟨0, 1000000⟩).wf = false := by decide
theorem test_wf_wall_sample : (Instr.rxSample ⟨1, 2⟩ ⟨0, 1000000⟩).wf = false := by decide
theorem test_wf_expand_count : (Instr.unpackExpand (List.replicate 126 zeroBody) 2).wf = false := by decide +kernel
theorem test_wf_expand_body : (Instr.unpackExpand (List.replicate 127 (List.replicate 507 0)) 2).wf = false := by decide +kernel
theorem test_wf_expand_width : (Instr.unpackExpand (List.replicate 127 zeroBody) 3).wf = false := by
  rw [Instr.wf, Bool.and_eq_false_iff]; exact .inr (by decide +kernel)
theorem test_wf_encode_count : (Instr.fecEncode (List.replicate 127 zeroBody) 1).wf = false := by decide +kernel
theorem test_wf_encode_rows : (Instr.fecEncode (List.replicate 128 zeroBody) 128).wf = false := by
  rw [Instr.wf, Bool.and_eq_false_iff]; exact .inr (by decide +kernel)
theorem test_wf_slots_order : (Instr.fecDecode [⟨2, zeroBody⟩, ⟨1, zeroBody⟩]).wf = false := by decide +kernel
theorem test_wf_slots_twice : (Instr.fecDecode [⟨2, zeroBody⟩, ⟨2, zeroBody⟩]).wf = false := by decide +kernel
theorem test_wf_slots_index : (Instr.fecDecode [⟨255, zeroBody⟩]).wf = false := by decide +kernel
theorem test_wf_slots_body : (Instr.fecDecode [⟨0, [1, 2]⟩]).wf = false := by decide
theorem test_wf_meta_body : (Instr.blkMeta 0 0 (List.replicate 507 0)).wf = false := by decide +kernel
theorem test_wf_sample_index : (Instr.blkSample 0 0 0 (List.replicate 508 0)).wf = false := by decide +kernel
theorem test_wf_sample_body : (Instr.blkSample 0 1 0 (List.replicate 509 0)).wf = false := by decide +kernel
theorem test_wf_parity_body : (Instr.blkParity 0 1 0 []).wf = false := by decide
theorem test_wf_key_comma : (Instr.keyGain (some [0x31, 0x2C]) none).wf = false := by decide
theorem test_wf_key_length : (Instr.keyFile (some (List.replicate 4092 0x61)) none).wf = false := by
  decide +kernel

/-! ### Words written out from rule R100: the code, then the operands in the layout of log entry 2 -/

theorem test_decode_ctl_reset : decode ⟨.op, [0x01], []⟩ = .ok .ctlReset := by rfl
theorem test_decode_ctl_start : decode ⟨.op, [0x02, 0x01], []⟩ = .ok (.ctlStart true) := by rfl
theorem test_decode_ctl_start_failed : decode ⟨.op, [0x02, 0x00], []⟩ = .ok (.ctlStart false) := by rfl
theorem test_decode_ctl_stop : decode ⟨.op, [0x03], []⟩ = .ok .ctlStop := by rfl
theorem test_decode_ctl_deverr : decode ⟨.op, [0x04], []⟩ = .ok .ctlDeverr := by rfl
theorem test_decode_cfg_write : decode ⟨.op, [0x08, 0x06, 0x80, 0xBB], []⟩ = .ok (.cfgWrite 0x06 48000) := by rfl
theorem test_decode_cfg_read : decode ⟨.op, [0x09, 0x15], []⟩ = .ok (.cfgRead 0x15) := by rfl
theorem test_decode_cfg_apply : decode ⟨.op, [0x0A, 0x61, 0x67, 0x63], []⟩ = .ok (.cfgApply [0x61, 0x67, 0x63] []) := by rfl
theorem test_decode_sb_push : decode ⟨.op, [0x10, 0x01, 0x01, 0x00, 0xFE, 0xFF], []⟩ = .ok (.sbPush .txq [⟨1, -2⟩]) := by rfl
theorem test_decode_sb_pull : decode ⟨.op, [0x11, 0x01], []⟩ = .ok (.sbPull .txq) := by rfl
theorem test_decode_sb_end : decode ⟨.op, [0x12, 0x00], []⟩ = .ok (.sbEnd .rxq) := by rfl
theorem test_decode_sb_waitfill : decode ⟨.op, [0x13, 0x00, 0x00, 0x01], []⟩ = .ok (.sbWaitfill .rxq 256) := by rfl
theorem test_decode_sb_queued : decode ⟨.op, [0x14, 0x01], []⟩ = .ok (.sbQueued .txq) := by rfl
theorem test_decode_dec_process : decode ⟨.op, [0x20, 0x03, 0x00, 0xFC, 0xFF], []⟩ = .ok (.decProcess ⟨3, -4⟩) := by rfl
theorem test_decode_int_process :
    decode ⟨.op, [0x21, 0x20, 0x00, 0x00, 0x00, 0x00, 0x00, 0x00, 0x80], []⟩ =
      .ok (.intProcess [⟨32, 0⟩, ⟨0, -32768⟩]) := by rfl
theorem test_decode_dsp_reset : decode ⟨.op, [0x22, 0x01], []⟩ = .ok (.dspReset .tx) := by rfl
theorem test_decode_mix_fs4 : decode ⟨.op, [0x23, 0x01, 0x00, 0x02, 0x00], []⟩ = .ok (.mixFs4 ⟨1, 2⟩) := by rfl
theorem test_decode_rxw_step :
    decode ⟨.op, [0x30, 0x64, 0, 0, 0, 0, 0, 0, 0, 0x00, 0xF1, 0x53, 0x65, 0x90, 0xD0, 0x03, 0x00], []⟩ =
      .ok (.rxwStep 100 ⟨1700000000, 250000⟩) := by rfl
theorem test_decode_rx_adopt : decode ⟨.op, [0x31], []⟩ = .ok .rxAdopt := by rfl
theorem test_decode_rx_sample :
    decode ⟨.op, [0x32, 0x01, 0x00, 0x02, 0x00, 0x00, 0xF1, 0x53, 0x65, 0x90, 0xD0, 0x03, 0x00], []⟩ =
      .ok (.rxSample ⟨1, 2⟩ ⟨1700000000, 250000⟩) := by rfl
theorem test_decode_pack_frame :
    decode ⟨.op, [0x33, 0x00, 0xF1, 0x53, 0x65, 0x3F, 0x42, 0x0F, 0x00], []⟩ = .ok (.packFrame ⟨1700000000, 999999⟩) := by rfl
theorem test_decode_crc32 : decode ⟨.op, [0x34, 0x31, 0x32], []⟩ = .ok (.crc32 [0x31, 0x32]) := by rfl
theorem test_decode_net_recv : decode ⟨.op, [0x40, 0x05, 0x00, 0x09], []⟩ = .ok (.netRecv [0x05, 0x00, 0x09]) := by rfl
theorem test_decode_tx_adopt : decode ⟨.op, [0x41], []⟩ = .ok .txAdopt := by rfl
theorem test_decode_tx_retire : decode ⟨.op, [0x42], []⟩ = .ok .txRetire := by rfl
theorem test_decode_unpack_expand :
    decode ⟨.op, [0x43, 0x01, 0xFF, 0x7F], []⟩ =
      .ok (.unpackExpand ((0xFF :: 0x7F :: List.replicate 506 0) :: List.replicate 126 (List.replicate 508 0)) 2) := by decide +kernel
theorem test_decode_fec_encode :
    decode ⟨.op, [0x50, 0x08, 0xAB], []⟩ =
      .ok (.fecEncode ((0xAB :: List.replicate 507 0) :: List.replicate 127 (List.replicate 508 0)) 8) := by decide +kernel
theorem test_decode_fec_decode :
    decode ⟨.op, [0x51, 0x07, 0x01, 0x02], []⟩ =
      .ok (.fecDecode [⟨7, 0x01 :: 0x02 :: List.replicate 506 0⟩]) := by decide +kernel
theorem test_decode_net_send : decode ⟨.op, [0x60, 0xE8, 0x03], []⟩ = .ok (.netSend 1000) := by rfl

/-! ### Words that are no operation -/

theorem test_decode_unlisted : decode ⟨.op, [0x05], []⟩ = .error (.illegalOpcode 0x05) := by rfl
theorem test_decode_no_code : decode ⟨.op, [], []⟩ = .error .empty := by rfl
theorem test_decode_too_long : decode ⟨.op, [0x03, 0x00], []⟩ = .error (.illegalOperand 0x03) := by rfl
theorem test_decode_no_queue : decode ⟨.op, [0x11, 0x02], []⟩ = .error (.illegalOperand 0x11) := by rfl
theorem test_decode_half_sample : decode ⟨.op, [0x21, 0x01, 0x00], []⟩ = .error (.illegalOperand 0x21) := by rfl
theorem test_decode_clock : decode ⟨.op, [0x33, 0, 0, 0, 0, 0x40, 0x42, 0x0F, 0x00], []⟩ = .error (.illegalOperand 0x33) := by
  rfl
theorem test_decode_stray : decode ⟨.op, [0x03], [⟨.ok, 0, 0⟩]⟩ = .error .strayAnswers := by rfl

/-! ### Block headers written out from rules R91 and R92 (vectors V-H-1, V-H-2, V-H-4, V-H-5, V-H-6, V-H-8) -/

theorem test_decode_blk_meta :
    decode ⟨.wire, datagram 0x07 0x00 0x00 0x00, []⟩ = .ok (.blkMeta 7 0 (List.replicate 508 0)) := by
  decide +kernel
theorem test_decode_blk_sample :
    decode ⟨.wire, datagram 0x07 0x00 0x7F 0xAA, []⟩ = .ok (.blkSample 7 127 0xAA (List.replicate 508 0)) := by decide +kernel
theorem test_decode_blk_parity :
    decode ⟨.wire, datagram 0xFF 0xFF 0x87 0x00, []⟩ = .ok (.blkParity 65535 7 0 (List.replicate 508 0)) := by decide +kernel
theorem test_decode_blk_255 :
    decode ⟨.wire, datagram 0x02 0x01 0xFF 0x00, []⟩ = .ok (.blkParity 258 127 0 (List.replicate 508 0)) := by decide +kernel
theorem test_header_word : blockBytes 258 130 0 [] = [0x02, 0x01, 0x82, 0x00] := by decide
theorem test_decode_short : decode ⟨.wire, [7, 0, 0], []⟩ = .ok (.netRecv [7, 0, 0]) := by rfl

/-! ### Configuration items written out byte by byte from rule R101 -/

theorem test_decode_key_txdelay :
    decode ⟨.control, [0x74, 0x78, 0x64, 0x65, 0x6C, 0x61, 0x79, 0x3D, 0x35], []⟩ = .ok (.keyTxdelay (some [0x35])) := by rfl
theorem test_decode_key_fecblk :
    decode ⟨.control, [0x66, 0x65, 0x63, 0x62, 0x6C, 0x6B], []⟩ = .ok (.keyFecblk none) := by rfl
theorem test_decode_key_decim :
    decode ⟨.control, [0x64, 0x65, 0x63, 0x69, 0x6D, 0x3D, 0x35], []⟩ = .ok (.keyDecim (some [0x35])) := by rfl
theorem test_decode_key_interp :
    decode ⟨.control, [0x69, 0x6E, 0x74, 0x65, 0x72, 0x70, 0x3D, 0x35], []⟩ = .ok (.keyInterp (some [0x35])) := by rfl
theorem test_decode_key_fcpos :
    decode ⟨.control, [0x66, 0x63, 0x70, 0x6F, 0x73], []⟩ = .ok (.keyFcpos none) := by rfl
theorem test_decode_key_freq :
    decode ⟨.control, [0x66, 0x72, 0x65, 0x71, 0x3D, 0x35], []⟩ = .ok (.keyFreq (some [0x35]) none) := by rfl
theorem test_decode_key_srate :
    decode ⟨.control, [0x73, 0x72, 0x61, 0x74, 0x65, 0x3D, 0x35], [⟨.clamped, 1, 2⟩]⟩ =
      .ok (.keySrate (some [0x35]) (some ⟨.clamped, 1, 2⟩)) := by rfl
theorem test_decode_key_ppmp : decode ⟨.control, [0x70, 0x70, 0x6D, 0x70], []⟩ = .ok (.keyPpmp none none) := by rfl
theorem test_decode_key_ppmn :
    decode ⟨.control, [0x70, 0x70, 0x6D, 0x6E, 0x3D, 0x35], [⟨.clamped, 1, 2⟩]⟩ =
      .ok (.keyPpmn (some [0x35]) (some ⟨.clamped, 1, 2⟩)) := by rfl
theorem test_decode_key_agc :
    decode ⟨.control, [0x61, 0x67, 0x63, 0x3D, 0x35], []⟩ = .ok (.keyAgc (some [0x35]) none) := by rfl
theorem test_decode_key_antbias :
    decode ⟨.control, [0x61, 0x6E, 0x74, 0x62, 0x69, 0x61, 0x73], [⟨.clamped, 1, 2⟩]⟩ =
      .ok (.keyAntbias none (some ⟨.clamped, 1, 2⟩)) := by rfl
theorem test_decode_key_gain :
    decode ⟨.control, [0x67, 0x61, 0x69, 0x6E, 0x3D, 0x35], []⟩ = .ok (.keyGain (some [0x35]) none) := by rfl
theorem test_decode_key_lgain :
    decode ⟨.control, [0x6C, 0x67, 0x61, 0x69, 0x6E, 0x3D, 0x35], [⟨.clamped, 1, 2⟩]⟩ =
      .ok (.keyLgain (some [0x35]) (some ⟨.clamped, 1, 2⟩)) := by rfl
theorem test_decode_key_mgain :
    decode ⟨.control, [0x6D, 0x67, 0x61, 0x69, 0x6E], []⟩ = .ok (.keyMgain none none) := by rfl
theorem test_decode_key_vgain :
    decode ⟨.control, [0x76, 0x67, 0x61, 0x69, 0x6E, 0x3D, 0x35], [⟨.clamped, 1, 2⟩]⟩ =
      .ok (.keyVgain (some [0x35]) (some ⟨.clamped, 1, 2⟩)) := by rfl
theorem test_decode_key_v1gain :
    decode ⟨.control, [0x76, 0x31, 0x67, 0x61, 0x69, 0x6E, 0x3D, 0x35], []⟩ = .ok (.keyV1gain (some [0x35]) none) := by rfl
theorem test_decode_key_v2gain :
    decode ⟨.control, [0x76, 0x32, 0x67, 0x61, 0x69, 0x6E], [⟨.clamped, 1, 2⟩]⟩ =
      .ok (.keyV2gain none (some ⟨.clamped, 1, 2⟩)) := by rfl
theorem test_decode_key_bwfilter :
    decode ⟨.control, [0x62, 0x77, 0x66, 0x69, 0x6C, 0x74, 0x65, 0x72, 0x3D, 0x35], []⟩ =
      .ok (.keyBwfilter (some [0x35]) none) := by rfl
theorem test_decode_key_bw :
    decode ⟨.control, [0x62, 0x77, 0x3D, 0x35], [⟨.clamped, 1, 2⟩]⟩ =
      .ok (.keyBw (some [0x35]) (some ⟨.clamped, 1, 2⟩)) := by rfl
theorem test_decode_key_extamp :
    decode ⟨.control, [0x65, 0x78, 0x74, 0x61, 0x6D, 0x70], []⟩ = .ok (.keyExtamp none none) := by rfl
theorem test_decode_key_lagc :
    decode ⟨.control, [0x6C, 0x61, 0x67, 0x63, 0x3D, 0x35], [⟨.clamped, 1, 2⟩]⟩ =
      .ok (.keyLagc (some [0x35]) (some ⟨.clamped, 1, 2⟩)) := by rfl
theorem test_decode_key_magc :
    decode ⟨.control, [0x6D, 0x61, 0x67, 0x63, 0x3D, 0x35], []⟩ = .ok (.keyMagc (some [0x35]) none) := by rfl
theorem test_decode_key_pwidle :
    decode ⟨.control, [0x70, 0x77, 0x69, 0x64, 0x6C, 0x65], [⟨.clamped, 1, 2⟩]⟩ =
      .ok (.keyPwidle none (some ⟨.clamped, 1, 2⟩)) := by rfl
theorem test_decode_key_blklen :
    decode ⟨.control, [0x62, 0x6C, 0x6B, 0x6C, 0x65, 0x6E, 0x3D, 0x35], []⟩ = .ok (.keyBlklen (some [0x35]) none) := by rfl
theorem test_decode_key_power :
    decode ⟨.control, [0x70, 0x6F, 0x77, 0x65, 0x72, 0x3D, 0x35], [⟨.clamped, 1, 2⟩]⟩ =
      .ok (.keyPower (some [0x35]) (some ⟨.clamped, 1, 2⟩)) := by rfl
theorem test_decode_key_dfp : decode ⟨.control, [0x64, 0x66, 0x70], []⟩ = .ok (.keyDfp none none) := by rfl
theorem test_decode_key_dfn :
    decode ⟨.control, [0x64, 0x66, 0x6E, 0x3D, 0x35], [⟨.clamped, 1, 2⟩]⟩ =
      .ok (.keyDfn (some [0x35]) (some ⟨.clamped, 1, 2⟩)) := by rfl
theorem test_decode_key_file :
    decode ⟨.control, [0x66, 0x69, 0x6C, 0x65, 0x3D, 0x2F, 0x3D], []⟩ = .ok (.keyFile (some [0x2F, 0x3D]) none) := by rfl

theorem test_decode_key_case : decode ⟨.control, [0x42, 0x77], []⟩ = .ok (.cfgApply [0x42, 0x77] []) := by rfl
theorem test_decode_two_items :
    decode ⟨.control, [0x62, 0x77, 0x2C, 0x62, 0x77], []⟩ = .ok (.cfgApply [0x62, 0x77, 0x2C, 0x62, 0x77] []) := by rfl

/-! ### Small steps, with the values of spec/95_test_vectors.md -/

/-- V-N-3 to V-N-6. -/
theorem test_dist :
    dist 0 65535 = 1 ∧ dist 65535 0 = 65535 ∧ dist 32767 0 = 32767 ∧ dist 32768 0 = 32768 ∧ dist 4 65535 = 5 := by decide

/-- V-LC-2, V-LC-3. -/
theorem test_start :
    ((nextOf (exec (.ctlStart true) State.reset)).map fun t => t.ctl) = some ⟨.streaming, .none, false⟩ ∧
      ((nextOf (exec (.ctlStart false) State.reset)).map fun t => t.ctl) = some ⟨.stopped, .startupError, true⟩ := by decide

/-- V-LC-8. -/
theorem test_start_twice : refusalOf (exec (.ctlStart true) running) = some .startOutsideCreated := by decide

/-- V-LC-10. -/
theorem test_reset :
    ((nextOf (exec .ctlReset { running with ctl := ⟨.stopped, .deviceError, true⟩, cnt.lost := 3 })).map fun t =>
      (t.ctl, t.cnt.lost)) = some (⟨.created, .none, false⟩, 0) := by decide

/-- V-LC-4, V-LC-5. -/
theorem test_stop :
    ((nextOf (exec .ctlStop State.reset)).map fun t => t.ctl) = some ⟨.stopped, .stopSignal, true⟩ ∧
      ((nextOf (exec .ctlStop running)).map fun t => t.ctl) = some ⟨.draining, .stopSignal, true⟩ := by decide

/-- V-LC-6, and rule R304's Created arm. -/
theorem test_deverr :
    ((nextOf (exec .ctlDeverr running)).map fun t => (t.ctl, t.rxq.ended, t.txq.ended)) =
        some (⟨.stopped, .deviceError, true⟩, true, true) ∧
      ((nextOf (exec .ctlDeverr State.reset)).map fun t => t.ctl) = some ⟨.stopped, .startupError, true⟩ := by decide

/-- V-CFG-1 and V-CFG-4. -/
theorem test_cfg_write_clamps :
    ((nextOf (exec (.cfgWrite 0x02 9) State.reset)).map fun t => (t.cfg.pending.decim, t.cfg.seqP, t.io.result)) =
        some (6, 1, .outcome .clamped) ∧
      ((nextOf (exec (.cfgWrite 0x08 4) State.reset)).map fun t => t.cfg.pending.ebits) = some 8 := by decide

/-- V-CFG-2, V-CFG-3, V-CFG-20. -/
theorem test_cfg_write_rejects :
    nextOf (exec (.cfgWrite 0x04 3) State.reset) = some { State.reset with io.result := .outcome (.rejected .range) } ∧
      resultOf (.cfgWrite 0x10 1) State.reset = some (.outcome (.rejected .unknown)) ∧
      resultOf (.cfgWrite 0x02 1) { running with ctl.lifecycle := .draining } = some (.outcome (.rejected .state)) := by decide

/-- V-CFG-19. -/
theorem test_cfg_read :
    resultOf (.cfgRead 0x04) State.reset = some (.value 2) ∧ resultOf (.cfgRead 0x10) State.reset = some (.value 0) ∧
      resultOf (.cfgRead 0x77) State.reset = some (.outcome (.rejected .unknown)) := by decide

/-- V-CFG-8: `fecblk=200,fcpos=3,txdelay=50`. -/
theorem test_cfg_apply :
    ((nextOf (exec
        (.cfgApply
          (ascii ['f', 'e', 'c', 'b', 'l', 'k', '=', '2', '0', '0', ',', 'f', 'c', 'p', 'o', 's', '=', '3', ',', 't', 'x',
            'd', 'e', 'l', 'a', 'y', '=', '5', '0']) []) State.reset)).map fun t =>
      (t.cfg.pending.fecblk, t.cfg.pending.fcpos, t.cfg.pending.txdelay, t.cfg.seqP, t.io.result)) =
    some (127, 2, 50, 1, .reply
      (ascii ['f', 'e', 'c', 'b', 'l', 'k', '=', 'c', 'l', 'a', 'm', 'p', 'e', 'd', ',', 'f', 'c', 'p', 'o', 's', '=', 'r',
        'e', 'j', 'e', 'c', 't', 'e', 'd', ':', 'r', 'a', 'n', 'g', 'e', ',', 't', 'x', 'd', 'e', 'l', 'a', 'y', '=', 'o',
        'k'])) := by decide

/-- V-CFG-7: `foo=1,decim=2`. -/
theorem test_cfg_apply_unknown :
    ((nextOf (exec
        (.cfgApply (ascii ['f', 'o', 'o', '=', '1', ',', 'd', 'e', 'c', 'i', 'm', '=', '2']) []) State.reset)).map fun t =>
      (t.cfg.pending.decim, t.cfg.seqP, t.io.result)) =
    some (2, 1, .reply
      (ascii ['f', 'o', 'o', '=', 'r', 'e', 'j', 'e', 'c', 't', 'e', 'd', ':', 'u', 'n', 'k', 'n', 'o', 'w', 'n', ',', 'd',
        'e', 'c', 'i', 'm', '=', 'o', 'k'])) := by decide

/-- V-CFG-5, scenario F: `decim=abc`. -/
theorem test_key_decim_parse :
    nextOf (exec (.keyDecim (some [0x61, 0x62, 0x63])) running) = some
      { running with
        io.errors := [.configParse]
        io.result := .reply
          (ascii ['d', 'e', 'c', 'i', 'm', '=', 'r', 'e', 'j', 'e', 'c', 't', 'e', 'd', ':', 'p', 'a', 'r', 's', 'e']) } := by
  decide

/-- V-CFG-10: a bare key is 1. -/
theorem test_key_agc_bare :
    nextOf (exec (.keyAgc none none) State.reset) = some
      { State.reset with io.result := .reply (ascii ['a', 'g', 'c', '=', 'o', 'k']) } := by decide

/-- V-CFG-16, its first item: the device answers `rejected:device:busy`. -/
theorem test_key_freq_device :
    ((nextOf (exec (.keyFreq (some [0x35]) (some ⟨.rejected [0x62, 0x75, 0x73, 0x79], 0, 0⟩)) State.reset)).map fun t =>
      (t.cfg.pending.freq, t.cfg.seqP, t.io.result)) =
    some (0, 0, .reply
      (ascii ['f', 'r', 'e', 'q', '=', 'r', 'e', 'j', 'e', 'c', 't', 'e', 'd', ':', 'd', 'e', 'v', 'i', 'c', 'e', ':', 'b',
        'u', 's', 'y'])) := by decide

/-- V-CFG-18: 4294967296 does not fit `SRATE`. -/
theorem test_key_srate_range :
    ((nextOf (exec (.keySrate (some [0x34, 0x32, 0x39, 0x34, 0x39, 0x36, 0x37, 0x32, 0x39, 0x36]) none) State.reset)).map
      fun t => (t.cfg.pending.srate, t.cfg.seqP)) = some (0, 0) := by decide

/-- V-SB-1, V-SB-14: samples, not vectors. -/
theorem test_sb_push_queued :
    ((runAll [.sbPush .rxq [smp 1 2, smp 3 4], .sbPush .rxq [smp 5 6], .sbQueued .rxq, .cfgRead 0x1B] running).map fun x =>
      x.2.drop 2) = some [.value 3, .value 3] := by decide

/-- V-SB-3, V-SB-4: order, then the end. -/
theorem test_sb_pull_order :
    ((runAll [.sbPush .rxq [smp 7 7], .sbEnd .rxq, .sbPull .rxq, .sbPull .rxq] running).map fun x => x.2.drop 2) =
        some [.vector [smp 7 7], .vector []] ∧
      resultOf (.sbPull .rxq) running = some .noStep := by decide

/-- V-SB-4: a push after the end; on `TXQ` in every lifecycle state (rule R134). -/
theorem test_sb_push_after_end :
    refusalOf (exec (.sbPush .rxq [smp 1 1]) { running with rxq.ended := true }) = some (.pushAfterEnd .rxq) ∧
      refusalOf (exec (.sbPush .txq [smp 1 1]) { State.reset with txq.ended := true }) = some (.pushAfterEnd .txq) := by decide

/-- V-SB-6. -/
theorem test_sb_push_width :
    refusalOf (exec (.sbPush .rxq [smp 128 0]) (runningWith { Bank.reset with bps := 1 })) = some .sampleOutOfRange ∧
      ((nextOf (exec (.sbPush .rxq [smp (-128) 127]) (runningWith { Bank.reset with bps := 1 }))).map fun t => t.rxq.vecs) =
        some [[smp (-128) 127]] := by decide

/-- V-SB-8, V-SB-9 with `P.SRATE = 0` (V-SB-13) and 1: a warning on the crossing of `10 · SRATE` only. -/
theorem test_sb_overrun :
    ((runAll [.sbPush .rxq (List.replicate 10 (smp 0 0)), .sbPush .rxq [smp 0 0], .sbPush .rxq [smp 0 0]]
        (runningWith { Bank.reset with srate := 1 })).map fun x => (x.1.rxq.overLatch, x.1.cnt.overrun)) =
        some (true, 1) ∧
      ((nextOf (exec (.sbPush .rxq (List.replicate 10 (smp 0 0))) (runningWith { Bank.reset with srate := 1 }))).map fun t =>
        (t.rxq.overLatch, t.cnt.overrun)) = some (false, 0) := by decide

/-- Rules R133, R330: a pull of a queue left above a lowered threshold raises nothing; at the threshold it re-arms the latch. -/
theorem test_sb_pull_latch :
    ((nextOf (exec (.sbPull .rxq) { running with rxq.vecs := [[smp 0 0], [smp 0 0]] })).map fun t =>
      (t.rxq.overLatch, t.cnt.overrun, t.io.errors)) = some (false, 0, []) ∧
    ((nextOf (exec (.sbPull .rxq) { running with rxq := ⟨[[smp 0 0]], false, true⟩ })).map fun t => t.rxq.overLatch) =
      some false := by decide

/-- V-SB-11 in small. -/
theorem test_sb_waitfill :
    resultOf (.sbWaitfill .rxq 2) { running with rxq.vecs := [[smp 0 0]] } = some .noStep ∧
      resultOf (.sbWaitfill .rxq 1) { running with rxq.vecs := [[smp 0 0]] } = some .done := by decide

/-- Rule R305, the `Created` cell of the device's operations on `TXQ`: no step, for `n = 0` and after `SB.END` too; on `RXQ` the rules
R133 and R135 alone. -/
theorem test_sb_created :
    ((runAll [.sbWaitfill .txq 0, .sbEnd .txq, .sbPull .txq, .sbWaitfill .txq 0, .sbWaitfill .rxq 0] State.reset).map
      fun x => x.2) = some [.noStep, .done, .noStep, .noStep, .done] := by decide

/-- V-DSP-1: infra. -/
theorem test_mix_infra :
    ((runAll [.mixFs4 (smp 1 2), .mixFs4 (smp 3 4), .mixFs4 (smp 5 6), .mixFs4 (smp 7 8), .mixFs4 (smp 9 10)]
        (runningWith { Bank.reset with fcpos := 0 })).map fun x => x.2) =
      some [.pair ⟨1, 2⟩, .pair ⟨4, -3⟩, .pair ⟨-5, -6⟩, .pair ⟨-8, 7⟩, .pair ⟨9, 10⟩] := by decide

/-- V-DSP-2: supra; V-DSP-4 at phase 1. -/
theorem test_mix_supra :
    ((runAll [.mixFs4 (smp 1 2), .mixFs4 (smp 3 4), .mixFs4 (smp 5 6), .mixFs4 (smp 7 8)]
        (runningWith { Bank.reset with fcpos := 1 })).map fun x => x.2) =
        some [.pair ⟨1, 2⟩, .pair ⟨-4, 3⟩, .pair ⟨-5, -6⟩, .pair ⟨8, -7⟩] ∧
      resultOf (.mixFs4 (smp (-32768) 5)) { runningWith { Bank.reset with fcpos := 0 } with rx.mixPhase := 1 } =
        some (.pair ⟨5, 32768⟩) := by decide

/-- V-DSP-10: floors. -/
theorem test_dec_floor :
    ((runAll (List.replicate 6 (.decProcess (smp (-1) 1))) (runningWith { Bank.reset with decim := 1 })).map fun x => x.2) =
      some [.sample none, .sample (some (smp 0 (-1))), .sample none, .sample (some (smp (-1) 0)), .sample none,
        .sample (some (smp (-2) 1))] := by decide

/-- V-DSP-15: infra at the edge of the range, 17-bit delay lines. -/
theorem test_dec_infra :
    ((runAll (List.replicate 6 (.decProcess (smp (-32768) (-32768))))
        (runningWith { Bank.reset with decim := 1, fcpos := 0 })).map fun x => x.2) =
      some [.sample none, .sample (some (smp 1024 (-1024))), .sample none, .sample (some (smp (-26624) (-6144))), .sample none,
        .sample (some (smp 17408 15360))] := by decide

/-- V-DSP-22. -/
theorem test_interpolate :
    resultOf (.intProcess [smp 32 0, smp 0 0, smp 0 0, smp 0 0]) (runningWith { Bank.reset with interp := 1 }) =
      some (.vector [smp (-2) 0, smp 0 0, smp 18 0, smp 32 0, smp 18 0, smp 0 0, smp (-2) 0, smp 0 0]) := by decide

/-- V-DSP-23, first eight. -/
theorem test_interpolate_twice :
    resultOf (.intProcess [smp 1000 0, smp 1000 0]) (runningWith { Bank.reset with interp := 2 }) =
      some (.vector
        [smp 3 0, smp 0 0, smp (-36) 0, smp (-63) 0, smp (-67) 0, smp 0 0, smp 222 0, smp 500 0]) := by decide

/-- Rule R150. -/
theorem test_dsp_reset :
    ((runAll [.decProcess (smp 9 9), .dspReset .rx, .decProcess (smp 9 9)]
        (runningWith { Bank.reset with decim := 1 })).map fun x => x.2) =
      some [.sample none, .done, .sample none] := by decide

/-- Rule R172: the adoption, with the promotion. -/
theorem test_rx_adopt :
    ((nextOf (exec .rxAdopt { running with cfg.pending.decim := 2, cfg.seqP := 1 })).map fun t =>
      (t.cfg.activeRx.decim, t.cfg.seqRx, t.rx.promoted, t.cfg.activeTx.decim)) = some (2, 1, true, 0) ∧
      resultOf .rxAdopt { running with cfg.pending.decim := 2, cfg.seqP := 1, rx.accCount := 5 } = some .noStep := by decide

/-- V-PK-12 and V-PK-13. -/
theorem test_rx_sample :
    ((nextOf (exec (.rxSample (smp 1 2) ⟨0, 0⟩) running)).map fun t => (t.rx.fb, t.rx.accCount)) =
        some ([(508, 1), (510, 2)], 1) ∧
      ((nextOf (exec (.rxSample (smp (-2) 258) ⟨0, 0⟩) { running with rx.accCount := 127 })).map fun t => t.rx.fb) =
        some [(1016, 0xFE), (1017, 0xFF), (1018, 2), (1019, 1)] := by decide

/-- V-PK-15. -/
theorem test_rx_sample_narrow :
    ((nextOf (exec (.rxSample (smp (-128) 127) ⟨0, 0⟩)
        { runningWith { Bank.reset with bps := 1 } with rx.accCount := 254, rx.frameBps := 1 })).map fun t =>
      (t.rx.fb, t.rx.accCount)) = some ([(1016, 0x80), (1017, 0x7F)], 255) := by decide

/-- V-PK-18, V-PK-19. -/
theorem test_width :
    effectiveBps { Bank.reset with bps := 1 } false = 1 ∧ effectiveBps { Bank.reset with bps := 1 } true = 2 ∧
      effectiveBps { Bank.reset with bps := 1, decim := 1 } false = 2 := by decide

/-- V-PK-10: floors in the meta body. -/
theorem test_meta :
    (metaBuild { Bank.reset with freq := 4294967999, srate := 44100, decim := 3, ebits := 12 } 2 127
        ⟨4294967295, 999999⟩).take 24 =
      [0x37, 0x89, 0x41, 0x00, 0x88, 0x15, 0x00, 0x00, 0x02, 0x0C, 0x80, 0x7F, 0xFF, 0xFF, 0xFF, 0xFF, 0x3F, 0x42, 0x0F,
       0x00, 0x1E, 0x92, 0x00, 0xB4] := by decide +kernel

/-- V-PK-1 and V-PK-2. -/
theorem test_crc :
    crc32 [0x31, 0x32, 0x33, 0x34, 0x35, 0x36, 0x37, 0x38, 0x39] = 0xCBF43926 ∧ crc32 [] = 0 := by decide +kernel

/-- V-PK-3 and V-PK-4. -/
theorem test_crc_meta :
    crc32 [0x32, 0x9F, 0x06, 0x00, 0x80, 0xBB, 0x00, 0x00, 0x02, 0x10, 0x80, 0x00, 0x00, 0xF1, 0x53, 0x65, 0x90, 0xD0, 0x03,
        0x00] = 0x5D55A255 ∧
      crc32 [0x33, 0x9F, 0x06, 0x00, 0x80, 0xBB, 0x00, 0x00, 0x02, 0x10, 0x80, 0x00, 0x00, 0xF1, 0x53, 0x65, 0x90, 0xD0, 0x03,
        0x00] = 0x38329913 := by decide +kernel

/-- Rule R176's precondition. -/
theorem test_pack_waits : resultOf (.packFrame ⟨0, 0⟩) running = some .noStep := by decide

/-- V-LC-5 and V-LC-7: the drain transition. -/
theorem test_worker_end :
    ((nextOf (exec (.rxwStep 0 ⟨0, 0⟩) { running with ctl := ⟨.draining, .stopSignal, true⟩ })).map fun t =>
      (t.ctl, t.txq.ended)) = some (⟨.stopped, .stopSignal, true⟩, true) ∧
      ((nextOf (exec (.rxwStep 0 ⟨0, 0⟩) { running with rxq.ended := true })).map fun t => t.ctl) =
        some ⟨.stopped, .endOfStream, true⟩ := by decide

/-- V-UDP-1. -/
theorem test_net_send :
    ((nextOf (exec (.netSend 1000)
        { runningWith { Bank.reset with txdelay := 100 } with
          rx.frameCtr := 7, rx.emitIdx := 3, rx.emitR := 8, rx.emitting := true })).map fun t =>
      (t.io.sent.map (List.take 4), t.rx.paceReadyAt, t.rx.emitIdx, t.cnt.dgramsSent)) =
    some ([[0x07, 0x00, 0x03, 0x00]], 1100, 4, 1) := by decide +kernel

/-- V-UDP-3, V-UDP-4: the last block of a frame, and the wrap of the frame counter. -/
theorem test_net_send_last :
    ((nextOf (exec (.netSend 0)
        { running with rx.frameCtr := 65535, rx.emitIdx := 135, rx.emitR := 8, rx.emitting := true })).map fun t =>
      (t.rx.emitting, t.rx.frameCtr, t.cnt.framesSent)) = some (false, 0, 1) := by decide +kernel

/-- V-UN-1. -/
theorem test_recv_first :
    ((nextOf (exec (.netRecv (datagram 5 0 9 0)) running)).map fun t =>
      (t.tx.synced, t.tx.base, t.tx.win, t.io.errors)) = some (true, 5, [⟨5, [9], [], 1⟩], []) := by decide +kernel

/-- V-UN-8 and V-UN-9. -/
theorem test_recv_protocol :
    ((nextOf (exec (.netRecv ((datagram 5 0 9 0).take 511)) running)).map fun t => (t.cnt.proto, t.tx.synced)) =
        some (1, false) ∧
      ((nextOf (exec (.netRecv (datagram 0 0 128 0)) running)).map fun t => (t.cnt.proto, t.tx.synced)) =
        some (1, false) := by decide +kernel

/-- V-UN-3: late; V-UN-2: duplicate. -/
theorem test_recv_late :
    ((nextOf (exec (.blkMeta 4 0 zeroBody) { running with tx.synced := true, tx.base := 5 })).map fun t =>
      (t.cnt.late, t.tx.win)) = some (1, []) ∧
    ((nextOf (exec (.blkSample 5 9 0xAA zeroBody)
        { running with tx.synced := true, tx.base := 5, tx.win := [⟨5, [9], [], 1⟩] })).map fun t =>
      (t.cnt.dup, t.tx.win)) = some (1, [⟨5, [9], [], 1⟩]) := by decide +kernel

/-- V-UN-4, and V-UN-10's first block. -/
theorem test_recv_stored :
    ((nextOf (exec (.blkMeta 9 0 zeroBody)
        { running with tx.synced := true, tx.base := 5, tx.win := [⟨5, [9], [], 1⟩] })).map fun t => t.tx.win) =
        some [⟨5, [9], [], 1⟩, ⟨9, [0], [], 1⟩] ∧
      ((nextOf (exec (.blkParity 0 7 0 zeroBody) (runningWith { Bank.reset with fecblk := 8 }))).map fun t => t.tx.win) =
        some [⟨0, [135], [], 1⟩] := by decide +kernel

/-- V-UN-10's second block, and V-UN-14. -/
theorem test_recv_dropped :
    ((nextOf (exec (.blkParity 0 8 0 zeroBody) (runningWith { Bank.reset with fecblk := 8 }))).map fun t =>
      (t.cnt.proto, t.tx.win)) = some (1, []) ∧
    nextOf (exec (.blkMeta 0 0 zeroBody) State.reset) = some { State.reset with io.result := .ignored } := by decide +kernel

/-- Rule R60: slot 255 lies outside the frame. -/
theorem test_recv_outside :
    refusalOf (exec (.blkParity 0 127 0 zeroBody) (runningWith { Bank.reset with fecblk := 128 })) = some .outsideStore := by
  decide +kernel

/-- Rule R201. -/
theorem test_tx_adopt :
    ((nextOf (exec .txAdopt { running with cfg.pending.interp := 1, cfg.seqP := 1 })).map fun t =>
      (t.cfg.activeTx.interp, t.cfg.seqTx, t.cfg.activeRx.interp)) = some (1, 1, 0) := by decide

/-- Section 2.7, `UNPACK.EXPAND` of the bodies `FF 02 80 7F …` (B = 1) and `FF 7F 00 80 …` (B = 2), their first samples. -/
theorem test_expand :
    (expandBody 1 ([0xFF, 0x02, 0x80, 0x7F] ++ List.replicate 504 0)).take 2 = [smp (-1) 2, smp (-128) 127] ∧
      (expandBody 2 ([0xFF, 0x7F, 0x00, 0x80] ++ List.replicate 504 0)).take 1 = [smp 32767 (-32768)] := by decide +kernel

/-- V-FEC-1 to V-FEC-3, V-FEC-7. -/
theorem test_field :
    gmul Params.default 2 0x80 = 0x4D ∧ gmul Params.default 0x53 0xCA = 0x94 ∧ ginv Params.default 2 = 0xA6 ∧
      ginv Params.default 0xFF = 0x44 ∧ cauchy Params.default 0 5 = 0xB4 ∧ cauchy Params.default 1 5 = 0xD2 ∧
      cauchy Params.default 0 6 = 0x52 ∧ cauchy Params.default 1 6 = 0x05 := by decide +kernel

/-- Rule R246, one lane: `data[j] = j` gives 0x20 in row 0. -/
theorem test_fec_lane :
    parityBody Params.default ((List.range 128).map fun j => [BitVec.ofNat 8 j]) 0 = [0x20] := by decide +kernel

/-- Rule R252 in one lane (program P3, scenario D's variant): `S = 96 EB` gives `X = F9 F7`. -/
theorem test_fec_solve :
    solveSystem Params.default [⟨[0xB4, 0x52], [0x96]⟩, ⟨[0xD2, 0x05], [0xEB]⟩] = [[0xF9], [0xF7]] := by decide +kernel

/-- Rule R249. -/
theorem test_fec_too_few : resultOf (.fecDecode [⟨7, zeroBody⟩]) State.reset = some .insufficientBlocks := by decide +kernel

/-! ### Table words: the decoder and the first step after reset -/

theorem test_table_queued : decodeTableWord 8 0x14 = some (.sbQueued .rxq) := by rfl
theorem test_table_meta : decodeTableWord 32 0x00000005 = some (.blkMeta 5 0 (List.replicate 508 0)) := by decide +kernel
theorem test_table_key : decodeTableWord 16 0x7762 = some (.keyBw none none) := by rfl
theorem test_table_step : step (State.reset.withFetchWord 8 0x14) = exec (.sbQueued .rxq) State.reset := by rfl
theorem test_table_step_key : step (State.reset.withFetchWord 24 0x636761) = exec (.keyAgc none none) State.reset := by rfl
theorem test_step_idle : step State.reset = .next State.reset := by rfl
theorem test_step_refuses : step (State.reset.withFetchWord 8 0x05) = .refused (.undecodable (.illegalOpcode 0x05)) := by rfl

/-! ### Witnesses: for each statement with hypotheses, states and operands that meet them, clause by clause -/

/-- A next state with a value of it, from an evaluation. -/
theorem next_of_eval {α : Type} {o : Host.Outcome State Fault Refusal} {f : State → α} {x : α}
    (h : (nextOf o).map f = some x) : ∃ t, o = .next t ∧ f t = x := by
  cases o with
  | next t => exact ⟨t, rfl, Option.some.inj h⟩
  | fault _ => cases h
  | refused _ => cases h

/-- The block while it drains. -/
def draining : State := { running with ctl := ⟨.draining, .stopSignal, true⟩ }

/-- The block at its end. -/
def stopped : State := { running with ctl := ⟨.stopped, .stopSignal, true⟩ }

/-- The block at the start of an emission of 255 blocks, paced by 3. -/
def sending : State :=
  { runningWith { Bank.reset with fecblk := 127, txdelay := 3 } with rx.emitting := true, rx.emitR := 127 }

/-- The meta bodies of vectors V-PK-5, V-PK-7 and V-UN-11, and one of zeros, as stores of bodies. -/
def wideMeta : Memory :=
  Memory.cells 0
    [0x32, 0x9F, 0x06, 0x00, 0x80, 0xBB, 0x00, 0x00, 0x02, 0x10, 0x80, 0x00, 0x00, 0xF1, 0x53, 0x65, 0x90, 0xD0, 0x03, 0x00,
     0x55, 0xA2, 0x55, 0x5D]
def narrowMeta : Memory :=
  Memory.cells 0
    [0xA0, 0x86, 0x01, 0x00, 0x90, 0xD0, 0x03, 0x00, 0x01, 0x08, 0x80, 0x00, 0x00, 0x00, 0x00, 0x00, 0x00, 0x00, 0x00, 0x00,
     0x1B, 0xA8, 0x81, 0x57]
def invalidMeta : Memory :=
  Memory.cells 0
    [0x32, 0x9F, 0x06, 0x00, 0x80, 0xBB, 0x00, 0x00, 0x03, 0x10, 0x80, 0x00, 0x00, 0x00, 0x00, 0x00, 0x00, 0x00, 0x00, 0x00,
     0x64, 0xDA, 0xD5, 0xC4]

/-- A complete frame 5 with a given store. -/
def frameFive (m : Memory) : WinEntry := ⟨5, List.range 128, m, 128⟩

theorem frameFive_slots (m : Memory) : ∀ b ∈ (frameFive m).present, b < 255 := by
  intro b hb
  have := List.mem_range.1 hb
  omega

/-- The window synchronised at frame 5. -/
def atFive (w : List WinEntry) : State := { running with tx.synced := true, tx.base := 5, tx.win := w }

theorem atFive_canDeliver (w : List WinEntry) : (atFive w).canDeliver := ⟨rfl, rfl, rfl⟩

/-- Frame 5 one slot short of complete, and frame 6 complete behind it. -/
def almostFive : State := atFive [⟨5, List.range 127, [], 127⟩, ⟨6, List.range 128, [], 128⟩]

/-- The first bytes of the meta body that `FEC.DECODE` gives. -/
def decodedMeta (m : Memory) : List Byte := (fecDecode Params.default (frameFive m)).headD []

theorem witness_DecodeEncodeAgree :
    (Instr.blkParity 65535 127 255 zeroBody).wf = true ∧ (Instr.packFrame ⟨0, 999999⟩).wf = true ∧
      (Instr.keyGain (some [0x3D, 0xFF]) (some ⟨.clamped, 1, 2⟩)).wf = true := by decide +kernel

theorem witness_DecodedIsWellFormed :
    decode ⟨.op, [0x60], []⟩ = .ok (.netSend 0) ∧ decode ⟨.control, [0x62, 0x77], []⟩ = .ok (.keyBw none none) := by
  exact ⟨rfl, rfl⟩

/-- Block indices 0, 1, 127, 128, 255: the ends of the three clauses. -/
theorem witness_WireBlockFields :
    ∀ b ∈ ([0, 1, 127, 128, 255] : List Byte),
      (datagram 1 2 b 9).length = 512 ∧ byteAt (datagram 1 2 b 9) 2 = b := by decide +kernel

theorem witness_StepRunsDecoded :
    State.reset.io.inbox = [] ∧ (State.reset.withInbox [⟨.op, [0x42], []⟩]).io.inbox = [⟨.op, [0x42], []⟩] ∧
      decode ⟨.op, [0x42], []⟩ = .ok .txRetire ∧ decode ⟨.op, [0x05], []⟩ = .error (.illegalOpcode 0x05) :=
  ⟨rfl, rfl, rfl, rfl⟩

theorem witness_ResetValues :
    exec .ctlReset { running with rx.fb := [(3, 1)] } = .next { State.reset with io.result := .done } ∧
      (Instr.blkSample 1 2 3 [4]).datagram = some [1, 0, 2, 3, 4] := ⟨rfl, rfl⟩

theorem witness_StartAfterReset :
    { State.reset with cfg.pending.decim := 3, cfg.seqP := 1 }.ctl.lifecycle = .created := rfl

theorem witness_CtlStartEffect : State.reset.ctl.lifecycle = .created ∧ stopped.ctl.lifecycle ≠ .created := by decide

theorem witness_CtlStopAndDeverr :
    State.reset.ctl.lifecycle = .created ∧ running.ctl.lifecycle = .streaming ∧ draining.ctl.lifecycle = .draining ∧
      stopped.ctl.lifecycle = .stopped := by decide

/-- Rule R344: a sample offered alone in `Stopped`. -/
theorem test_stopped_waits :
    nextOf (exec (.rxSample (smp 1 2) ⟨0, 0⟩) { running with ctl := ⟨.stopped, .deviceError, true⟩ }) =
      some { running with ctl := ⟨.stopped, .deviceError, true⟩, io.result := .noStep } := by decide

/-- A pull in `Stopped`, and every arrow taken somewhere. -/
theorem witness_LifecycleArrows :
    (stopped.ctl.lifecycle = .stopped ∧ ∃ t, exec (.sbPull .txq) stopped = .next t ∧ t.io.result = .vector []) ∧
    ∀ x ∈ [(Instr.ctlReset, stopped, Lifecycle.created), (.ctlStart true, State.reset, .streaming),
        (.ctlStart false, State.reset, .stopped), (.ctlStop, running, .draining), (.ctlStop, State.reset, .stopped),
        (.rxwStep 0 ⟨0, 0⟩, draining, .stopped), (.ctlDeverr, running, .stopped)],
      (nextOf (exec x.1 x.2.1)).map (fun t => t.ctl.lifecycle) = some x.2.2 ∧ x.2.2 ≠ x.2.1.ctl.lifecycle :=
  ⟨⟨rfl, next_of_eval (by decide)⟩, by decide⟩

/-- Each register at both ends of its range and just outside, number 9 and number 255, each lifecycle state. -/
theorem witness_CfgWriteRange :
    (State.reset.ctl.lifecycle = .created ∧ running.ctl.lifecycle = .streaming ∧ draining.ctl.lifecycle = .draining ∧
      stopped.ctl.lifecycle = .stopped) ∧
    (∀ r ∈ [CfgReg.txdelay, .fecblk, .decim, .interp, .fcpos, .freq, .srate, .bps, .ebits],
      (r.low ≤ r.low ∧ r.low ≤ r.high) ∧ (r.low ≤ r.high ∧ r.high ≤ r.high) ∧ ¬(r.low ≤ r.high + 1 ∧ r.high + 1 ≤ r.high)) ∧
    CfgReg.fecblk.saturates = true ∧ CfgReg.ebits.saturates = true ∧ ¬(CfgReg.ebits.low ≤ 7 ∧ 7 ≤ CfgReg.ebits.high) ∧
    CfgReg.fcpos.saturates = false ∧ CfgReg.freq.saturates = false ∧ CfgReg.bps.saturates = false ∧
    ¬(CfgReg.bps.low ≤ 0 ∧ 0 ≤ CfgReg.bps.high) ∧ 8 < (9 : Byte).toNat ∧ 8 < (255 : Byte).toNat := by decide

/-- Numbers that are no register, next to numbers that are. -/
theorem witness_CfgReadTable :
    ∀ reg ∈ ([0x09, 0x0F, 0x16, 0x1D, 0x22, 0x33, 0x41, 0xFF] : List Byte),
      (CfgReg.ofCode reg).isNone = true ∧ readStatus State.reset reg = none := by decide

/-- `freq=1,decim=a,foo`. -/
def badItems : List Assignment :=
  [⟨ascii ['f', 'r', 'e', 'q'], some [0x31], none⟩, ⟨ascii ['d', 'e', 'c', 'i', 'm'], some [0x61], none⟩,
   ⟨ascii ['f', 'o', 'o'], none, none⟩]

/-- Messages of 4097 bytes, the three of V-CFG-12, and `freq=1,decim=a,foo`. -/
theorem witness_CfgParseFailure :
    (State.reset.ctl.lifecycle = .created ∧ running.ctl.lifecycle = .streaming) ∧
      4096 < (List.replicate 4097 (0x61 : Byte)).length ∧
      (∀ x ∈ [([[]], []), ([ascii ['d', 'e', 'c', 'i', 'm', '=', '1'], []], ascii ['d', 'e', 'c', 'i', 'm', '=', '1', ',']),
          ([ascii ['=', '5']], ascii ['=', '5'])],
        x.1 ≠ [] ∧ (∀ t ∈ x.1, 0x2C ∉ t) ∧ x.2 = commaJoined x.1 ∧ x.2.length ≤ 4096 ∧
          ∃ t ∈ x.1, t = [] ∨ t.head? = some 0x3D) ∧
      (∀ it ∈ badItems, it.wf = true) ∧ (commaJoined (badItems.map Assignment.text)).length ≤ 4096 ∧
      ∃ it ∈ badItems, it.badValue = true := by
  refine ⟨by decide, by rw [List.length_replicate]; decide, by decide, by decide, by decide, by decide⟩

/-- `foo,freq=5,decim=2,gain`, with one answer of the device for `freq` and the ideal device for `gain`. -/
theorem witness_CfgApplyInMessageOrder :
    let items : List Assignment :=
      [⟨ascii ['f', 'o', 'o'], none, none⟩,
       ⟨ascii ['f', 'r', 'e', 'q'], some [0x35], some ⟨.rejected [0x62], 0, 0⟩⟩,
       ⟨ascii ['d', 'e', 'c', 'i', 'm'], some [0x32], none⟩, ⟨ascii ['g', 'a', 'i', 'n'], none, none⟩]
    let dev : List DevAnswer := [⟨.rejected [0x62], 0, 0⟩]
    running.ctl.lifecycle = .streaming ∧ items ≠ [] ∧ (∀ it ∈ items, it.wf = true ∧ it.badValue = false) ∧
      (∀ (j : Nat) (it : Assignment), (items.filter Assignment.deviceLevel)[j]? = some it → it.answer = dev[j]?) ∧
      (∀ it ∈ items, it.deviceLevel = false → it.answer = none) ∧
      (commaJoined (items.map Assignment.text)).length ≤ 4096 ∧ ∃ it ∈ items, keyOfWord it.key = none := by
  refine ⟨by decide, by decide, by decide, ?_, by decide, by decide, by decide⟩
  rintro (_ | _ | j) it h
  · exact (Option.some.inj h) ▸ rfl
  · exact (Option.some.inj h) ▸ rfl
  · cases h

theorem witness_KeyWritesRegister :
    running.ctl.lifecycle = .streaming ∧ numberOf none = some 1 ∧ numberOf (some [0x30, 0x37]) = some 7 ∧
      (keyValue Key.txdelay.word (some [0x30, 0x37])).length ≤ 4096 ∧ numberOf (some []) = none := by decide

/-- 2^64, 2^64 − 1, 2^32, 2^32 − 1 in digits. -/
theorem witness_KeyFreqSrate :
    running.ctl.lifecycle = .streaming ∧
      numberOf (some (ascii
        ['1', '8', '4', '4', '6', '7', '4', '4', '0', '7', '3', '7', '0', '9', '5', '5', '1', '6', '1', '6'])) =
        some (2 ^ 64) ∧
      numberOf (some (ascii
        ['1', '8', '4', '4', '6', '7', '4', '4', '0', '7', '3', '7', '0', '9', '5', '5', '1', '6', '1', '5'])) =
        some (2 ^ 64 - 1) ∧
      numberOf (some (ascii ['4', '2', '9', '4', '9', '6', '7', '2', '9', '6'])) = some (2 ^ 32) ∧
      numberOf (some (ascii ['4', '2', '9', '4', '9', '6', '7', '2', '9', '5'])) = some (2 ^ 32 - 1) ∧
      (keyValue Key.freq.word (some (ascii
        ['1', '8', '4', '4', '6', '7', '4', '4', '0', '7', '3', '7', '0', '9', '5', '5', '1', '6', '1', '6']))).length ≤
        4096 := by decide

theorem witness_KeyRelaysDevice :
    running.ctl.lifecycle = .streaming ∧ numberOf (some [0x30]) ≠ none ∧ 0x2C ∉ (some [0x2F, 0x3D]).getD [] ∧
      (keyValue Key.file.word (some [0x2F, 0x3D])).length ≤ 4096 := by decide

theorem witness_ControlOutsideDataPath :
    (Instr.keyFile none none).isConfiguration = true ∧ (Instr.cfgRead 0).isConfiguration = true ∧
      draining.ctl.lifecycle = .draining ∧ stopped.ctl.lifecycle = .stopped := by decide

/-- Samples at both ends of an 8-bit width and just outside; a capacity met exactly and missed by one; a queue at its threshold
and one above; a queue that ended, in `Streaming` and outside. -/
theorem witness_SbPushEffect :
    (∀ x ∈ [smp (-128) 127, smp 127 (-128)],
      -128 ≤ x.i.toInt ∧ x.i.toInt ≤ 127 ∧ -128 ≤ x.q.toInt ∧ x.q.toInt ≤ 127) ∧
    (∀ x ∈ [smp 128 0, smp 0 (-129)],
      ¬(-128 ≤ x.i.toInt ∧ x.i.toInt ≤ 127 ∧ -128 ≤ x.q.toInt ∧ x.q.toInt ≤ 127)) ∧
    (runningWith { Bank.reset with bps := 1 }).cfg.pending.bps = 1 ∧ running.cfg.pending.bps = 2 ∧
    ({ running with params.sbCap := some 2, rxq.vecs := [[smp 0 0]] }.rxq.samples + [smp 1 1].length ≤ 2) ∧
    ¬({ running with params.sbCap := some 1, rxq.vecs := [[smp 0 0]] }.rxq.samples + [smp 1 1].length ≤ 1) ∧
    running.rxq.samples + [smp 1 1].length > 10 * running.cfg.pending.srate.toNat ∧
    ¬([] : List Sample).length > 10 * running.cfg.pending.srate.toNat ∧ running.rxq.ended = false ∧
    { running with rxq.ended := true }.rxq.ended = true ∧ State.reset.ctl.lifecycle ≠ .streaming ∧
    State.reset.txq.ended = false ∧ { State.reset with txq.ended := true }.txq.ended = true := by decide

/-- With `TXQ` in `Created`, without and with `stop_flag`. -/
theorem witness_SbPullAndWaitfill :
    (State.reset.ctl.lifecycle = .created ∧ State.reset.ctl.stopFlag = false) ∧
      { State.reset with ctl.stopFlag := true }.ctl.stopFlag = true ∧ running.ctl.lifecycle ≠ .created ∧
    { running with rxq.vecs := [[smp 1 2], []] }.rxq.vecs = [smp 1 2] :: [[]] ∧ running.rxq.vecs = [] ∧
      running.rxq.ended = false ∧ running.ctl.stopFlag = false ∧ { running with rxq.ended := true }.rxq.ended = true ∧
      draining.ctl.stopFlag = true ∧ 0 ≤ (running.rxq.vecs.map List.length).sum ∧
      (running.rxq.vecs.map List.length).sum < 1 := by decide

theorem witness_QueueIsFifo :
    running.ctl.lifecycle = .streaming ∧ (running.queue .rxq).ended = false ∧ running.params.sbCap = none ∧
      ∀ v ∈ [[smp 1 2, smp 3 4], [smp 5 6]], v ≠ [] ∧ ∀ x ∈ v, Sample.fitsWidth running.cfg.pending.bps x = true := by decide

theorem witness_SbEndEffect :
    running.ctl.lifecycle = .streaming ∧ State.reset.ctl.lifecycle ≠ .streaming ∧ (running.queue .txq).vecs = [] ∧
      State.reset.ctl.lifecycle = .created ∧ State.reset.ctl.stopFlag = false := by decide

theorem witness_SbQueuedEffect :
    ({ running with rxq.vecs := [[smp 1 1, smp 2 2], [smp 3 3]] }.queue .rxq).vecs = [[smp 1 1, smp 2 2], [smp 3 3]] := rfl

/-- Each mixer position, with a phase; `DECIM` 0 and 6. -/
theorem witness_MixAndDecimate :
    running.ctl.lifecycle ≠ .stopped ∧ (∀ f ∈ ([0, 1, 2] : List Byte), (runningWith { Bank.reset with fcpos := f }).cfg.activeRx.fcpos = f) ∧
      { running with rx.mixPhase := 3 }.rx.mixPhase.toNat = 3 ∧ running.cfg.activeRx.decim = 0 ∧
      (runningWith { Bank.reset with decim := 6 }).cfg.activeRx.decim ≠ 0 := by decide

/-- `DECIM` 6, and for the frame both widths and `DECIM` 0 and 6 from the reset stages. -/
theorem witness_DecimatorLengthLaw :
    (∀ b ∈ [Bank.reset, { Bank.reset with bps := 1 }, { Bank.reset with decim := 6, bps := 1 }],
      (runningWith b).ctl.lifecycle ≠ .stopped ∧ (runningWith b).rx.emitting = false ∧ (runningWith b).rx.accCount = 0 ∧
        (runningWith b).cfg.seqRx = (runningWith b).cfg.seqP ∧ (runningWith b).cfg.activeRx.decim.toNat ≤ 6 ∧
        (runningWith b).cfg.activeRx.fecblk.toNat ≤ 127 ∧ (runningWith b).rx.dec.length = 6 ∧
        (∀ st ∈ (runningWith b).rx.dec.take 6, st.par = false)) ∧
      (runningWith { Bank.reset with bps := 1 }).cfg.activeRx.bps = 1 ∧
      (runningWith { Bank.reset with decim := 6 }).cfg.activeRx.decim.toNat ≤ 6 ∧
      2 ^ 6 ∣ (List.replicate 64 (smp 1 1)).length ∧ 2 ^ 6 ∣ (List.replicate 128 (smp 1 1)).length := by decide

/-- `DECIM` 1 and 6, each mixer position, inputs that have an output and that have none. -/
theorem witness_DecimatorStageResponse :
    running.ctl.lifecycle ≠ .stopped ∧ (∀ n ∈ ([1, 6] : List Byte), ∀ f ∈ ([0, 1, 2] : List Byte),
      let s := runningWith { Bank.reset with decim := n, fcpos := f }
      s.cfg.activeRx.decim = n ∧ s.cfg.activeRx.fcpos = f ∧ 1 ≤ s.cfg.activeRx.decim.toNat ∧
        s.cfg.activeRx.decim.toNat ≤ 6 ∧ s.cfg.activeRx.fcpos.toNat ≤ 2) ∧
      2 ^ 6 ∣ 63 + 1 ∧ ¬2 ^ 6 ∣ 62 + 1 ∧ 63 < (List.replicate 64 (smp 1 1)).length ∧
      (runningWith { Bank.reset with decim := 1 }).cfg.activeRx.decim = 1 ∧
      (runningWith { Bank.reset with decim := 1 }).cfg.activeRx.fcpos = 2 ∧ 2 * 0 + 1 < [smp 1 2, smp 3 4].length := by
  decide

theorem witness_DecimatorDcGain :
    (runningWith { Bank.reset with decim := 1 }).ctl.lifecycle ≠ .stopped ∧ kernelLegal (runningWith { Bank.reset with decim := 1 }).params = true ∧
      (runningWith { Bank.reset with decim := 1 }).cfg.activeRx.decim = 1 ∧
      (runningWith { Bank.reset with decim := 1 }).cfg.activeRx.fcpos = 2 ∧
      (runningWith { Bank.reset with decim := 1 }).params.hbTaps.length ≤ 2 * 3 + 2 ∧ 2 * 3 + 1 < 8 := by decide

theorem witness_InterpolatorResponse :
    running.ctl.lifecycle ≠ .stopped ∧ ∀ n ∈ ([0, 1, 6] : List Byte), (runningWith { Bank.reset with interp := n }).cfg.activeTx.interp = n ∧ n.toNat ≤ 6 ∧
      (runningWith { Bank.reset with interp := n }).tx.intp.length = 6 := by decide

theorem witness_DspResetEffect : running.ctl.lifecycle ≠ .stopped := by decide

/-- An adoption that is due on each side, with and without a change of the DSP registers; one that is not. -/
theorem witness_AdoptionEffect :
    let due : State := { running with cfg.pending.decim := 2, cfg.pending.interp := 1, cfg.seqP := 1 }
    due.ctl.lifecycle ≠ .stopped ∧ due.rx.accCount = 0 ∧ due.rx.emitting = false ∧ due.cfg.seqRx ≠ due.cfg.seqP ∧ due.cfg.seqTx ≠ due.cfg.seqP ∧
      due.cfg.pending.decim ≠ due.cfg.activeRx.decim ∧ due.cfg.pending.fcpos = due.cfg.activeRx.fcpos ∧
      due.cfg.pending.interp ≠ due.cfg.activeTx.interp ∧ running.cfg.seqRx = running.cfg.seqP ∧
      running.cfg.seqTx = running.cfg.seqP ∧ { due with rx.accCount := 1 }.rx.accCount ≠ 0 := by decide

/-- By an adoption, by `CTL.START` and by `CTL.RESET`. -/
theorem witness_ActiveBanksChangeOnlyAtAdoption :
    (∃ t, exec .rxAdopt { running with cfg.pending.decim := 2, cfg.seqP := 1 } = .next t ∧ t.cfg.activeRx.decim = 2) ∧
      (∃ t, exec (.ctlStart true) { State.reset with cfg.pending.decim := 2 } = .next t ∧ t.cfg.activeTx.decim = 2) ∧
      ∃ t, exec .ctlReset (runningWith { Bank.reset with decim := 2 }) = .next t ∧ t.cfg.activeRx.decim = 0 :=
  ⟨next_of_eval (by decide), next_of_eval (by decide), next_of_eval (by decide)⟩

/-- Sending; inside a frame with an output and without one; the last sample of a frame of each width. -/
theorem witness_RxSampleStores :
    (sending.ctl.lifecycle ≠ .stopped ∧ sending.rx.emitting = true) ∧
      (∃ u, exec (.decProcess (smp 1 2)) { running with rx.accCount := 16128 } = .next u ∧
        u.io.result = .sample (some (smp 1 2))) ∧
      (∃ u, exec (.decProcess (smp 1 2)) { runningWith { Bank.reset with decim := 1 } with rx.accCount := 7 } = .next u ∧
        u.io.result = .sample none) ∧
      (16128 : U16).toNat < frameLength 2 ∧ (16128 : U16).toNat + 1 = frameLength 2 ∧ (7 : U16).toNat + 1 < frameLength 2 ∧
      (32257 : U16).toNat < frameLength 1 ∧ (32257 : U16).toNat + 1 = frameLength 1 :=
  ⟨by decide, next_of_eval (by decide), next_of_eval (by decide), by decide, by decide, by decide, by decide, by decide⟩

/-- At a boundary: an adoption due, none due without and with decimation, both widths. -/
theorem witness_RxSampleAtBoundary :
    running.ctl.lifecycle ≠ .stopped ∧ running.rx.emitting = false ∧ running.rx.accCount = 0 ∧
      { running with cfg.seqP := 1 }.cfg.seqRx ≠ { running with cfg.seqP := 1 }.cfg.seqP ∧
      running.cfg.seqRx = running.cfg.seqP ∧ running.cfg.activeRx.decim = 0 ∧ running.cfg.activeRx.bps = 2 ∧
      (runningWith { Bank.reset with bps := 1 }).cfg.activeRx.bps = 1 ∧
      (runningWith { Bank.reset with decim := 1 }).cfg.activeRx.decim ≠ 0 ∧
      (∃ u, exec (.decProcess (smp 1 2)) (runningWith { Bank.reset with decim := 1 }) = .next u ∧
        u.io.result = .sample none) ∧
      ∃ (u : State) (z : Sample),
        exec (.decProcess (smp 32 0))
            { runningWith { Bank.reset with decim := 1 } with
              rx.dec := ⟨List.replicate 7 ⟨0, 0⟩, true⟩ :: List.replicate 5 ⟨List.replicate 7 ⟨0, 0⟩, false⟩ } = .next u ∧
          u.io.result = .sample (some z) := by
  refine ⟨by decide, by decide, by decide, by decide, by decide, by decide, by decide, by decide, by decide,
    next_of_eval (by decide), ?_⟩
  obtain ⟨u, h1, h2⟩ := next_of_eval (f := fun t => t.io.result) (x := .sample (some (smp (-1) 0)))
    (o := exec (.decProcess (smp 32 0))
      { runningWith { Bank.reset with decim := 1 } with
        rx.dec := ⟨List.replicate 7 ⟨0, 0⟩, true⟩ :: List.replicate 5 ⟨List.replicate 7 ⟨0, 0⟩, false⟩ })
    (by decide)
  exact ⟨u, _, h1, h2⟩

/-- A frame that is not full, a full one, with no parity block and with 127. -/
theorem witness_PackFrameEffect :
    running.ctl.lifecycle ≠ .stopped ∧ running.rx.accCount.toNat ≠ frameLength running.rx.frameBps.toNat ∧
      { running with rx.accCount := 16129 }.rx.accCount.toNat = frameLength running.rx.frameBps.toNat ∧
      running.cfg.activeRx.fecblk.toNat ≤ 127 ∧ sending.cfg.activeRx.fecblk.toNat = 127 := by decide

theorem witness_CrcDetectsSingleBit : 0 < [(0x32 : Byte), 0x9F].length ∧ 1 < [(0x32 : Byte), 0x9F].length ∧ 7 < 8 := by
  decide

/-- Each arm. -/
theorem witness_RxWorkerArms :
    sending.ctl.lifecycle = .streaming ∧ sending.rx.emitting = true ∧ running.rx.emitting = false ∧
      { running with rx.cur := [smp 1 2] }.rx.cur = [smp 1 2] ∧ running.rx.cur = [] ∧ running.rxq.vecs = [] ∧
      { running with rxq.vecs := [[smp 1 2]] }.rxq.vecs = [[smp 1 2]] ∧ running.rxq.ended = false ∧
      draining.ctl.lifecycle = .draining ∧ { running with rxq.ended := true }.rxq.ended = true ∧
      State.reset.ctl.lifecycle = .created ∧ stopped.ctl.lifecycle = .stopped := by decide

/-- At the pacing time and one before it, on the last block of 255 and on an earlier one, and while nothing is sent. -/
theorem witness_NetSendEffect :
    let last : State := { sending with rx.emitIdx := 254, rx.paceReadyAt := 9 }
    last.ctl.lifecycle ≠ .stopped ∧ last.rx.emitting = true ∧ last.rx.paceReadyAt ≤ 9 ∧ (8 : U64) < last.rx.paceReadyAt ∧ last.rx.emitIdx.toNat ≤ 254 ∧
      last.rx.emitIdx.toNat + 1 = 128 + last.rx.emitR.toNat ∧ sending.rx.emitIdx.toNat + 1 ≠ 128 + sending.rx.emitR.toNat ∧
      running.rx.emitting = false := by decide

/-- 255 sends, 3 microseconds apart, as `TXDELAY` asks. -/
theorem witness_EmissionOrder :
    let times : List U64 := (List.range 255).map fun k => BitVec.ofNat 64 (3 * k)
    sending.ctl.lifecycle ≠ .stopped ∧ sending.rx.emitting = true ∧ sending.rx.emitIdx = 0 ∧ sending.rx.emitR.toNat ≤ 127 ∧
      times.length = 128 + sending.rx.emitR.toNat ∧ (∀ t, times[0]? = some t → sending.rx.paceReadyAt ≤ t) ∧
      ∀ k t u, times[k]? = some t → times[k + 1]? = some u → t + sending.cfg.activeRx.txdelay.setWidth 64 ≤ u := by
  refine ⟨by decide, rfl, rfl, by decide, by simp [sending], fun t _ => ?_, fun k t u ht hu => ?_⟩
  · have h0 : sending.rx.paceReadyAt = 0 := rfl
    rw [h0]; rw [BitVec.le_def]; exact Nat.zero_le _
  · have hd : sending.cfg.activeRx.txdelay.setWidth 64 = 3 := rfl
    have hk : k + 1 < 255 := by
      have := (List.getElem?_eq_some_iff.1 hu).1
      simpa using this
    rw [List.getElem?_map, List.getElem?_range (by omega)] at ht hu
    have ht' : t = BitVec.ofNat 64 (3 * k) := (Option.some.inj ht).symm
    have hu' : u = BitVec.ofNat 64 (3 * (k + 1)) := (Option.some.inj hu).symm
    rw [hd, ht', hu', BitVec.le_def, BitVec.toNat_add, BitVec.toNat_ofNat, BitVec.toNat_ofNat]
    change (3 * k % 2 ^ 64 + 3) % 2 ^ 64 ≤ 3 * (k + 1) % 2 ^ 64
    omega

/-- Two sends 3 microseconds apart with an operation between them. -/
theorem witness_PacingFloor :
    ∃ u v w rs, exec (.netSend 0) sending = .next u ∧ u.io.result = .done ∧ runAll [.txAdopt] u = some (v, rs) ∧
      v.io.sent = u.io.sent ∧ exec (.netSend 3) v = .next w ∧ w.io.result = .done ∧
      (0 : U64).toNat + sending.cfg.activeRx.txdelay.toNat < 2 ^ 64 :=
  ⟨_, _, _, _, rfl, rfl, rfl, rfl, rfl, rfl, by decide⟩

/-- Lengths 0, 511 and 513, block 128 for `R = 0` and block 255 for `R = 127`, and an arrival outside `Streaming`. -/
theorem witness_ArrivalDropped :
    (Instr.netRecv (datagram 0 0 128 0)).datagram = some (datagram 0 0 128 0) ∧ State.reset.ctl.lifecycle ≠ .streaming ∧
      running.ctl.lifecycle = .streaming ∧ ([] : List Byte).length ≠ 512 ∧ ((datagram 0 0 0 0).take 511).length ≠ 512 ∧
      (0 :: datagram 0 0 0 0).length ≠ 512 ∧ (datagram 0 0 128 0).length = 512 ∧
      128 + running.cfg.activeTx.fecblk.toNat ≤ (byteAt (datagram 0 0 128 0) 2).toNat ∧
      128 + sending.cfg.activeTx.fecblk.toNat ≤ (byteAt (datagram 0 0 255 0) 2).toNat :=
  ⟨rfl, by decide, by decide, by decide, by decide +kernel⟩

/-- The first arrival; late by 32768; a duplicate and a new slot at distance 0 with 126 slots before it, and at distance 4; an
adoption pending; slot 255; the slot that completes the frame at `tx_base`, before a complete one. -/
theorem witness_ArrivalStored :
    let d := datagram 5 0 9 0xAA
    (Instr.netRecv d).datagram = some d ∧ running.ctl.lifecycle = .streaming ∧ d.length = 512 ∧
      (byteAt d 2).toNat < 128 + running.cfg.activeTx.fecblk.toNat ∧ running.cfg.seqTx = running.cfg.seqP ∧
      (5 : U16).toNat = (byteAt d 0).toNat + 256 * (byteAt d 1).toNat ∧ running.tx.synced = false ∧ running.tx.win = [] ∧
      (32768 ≤ dist 5 { running with tx.synced := true, tx.base := 32773 }.tx.base ∧
        { running with tx.synced := true, tx.base := 32773 }.tx.synced = true) ∧
      ((atFive [⟨5, [9], [], 126⟩]).headIncomplete ∧ dist 5 (atFive []).tx.base = 0 ∧
        (winFind (atFive [⟨5, [9], [], 126⟩]).tx.win 5).getD ⟨5, [], [], 0⟩ = ⟨5, [9], [], 126⟩ ∧ 9 ∈ [9] ∧ 126 + 1 < 128 ∧
        8 ∉ [9]) ∧
      ((atFive []).headIncomplete ∧ dist 9 (atFive []).tx.base = 4 ∧ (9 : U16) ≠ (atFive []).tx.base) ∧
      ({ running with cfg.seqP := 1 }.cfg.seqTx ≠ { running with cfg.seqP := 1 }.cfg.seqP ∧ running.params.sbCap = none) ∧
      (byteAt (datagram 5 0 255 0) 2).toNat < 128 + (runningWith { Bank.reset with fecblk := 128 }).cfg.activeTx.fecblk.toNat ∧
      (almostFive.canDeliver ∧ almostFive.windowSound = true ∧ almostFive.tx.synced = true ∧
        dist 5 almostFive.tx.base = 0 ∧ 127 ∉ List.range 127 ∧ 127 < 255 ∧
        winFind almostFive.tx.win 5 = some ⟨5, List.range 127, [], 127⟩) := by
  refine ⟨rfl, rfl, by decide +kernel, by decide, rfl, by decide, rfl, rfl, ⟨by decide, rfl⟩,
    ⟨fun e h => ?_, by decide, by decide, by decide, by decide, by decide⟩, ⟨fun e h => (by cases h), by decide, by decide⟩,
    ⟨by decide, rfl⟩, by decide, atFive_canDeliver _, by decide +kernel, rfl, by decide, by decide +kernel, by decide, rfl⟩
  cases h
  decide

/-- Distances 4, 5 and 32767 from a window whose frames are incomplete, and from one with a complete frame. -/
theorem witness_ArrivalTotal :
    ((atFive [⟨6, [9], [], 1⟩]).canDeliver ∧ (atFive [⟨6, [9], [], 1⟩]).banksLegal = true ∧
      (atFive [⟨6, [9], [], 1⟩]).windowSound = true ∧ (atFive [⟨6, [9], [], 1⟩]).tx.synced = true ∧
      ∀ e ∈ (atFive [⟨6, [9], [], 1⟩]).tx.win, e.count < 128 ∧ e.fidx ≠ 10) ∧
      (almostFive.canDeliver ∧ almostFive.banksLegal = true ∧ almostFive.windowSound = true) ∧
      dist 9 (atFive []).tx.base = 4 ∧ dist 10 (atFive []).tx.base = 5 ∧ dist 32772 (atFive []).tx.base = 32767 := by
  refine ⟨⟨atFive_canDeliver _, by decide, by decide, rfl, by decide⟩, ⟨atFive_canDeliver _, by decide, by decide +kernel⟩,
    by decide, by decide, by decide⟩

/-- No entry; 127 slots; a meta body of zeros, whose CRC is wrong; the meta body of V-UN-11; a `TXQ` that ended; a vector that
crosses the threshold and one that does not. -/
theorem witness_TxRetireLost :
    State.reset.ctl.lifecycle ≠ .streaming ∧ (atFive []).canDeliver ∧ (atFive []).cfg.activeTx.interp.toNat ≤ 6 ∧
      (atFive []).tx.intp.length = 6 ∧ (atFive []).tx.padBps = 2 ∧ (atFive []).headIncomplete ∧
      (atFive [⟨5, [], [], 127⟩]).headIncomplete ∧
      (∀ m ∈ [([] : Memory), invalidMeta], winFind (atFive [frameFive m]).tx.win (atFive [frameFive m]).tx.base =
        some (frameFive m) ∧ 128 ≤ (frameFive m).count ∧ ∀ b ∈ (frameFive m).present, b < 255) ∧
      ({ running with txq.ended := true }.txq.ended = true ∧ { running with txq.ended := true }.headIncomplete) ∧
      (0 + frameLength 2 > 10 * running.cfg.pending.srate.toNat ∧
        ¬0 + frameLength 2 > 10 * (runningWith { Bank.reset with srate := 1613 }).cfg.pending.srate.toNat) ∧
      crc32 (slice (decodedMeta []) 0 20) ≠ le32 (decodedMeta []) 20 ∧
      crc32 (slice (decodedMeta invalidMeta) 0 20) = le32 (decodedMeta invalidMeta) 20 ∧
      byteAt (decodedMeta invalidMeta) 8 ≠ 1 ∧ byteAt (decodedMeta invalidMeta) 8 ≠ 2 := by
  refine ⟨by decide, atFive_canDeliver _, by decide, by decide, rfl, fun e h => (by cases h), fun e h => ?_, ?_,
    ⟨rfl, fun e h => (by cases h)⟩, by decide, by decide +kernel⟩
  · cases h
    decide
  · intro m _
    exact ⟨rfl, Nat.le_refl 128, frameFive_slots m⟩

/-- The meta bodies of V-PK-5 (two bytes) and V-PK-7 (one byte). -/
theorem witness_TxRetireAccepts :
    (∀ m ∈ [wideMeta, narrowMeta], (atFive [frameFive m]).canDeliver ∧
      (atFive [frameFive m]).cfg.activeTx.interp.toNat ≤ 6 ∧ (atFive [frameFive m]).tx.intp.length = 6 ∧
      winFind (atFive [frameFive m]).tx.win (atFive [frameFive m]).tx.base = some (frameFive m) ∧
      128 ≤ (frameFive m).count ∧ ∀ b ∈ (frameFive m).present, b < 255) ∧
    (crc32 (slice (decodedMeta wideMeta) 0 20) = le32 (decodedMeta wideMeta) 20 ∧ byteAt (decodedMeta wideMeta) 8 = 2 ∧
      crc32 (slice (decodedMeta narrowMeta) 0 20) = le32 (decodedMeta narrowMeta) 20 ∧
      byteAt (decodedMeta narrowMeta) 8 = 1) :=
  ⟨fun m _ => ⟨atFive_canDeliver _, Nat.zero_le 6, rfl, rfl, Nat.le_refl 128, frameFive_slots m⟩, by decide +kernel⟩

theorem witness_UnpackInvertsPack :
    (∀ b ∈ ([1, 2] : List Byte), (List.replicate 127 (List.replicate (508 / (2 * b.toNat)) (smp (-128) 127))).length = 127 ∧
      ∀ c ∈ List.replicate 127 (List.replicate (508 / (2 * b.toNat)) (smp (-128) 127)), c.length = 508 / (2 * b.toNat)) ∧
      ∀ c ∈ List.replicate 127 (List.replicate 254 (smp (-128) 127)), ∀ x ∈ c,
        -128 ≤ x.i.toInt ∧ x.i.toInt ≤ 127 ∧ -128 ≤ x.q.toInt ∧ x.q.toInt ≤ 127 := by
  refine ⟨fun b _ => ⟨List.length_replicate, fun c hc => ?_⟩, fun c hc x hx => ?_⟩
  · rw [List.eq_of_mem_replicate hc]; exact List.length_replicate
  · rw [List.eq_of_mem_replicate hc] at hx
    rw [List.eq_of_mem_replicate hx]; decide

theorem witness_FieldLaws : Params.default.gfPoly = 0x14D ∧ (0x53 : Byte) ≠ 0 ∧ 126 ≤ 126 ∧ 127 ≤ 127 := by decide

/-- 128 bodies, `m` at both ends. -/
theorem witness_FecEncodeLaws :
    (List.replicate 128 zeroBody).length = 128 ∧ (∀ d ∈ List.replicate 128 zeroBody, d.length = 508) ∧
      (127 : Byte).toNat ≤ 127 ∧ (0 : Byte).toNat ≤ 127 := by
  refine ⟨List.length_replicate, fun d hd => ?_, by decide, by decide⟩
  rw [List.eq_of_mem_replicate hd]; exact List.length_replicate

theorem witness_FecDecodeSystematic :
    (List.replicate 128 zeroBody).length = 128 ∧
      ([⟨128, zeroBody⟩, ⟨254, zeroBody⟩] : List Slot).Pairwise (fun a b => a.blk.toNat < b.blk.toNat) ∧
      (∀ x ∈ ([⟨128, zeroBody⟩, ⟨254, zeroBody⟩] : List Slot),
        128 ≤ x.blk.toNat ∧ x.blk.toNat ≤ 254 ∧ x.body.length = 508) ∧
      ([⟨7, zeroBody⟩] : List Slot).length < 128 := by
  refine ⟨List.length_replicate, by decide +kernel, fun x hx => ?_, by decide⟩
  simp only [List.mem_cons, List.not_mem_nil, or_false] at hx
  rcases hx with rfl | rfl <;> exact ⟨by decide, by decide, List.length_replicate⟩

/-- The last data block and all 127 parity blocks. -/
theorem witness_FecRoundTrip :
    let mask := (List.range 128).map fun k => 127 + k
    State.reset.params.gfPoly = 0x14D ∧ mask.Pairwise (fun a b => a < b) ∧ (∀ b ∈ mask, b < 128 + 127) ∧
      128 ≤ mask.length := by decide +kernel

theorem witness_StepKeepsRxSound :
    (sending.withInbox [⟨.op, [0x60], []⟩]).rxSound = true ∧ (sending.withInbox [⟨.op, [0x60], []⟩]).windowSound = true ∧
      (sending.withInbox [⟨.op, [0x60], []⟩]).frameWide = true ∧
      ∃ t, step (sending.withInbox [⟨.op, [0x60], []⟩]) = .next t ∧ t.rx.emitIdx = 1 :=
  ⟨by decide, by decide, by decide, next_of_eval (by decide +kernel)⟩

/-- A window at distances 0 to 4, on both sides of the wrap. -/
def fullWindow : State :=
  { running with
    tx.synced := true
    tx.base := 65534
    tx.win := [⟨0, [3], [], 1⟩, ⟨1, [3], [(1524, 7)], 1⟩, ⟨2, [254], [], 1⟩, ⟨65534, [0, 254], [], 2⟩, ⟨65535, [1], [], 1⟩] }

theorem witness_StepKeepsWindowSound :
    fullWindow.banksLegal = true ∧ fullWindow.windowSound = true ∧
      ∃ t, step (fullWindow.withInbox [⟨.wire, datagram 0 0 4 0, []⟩]) = .next t ∧ t.tx.win.length = 5 :=
  ⟨by decide, by decide, next_of_eval (by decide +kernel)⟩

theorem witness_StepKeepsLinesSound :
    (runningWith { Bank.reset with decim := 2 }).linesSound = true ∧
      ∃ t, step ((runningWith { Bank.reset with decim := 2 }).withInbox [⟨.op, [0x20, 0x00, 0x80], []⟩]) = .next t ∧
        t.rx.mixPhase = 1 :=
  ⟨by decide, next_of_eval (by decide)⟩

theorem witness_StepKeepsControlSound :
    draining.controlSound = true ∧
      ∃ t, step (draining.withInbox [⟨.op, [0x30], []⟩]) = .next t ∧ t.ctl.lifecycle = .stopped :=
  ⟨by decide, next_of_eval (by decide)⟩

/-- A block kept at `tx_base`; and a first block where no frame stands complete before or behind it. -/
theorem witness_ArrivalLeavesHeadIncomplete :
    fullWindow.headIncomplete ∧
      (∃ t, exec (.blkSample 65534 5 0 zeroBody) fullWindow = .next t ∧ t.tx.win.length = 5) ∧
      (∃ a, exec .txAdopt fullWindow = .next a ∧
        ((byteAt (datagram 0xFE 0xFF 5 0) 2).toNat < 128 + a.cfg.activeTx.fecblk.toNat ∧ a.tx.synced = true ∧
          dist 65534 a.tx.base < 32768)) ∧
      ∃ t, exec (.blkSample 65534 5 0 zeroBody) fullWindow = .next t ∧ t.io.result = .done := by
  refine ⟨fun e h => ?_, next_of_eval (by decide +kernel), ⟨_, rfl, by decide, rfl, by decide⟩,
    next_of_eval (by decide +kernel)⟩
  cases h
  decide

/-- Operations that raise an error and do not, and the two that put the counters back. -/
theorem witness_ErrorsAreCounted :
    (∃ t, exec .ctlReset { running with cnt.lost := 3 } = .next t ∧ t.cnt.lost = 0) ∧
    (∃ t, exec (.ctlStart true) { State.reset with cnt.lost := 3 } = .next t ∧ t.cnt.lost = 0) ∧
    (∃ t, exec (.netRecv []) running = .next t ∧ t.io.errors = [.protocolLength]) ∧
      ∃ t, exec .txRetire (atFive []) = .next t ∧ t.io.errors.take 2 = [.insufficientBlocks 5, .frameLoss 5] :=
  ⟨next_of_eval (by decide), next_of_eval (by decide), next_of_eval (by decide), next_of_eval (by decide +kernel)⟩

theorem witness_RxAndTxCommute :
    (Instr.blkSample 5 9 0 zeroBody).datagram = some (datagram 5 0 9 0) ∧
      (∃ u, exec (.rxwStep 0 ⟨0, 0⟩) sending = .next u ∧ u.ctl.lifecycle = sending.ctl.lifecycle) ∧
      ∃ v, exec (.blkSample 5 9 0 zeroBody) sending = .next v ∧ v.tx.base = 5 :=
  ⟨by decide +kernel, next_of_eval (by decide +kernel), next_of_eval (by decide +kernel)⟩

/-- Unpaced sends to the end of an emission are all performed. -/
theorem sends_done (n : Nat) (s : State) (h0 : s.ctl.lifecycle ≠ .stopped) (h1 : s.rx.emitting = true) (h2 : s.rx.paceReadyAt = 0)
    (h3 : s.cfg.activeRx.txdelay = 0) (h4 : s.rx.emitR.toNat ≤ 127) (h5 : s.rx.emitIdx.toNat + n = 128 + s.rx.emitR.toNat) :
    ∃ u, runAll (List.replicate n (.netSend 0)) s = some (u, List.replicate n .done) := by
  induction n generalizing s with
  | zero => exact ⟨s, rfl⟩
  | succ n ih =>
    obtain ⟨t, ht⟩ := netSend_succeeds (now := 0) (s := s) (by simp [sendReady, h1, h2]) (by
      simp only [Config.bodies]; omega)
    have he : exec (.netSend 0) s = .next (t.ret .done) := by
      change unlessStopped s (finish s .done (netSend 0 s)) = _
      rw [unlessStopped_of_ne h0, ht, finish_ok]
    obtain ⟨-, -, htq⟩ := netSend_ok ht
    have hi : t.rx.emitIdx.toNat = s.rx.emitIdx.toNat + 1 := by
      rw [htq]
      change (s.rx.emitIdx.toNat + 1) % 256 = _
      omega
    have hr : t.rx.emitR = s.rx.emitR := by rw [htq]
    have hc : t.cfg = s.cfg := by rw [htq]
    have hl : t.ctl = s.ctl := by rw [htq]
    have hp : t.rx.paceReadyAt = 0 := by
      rw [htq]; change (0 : U64) + s.cfg.activeRx.txdelay.setWidth 64 = 0; rw [h3]; rfl
    have hm : n ≠ 0 → t.rx.emitting = true := by
      intro hn
      have hlast : t.rx.emitIdx.toNat ≠ 128 + s.rx.emitR.toNat := by omega
      rw [htq] at hlast ⊢
      change (!decide ((s.rx.emitIdx + 1).toNat = 128 + s.rx.emitR.toNat)) = true
      simpa using hlast
    rcases n with _ | n
    · exact ⟨t.ret .done, by rw [List.replicate_succ, runAll, he]; rfl⟩
    · obtain ⟨u, hu⟩ := ih (t.ret .done) (by rw [State.ret_ctl, hl]; exact h0) (hm (by omega)) hp (by rw [State.ret_cfg, hc, h3])
        (by rw [State.ret_rx, hr]; exact h4) (by rw [State.ret_rx, hi, hr]; omega)
      exact ⟨u, by rw [List.replicate_succ, runAll, he]; simp only [hu]; rfl⟩

/-- A full frame with 127 parity blocks, of which the last 128 blocks arrive. -/
theorem witness_FrameSurvivesErasures :
    let tx : State := { runningWith { Bank.reset with fecblk := 127 } with rx.accCount := 16129 }
    let mask := (List.range 128).map fun k => 127 + k
    ∃ (sent rx : State) (e : WinEntry),
      exec (.packFrame ⟨0, 0⟩) tx = .next sent ∧ sent.io.result = .done ∧ tx.params.gfPoly = 0x14D ∧
        rx.params.gfPoly = 0x14D ∧ tx.rx.frameBps = 2 ∧ sent.rx.emitR.toNat ≤ 127 ∧
        mask.Pairwise (fun a b => a < b) ∧ (∀ b ∈ mask, b < 128 + sent.rx.emitR.toNat) ∧ 128 ≤ mask.length ∧
        e.present = mask ∧ e.count = mask.length ∧ (∀ b ∈ mask, bodyOf e.body b = bodyOf sent.rx.fb b) ∧
        winFind rx.tx.win rx.tx.base = some e ∧ rx.canDeliver ∧ rx.cfg.activeTx.interp = 0 := by
  intro tx mask
  obtain ⟨t, ht⟩ := packFrame_succeeds ⟨0, 0⟩ (s := tx) (by decide)
  have hr : t.rx.emitR = 127 := by
    obtain ⟨fb, -, rfl⟩ := packFrame_ok ht
    rfl
  refine ⟨t.ret .done, atFive [⟨5, mask, t.rx.fb, mask.length⟩], ⟨5, mask, t.rx.fb, mask.length⟩, ?_, rfl, rfl, rfl, rfl, ?_,
    by decide +kernel, ?_, by decide +kernel, rfl, rfl, fun b _ => rfl, rfl, ⟨rfl, rfl, rfl⟩, rfl⟩
  · have hf : tx.rx.accCount.toNat = samplesPerFrame tx.rx.frameBps.toNat := by decide
    change unlessStopped tx (finish tx .done (if _ then packFrame ⟨0, 0⟩ tx else .error .noStep)) = _
    rw [unlessStopped_of_ne (by decide), if_pos hf, ht, finish_ok]
  · change t.rx.emitR.toNat ≤ 127
    rw [hr]; decide
  · change ∀ b ∈ mask, b < 128 + t.rx.emitR.toNat
    rw [hr]; decide +kernel

/-- All 255 blocks of a full frame with 127 parity blocks, sent and offered in reverse order. -/
theorem witness_FrameSurvivesErasures_arrivals :
    let tx : State := { runningWith { Bank.reset with fecblk := 127 } with rx.accCount := 16129, rx.frameCtr := 65535 }
    let rx : State := runningWith { Bank.reset with fecblk := 127 }
    let times : List U64 := List.replicate 255 0
    let order := (List.range 255).reverse
    ∃ (sent u : State) (rs : List Result),
      exec (.packFrame ⟨0, 0⟩) tx = .next sent ∧ sent.io.result = .done ∧ tx.params.gfPoly = 0x14D ∧
        rx.params.gfPoly = 0x14D ∧ tx.rx.frameBps = 2 ∧ sent.rx.emitR.toNat ≤ 127 ∧
        times.length = 128 + sent.rx.emitR.toNat ∧ runAll (times.map .netSend) sent = some (u, rs) ∧
        (∀ r ∈ rs, r = .done) ∧ order.Nodup ∧ 128 ≤ order.length ∧ (∀ b ∈ order, b < 128 + sent.rx.emitR.toNat) ∧
        (∀ b ∈ order, b < 128 + rx.cfg.activeTx.fecblk.toNat) ∧ rx.canDeliver ∧ rx.cfg.seqTx = rx.cfg.seqP ∧
        rx.cfg.activeTx.interp = 0 ∧ rx.tx.synced = false ∧ rx.tx.win = [] := by
  intro tx rx times order
  obtain ⟨t, ht⟩ := packFrame_succeeds ⟨0, 0⟩ (s := tx) (by decide)
  obtain ⟨fb, -, htq⟩ := packFrame_ok ht
  have hr : t.rx.emitR = 127 := by rw [htq]; rfl
  obtain ⟨u, hu⟩ := sends_done 255 (t.ret .done) (by rw [htq]; exact (by decide : Lifecycle.streaming ≠ .stopped)) (by rw [htq]; rfl) (by rw [htq]; rfl) (by rw [htq]; rfl)
    (by rw [State.ret_rx, hr]; decide) (by rw [State.ret_rx, hr, htq]; rfl)
  have ho : ∀ b ∈ order, b < 255 := fun b hb => List.mem_range.1 (List.mem_reverse.1 hb)
  refine ⟨t.ret .done, u, _, ?_, rfl, rfl, rfl, rfl, by rw [State.ret_rx, hr]; decide,
    by rw [State.ret_rx, hr]; exact List.length_replicate,
    by rw [List.map_replicate]; exact hu, fun r h => List.eq_of_mem_replicate h, List.nodup_reverse.2 List.nodup_range,
    by rw [List.length_reverse, List.length_range]; decide, by rw [State.ret_rx, hr]; exact ho, ho, ⟨rfl, rfl, rfl⟩, rfl, rfl, rfl,
    rfl⟩
  have hf : tx.rx.accCount.toNat = samplesPerFrame tx.rx.frameBps.toNat := by decide
  change unlessStopped tx (finish tx .done (if _ then packFrame ⟨0, 0⟩ tx else .error .noStep)) = _
  rw [unlessStopped_of_ne (by decide), if_pos hf, ht, finish_ok]

/-- The block after `CTL.START true` from reset, with `n` samples of silence in the frame. -/
def silent (n : Nat) : State :=
  { State.reset with ctl.lifecycle := .streaming, rx.accCount := BitVec.ofNat 16 n, io.result := .done }

/-- A sample of silence stored. -/
theorem silent_store (n : Nat) (h : n < 16129) :
    storeSample Sample.zero ⟨0, 0⟩ (silent n) =
      if n = 16128 then packFrame ⟨0, 0⟩ (silent 16129) else .ok (silent (n + 1)) := by
  have hn : (silent n).rx.accCount.toNat = n := by
    change (BitVec.ofNat 16 n).toNat = n
    rw [BitVec.toNat_ofNat]; omega
  have hw : ∀ a : Nat, Memory.write [] a (componentBytes 2 (0 : BitVec 16)) = [] := fun a => rfl
  have hi : ∀ off, off + 2 ≤ 508 → fbWrite [] (1 + n / 127) off (componentBytes 2 (0 : BitVec 16)) = .ok [] := by
    intro off ho
    refine fbWrite_ok.2 ⟨?_, (hw _).symm⟩
    simp [inBody, Config.bodies, Config.bodyLen]; omega
  have hB : (silent n).rx.frameBps.toNat = 2 := rfl
  have hS : samplesPerBlock 2 = 127 := by decide
  have hF : (silent n).rx.fb = [] := rfl
  unfold storeSample
  simp only [hn, hB, hS, hF, Nat.reduceMul]
  rw [hi (n % 127 * 4) (by omega)]
  simp only [Except.bind]
  rw [hi (n % 127 * 4 + 2) (by omega)]
  have hs : BitVec.ofNat 16 n + 1 = BitVec.ofNat 16 (n + 1) := by
    apply BitVec.eq_of_toNat_eq; simp
  change (if (BitVec.ofNat 16 n + 1).toNat = 16129 then packFrame ⟨0, 0⟩
      { silent n with rx.fb := [], rx.accCount := BitVec.ofNat 16 n + 1 }
    else .ok { silent n with rx.fb := [], rx.accCount := BitVec.ofNat 16 n + 1 }) = _
  rw [hs]
  have ht : (BitVec.ofNat 16 (n + 1)).toNat = n + 1 := by rw [BitVec.toNat_ofNat]; omega
  rw [ht]
  by_cases hf : n = 16128
  · subst hf; rfl
  · rw [if_neg (by omega), if_neg hf]; rfl

/-- `RX.SAMPLE` of silence. -/
theorem silent_sample (n : Nat) (h : n < 16129) :
    exec (.rxSample Sample.zero ⟨0, 0⟩) (silent n) =
      finish (silent n) .done (if n = 16128 then packFrame ⟨0, 0⟩ (silent 16129) else .ok (silent (n + 1))) := by
  have hb : beginFrame (silent n) = silent n := by
    unfold beginFrame; split <;> rfl
  rw [← silent_store n h]
  change unlessStopped (silent n) (finish (silent n) .done (rxSample Sample.zero ⟨0, 0⟩ (silent n))) = _
  rw [unlessStopped_of_ne (by change Lifecycle.streaming ≠ .stopped; decide)]
  congr 1
  unfold rxSample
  rw [if_neg (by change ¬(false = true); decide), hb]
  rfl

/-- Silence up to the last sample of a frame. -/
theorem silent_run (n : Nat) (h : n ≤ 16128) (k : Nat) (hk : k + n = 16128) :
    ∃ rs, runAll (List.replicate n (.rxSample Sample.zero ⟨0, 0⟩)) (silent k) = some (silent 16128, rs) := by
  induction n generalizing k with
  | zero => exact ⟨[], by rw [show k = 16128 by omega]; rfl⟩
  | succ n ih =>
    obtain ⟨rs, hr⟩ := ih (by omega) (k + 1) (by omega)
    have hs := silent_sample k (by omega)
    rw [if_neg (by omega), finish_ok] at hs
    exact ⟨_, by rw [List.replicate_succ, runAll, hs]; change Option.map _ (runAll _ (silent (k + 1))) = _; rw [hr]; rfl⟩

/-- A start, and a whole frame of silence. -/
theorem witness_EmissionOrder_index :
    let l : List Instr := List.replicate 16128 (.rxSample Sample.zero ⟨0, 0⟩) ++ [.rxSample Sample.zero ⟨0, 0⟩]
    ∃ t u rs, exec (.ctlStart true) State.reset = .next t ∧ (∀ i ∈ l, i ≠ .ctlReset) ∧ runAll l t = some (u, rs) ∧
      u.rx.emitting = true := by
  intro l
  obtain ⟨rs, hr⟩ := silent_run 16128 (by omega) 0 rfl
  obtain ⟨v, hv⟩ := packFrame_succeeds ⟨0, 0⟩ (s := silent 16129) (by decide)
  have hs := silent_sample 16128 (by omega)
  rw [if_pos rfl, hv, finish_ok] at hs
  have h1 : runAll [.rxSample Sample.zero ⟨0, 0⟩] (silent 16128) = some (v.ret .done, [.done]) := by
    rw [runAll, hs]; rfl
  obtain ⟨fb, -, hvq⟩ := packFrame_ok hv
  refine ⟨silent 0, v.ret .done, _, rfl, fun i hi => ?_, runAll_append hr h1, by rw [State.ret_rx, hvq]⟩
  rcases List.mem_append.1 hi with hi | hi
  · rw [List.eq_of_mem_replicate hi]; exact fun h => by cases h
  · rw [List.mem_singleton.1 hi]; exact fun h => by cases h

end Sys2Proof.Tests
end

section
/-! PROOFS. Commutation of the Rx worker and the arrival of a datagram (O59): the two agents write disjoint parts of the state,
and neither reads what the other writes (rules R14, R353). -/

namespace Sys2Proof

/-- The half that is not this one. -/
def Half.other : Half → Half
  | .rx => .tx
  | .tx => .rx

namespace Machine

/-! ### The operations that bring in a datagram -/

/-- The four bytes of a word, least significant first (rule R9). -/
theorem leBytes_four (w : U32) :
    leBytes 4 w.toNat = [w.setWidth 8, (w >>> 8).setWidth 8, (w >>> 16).setWidth 8, (w >>> 24).setWidth 8] := by
  simp only [leBytes, List.cons.injEq, and_true]
  refine ⟨?_, ?_, ?_, ?_⟩ <;> apply BitVec.eq_of_toNat_eq <;>
    simp [Nat.shiftRight_eq_div_pow, Nat.div_div_eq_div_mul]

/-- A wire block, byte for byte (rules R90, R91). -/
theorem blockBytes_eq (fidx : U16) (blk rsv : Byte) (body : List Byte) :
    blockBytes fidx blk rsv body = [fidx.setWidth 8, (fidx >>> 8).setWidth 8, blk, rsv] ++ body := by
  rw [blockBytes, leBytes_four, List.append_left_inj]
  simp only [headerWord, List.cons.injEq, and_true]
  refine ⟨?_, ?_, ?_, ?_⟩ <;> ext k hk
  · simp
  · simp [show 8 + k < 32 by omega, show 8 + k < 16 by omega, show 8 + k < 24 by omega]
  · simp [show 16 + k < 32 by omega, show 16 + k < 24 by omega, show k < 32 by omega, hk]
  · have hfidx : fidx.getLsbD (24 + k) = false := BitVec.getLsbD_of_ge _ _ (by omega)
    have hblk : blk.getLsbD (24 + k - 16) = false := BitVec.getLsbD_of_ge _ _ (by omega)
    simp [hfidx, hblk, show 24 + k < 32 by omega, show k < 32 by omega, BitVec.getLsbD_eq_getElem hk]

/-- The index of a parity block (rule R92). -/
theorem parityIndex_eq : ∀ b : BitVec 7, (0x80 ||| b.setWidth 8 : Byte) = 128 + b.setWidth 8 := by
  decide

/-- Every operation that brings in a datagram is its arrival (log entry 14). -/
theorem exec_of_datagram {i : Instr} {d : List Byte} (h : i.datagram = some d) : exec i = receive d := by
  cases i with
  | netRecv => cases h; rfl
  | blkMeta fidx rsv body =>
    cases h
    exact congrArg receive (blockBytes_eq fidx 0 rsv body)
  | blkSample fidx b rsv body =>
    cases h
    exact congrArg receive (blockBytes_eq fidx (b.setWidth 8) rsv body)
  | blkParity fidx b rsv body =>
    cases h
    rw [← parityIndex_eq]
    exact congrArg receive (blockBytes_eq fidx (0x80 ||| b.setWidth 8) rsv body)
  | _ => cases h

/-! ### What a half writes -/

/-- `s` with all that the operations of half `h` may write, the returned value included, taken from `t`. The registers that both
halves read and neither writes (parameters, lifecycle, pending bank, `CFG_SEQ_P`, inbox) stay those of `s`. -/
def State.withHalf (h : Half) (s t : State) : State :=
  match h with
  | .rx =>
    { s with
      cfg := { s.cfg with activeRx := t.cfg.activeRx, seqRx := t.cfg.seqRx }
      rx := t.rx
      rxq := t.rxq
      cnt := { s.cnt with framesSent := t.cnt.framesSent, dgramsSent := t.cnt.dgramsSent }
      io := { s.io with sent := t.io.sent, result := t.io.result } }
  | .tx =>
    { s with
      cfg := { s.cfg with activeTx := t.cfg.activeTx, seqTx := t.cfg.seqTx }
      tx := t.tx
      txq := t.txq
      cnt := { t.cnt with framesSent := s.cnt.framesSent, dgramsSent := s.cnt.dgramsSent }
      io := { s.io with errors := t.io.errors, result := t.io.result } }

@[simp] theorem State.withHalf_self (h : Half) (s : State) : s.withHalf h s = s := by
  cases h <;> rfl

@[simp] theorem State.withHalf_withHalf (h : Half) (s t u : State) : (s.withHalf h t).withHalf h u = s.withHalf h u := by
  cases h <;> rfl

@[simp] theorem State.withHalf_ctl (h : Half) (s t : State) : (s.withHalf h t).ctl = s.ctl := by
  cases h <;> rfl

@[simp] theorem State.withHalf_params (h : Half) (s t : State) : (s.withHalf h t).params = s.params := by
  cases h <;> rfl

@[simp] theorem State.withHalf_seqP (h : Half) (s t : State) : (s.withHalf h t).cfg.seqP = s.cfg.seqP := by
  cases h <;> rfl

@[simp] theorem State.withHalf_rx_tx (s t : State) : (s.withHalf .rx t).tx = s.tx := by
  rfl

@[simp] theorem State.withHalf_rx_seqTx (s t : State) : (s.withHalf .rx t).cfg.seqTx = s.cfg.seqTx := by
  rfl

@[simp] theorem State.withHalf_tx_rx (s t : State) : (s.withHalf .tx t).rx = s.rx := by
  rfl

@[simp] theorem State.withHalf_tx_activeRx (s t : State) : (s.withHalf .tx t).cfg.activeRx = s.cfg.activeRx := by
  rfl

@[simp] theorem State.withHalf_tx_seqRx (s t : State) : (s.withHalf .tx t).cfg.seqRx = s.cfg.seqRx := by
  rfl

@[simp] theorem State.withHalf_tx_rxq (s t : State) : (s.withHalf .tx t).rxq = s.rxq := by
  rfl

/-! ### Operations of one half -/

/-- From state `s`, `f` works on half `h` alone: whatever the other half holds, `f` does the same, writes half `h` and leaves
the rest as it was. -/
def LocalAt (h : Half) (f : State → Except Halt State) (s : State) : Prop :=
  ∀ t, f (s.withHalf h.other t) = (f s).map fun u => (s.withHalf h u).withHalf h.other t

section
variable {h : Half} {s : State}

/-- An operation of half `h` leaves the rest as it was. -/
theorem LocalAt.writes {f : State → Except Halt State} (hf : LocalAt h f s) {u : State} (hu : f s = .ok u) :
    u = s.withHalf h u := by
  have h1 := hf s
  rw [State.withHalf_self, hu] at h1
  have h2 : u = (s.withHalf h u).withHalf h.other s := Except.ok.inj h1
  rw [h2]
  cases h <;> rfl

/-- An operation of half `h` performed with another content of the other half. -/
theorem LocalAt.ok {f : State → Except Halt State} (hf : LocalAt h f s) {u : State} (hu : f s = .ok u) (t : State) :
    f (s.withHalf h.other t) = .ok (u.withHalf h.other t) := by
  rw [hf t, hu]
  change Except.ok ((s.withHalf h u).withHalf h.other t) = _
  rw [← hf.writes hu]

theorem LocalAt.stop (e : Halt) : LocalAt h (fun _ => .error e) s := fun _ => rfl

theorem LocalAt.same : LocalAt h .ok s := fun t => by
  change Except.ok _ = Except.ok ((s.withHalf h s).withHalf h.other t)
  rw [State.withHalf_self]

/-- One operation of the half behind another. -/
theorem LocalAt.bind {f g : State → Except Halt State} (hf : LocalAt h f s) (hg : ∀ u, f s = .ok u → LocalAt h g u) :
    LocalAt h (fun s => (f s).bind g) s := by
  intro t
  cases hu : f s with
  | error e => simp only [hf t, hu]; rfl
  | ok u =>
    have hown : ∀ w, u.withHalf h w = s.withHalf h w := fun w => by rw [hf.writes hu, State.withHalf_withHalf]
    have hgt : g (u.withHalf h.other t) = (g u).map fun w => (s.withHalf h w).withHalf h.other t := by
      simpa only [hown] using hg u hu t
    simp only [hf.ok hu t, hu]
    exact hgt

/-- An operation of the half behind an update of it. -/
theorem LocalAt.comp {f : State → Except Halt State} {g : State → State} (hg : LocalAt h (fun s => .ok (g s)) s)
    (hf : LocalAt h f (g s)) : LocalAt h (fun s => f (g s)) s :=
  hg.bind fun u hu => by cases hu; exact hf

/-- A choice that the other half does not decide. -/
theorem LocalAt.ite {c : State → Prop} [DecidablePred c] {f g : State → Except Halt State}
    (hc : ∀ t, c (s.withHalf h.other t) ↔ c s) (hf : c s → LocalAt h f s) (hg : ¬c s → LocalAt h g s) :
    LocalAt h (fun s => if c s then f s else g s) s := by
  intro t
  by_cases h1 : c s
  · simpa only [h1, hc t, if_true] using hf h1 t
  · simpa only [h1, hc t, if_false] using hg h1 t

/-- A value that the other half does not decide, and an operation with it. -/
theorem LocalAt.read {α : Type} {x : State → Except Halt α} {k : α → State → Except Halt State}
    (hx : ∀ t, x (s.withHalf h.other t) = x s) (hk : ∀ a, LocalAt h (k a) s) :
    LocalAt h (fun s => (x s).bind fun a => k a s) s := by
  intro t
  simp only [hx t]
  cases x s with
  | error e => rfl
  | ok a => exact hk a t

end

/-! ### The Tx half: delivery, retirement, arrival -/

theorem raise_local (e : ErrorEvent) (s : State) : LocalAt .tx (fun s => .ok (raise e s)) s := by
  intro t; cases e <;> rfl

theorem overrunCheck_local (s : State) : LocalAt .tx (fun s => .ok (overrunCheck .txq s)) s := by
  intro t
  have hq : (s.withHalf .rx t).queue .txq = s.queue .txq := rfl
  have ht : overrunThreshold (s.withHalf .rx t) = overrunThreshold s := rfl
  simp only [Half.other, overrunCheck_eq, hq, ht]
  split <;> rfl

theorem pushVec_local (v : List Sample) (s : State) : LocalAt .tx (pushVec .txq v) s :=
  .ite (fun _ => .rfl) (fun _ => .stop _) fun _ => .ite (fun _ => .rfl) (fun _ => .stop _) fun _ =>
    .ite (fun _ => .rfl) (fun _ => .stop _) fun _ => .ite (fun _ => .rfl) (fun _ => .stop _) fun _ =>
      .ite (fun _ => .rfl) (fun _ => .same) fun _ =>
        overrunCheck_local (s.setQueue .txq { s.queue .txq with vecs := (s.queue .txq).vecs ++ [v] })

theorem deliver_local (v : List Sample) (s : State) : LocalAt .tx (deliver v) s :=
  fun t => pushVec_local (intProcess v s).2 (intProcess v s).1 t

/-- The silence of a lost frame, of the length that `pad_bps` gives. -/
theorem deliverSilence_local (s : State) :
    LocalAt .tx (fun s => deliver (List.replicate (samplesPerFrame s.tx.padBps.toNat) Sample.zero) s) s :=
  fun t => deliver_local (List.replicate (samplesPerFrame s.tx.padBps.toNat) Sample.zero) s t

theorem loseFrame_local (cause : ErrorEvent) (f : U16) (s : State) : LocalAt .tx (loseFrame cause f) s :=
  (raise_local cause s).bind fun _ _ => (raise_local (.frameLoss f) _).bind fun _ _ => deliverSilence_local _

theorem acceptFrame_local (m : List Byte) (data : List (List Byte)) (s : State) : LocalAt .tx (acceptFrame m data) s :=
  fun t => deliver_local (unpackExpand (byteAt m 8).toNat (data.drop 1))
    { s with
      tx := { s.tx with last := lastMetaOf m, padBps := byteAt m 8 }
      cnt := { s.cnt with ok := s.cnt.ok + 1 } } t

/-- A complete frame at `tx_base` is lost for its CRC or its width, or accepted. -/
theorem settleComplete_local (e : WinEntry) (s : State) :
    LocalAt .tx (fun s => (winDecode s.params e).bind fun data =>
      if crc32 (slice (data.headD []) 0 20) ≠ le32 (data.headD []) 20 then loseFrame (.crcFailure s.tx.base) s.tx.base s
      else if byteAt (data.headD []) 8 ≠ 1 ∧ byteAt (data.headD []) 8 ≠ 2 then
        loseFrame (.metaInvalid s.tx.base) s.tx.base s
      else acceptFrame (data.headD []) data s) s := by
  refine .read (fun _ => rfl) fun data => .ite (fun _ => .rfl) (fun _ t => ?_) fun _ =>
    .ite (fun _ => .rfl) (fun _ t => ?_) fun _ => ?_
  · exact loseFrame_local (.crcFailure s.tx.base) s.tx.base s t
  · exact loseFrame_local (.metaInvalid s.tx.base) s.tx.base s t
  · exact acceptFrame_local _ data s

theorem settleHead_local (s : State) : LocalAt .tx settleHead s := by
  intro t
  have he : headEntry (s.withHalf .rx t) = headEntry s := rfl
  simp only [Half.other, settleHead, he]
  cases headEntry s with
  | none => exact loseFrame_local _ s.tx.base s t
  | some e => exact settleComplete_local e s t

theorem txRetire_local (s : State) : LocalAt .tx txRetire s := by
  intro t
  change (settleHead (s.withHalf .rx t)).map (advanceBase s.tx.base) = ((settleHead s).map (advanceBase s.tx.base)).map _
  have hs : settleHead (s.withHalf .rx t) = _ := settleHead_local s t
  rw [hs]
  cases settleHead s <;> rfl

theorem evict_local (f : U16) (n : Nat) (s : State) : LocalAt .tx (evict f n) s := by
  induction n generalizing s with
  | zero => exact .same
  | succ n ih => exact .ite (fun _ => .rfl) (fun _ => (txRetire_local s).bind fun u _ => ih u) fun _ => .same

theorem deliverComplete_local (n : Nat) (s : State) : LocalAt .tx (deliverComplete n) s := by
  induction n generalizing s with
  | zero => exact .same
  | succ n ih => exact .ite (fun _ => .rfl) (fun _ => (txRetire_local s).bind fun u _ => ih u) fun _ => .same

theorem storeSlot_local (f : U16) (b : Nat) (body : List Byte) (s : State) : LocalAt .tx (storeSlot f b body) s := by
  refine .ite (fun _ => .rfl) (fun _ _ => rfl) fun _ t => ?_
  change (winWrite ((winFind s.tx.win f).getD (WinEntry.empty f)) b body).map _ = Except.map _ (Except.map _ _)
  cases winWrite ((winFind s.tx.win f).getD (WinEntry.empty f)) b body <;> rfl

theorem acceptBlock_local (f : U16) (b : Nat) (body : List Byte) (s : State) : LocalAt .tx (acceptBlock f b body) s := by
  have hev : LocalAt .tx (fun s => evict f (dist f s.tx.base) s) s := fun t => evict_local f (dist f s.tx.base) s t
  have hdc : ∀ u, LocalAt .tx (fun u => deliverComplete u.tx.win.length u) u :=
    fun u t => deliverComplete_local u.tx.win.length u t
  exact .ite (fun _ => .rfl) (fun _ _ => rfl) fun _ => hev.bind fun u _ => (storeSlot_local f b body u).bind fun v _ => hdc v

theorem synchronise_local (f : U16) (s : State) : LocalAt .tx (fun s => .ok (synchronise f s)) s := by
  intro t
  simp only [Half.other, synchronise, State.withHalf_rx_tx]
  split <;> rfl

theorem txAdopt_local (s : State) : LocalAt .tx (fun s => .ok (txAdopt s)) s := by
  intro t
  simp only [Half.other, txAdopt, State.withHalf_seqP, State.withHalf_rx_seqTx]
  split <;> rfl

/-- The arrival of a datagram behind the adoption (rule R200 from line 2 on). -/
theorem arrival_local (d : List Byte) (s : State) :
    LocalAt .tx (fun s =>
      if d.length ≠ Config.blockLen then .ok (raise .protocolLength s)
      else if 128 + s.cfg.activeTx.fecblk.toNat ≤ (byteAt d 2).toNat then .ok (raise .protocolHeader s)
      else acceptBlock (le16 d 0) (byteAt d 2).toNat (d.drop 4) (synchronise (le16 d 0) s)) s :=
  .ite (fun _ => .rfl) (fun _ => raise_local _ s) fun _ => .ite (fun _ => .rfl) (fun _ => raise_local _ s) fun _ =>
    (synchronise_local _ s).comp (acceptBlock_local _ _ _ _)

theorem netRecv_local (d : List Byte) (s : State) : LocalAt .tx (netRecv d) s :=
  (txAdopt_local s).comp (arrival_local d _)

/-! ### The Rx half: the arms of the worker but the drain transition -/

theorem netSend_local (now : U64) (s : State) : LocalAt .rx (netSend now) s :=
  .ite (fun _ => .rfl) (fun _ => .stop _) fun _ => .read (fun _ => rfl) fun _ _ => rfl

theorem packFrame_local (wall : Wall) (s : State) : LocalAt .rx (packFrame wall) s := by
  intro t
  simp only [packFrame, Half.other, State.withHalf_tx_rx, State.withHalf_params, State.withHalf_tx_activeRx]
  cases fbWrite s.rx.fb 0 0 (metaBuild s.cfg.activeRx s.rx.frameBps s.cfg.activeRx.fecblk wall) with
  | error e => rfl
  | ok fb0 =>
    simp only [Except.bind]
    cases fbWriteBodies fb0 Config.dataBlocks (fecEncode s.params (dataBodies fb0) s.cfg.activeRx.fecblk.toNat) <;> rfl

theorem storeSample_local (y : Sample) (wall : Wall) (s : State) : LocalAt .rx (storeSample y wall) s := by
  refine .read (fun _ => rfl) fun _ => .read (fun _ => rfl) fun fb => ?_
  exact .ite (fun _ => .rfl)
    (fun _ t => packFrame_local wall { s with rx := { s.rx with fb := fb, accCount := s.rx.accCount + 1 } } t) fun _ _ => rfl

theorem beginFrame_local (s : State) : LocalAt .rx (fun s => .ok (beginFrame s)) s := by
  intro t
  simp only [Half.other, beginFrame, State.withHalf_tx_rx, State.withHalf_seqP, State.withHalf_tx_seqRx]
  split
  · split <;> rfl
  · rfl

/-- `RX.SAMPLE` behind the start of the frame: the decimator, and the store of what it yields (rule R174). -/
def decimateAndStore (x : Sample) (wall : Wall) (s : State) : Except Halt State :=
  let r := decProcess s.params s.cfg.activeRx x s.rx
  match r.2 with
  | none => .ok { s with rx := r.1 }
  | some y => storeSample y wall { s with rx := r.1 }

theorem rxSample_eq (x : Sample) (wall : Wall) (s : State) :
    rxSample x wall s = if s.rx.emitting then .error .noStep else decimateAndStore x wall (beginFrame s) := by
  rfl

theorem decimateAndStore_local (x : Sample) (wall : Wall) (s : State) : LocalAt .rx (decimateAndStore x wall) s := by
  intro t
  simp only [Half.other, decimateAndStore, State.withHalf_params, State.withHalf_tx_activeRx, State.withHalf_tx_rx]
  cases (decProcess s.params s.cfg.activeRx x s.rx).2 with
  | none => rfl
  | some y => exact storeSample_local y wall { s with rx := (decProcess s.params s.cfg.activeRx x s.rx).1 } t

theorem rxSample_local (x : Sample) (wall : Wall) (s : State) : LocalAt .rx (rxSample x wall) s := by
  rw [funext (rxSample_eq x wall)]
  exact .ite (fun _ => .rfl) (fun _ => .stop _) fun _ => (beginFrame_local s).comp (decimateAndStore_local x wall _)

/-- A pull on `RXQ` touches nothing of the Tx half. -/
theorem pullVec_rxq_withHalf (s t : State) :
    pullVec .rxq (s.withHalf .tx t) =
      (pullVec .rxq s).map fun p => ((s.withHalf .rx p.1).withHalf .tx t, p.2) := by
  have hq : (s.withHalf .tx t).queue .rxq = s.queue .rxq := rfl
  simp only [pullVec, notStarted_rxq, hq, State.withHalf_ctl]
  cases (s.queue .rxq).vecs with
  | cons v rest => rfl
  | nil => cases (s.queue .rxq).ended || s.ctl.stopFlag <;> rfl

/-- The worker keeps to the Rx half but where it drains (rules R171, R303). -/
theorem rxwStep_local {now : U64} {wall : Wall} {s : State}
    (hnd : ∀ u, rxwStep now wall s = .ok u → u.ctl.lifecycle = s.ctl.lifecycle) : LocalAt .rx (rxwStep now wall) s := by
  refine .ite (fun _ => .rfl) (fun _ => .stop _) fun hr => .ite (fun _ => .rfl) (fun _ => netSend_local now s) fun he t => ?_
  simp only [Half.other, State.withHalf_tx_rx, State.withHalf_tx_rxq, State.withHalf_ctl, pullVec_rxq_withHalf]
  cases hc : s.rx.cur with
  | cons x rest => exact rxSample_local x wall { s with rx := { s.rx with cur := rest } } t
  | nil =>
    dsimp only
    split
    · cases pullVec .rxq s <;> rfl
    next hv =>
    split
    next hend =>
      exfalso
      have hdrain : rxwStep now wall s = .ok (drainTransition s) := by
        simp [rxwStep, hr, he, hc, hv, hend]
      have hstopped : Lifecycle.stopped = s.ctl.lifecycle := hnd _ hdrain
      simp [workerRuns, ← hstopped] at hr
    · rfl

/-! ### Whole operations -/

/-- The operation `e` leads from `s` to `u` by half `h` alone: it leaves the rest as it was, and whatever the other half holds it
does the same and returns the same. -/
structure LeadsWithin (h : Half) (e : State → Host.Outcome State Fault Refusal) (s u : State) : Prop where
  writes : u = s.withHalf h u
  anywhere : ∀ t, e (s.withHalf h.other t) = .next ((u.withHalf h.other t).ret u.io.result)

/-- An operation that answers and changes nothing. -/
theorem leadsWithin_ret {h : Half} {e : State → Host.Outcome State Fault Refusal} {s : State} {r : Result}
    (he : ∀ t, e (s.withHalf h.other t) = .next ((s.withHalf h.other t).ret r)) : LeadsWithin h e s (s.ret r) where
  writes := by cases h <;> rfl
  anywhere t := by rw [he t]; cases h <;> rfl

theorem LocalAt.finish {h : Half} {f : State → Except Halt State} {s u : State} {r : Result} (hf : LocalAt h f s)
    (hu : finish s r (f s) = .next u) : LeadsWithin h (fun s => Machine.finish s r (f s)) s u := by
  rcases finish_eq_next.1 hu with ⟨w, hw, rfl⟩ | ⟨hn, rfl⟩
  · constructor
    · conv_lhs => rw [hf.writes hw]
      cases h <;> rfl
    · intro t
      rw [hf.ok hw t, finish_ok]
      cases h <;> rfl
  · refine leadsWithin_ret fun t => ?_
    have ht : f (s.withHalf h.other t) = .error .noStep := by rw [hf t, hn]; rfl
    rw [ht, finish_noStep]

/-- An `RXW.STEP` that does not drain (rule R171). -/
theorem execRxwStep_leadsWithin {now : U64} {wall : Wall} {s u : State} (hu : execRxwStep now wall s = .next u)
    (hnd : u.ctl.lifecycle = s.ctl.lifecycle) : LeadsWithin .rx (execRxwStep now wall) s u := by
  refine LocalAt.finish (rxwStep_local fun w hw => ?_) hu
  have hwu : u = w.ret .done := by
    rw [execRxwStep, hw, finish_ok] at hu
    exact (Host.Outcome.next.inj hu).symm
  rw [← hnd, hwu, State.ret_ctl]

/-- The arrival of a datagram in any lifecycle state (rules R200, R305). -/
theorem receive_leadsWithin {d : List Byte} {s v : State} (hv : receive d s = .next v) :
    LeadsWithin .tx (receive d) s v := by
  by_cases hl : s.ctl.lifecycle = .streaming
  · have hrun : ∀ t, receive d (s.withHalf .rx t) = finish (s.withHalf .rx t) .done (netRecv d (s.withHalf .rx t)) :=
      fun t => if_neg (not_not.2 (by rw [State.withHalf_ctl, hl]))
    have hs : finish s .done (netRecv d s) = .next v := by rw [← hv, receive, if_neg (not_not.2 hl)]
    have hfin := (netRecv_local d s).finish hs
    exact ⟨hfin.writes, fun t => (hrun t).trans (hfin.anywhere t)⟩
  · have hign : v = s.ret .ignored := by
      rw [receive, if_pos hl] at hv
      exact (Host.Outcome.next.inj hv).symm
    rw [hign]
    exact leadsWithin_ret fun t => if_pos (by rwa [State.withHalf_ctl])

/-- An operation of the Rx half and one of the Tx half commute, but for the value returned. -/
theorem LeadsWithin.commute {e f : State → Host.Outcome State Fault Refusal} {s u v : State} (he : LeadsWithin .rx e s u)
    (hf : LeadsWithin .tx f s v) :
    ∃ w : State, f u = .next (w.ret v.io.result) ∧ e v = .next (w.ret u.io.result) := by
  refine ⟨u.withHalf .tx v, ?_, ?_⟩
  · have hfu : f u = .next ((v.withHalf .rx u).ret v.io.result) := by
      conv_lhs => rw [he.writes]
      exact hf.anywhere u
    have hw : (v.withHalf .rx u).ret v.io.result = (u.withHalf .tx v).ret v.io.result := by
      rw [he.writes, hf.writes]; rfl
    rw [hfu, hw]
  · conv_lhs => rw [hf.writes]
    exact he.anywhere v

end Machine

/-- Settles O59: the worker writes the Rx half and the arrival the Tx half, and of what both read (the lifecycle, the parameters,
the pending bank) neither writes anything, but for the drain transition. The two orders even leave the same trace in the same
order, since the worker raises nothing. -/
theorem rxAndTxCommute : Obligations.RxAndTxCommute := by
  intro now wall i d s u v hd hu hnd hv
  have hrx : Machine.LeadsWithin .rx (Machine.exec (.rxwStep now wall)) s u := Machine.execRxwStep_leadsWithin hu hnd
  have htx : Machine.LeadsWithin .tx (Machine.exec i) s v := by
    rw [Machine.exec_of_datagram hd] at hv ⊢
    exact Machine.receive_leadsWithin hv
  obtain ⟨w, hx, hy⟩ := hrx.commute htx
  exact ⟨_, _, hx, hy, rfl, .refl _⟩

end Sys2Proof
end

section
/-! PROOFS. What one operation can do, said once: the transitions of the model, grouped by who writes what (`Performs`), every
next state of `exec` as one of them (`exec_performs`), what each group leaves alone, and the induction that every invariant
uses (`step_keeps`). -/

namespace Sys2Proof.Machine

/-! ### The transitions -/

/-- The transitions that move the lifecycle registers (rules R300 to R304). -/
inductive ControlMove : Instr → State → State → Prop
  | reset {s} : ControlMove .ctlReset s (State.initial s.params s.io)
  | start {s} (hl : s.ctl.lifecycle = .created) : ControlMove (.ctlStart true) s (startStream s)
  | startFails {s} (hl : s.ctl.lifecycle = .created) :
      ControlMove (.ctlStart false) s (raise .deviceError { s with ctl := ⟨.stopped, .startupError, true⟩ })
  | stopStreaming {s} (hl : s.ctl.lifecycle = .streaming) :
      ControlMove .ctlStop s { s with ctl := ⟨.draining, .stopSignal, true⟩ }
  | stopCreated {s} (hl : s.ctl.lifecycle = .created) :
      ControlMove .ctlStop s { s with ctl := ⟨.stopped, .stopSignal, true⟩ }
  | stopAgain {s} (hl : s.ctl.lifecycle = .draining ∨ s.ctl.lifecycle = .stopped) :
      ControlMove .ctlStop s { s with ctl := { s.ctl with stopFlag := true } }
  | deviceError {s} (cause : StopCause) (hc : cause ≠ .none) (hl : s.ctl.lifecycle ≠ .stopped) :
      ControlMove .ctlDeverr s (deviceStop cause s)
  | drain {s} (now : U64) (wall : Wall) (hl : s.ctl.lifecycle = .streaming ∨ s.ctl.lifecycle = .draining)
      (he : s.rx.emitting = false) : ControlMove (.rxwStep now wall) s (drainTransition s)

/-- The transitions of the configuration operations (rules R293, R297). -/
inductive Configures : State → State → Prop
  | write {s} (r : CfgReg) (v : Nat) (ha : (range r v).2.accepted = true) :
      Configures s (updatePending (s.cfg.pending.write r (range r v).1) s)
  | message {s} (msg : List Byte) (dev : List DevAnswer) : Configures s (applyMessage msg dev s)

/-- The transitions of the sample buffer operations (rules R132 to R134). -/
inductive QueueMove : State → State → Prop
  | push {s t} (q : QueueId) (v : List Sample) (h : pushVec q v s = .ok t) : QueueMove s t
  | pull {s t} (q : QueueId) (v : List Sample) (h : pullVec q s = some (t, v)) : QueueMove s t
  | finish {s} (q : QueueId) : QueueMove s (endQueue q s)

/-- The transitions of the Rx half: its operations offered alone, and those arms of the worker that are no drain transition. -/
inductive RxMove : Instr → State → State → Prop
  | decimate {s} (x : Sample) : RxMove (.decProcess x) s { s with rx := (decProcess s.params s.cfg.activeRx x s.rx).1 }
  | mix {s} (x : Sample) : RxMove (.mixFs4 x) s { s with rx := (mixFs4 s.cfg.activeRx x s.rx).1 }
  | clear {s} : RxMove (.dspReset .rx) s { s with rx := dspResetRx s.params s.rx }
  | adopt {s} (hd : rxMustAdopt s = true) : RxMove .rxAdopt s (rxAdopt s)
  | sample {i s t} (cur : List Sample) (x : Sample) (wall : Wall) (hi : i = .rxSample x wall ∨ ∃ now, i = .rxwStep now wall)
      (h : rxSample x wall { s with rx := { s.rx with cur := cur } } = .ok t) : RxMove i s t
  | pack {s t} (wall : Wall) (hf : s.rx.accCount.toNat = samplesPerFrame s.rx.frameBps.toNat) (h : packFrame wall s = .ok t) :
      RxMove (.packFrame wall) s t
  | send {i s t} (now : U64) (h : netSend now s = .ok t) : RxMove i s t
  | refill {i s t} (v : List Sample) (h : pullVec .rxq s = some (t, v)) : RxMove i s { t with rx := { t.rx with cur := v } }

/-- The transitions of the Tx half. -/
inductive TxMove : Instr → State → State → Prop
  | interpolate {s} (v : List Sample) : TxMove (.intProcess v) s (intProcess v s).1
  | clear {s} : TxMove (.dspReset .tx) s { s with tx := dspResetTx s.params s.tx }
  | adopt {s} : TxMove .txAdopt s (txAdopt s)
  | retire {s t} (hl : s.ctl.lifecycle = .streaming) (h : txRetire s = .ok t) : TxMove .txRetire s t
  | arrive {i s t} {d : List Byte} (hi : i.datagram = some d) (hl : s.ctl.lifecycle = .streaming) (h : netRecv d s = .ok t) :
      TxMove i s t

/-- `Performs i s t`: operation `i` is performed in state `s` and leads to `t`, but for the value it returns. -/
inductive Performs (i : Instr) (s t : State) : Prop
  | control (h : ControlMove i s t)
  | configure (hi : i.isConfiguration = true) (hc : configurable s = true) (h : Configures s t)
  | queue (h : QueueMove s t)
  | rx (hl : s.ctl.lifecycle ≠ .stopped) (h : RxMove i s t)
  | tx (hl : s.ctl.lifecycle ≠ .stopped) (h : TxMove i s t)

/-- What operation `i` does from `s` to `t`: it answers and changes nothing, or it performs a transition and answers. -/
def Answers (i : Instr) (s t : State) : Prop := ∃ r, t = s.ret r ∨ ∃ u, Performs i s u ∧ t = u.ret r

/-! ### Every next state of an operation -/

section
variable {i : Instr} {s t u : State} {r : Result}

theorem answers_of_ret (h : Host.Outcome.next (φ := Fault) (ρ := Refusal) (s.ret r) = .next t) : Answers i s t :=
  ⟨r, .inl (Host.Outcome.next.inj h).symm⟩

theorem answers_of_performs (hp : Performs i s u) (h : Host.Outcome.next (φ := Fault) (ρ := Refusal) (u.ret r) = .next t) :
    Answers i s t :=
  ⟨r, .inr ⟨u, hp, (Host.Outcome.next.inj h).symm⟩⟩

theorem answers_of_finish {o : Except Halt State} (hp : ∀ u, o = .ok u → Performs i s u)
    (h : Machine.finish s r o = .next t) : Answers i s t := by
  rcases finish_eq_next.1 h with ⟨u, hu, rfl⟩ | ⟨-, rfl⟩
  · exact ⟨r, .inr ⟨u, hp u hu, rfl⟩⟩
  · exact ⟨.noStep, .inl rfl⟩

theorem answers_of_unlessStopped {o : Host.Outcome State Fault Refusal}
    (hp : s.ctl.lifecycle ≠ .stopped → o = .next t → Answers i s t) (h : unlessStopped s o = .next t) : Answers i s t := by
  rcases unlessStopped_eq_next.1 h with ⟨-, rfl⟩ | ⟨hl, h⟩
  · exact ⟨.noStep, .inl rfl⟩
  · exact hp hl h

theorem answers_of_configure {msg : List Byte} {dev : List DevAnswer} (hi : i.isConfiguration = true)
    (h : configure msg dev s = .next t) : Answers i s t := by
  rcases configure_eq_next h with ⟨hc, rfl⟩ | ⟨-, rfl⟩
  · exact ⟨(applyMessage msg dev s).io.result, .inr ⟨_, .configure hi hc (.message msg dev), rfl⟩⟩
  · exact ⟨.ignored, .inl rfl⟩

theorem answers_of_datagram {d : List Byte} (hi : i.datagram = some d) (h : exec i s = .next t) : Answers i s t := by
  rw [exec_of_datagram hi] at h
  rcases receive_eq_next h with ⟨-, rfl⟩ | ⟨-, rfl⟩ | ⟨hl, u, hu, rfl⟩
  · exact ⟨.ignored, .inl rfl⟩
  · exact ⟨.noStep, .inl rfl⟩
  · exact ⟨.done, .inr ⟨u, .tx (by simp [hl]) (.arrive hi hl hu), rfl⟩⟩

theorem execCtlStart_answers {devOk : Bool} (h : execCtlStart devOk s = .next t) : Answers (.ctlStart devOk) s t := by
  unfold execCtlStart at h
  split at h
  · cases h
  next hl =>
  have hl := not_not.1 hl
  cases devOk with
  | true => exact answers_of_performs (.control (.start hl)) h
  | false => exact answers_of_performs (.control (.startFails hl)) h

theorem execCtlStop_answers (h : execCtlStop s = .next t) : Answers .ctlStop s t := by
  unfold execCtlStop at h
  split at h
  · next hl => exact answers_of_performs (.control (.stopStreaming hl)) h
  · next hl => exact answers_of_performs (.control (.stopCreated hl)) h
  · next hl => exact answers_of_performs (.control (.stopAgain (.inl hl))) h
  · next hl => exact answers_of_performs (.control (.stopAgain (.inr hl))) h

theorem execCtlDeverr_answers (h : execCtlDeverr s = .next t) : Answers .ctlDeverr s t := by
  unfold execCtlDeverr at h
  split at h
  · next hl => exact answers_of_performs (.control (.deviceError .deviceError nofun (by simp [hl]))) h
  · next hl => exact answers_of_performs (.control (.deviceError .deviceError nofun (by simp [hl]))) h
  · next hl => exact answers_of_performs (.control (.deviceError .startupError nofun (by simp [hl]))) h
  · exact answers_of_ret h

theorem execCfgWrite_answers {reg : Byte} {v : Nat} (h : execCfgWrite reg v s = .next t) :
    Answers (.cfgWrite reg v) s t := by
  unfold execCfgWrite at h
  split at h
  · exact answers_of_ret h
  next hc =>
  split at h
  · exact answers_of_ret h
  next r _ =>
  dsimp only at h
  split at h
  · next ha => exact answers_of_performs (.configure rfl (not_not.1 hc) (.write r v ha)) h
  · exact answers_of_ret h

theorem execCfgRead_answers {reg : Byte} (h : execCfgRead reg s = .next t) : Answers (.cfgRead reg) s t := by
  unfold execCfgRead at h
  split at h <;> exact answers_of_ret h

theorem execSbPush_answers {q : QueueId} {v : List Sample} (h : execSbPush q v s = .next t) :
    Answers (.sbPush q v) s t := by
  unfold execSbPush at h
  split at h
  · exact answers_of_ret h
  · exact answers_of_finish (fun _ hu => .queue (.push q v hu)) h

theorem execSbPull_answers {q : QueueId} (h : execSbPull q s = .next t) : Answers (.sbPull q) s t := by
  unfold execSbPull at h
  split at h
  · next hu => exact answers_of_performs (.queue (.pull q _ hu)) h
  · exact answers_of_ret h

theorem execDspReset_answers {half : Half} (h : execDspReset half s = .next t) : Answers (.dspReset half) s t := by
  cases half with
  | rx => exact answers_of_unlessStopped (fun hl h => answers_of_performs (.rx hl .clear) h) h
  | tx => exact answers_of_unlessStopped (fun hl h => answers_of_performs (.tx hl .clear) h) h

theorem execRxAdopt_answers (h : execRxAdopt s = .next t) : Answers .rxAdopt s t := by
  refine answers_of_unlessStopped (fun hl h => ?_) h
  split at h
  · next hd => exact answers_of_performs (.rx hl (.adopt hd)) h
  · exact answers_of_ret h

theorem execRxSample_answers {x : Sample} {wall : Wall} (h : execRxSample x wall s = .next t) :
    Answers (.rxSample x wall) s t :=
  answers_of_unlessStopped
    (fun hl h => answers_of_finish (fun _ hu => .rx hl (.sample s.rx.cur x wall (.inl rfl) hu)) h) h

theorem execPackFrame_answers {wall : Wall} (h : execPackFrame wall s = .next t) : Answers (.packFrame wall) s t := by
  refine answers_of_unlessStopped (fun hl h => answers_of_finish (fun u hu => ?_) h) h
  split at hu
  · next hf => exact .rx hl (.pack wall hf hu)
  · cases hu

/-- A step of the worker is a transition of the Rx half, or the drain transition. -/
theorem rxwStep_performs {now : U64} {wall : Wall} (h : rxwStep now wall s = .ok t) : Performs (.rxwStep now wall) s t := by
  obtain ⟨hr, h⟩ := rxwStep_ok h
  have hr : s.ctl.lifecycle = .streaming ∨ s.ctl.lifecycle = .draining := by simpa [workerRuns] using hr
  have hl : s.ctl.lifecycle ≠ .stopped := by rcases hr with h | h <;> simp [h]
  rcases h with ⟨-, h⟩ | ⟨-, x, rest, -, h⟩ | ⟨-, -, -, u, v, hp, rfl⟩ | ⟨he, -, -, -, rfl⟩
  · exact .rx hl (.send now h)
  · exact .rx hl (.sample rest x wall (.inr ⟨now, rfl⟩) h)
  · exact .rx hl (.refill v hp)
  · exact .control (.drain now wall hr he)

theorem execTxRetire_answers (h : execTxRetire s = .next t) : Answers .txRetire s t := by
  refine answers_of_finish (fun u hu => ?_) h
  split at hu
  · next hl => exact .tx (by simp [hl]) (.retire hl hu)
  · cases hu

theorem execFecDecode_answers {slots : List Slot} (h : execFecDecode slots s = .next t) : Answers (.fecDecode slots) s t := by
  unfold execFecDecode at h
  dsimp only at h
  split at h <;> exact answers_of_ret h

/-- Every next state of every operation. -/
theorem exec_performs (h : exec i s = .next t) : Answers i s t := by
  cases i with
  | ctlReset => exact answers_of_performs (.control .reset) h
  | ctlStart devOk => exact execCtlStart_answers h
  | ctlStop => exact execCtlStop_answers h
  | ctlDeverr => exact execCtlDeverr_answers h
  | cfgWrite reg value => exact execCfgWrite_answers h
  | cfgRead reg => exact execCfgRead_answers h
  | sbPush queue v => exact execSbPush_answers h
  | sbPull queue => exact execSbPull_answers h
  | sbEnd queue => exact answers_of_performs (.queue (.finish queue)) h
  | sbWaitfill queue n => exact answers_of_ret h
  | sbQueued queue => exact answers_of_ret h
  | decProcess x => exact answers_of_unlessStopped (fun hl h => answers_of_performs (.rx hl (.decimate x)) h) h
  | intProcess v => exact answers_of_unlessStopped (fun hl h => answers_of_performs (.tx hl (.interpolate v)) h) h
  | dspReset half => exact execDspReset_answers h
  | mixFs4 x => exact answers_of_unlessStopped (fun hl h => answers_of_performs (.rx hl (.mix x)) h) h
  | rxwStep now wall => exact answers_of_finish (fun _ hu => rxwStep_performs hu) h
  | rxAdopt => exact execRxAdopt_answers h
  | rxSample x wall => exact execRxSample_answers h
  | packFrame wall => exact execPackFrame_answers h
  | crc32 bytes => exact answers_of_ret h
  | netRecv d => exact answers_of_datagram rfl h
  | txAdopt => exact answers_of_unlessStopped (fun hl h => answers_of_performs (.tx hl .adopt) h) h
  | txRetire => exact execTxRetire_answers h
  | unpackExpand bodies b => exact answers_of_ret h
  | fecEncode data m => exact answers_of_ret h
  | fecDecode slots => exact execFecDecode_answers h
  | netSend now =>
    exact answers_of_unlessStopped (fun hl h => answers_of_finish (fun _ hu => .rx hl (.send now hu)) h) h
  | blkMeta fidx rsv body => exact answers_of_datagram rfl h
  | blkSample fidx b rsv body => exact answers_of_datagram rfl h
  | blkParity fidx b rsv body => exact answers_of_datagram rfl h
  | _ => exact answers_of_configure rfl h

end

/-! ### What each group leaves alone -/

theorem Configures.same {s t : State} (h : Configures s t) : SameButPending s t := by
  cases h with
  | write => exact ⟨rfl, rfl, rfl, rfl, rfl, rfl, rfl, rfl, rfl, rfl, rfl, rfl, rfl⟩
  | message msg dev => exact applyMessage_same msg dev s

/-- What two states have in common when only a queue moved: everything but the queues, the counters and the trace. -/
structure SameButQueues (s t : State) : Prop where
  params : t.params = s.params
  ctl : t.ctl = s.ctl
  cfg : t.cfg = s.cfg
  rx : t.rx = s.rx
  tx : t.tx = s.tx

theorem pullVec_same {q : QueueId} {v : List Sample} {s t : State} (h : pullVec q s = some (t, v)) : SameButQueues s t := by
  obtain ⟨-, ⟨rest, -, rfl⟩ | ⟨-, -, rfl, -⟩⟩ := pullVec_some h
  · exact ⟨by simp, by simp, by simp, by simp, by simp⟩
  · exact ⟨rfl, rfl, rfl, rfl, rfl⟩

theorem pushVec_same {q : QueueId} {v : List Sample} {s t : State} (h : pushVec q v s = .ok t) : SameButQueues s t := by
  obtain ⟨-, -, -, -, ⟨-, rfl⟩ | ⟨-, rfl⟩⟩ := pushVec_ok h
  · exact ⟨rfl, rfl, rfl, rfl, rfl⟩
  · exact ⟨by simp, by simp, by simp, by simp, by simp⟩

theorem QueueMove.same {s t : State} (h : QueueMove s t) : SameButQueues s t := by
  cases h with
  | push q v h => exact pushVec_same h
  | pull q v h => exact pullVec_same h
  | finish q => exact ⟨by simp, by simp, by simp, by simp, by simp⟩

/-- A pull of the worker writes the Rx half alone. -/
theorem pullVec_rxq_writes {v : List Sample} {s t : State} (h : pullVec .rxq s = some (t, v)) : t = s.withHalf .rx t := by
  obtain ⟨-, ⟨rest, -, rfl⟩ | ⟨-, -, rfl, -⟩⟩ := pullVec_some h <;> rfl

/-- The transitions of the Rx half write the Rx half. -/
theorem RxMove.writes {i : Instr} {s t : State} (h : RxMove i s t) : t = s.withHalf .rx t := by
  cases h with
  | sample cur x wall hi h =>
    have hw := (rxSample_local x wall { s with rx := { s.rx with cur := cur } }).writes h
    exact hw
  | pack wall hf h => exact (packFrame_local wall s).writes h
  | send now h => exact (netSend_local now s).writes h
  | refill v h =>
    conv_lhs => rw [pullVec_rxq_writes h]
    rfl
  | _ => rfl

/-- The transitions of the Tx half write the Tx half. -/
theorem TxMove.writes {i : Instr} {s t : State} (h : TxMove i s t) : t = s.withHalf .tx t := by
  cases h with
  | interpolate => rfl
  | clear => rfl
  | adopt => exact (txAdopt_local s).writes rfl
  | retire hl h => exact (txRetire_local s).writes h
  | arrive hi hl h => exact (netRecv_local _ s).writes h

section
variable {i : Instr} {s t : State}

theorem RxMove.ctl (h : RxMove i s t) : t.ctl = s.ctl := by rw [h.writes, State.withHalf_ctl]

theorem RxMove.params (h : RxMove i s t) : t.params = s.params := by rw [h.writes, State.withHalf_params]

theorem RxMove.tx (h : RxMove i s t) : t.tx = s.tx := by rw [h.writes, State.withHalf_rx_tx]

theorem RxMove.pending (h : RxMove i s t) : t.cfg.pending = s.cfg.pending := by rw [h.writes]; rfl

theorem RxMove.activeTx (h : RxMove i s t) : t.cfg.activeTx = s.cfg.activeTx := by rw [h.writes]; rfl

theorem RxMove.seqTx (h : RxMove i s t) : t.cfg.seqTx = s.cfg.seqTx := by rw [h.writes]; rfl

theorem TxMove.ctl (h : TxMove i s t) : t.ctl = s.ctl := by rw [h.writes, State.withHalf_ctl]

theorem TxMove.params (h : TxMove i s t) : t.params = s.params := by rw [h.writes, State.withHalf_params]

theorem TxMove.rx (h : TxMove i s t) : t.rx = s.rx := by rw [h.writes, State.withHalf_tx_rx]

theorem TxMove.pending (h : TxMove i s t) : t.cfg.pending = s.cfg.pending := by rw [h.writes]; rfl

theorem TxMove.activeRx (h : TxMove i s t) : t.cfg.activeRx = s.cfg.activeRx := by rw [h.writes]; rfl

theorem TxMove.seqRx (h : TxMove i s t) : t.cfg.seqRx = s.cfg.seqRx := by rw [h.writes]; rfl

end

/-! ### One induction for every invariant -/

/-- `P` depends neither on what is offered nor on what an operation returned. -/
structure IgnoresPorts (P : State → Prop) : Prop where
  ret : ∀ (s : State) (r : Result), P s → P (s.ret r)
  withInbox : ∀ (s : State) (l : List Transaction), P s → P (s.withInbox l)

/-- Every next state of a step: nothing was offered, or the oldest transaction was performed. -/
theorem step_eq_next {s t : State} (h : step s = .next t) :
    t = s ∨ ∃ (i : Instr) (rest : List Transaction), exec i (s.withInbox rest) = .next t := by
  unfold step at h
  split at h
  · exact .inl (Host.Outcome.next.inj h).symm
  next rest _ =>
  split at h
  · next i _ => exact .inr ⟨i, rest, h⟩
  · cases h

/-- What every transition keeps, a step keeps. -/
theorem step_keeps {P : State → Prop} (hports : IgnoresPorts P) (hP : ∀ {i s t}, P s → Performs i s t → P t) {s t : State}
    (hs : P s) (h : step s = .next t) : P t := by
  obtain rfl | ⟨i, rest, h⟩ := step_eq_next h
  · exact hs
  have hs' : P (s.withInbox rest) := hports.withInbox s rest hs
  obtain ⟨r, rfl | ⟨u, hu, rfl⟩⟩ := exec_performs h
  · exact hports.ret _ r hs'
  · exact hports.ret u r (hP hs' hu)

end Sys2Proof.Machine
end

section
/-! PROOFS. The trace of errors and the counters move together (O58, rules R43, R330, R340). -/

namespace Sys2Proof.Machine

/-- The counter of an error kind (rule R330, column "recorded"). -/
def Counters.ofKind (c : Counters) : Nat → U32
  | 4 => c.overrun
  | 5 => c.lost
  | 6 => c.crc
  | 7 => c.insuff
  | 8 => c.proto
  | 9 => c.badMeta
  | _ => 0

/-- How many events of a trace are of a kind. -/
def eventsOf (kind : Nat) (l : List ErrorEvent) : Nat := (l.filter fun e => e.code = kind).length

@[simp] theorem eventsOf_nil (kind : Nat) : eventsOf kind [] = 0 := rfl

theorem eventsOf_append (kind : Nat) (l l' : List ErrorEvent) :
    eventsOf kind (l ++ l') = eventsOf kind l + eventsOf kind l' := by
  simp [eventsOf]

/-- From `s` to `t` the events `new` were raised: the trace takes them, and each counter of rule R43 that counts a kind moves by
their number. -/
structure Records (new : List ErrorEvent) (s t : State) : Prop where
  errors : t.io.errors = s.io.errors ++ new
  counts : ∀ kind, 4 ≤ kind → kind ≤ 9 → t.cnt.ofKind kind = s.cnt.ofKind kind + BitVec.ofNat 32 (eventsOf kind new)

theorem Records.trans {new new' : List ErrorEvent} {s t u : State} (h : Records new s t) (k : Records new' t u) :
    Records (new ++ new') s u where
  errors := by rw [k.errors, h.errors, List.append_assoc]
  counts kind h4 h9 := by
    rw [k.counts kind h4 h9, h.counts kind h4 h9, eventsOf_append, BitVec.ofNat_add, BitVec.add_assoc]

/-- `raise` records its one event (rule R340). -/
theorem records_raise (e : ErrorEvent) (s : State) : Records [e] s (raise e s) where
  errors := rfl
  counts kind h4 h9 := by interval_cases kind <;> cases e <;> simp [Counters.record, Counters.ofKind, eventsOf, ErrorEvent.code]

/-- Where neither the trace nor a counter of an error kind moved. -/
theorem records_nil {s t : State} (he : t.io.errors = s.io.errors) (hc : ∀ kind, t.cnt.ofKind kind = s.cnt.ofKind kind) :
    Records [] s t where
  errors := by rw [he, List.append_nil]
  counts kind _ _ := by rw [hc kind]; simp

/-- As many lost frames as causes of a loss (rule R43). -/
def LossesMatch (new : List ErrorEvent) : Prop := eventsOf 5 new = eventsOf 6 new + eventsOf 7 new + eventsOf 9 new

/-- Some events were raised from `s` to `t`, each counted, each lost frame with its cause. -/
def CountsErrors (s t : State) : Prop := ∃ new, Records new s t ∧ LossesMatch new

theorem CountsErrors.trans {s t u : State} (h : CountsErrors s t) (k : CountsErrors t u) : CountsErrors s u := by
  obtain ⟨new, hr, hm⟩ := h
  obtain ⟨new', hr', hm'⟩ := k
  refine ⟨new ++ new', hr.trans hr', ?_⟩
  unfold LossesMatch at *
  simp only [eventsOf_append]
  omega

theorem countsErrors_of_eq {s t : State} (he : t.io.errors = s.io.errors)
    (hc : ∀ kind, t.cnt.ofKind kind = s.cnt.ofKind kind) : CountsErrors s t :=
  ⟨[], records_nil he hc, rfl⟩

theorem CountsErrors.refl (s : State) : CountsErrors s s := countsErrors_of_eq rfl fun _ => rfl

section
variable {s t u : State}

theorem CountsErrors.of_eq (h : CountsErrors t u) (he : t.io.errors = s.io.errors)
    (hc : ∀ kind, t.cnt.ofKind kind = s.cnt.ofKind kind) : CountsErrors s u :=
  (countsErrors_of_eq he hc).trans h

theorem CountsErrors.to_eq (h : CountsErrors s t) (he : u.io.errors = t.io.errors)
    (hc : ∀ kind, u.cnt.ofKind kind = t.cnt.ofKind kind) : CountsErrors s u :=
  h.trans (countsErrors_of_eq he hc)

end

/-- An event that is neither a lost frame nor the cause of one. -/
theorem countsErrors_raise {e : ErrorEvent} (he : e.code ∈ [1, 3, 4, 8]) (s : State) : CountsErrors s (raise e s) := by
  refine ⟨[e], records_raise e s, ?_⟩
  cases e <;> simp [LossesMatch, eventsOf, ErrorEvent.code] at he ⊢

/-- A lost frame with its cause (rule R211). -/
theorem countsErrors_raise_frameLoss {cause : ErrorEvent} (hc : cause.code ∈ [6, 7, 9]) (f : U16) (s : State) :
    CountsErrors s (raise (.frameLoss f) (raise cause s)) := by
  refine ⟨[cause] ++ [.frameLoss f], (records_raise cause s).trans (records_raise _ _), ?_⟩
  cases cause <;> simp [LossesMatch, eventsOf, ErrorEvent.code] at hc ⊢

/-! ### The sample buffers -/

theorem overrunCheck_countsErrors (q : QueueId) (s : State) : CountsErrors s (overrunCheck q s) := by
  rw [overrunCheck_eq]
  have hset : ∀ x, CountsErrors s (s.setQueue q x) := fun x => countsErrors_of_eq (by simp) fun _ => by simp
  split
  · exact (hset _).trans (countsErrors_raise (by simp [ErrorEvent.code]) _)
  · exact hset _

theorem pushVec_countsErrors {q : QueueId} {v : List Sample} {s t : State} (h : pushVec q v s = .ok t) :
    CountsErrors s t := by
  obtain ⟨-, -, -, -, ⟨-, rfl⟩ | ⟨-, rfl⟩⟩ := pushVec_ok h
  · exact .refl t
  · exact (overrunCheck_countsErrors q _).of_eq (by simp) fun _ => by simp

theorem QueueMove.countsErrors {s t : State} (h : QueueMove s t) : CountsErrors s t := by
  cases h with
  | push q v h => exact pushVec_countsErrors h
  | pull q v h =>
    obtain ⟨-, ⟨rest, -, rfl⟩ | ⟨-, -, rfl, -⟩⟩ := pullVec_some h
    · exact countsErrors_of_eq (by simp) fun _ => by simp
    · exact .refl t
  | finish q => exact countsErrors_of_eq (by simp) fun _ => by simp

/-! ### The Tx half -/

theorem deliver_countsErrors {v : List Sample} {s t : State} (h : deliver v s = .ok t) : CountsErrors s t :=
  (pushVec_countsErrors (deliver_ok h).1).of_eq rfl fun _ => rfl

theorem loseFrame_countsErrors {cause : ErrorEvent} (hc : cause.code ∈ [6, 7, 9]) {f : U16} {s t : State}
    (h : loseFrame cause f s = .ok t) : CountsErrors s t :=
  (countsErrors_raise_frameLoss hc f s).trans (deliver_countsErrors h)

theorem acceptFrame_countsErrors {m : List Byte} {data : List (List Byte)} {s t : State}
    (h : acceptFrame m data s = .ok t) : CountsErrors s t :=
  (deliver_countsErrors h).of_eq rfl fun _ => rfl

theorem settleHead_countsErrors {s t : State} (h : settleHead s = .ok t) : CountsErrors s t := by
  rcases settleHead_cases h with ⟨-, h⟩ | ⟨e, -, -, ⟨-, h⟩ | ⟨-, -, -, h⟩ | ⟨-, -, h⟩⟩
  · exact loseFrame_countsErrors (by simp [ErrorEvent.code]) h
  · exact loseFrame_countsErrors (by simp [ErrorEvent.code]) h
  · exact loseFrame_countsErrors (by simp [ErrorEvent.code]) h
  · exact acceptFrame_countsErrors h

theorem txRetire_countsErrors {s t : State} (h : txRetire s = .ok t) : CountsErrors s t := by
  obtain ⟨u, hu, -, rfl⟩ := txRetire_ok h
  exact (settleHead_countsErrors hu).to_eq rfl fun _ => rfl

/-- What the parts of an arrival behind the adoption keep, the arrival keeps (rule R200). -/
theorem netRecv_keeps {P : State → Prop} (hdrop : ∀ {s} e, e = .protocolLength ∨ e = .protocolHeader → P s → P (raise e s))
    (hsync : ∀ {s} f, P s → P (synchronise f s))
    (hlate : ∀ {s}, P s → P { s with cnt := { s.cnt with late := s.cnt.late + 1 } })
    (hstore : ∀ {s t f b body}, P s → storeSlot f b body s = .ok t → P t)
    (hretire : ∀ {s t}, P s → txRetire s = .ok t → P t) {d : List Byte} {s t : State} (hs : P (txAdopt s))
    (h : netRecv d s = .ok t) : P t := by
  rcases netRecv_ok h with ⟨-, rfl⟩ | ⟨-, -, rfl⟩ | ⟨-, -, h⟩
  · exact hdrop _ (.inl rfl) hs
  · exact hdrop _ (.inr rfl) hs
  have hs := hsync (le16 d 0) hs
  rcases acceptBlock_ok h with ⟨-, rfl⟩ | ⟨-, u, v, hu, hv, h⟩
  · exact hlate hs
  · exact deliverComplete_keeps hretire (hstore (evict_keeps hretire hs hu) hv) h

theorem storeSlot_countsErrors {f : U16} {b : Nat} {body : List Byte} {s t : State} (h : storeSlot f b body s = .ok t) :
    CountsErrors s t := by
  rcases storeSlot_ok h with ⟨-, rfl⟩ | ⟨-, -, rfl⟩ <;> exact countsErrors_of_eq rfl fun _ => rfl

theorem netRecv_countsErrors {d : List Byte} {s t : State} (h : netRecv d s = .ok t) : CountsErrors s t := by
  refine netRecv_keeps (P := CountsErrors s) (fun e he hs => ?_) (fun f hs => ?_) (fun hs => ?_) (fun hs h => ?_)
    (fun hs h => ?_) ?_ h
  · exact hs.trans (countsErrors_raise (by rcases he with rfl | rfl <;> simp [ErrorEvent.code]) _)
  · exact hs.to_eq (by simp) fun _ => by simp
  · exact hs.to_eq rfl fun _ => rfl
  · exact hs.trans (storeSlot_countsErrors h)
  · exact hs.trans (txRetire_countsErrors h)
  · exact countsErrors_of_eq (by simp) fun _ => by simp

theorem TxMove.countsErrors {i : Instr} {s t : State} (h : TxMove i s t) : CountsErrors s t := by
  cases h with
  | interpolate v => exact countsErrors_of_eq rfl fun _ => rfl
  | clear => exact countsErrors_of_eq rfl fun _ => rfl
  | adopt => exact countsErrors_of_eq (by simp) fun _ => by simp
  | retire hl h => exact txRetire_countsErrors h
  | arrive hi hl h => exact netRecv_countsErrors h

/-! ### The other transitions -/

/-- The Rx half raises nothing. -/
theorem RxMove.countsErrors {i : Instr} {s t : State} (h : RxMove i s t) : CountsErrors s t := by
  rw [h.writes]; exact countsErrors_of_eq rfl fun _ => rfl

theorem Configures.countsErrors {s t : State} (h : Configures s t) : CountsErrors s t := by
  cases h with
  | write => exact countsErrors_of_eq rfl fun _ => rfl
  | message msg dev =>
    rcases applyMessage_cases msg dev s with ⟨r, h⟩ | ⟨items, -, h⟩
    · rw [h]
      exact (countsErrors_raise (by simp [ErrorEvent.code]) s).to_eq rfl fun _ => rfl
    · rw [h]
      unfold applyItems
      dsimp only
      split <;> exact countsErrors_of_eq rfl fun _ => rfl

/-- `CTL.RESET` and the successful `CTL.START` put the counters back (rules R300, R301). -/
def ClearsCounters (i : Instr) (t : State) : Prop := (i = .ctlReset ∨ i = .ctlStart true) ∧ t.cnt = Counters.zero

theorem ControlMove.countsErrors {i : Instr} {s t : State} (h : ControlMove i s t) :
    CountsErrors s t ∨ ClearsCounters i t := by
  cases h with
  | reset => exact .inr ⟨.inl rfl, rfl⟩
  | start => exact .inr ⟨.inr rfl, rfl⟩
  | startFails => exact .inl ((countsErrors_raise (by simp [ErrorEvent.code]) _).of_eq rfl fun _ => rfl)
  | deviceError => exact .inl ((countsErrors_raise (by simp [ErrorEvent.code]) _).of_eq rfl fun _ => rfl)
  | _ => exact .inl (countsErrors_of_eq rfl fun _ => rfl)

theorem Performs.countsErrors {i : Instr} {s t : State} (h : Performs i s t) : CountsErrors s t ∨ ClearsCounters i t := by
  cases h with
  | control h => exact h.countsErrors
  | configure _ _ h => exact .inl h.countsErrors
  | queue h => exact .inl h.countsErrors
  | rx _ h => exact .inl h.countsErrors
  | tx _ h => exact .inl h.countsErrors

theorem exec_countsErrors {i : Instr} {s t : State} (h : exec i s = .next t) (h1 : i ≠ .ctlReset) (h2 : i ≠ .ctlStart true) :
    CountsErrors s t := by
  obtain ⟨r, rfl | ⟨u, hu, rfl⟩⟩ := exec_performs h
  · exact countsErrors_of_eq rfl fun _ => rfl
  rcases hu.countsErrors with hu | ⟨hi | hi, -⟩
  · exact hu.to_eq rfl fun _ => rfl
  · exact absurd hi h1
  · exact absurd hi h2

theorem exec_clears_counters {i : Instr} {s t : State} (hi : i = .ctlReset ∨ i = .ctlStart true) (h : exec i s = .next t) :
    t.io.errors = s.io.errors ∧ t.cnt = Counters.zero := by
  rcases hi with rfl | rfl
  · cases h; exact ⟨rfl, rfl⟩
  · change execCtlStart true s = .next t at h
    unfold execCtlStart at h
    split at h
    · cases h
    · cases h; exact ⟨rfl, rfl⟩

end Sys2Proof.Machine

namespace Sys2Proof

/-- Settles O58: every transition records the events it raises, and recording composes. -/
theorem errorsAreCounted : Obligations.ErrorsAreCounted := by
  intro i s t h
  refine ⟨fun hi => Machine.exec_clears_counters hi h, fun h1 h2 => ?_⟩
  obtain ⟨new, hr, -⟩ := Machine.exec_countsErrors h h1 h2
  have hc := hr.counts
  exact ⟨new, hr.errors, hc 4 (by decide) (by decide), hc 5 (by decide) (by decide), hc 6 (by decide) (by decide),
    hc 7 (by decide) (by decide), hc 8 (by decide) (by decide), hc 9 (by decide) (by decide)⟩

end Sys2Proof
end

section
/-! PROOFS. The lifecycle registers: their arrows and the silence of `Stopped` (O11), and their agreement with the counters of
lost frames (O56). -/

namespace Sys2Proof.Machine

section
variable {i : Instr} {s t : State}

/-- Of all transitions only those of the lifecycle operations move the lifecycle registers. -/
theorem Performs.ctl (h : Performs i s t) : ControlMove i s t ∨ t.ctl = s.ctl := by
  cases h with
  | control h => exact .inl h
  | configure _ _ h => exact .inr h.same.ctl
  | queue h => exact .inr h.same.ctl
  | rx _ h => exact .inr h.ctl
  | tx _ h => exact .inr h.ctl

/-! ### The arrows -/

/-- The arrows of `LIFECYCLE` (rules R300 to R305). -/
theorem ControlMove.arrow (h : ControlMove i s t) (hne : t.ctl.lifecycle ≠ s.ctl.lifecycle) :
    (i = .ctlReset ∧ t.ctl.lifecycle = .created) ∨
      (∃ devOk, i = .ctlStart devOk ∧ s.ctl.lifecycle = .created ∧
        t.ctl.lifecycle = if devOk then .streaming else .stopped) ∨
      (i = .ctlStop ∧ s.ctl.lifecycle = .streaming ∧ t.ctl.lifecycle = .draining) ∨
      (i = .ctlStop ∧ s.ctl.lifecycle = .created ∧ t.ctl.lifecycle = .stopped) ∨
      (∃ now wall, i = .rxwStep now wall ∧ (s.ctl.lifecycle = .streaming ∨ s.ctl.lifecycle = .draining) ∧
        t.ctl.lifecycle = .stopped) ∨
      (i = .ctlDeverr ∧ s.ctl.lifecycle ≠ .stopped ∧ t.ctl.lifecycle = .stopped) := by
  cases h with
  | reset => exact .inl ⟨rfl, rfl⟩
  | start hl => exact .inr (.inl ⟨true, rfl, hl, rfl⟩)
  | startFails hl => exact .inr (.inl ⟨false, rfl, hl, rfl⟩)
  | stopStreaming hl => exact .inr (.inr (.inl ⟨rfl, hl, rfl⟩))
  | stopCreated hl => exact .inr (.inr (.inr (.inl ⟨rfl, hl, rfl⟩)))
  | stopAgain => exact absurd rfl hne
  | drain now wall hl => exact .inr (.inr (.inr (.inr (.inl ⟨now, wall, rfl, hl, rfl⟩))))
  | deviceError cause _ hl => exact .inr (.inr (.inr (.inr (.inr ⟨rfl, hl, rfl⟩))))

/-! ### `Stopped` -/

theorem execTxRetire_of_stopped (hl : s.ctl.lifecycle = .stopped) : execTxRetire s = .next (s.ret .noStep) := by
  simp [execTxRetire, hl]

theorem execRxwStep_of_stopped (hl : s.ctl.lifecycle = .stopped) (now : U64) (wall : Wall) :
    execRxwStep now wall s = .next (s.ret .noStep) := by
  simp [execRxwStep, rxwStep, workerRuns, hl]

theorem execDspReset_of_stopped (hl : s.ctl.lifecycle = .stopped) (half : Half) :
    execDspReset half s = .next (s.ret .noStep) := by
  cases half <;> exact unlessStopped_of_stopped hl _

/-- The internal operations, which rule R344 does not accept in `Stopped`. -/
theorem exec_waits_of_stopped (hl : s.ctl.lifecycle = .stopped)
    (hi : i = .rxAdopt ∨ i = .txAdopt ∨ i = .txRetire ∨ (∃ half, i = .dspReset half) ∨ (∃ x, i = .mixFs4 x) ∨
      (∃ x, i = .decProcess x) ∨ (∃ v, i = .intProcess v) ∨ (∃ x wall, i = .rxSample x wall) ∨ (∃ wall, i = .packFrame wall) ∨
      (∃ now, i = .netSend now) ∨ ∃ now wall, i = .rxwStep now wall) :
    exec i s = .next (s.ret .noStep) := by
  have hwait : ∀ o, unlessStopped s o = .next (s.ret .noStep) := unlessStopped_of_stopped hl
  rcases hi with rfl | rfl | rfl | ⟨half, rfl⟩ | ⟨x, rfl⟩ | ⟨x, rfl⟩ | ⟨v, rfl⟩ | ⟨x, wall, rfl⟩ | ⟨wall, rfl⟩ | ⟨now, rfl⟩ |
    ⟨now, wall, rfl⟩
  · exact hwait _
  · exact hwait _
  · exact execTxRetire_of_stopped hl
  · exact execDspReset_of_stopped hl half
  · exact hwait _
  · exact hwait _
  · exact hwait _
  · exact hwait _
  · exact hwait _
  · exact hwait _
  · exact execRxwStep_of_stopped hl now wall

/-- What moves in `Stopped` until `CTL.RESET`: the queues, `stop_flag` and the returned value. -/
def MovesInStopped (s t : State) : Prop :=
  ∃ (rxq txq : SampleQueue) (flag : Bool) (r : Result),
    t = { s with rxq := rxq, txq := txq, ctl.stopFlag := flag, io.result := r }

theorem movesInStopped_ret {u : State} {r : Result} (h : MovesInStopped s u) : MovesInStopped s (u.ret r) := by
  obtain ⟨rxq, txq, flag, r', rfl⟩ := h
  exact ⟨rxq, txq, flag, r, rfl⟩

theorem movesInStopped_setQueue (s : State) (q : QueueId) (x : SampleQueue) : MovesInStopped s (s.setQueue q x) := by
  cases q <;> exact ⟨_, _, s.ctl.stopFlag, s.io.result, rfl⟩

theorem QueueMove.movesInStopped (hl : s.ctl.lifecycle = .stopped) (h : QueueMove s t) : MovesInStopped s t := by
  cases h with
  | push q v h => have hs := (pushVec_ok h).1; rw [hl] at hs; cases hs
  | pull q v h =>
    obtain ⟨-, ⟨rest, -, rfl⟩ | ⟨-, -, rfl, -⟩⟩ := pullVec_some h
    · cases q <;> exact ⟨_, _, s.ctl.stopFlag, s.io.result, rfl⟩
    · exact ⟨t.rxq, t.txq, t.ctl.stopFlag, t.io.result, rfl⟩
  | finish q => exact movesInStopped_setQueue s q _

theorem Performs.movesInStopped (hl : s.ctl.lifecycle = .stopped) (hi : i ≠ .ctlReset) (h : Performs i s t) :
    MovesInStopped s t := by
  cases h with
  | control h =>
    cases h with
    | reset => exact absurd rfl hi
    | stopAgain => exact ⟨s.rxq, s.txq, true, s.io.result, rfl⟩
    | start hs => rw [hl] at hs; cases hs
    | startFails hs => rw [hl] at hs; cases hs
    | stopStreaming hs => rw [hl] at hs; cases hs
    | stopCreated hs => rw [hl] at hs; cases hs
    | deviceError _ _ hne => exact absurd hl hne
    | drain _ _ hs => rw [hl] at hs; rcases hs with hs | hs <;> cases hs
  | configure _ hc _ => simp [configurable, hl] at hc
  | queue h => exact h.movesInStopped hl
  | rx hne _ => exact absurd hl hne
  | tx hne _ => exact absurd hl hne

/-! ### Agreement of the registers -/

/-- `stop_flag` and `STOP_CAUSE` follow `LIFECYCLE`. -/
theorem stopSound_iff {s : State} :
    s.stopSound = true ↔
      (s.ctl.stopFlag = true ↔ s.ctl.lifecycle = .draining ∨ s.ctl.lifecycle = .stopped) ∧
        (s.ctl.stopCause = .none ↔ s.ctl.lifecycle = .created ∨ s.ctl.lifecycle = .streaming) := by
  simp only [State.stopSound, Bool.and_eq_true, decide_eq_true_eq]

theorem drainTransition_stopCause_ne (s : State) : (drainTransition s).ctl.stopCause ≠ .none := by
  change (if (endQueue .txq s).ctl.stopCause = .none then StopCause.endOfStream else (endQueue .txq s).ctl.stopCause) ≠ .none
  split
  · simp
  · assumption

theorem ControlMove.stopSound (hs : s.stopSound = true) (h : ControlMove i s t) : t.stopSound = true := by
  rw [stopSound_iff] at hs ⊢
  cases h with
  | reset => simp [State.initial]
  | start hl => simp_all [startStream]
  | startFails => simp
  | stopStreaming => simp
  | stopCreated => simp
  | stopAgain hl => rcases hl with hl | hl <;> simp_all
  | deviceError cause hc => simp [deviceStop, hc]
  | drain => exact ⟨by simp [drainTransition], iff_of_false (drainTransition_stopCause_ne s) (by simp [drainTransition])⟩

/-- `CNT_LOST` stays the sum of its causes where every lost frame is counted with its cause. -/
theorem CountsErrors.lossesAddUp (h : CountsErrors s t) (hs : s.lossesAddUp = true) : t.lossesAddUp = true := by
  obtain ⟨new, hr, hm⟩ := h
  have hlost : t.cnt.lost = s.cnt.lost + BitVec.ofNat 32 (eventsOf 5 new) := hr.counts 5 (by decide) (by decide)
  have hcrc : t.cnt.crc = s.cnt.crc + BitVec.ofNat 32 (eventsOf 6 new) := hr.counts 6 (by decide) (by decide)
  have hinsuff : t.cnt.insuff = s.cnt.insuff + BitVec.ofNat 32 (eventsOf 7 new) := hr.counts 7 (by decide) (by decide)
  have hmeta : t.cnt.badMeta = s.cnt.badMeta + BitVec.ofNat 32 (eventsOf 9 new) := hr.counts 9 (by decide) (by decide)
  simp only [State.lossesAddUp, decide_eq_true_eq] at hs ⊢
  unfold LossesMatch at hm
  rw [hlost, hcrc, hinsuff, hmeta, hs, hm, BitVec.ofNat_add, BitVec.ofNat_add]
  ring

theorem Performs.lossesAddUp (hs : s.lossesAddUp = true) (h : Performs i s t) : t.lossesAddUp = true := by
  rcases h.countsErrors with h | ⟨-, hz⟩
  · exact h.lossesAddUp hs
  · simp [State.lossesAddUp, hz, Counters.zero]

theorem controlSound_iff {s : State} : s.controlSound = true ↔ s.stopSound = true ∧ s.lossesAddUp = true := by
  simp only [State.controlSound, Bool.and_eq_true]

theorem Performs.controlSound (hs : s.controlSound = true) (h : Performs i s t) : t.controlSound = true := by
  rw [controlSound_iff] at hs ⊢
  refine ⟨?_, h.lossesAddUp hs.2⟩
  rcases h.ctl with h | h
  · exact h.stopSound hs.1
  · rw [stopSound_iff, h, ← stopSound_iff]
    exact hs.1

end

end Sys2Proof.Machine

namespace Sys2Proof

/-- Settles O56: the lifecycle transitions keep the stop registers in agreement, and a lost frame is counted with its cause. -/
theorem stepKeepsControlSound : Obligations.StepKeepsControlSound := by
  intro s t hs h
  exact Machine.step_keeps (P := fun s => s.controlSound = true) ⟨fun _ _ h => h, fun _ _ h => h⟩
    (fun hs h => h.controlSound hs) hs h

/-- Settles O11: the arrows are those of the lifecycle transitions, and of all transitions only those of the queues, `stop_flag`
and `CTL.RESET` are enabled in `Stopped`. -/
theorem lifecycleArrows : Obligations.LifecycleArrows := by
  refine ⟨fun i s hl hi => Machine.exec_waits_of_stopped hl hi, fun i s t hl hi h => ?_, fun i s t h hne => ?_⟩
  · obtain ⟨r, rfl | ⟨u, hu, rfl⟩⟩ := Machine.exec_performs h
    · exact ⟨s.rxq, s.txq, s.ctl.stopFlag, r, rfl⟩
    · exact Machine.movesInStopped_ret (hu.movesInStopped hl hi)
  · obtain ⟨r, rfl | ⟨u, hu, rfl⟩⟩ := Machine.exec_performs h
    · exact absurd rfl hne
    rcases hu.ctl with hu | hu
    · exact hu.arrow hne
    · exact absurd (congrArg Machine.Control.lifecycle hu) hne

end Sys2Proof
end

section
/-! PROOFS. The active banks and the frame's width change at the adoption points only (O32, rules R31, R71, R172, R201). -/

namespace Sys2Proof.Machine

/-! ### The parts of the Rx half -/

/-- The decimator writes its own lines and the mixer's phase, and nothing else of the Rx half. -/
theorem decProcess_writes (p : Params) (b : Bank) (x : Sample) (h : RxHalf) :
    ∃ phase dec, (decProcess p b x h).1 = { h with mixPhase := phase, dec := dec } := by
  unfold decProcess
  split
  · exact ⟨_, _, rfl⟩
  · exact ⟨_, _, rfl⟩

@[simp] theorem decProcess_frameBps (p : Params) (b : Bank) (x : Sample) (h : RxHalf) :
    (decProcess p b x h).1.frameBps = h.frameBps := by
  obtain ⟨_, _, hd⟩ := decProcess_writes p b x h; rw [hd]

theorem packFrame_cfg {wall : Wall} {s t : State} (h : packFrame wall s = .ok t) : t.cfg = s.cfg := by
  obtain ⟨fb, -, rfl⟩ := packFrame_ok h; rfl

theorem packFrame_frameBps {wall : Wall} {s t : State} (h : packFrame wall s = .ok t) :
    t.rx.frameBps = s.rx.frameBps := by
  obtain ⟨fb, -, rfl⟩ := packFrame_ok h; rfl

/-- The store of a sample leaves the banks and the frame's width. -/
theorem storeSample_width {y : Sample} {wall : Wall} {s t : State} (h : storeSample y wall s = .ok t) :
    t.cfg = s.cfg ∧ t.rx.frameBps = s.rx.frameBps := by
  have h := storeSample_ok h
  dsimp only at h
  obtain ⟨-, -, h⟩ := h
  split at h
  · have hc := packFrame_cfg h
    have hb := packFrame_frameBps h
    exact ⟨hc, hb⟩
  · subst h; exact ⟨rfl, rfl⟩

/-- Behind the start of its frame a sample leaves the banks and the frame's width. -/
theorem rxSample_width {x : Sample} {wall : Wall} {s t : State} (h : rxSample x wall s = .ok t) :
    t.cfg = (beginFrame s).cfg ∧ t.rx.frameBps = (beginFrame s).rx.frameBps := by
  obtain ⟨-, ⟨-, rfl⟩ | ⟨y, -, h⟩⟩ := rxSample_ok h
  · exact ⟨rfl, decProcess_frameBps _ _ _ _⟩
  · obtain ⟨hc, hb⟩ := storeSample_width h
    exact ⟨hc, hb.trans (decProcess_frameBps _ _ _ _)⟩

/-- Inside a frame nothing is adopted (rule R172). -/
theorem beginFrame_of_ne {s : State} (h : s.rx.accCount ≠ 0) : beginFrame s = s := if_neg h

/-- At a frame's first sample the bank is the pending one, or no update was waiting (rule R172). -/
theorem beginFrame_adopts {s : State} (h : s.rx.accCount = 0) :
    (beginFrame s).cfg.seqRx = s.cfg.seqP ∧
      ((beginFrame s).cfg.activeRx = s.cfg.pending ∨
        s.cfg.seqRx = s.cfg.seqP ∧ (beginFrame s).cfg.activeRx = s.cfg.activeRx) := by
  unfold beginFrame
  rw [if_pos h]
  dsimp only
  split
  · exact ⟨rfl, .inl rfl⟩
  · next hs => exact ⟨not_not.1 hs, .inr ⟨not_not.1 hs, rfl⟩⟩

section
variable {i : Instr} {s t : State}

/-- The active Rx bank and the frame's width before and after an operation `i`. -/
def KeepsRxBank (s t : State) : Prop :=
  t.cfg.activeRx = s.cfg.activeRx ∧ t.cfg.seqRx = s.cfg.seqRx ∧ t.rx.frameBps = s.rx.frameBps

/-- An adoption of the Rx half at a frame boundary (rules R71, R172). -/
def AdoptsRxBank (i : Instr) (s t : State) : Prop :=
  s.rx.accCount = 0 ∧ s.rx.emitting = false ∧ t.cfg.seqRx = s.cfg.seqP ∧
    (t.cfg.activeRx = s.cfg.pending ∨ s.cfg.seqRx = s.cfg.seqP ∧ t.cfg.activeRx = s.cfg.activeRx) ∧
    (i = .rxAdopt ∨ (∃ x wall, i = .rxSample x wall) ∨ ∃ now wall, i = .rxwStep now wall)

/-- The active Tx bank before and after an operation. -/
def KeepsTxBank (s t : State) : Prop := t.cfg.activeTx = s.cfg.activeTx ∧ t.cfg.seqTx = s.cfg.seqTx

/-- An adoption of the Tx half where an update waits (rule R201). -/
def AdoptsTxBank (i : Instr) (s t : State) : Prop :=
  s.cfg.seqTx ≠ s.cfg.seqP ∧ t.cfg.activeTx = s.cfg.pending ∧ t.cfg.seqTx = s.cfg.seqP ∧
    (i = .txAdopt ∨ ∃ d, i.datagram = some d)

theorem rxMustAdopt_iff : rxMustAdopt s = true ↔ s.rx.accCount = 0 ∧ s.rx.emitting = false ∧ s.cfg.seqRx ≠ s.cfg.seqP := by
  simp [rxMustAdopt, atBoundary, and_assoc]

theorem rxSample_adopts {x : Sample} {wall : Wall}
    (hi : i = .rxAdopt ∨ (∃ x wall, i = .rxSample x wall) ∨ ∃ now wall, i = .rxwStep now wall)
    (h : rxSample x wall s = .ok t) : KeepsRxBank s t ∨ AdoptsRxBank i s t := by
  obtain ⟨hc, hb⟩ := rxSample_width h
  by_cases ha : s.rx.accCount = 0
  · obtain ⟨hseq, hbank⟩ := beginFrame_adopts ha
    rw [← hc] at hseq hbank
    exact .inr ⟨ha, (rxSample_ok h).1, hseq, hbank, hi⟩
  · rw [beginFrame_of_ne ha] at hc hb
    exact .inl ⟨by rw [hc], by rw [hc], hb⟩

theorem RxMove.rxBank (h : RxMove i s t) : KeepsRxBank s t ∨ AdoptsRxBank i s t := by
  cases h with
  | decimate x => exact .inl ⟨rfl, rfl, decProcess_frameBps _ _ _ _⟩
  | mix x => exact .inl ⟨rfl, rfl, rfl⟩
  | clear => exact .inl ⟨rfl, rfl, rfl⟩
  | adopt hd =>
    obtain ⟨ha, he, -⟩ := rxMustAdopt_iff.1 hd
    exact .inr ⟨ha, he, rfl, .inl rfl, .inl rfl⟩
  | sample cur x wall hi h =>
    have hi : i = .rxAdopt ∨ (∃ x wall, i = .rxSample x wall) ∨ ∃ now wall, i = .rxwStep now wall := by
      rcases hi with hi | ⟨now, hi⟩
      · exact .inr (.inl ⟨x, wall, hi⟩)
      · exact .inr (.inr ⟨now, wall, hi⟩)
    exact rxSample_adopts (s := { s with rx := { s.rx with cur := cur } }) hi h
  | pack wall hf h =>
    have hc := packFrame_cfg h
    exact .inl ⟨by rw [hc], by rw [hc], packFrame_frameBps h⟩
  | send now h =>
    obtain ⟨-, -, rfl⟩ := netSend_ok h
    exact .inl ⟨rfl, rfl, rfl⟩
  | refill v h =>
    have hs := pullVec_same h
    exact .inl ⟨by rw [hs.cfg], by rw [hs.cfg], by rw [hs.rx]⟩

/-! ### The Tx half -/

/-- `TX.ADOPT` copies the pending bank where an update waits, and does nothing elsewhere (rule R201). -/
theorem txAdopt_txBank (hi : i = .txAdopt ∨ ∃ d, i.datagram = some d) (hc : t.cfg = (txAdopt s).cfg) :
    KeepsTxBank s t ∨ AdoptsTxBank i s t := by
  unfold txAdopt at hc
  split at hc
  · next hs => exact .inr ⟨hs, by rw [hc], by rw [hc], hi⟩
  · exact .inl ⟨by rw [hc], by rw [hc]⟩

theorem txRetire_cfg (h : txRetire s = .ok t) : t.cfg = s.cfg := by
  obtain ⟨u, -, hs, rfl⟩ := txRetire_ok h
  rw [advanceBase_cfg, hs.cfg]

/-- Behind its adoption the arrival of a datagram leaves the banks. -/
theorem netRecv_cfg {d : List Byte} (h : netRecv d s = .ok t) : t.cfg = (txAdopt s).cfg := by
  refine netRecv_keeps (P := fun u => u.cfg = (txAdopt s).cfg) (fun _ _ hu => hu) (fun f hu => ?_) (fun hu => hu)
    (fun hu h => ?_) (fun hu h => ?_) rfl h
  · rw [synchronise_cfg, hu]
  · obtain ⟨-, -, hc, -⟩ := storeSlot_same h
    rw [hc, hu]
  · rw [txRetire_cfg h, hu]

theorem TxMove.txBank (h : TxMove i s t) : KeepsTxBank s t ∨ AdoptsTxBank i s t := by
  cases h with
  | interpolate v => exact .inl ⟨rfl, rfl⟩
  | clear => exact .inl ⟨rfl, rfl⟩
  | adopt => exact txAdopt_txBank (.inl rfl) rfl
  | retire hl h =>
    have hc := txRetire_cfg h
    exact .inl ⟨by rw [hc], by rw [hc]⟩
  | arrive hi hl h => exact txAdopt_txBank (.inr ⟨_, hi⟩) (netRecv_cfg h)

/-! ### Every transition -/

/-- What `CTL.RESET` and the successful `CTL.START` make of the active banks, and that no other lifecycle transition touches
them. -/
theorem ControlMove.banks (h : ControlMove i s t) :
    (i = .ctlReset ∧ t.cfg.activeRx = Bank.reset ∧ t.cfg.activeTx = Bank.reset ∧ t.cfg.seqRx = 0 ∧ t.cfg.seqTx = 0 ∧
      t.rx.frameBps = 2) ∨
    (i = .ctlStart true ∧ s.ctl.lifecycle = .created ∧ t.cfg.activeRx = s.cfg.pending ∧ t.cfg.activeTx = s.cfg.pending ∧
      t.cfg.seqRx = s.cfg.seqP ∧ t.cfg.seqTx = s.cfg.seqP ∧
      t.rx.frameBps = if 1 ≤ s.cfg.pending.decim.toNat then 2 else s.cfg.pending.bps) ∨
    KeepsRxBank s t ∧ KeepsTxBank s t := by
  cases h with
  | reset => exact .inl ⟨rfl, rfl, rfl, rfl, rfl, rfl⟩
  | start hl => exact .inr (.inl ⟨rfl, hl, rfl, rfl, rfl, rfl, by simp [startStream, effectiveBps]⟩)
  | _ => exact .inr (.inr ⟨⟨rfl, rfl, rfl⟩, rfl, rfl⟩)

/-- Outside the lifecycle transitions each half's bank is kept or adopted. -/
theorem Performs.banks (h : Performs i s t) :
    ControlMove i s t ∨ (KeepsRxBank s t ∨ AdoptsRxBank i s t) ∧ (KeepsTxBank s t ∨ AdoptsTxBank i s t) := by
  cases h with
  | control h => exact .inl h
  | configure _ _ h =>
    have hs := h.same
    exact .inr ⟨.inl ⟨hs.activeRx, hs.seqRx, by rw [hs.rx]⟩, .inl ⟨hs.activeTx, hs.seqTx⟩⟩
  | queue h =>
    have hs := h.same
    exact .inr ⟨.inl ⟨by rw [hs.cfg], by rw [hs.cfg], by rw [hs.rx]⟩, .inl ⟨by rw [hs.cfg], by rw [hs.cfg]⟩⟩
  | rx _ h => exact .inr ⟨h.rxBank, .inl ⟨h.activeTx, h.seqTx⟩⟩
  | tx _ h => exact .inr ⟨.inl ⟨h.activeRx, h.seqRx, by rw [h.rx]⟩, h.txBank⟩

end

end Sys2Proof.Machine

namespace Sys2Proof

/-- Settles O32: `CTL.RESET` and `CTL.START` aside, only the Rx half's own transitions write its bank and width, and only at a
frame boundary, and only an adoption writes the Tx half's bank. -/
theorem activeBanksChangeOnlyAtAdoption : Obligations.ActiveBanksChangeOnlyAtAdoption := by
  intro i s t h
  obtain ⟨r, rfl | ⟨u, hu, rfl⟩⟩ := Machine.exec_performs h
  · exact .inr (.inr ⟨.inl ⟨rfl, rfl, rfl⟩, .inl ⟨rfl, rfl⟩⟩)
  rcases hu.banks with hu | ⟨hrx, htx⟩
  · rcases hu.banks with hreset | hstart | ⟨hrx, htx⟩
    · exact .inl hreset
    · exact .inr (.inl hstart)
    · exact .inr (.inr ⟨.inl hrx, .inl htx⟩)
  · exact .inr (.inr ⟨hrx, htx⟩)

end Sys2Proof
end

section
/-! PROOFS. The delay lines keep their number, their length and their range (O55, rules R45, R46, R151). -/

namespace Sys2Proof.Machine

/-! ### What is kept of the lines -/

/-- A pair that a decimator line holds (rule R45). -/
def PairInLine (x : Pair) : Prop := inLine x.i = true ∧ inLine x.q = true

/-- A decimating stage with a line of the kernel's length, within its range. -/
def DecStage.sound (p : Params) (st : DecStage) : Prop := st.d.length = p.hbTaps.length ∧ ∀ x ∈ st.d, PairInLine x

/-- Six decimating stages, each sound. -/
def decLines (p : Params) (dec : List DecStage) : Prop := dec.length = Config.stages ∧ ∀ st ∈ dec, st.sound p

/-- Six interpolating stages with lines of the kernel's length. -/
def intLines (p : Params) (intp : List (List Sample)) : Prop :=
  intp.length = Config.stages ∧ ∀ d ∈ intp, d.length = p.hbTaps.length

theorem linesSound_iff {s : State} :
    s.linesSound = true ↔ decLines s.params s.rx.dec ∧ intLines s.params s.tx.intp := by
  simp only [State.linesSound, decLines, intLines, DecStage.sound, PairInLine, Bool.and_eq_true, decide_eq_true_eq,
    List.all_eq_true]
  tauto

theorem inLine_iff {x : Int} : inLine x = true ↔ -32768 ≤ x ∧ x ≤ 32768 := by
  simp [inLine]

theorem decReset_lines (p : Params) : decLines p (decReset p) := by
  refine ⟨by simp [decReset], fun st hst => ?_⟩
  rw [List.eq_of_mem_replicate hst]
  refine ⟨by simp, fun x hx => ?_⟩
  rw [List.eq_of_mem_replicate hx]
  exact ⟨rfl, rfl⟩

theorem intReset_lines (p : Params) : intLines p (intReset p) := by
  refine ⟨by simp [intReset], fun d hd => ?_⟩
  rw [List.eq_of_mem_replicate hd]
  simp

/-! ### The decimator -/

theorem toPair_bounds (x : Sample) :
    (-32768 ≤ x.toPair.i ∧ x.toPair.i ≤ 32767) ∧ -32768 ≤ x.toPair.q ∧ x.toPair.q ≤ 32767 := by
  have hi := BitVec.le_toInt x.i
  have hi' := BitVec.toInt_lt (x := x.i)
  have hq := BitVec.le_toInt x.q
  have hq' := BitVec.toInt_lt (x := x.q)
  simp only [Sample.toPair]
  omega

/-- The mixer negates at most, so that its output needs 17 bits (rules R45, R142). -/
theorem mixed_inLine (fcpos : Byte) (phase : BitVec 2) (x : Sample) : PairInLine (mixed fcpos phase x.toPair) := by
  have hx := toPair_bounds x
  simp only [PairInLine, inLine_iff]
  unfold mixed
  split <;> simp only [and_assoc] <;> omega

/-- A stage takes its input into its line and gives an output of 16 bits (rule R143). -/
theorem decStep_sound {p : Params} {st : DecStage} {x : Pair} (hst : st.sound p) (hx : PairInLine x) :
    (decStep p st x).1.sound p ∧ ∀ y, (decStep p st x).2 = some y → PairInLine y := by
  refine ⟨⟨decStep_line_length p st x hst.1, fun y hy => ?_⟩, fun y hy => ?_⟩
  · rw [decStep_eq] at hy
    rcases List.mem_cons.1 (List.mem_of_mem_take hy) with rfl | hy
    · exact hx
    · exact hst.2 y hy
  · rw [decStep_eq] at hy
    dsimp only at hy
    split at hy
    · obtain rfl := Option.some.inj hy
      have hi := scaled_bounds p (dot p.hbTaps (((x :: st.d).take p.hbTaps.length).map Pair.i))
      have hq := scaled_bounds p (dot p.hbTaps (((x :: st.d).take p.hbTaps.length).map Pair.q))
      simp only [PairInLine, inLine_iff]
      omega
    · cases hy

theorem decProcess_lines {p : Params} {h : RxHalf} (hd : decLines p h.dec) (b : Bank) (x : Sample) :
    decLines p (decProcess p b x h).1.dec := by
  unfold decProcess
  split
  · exact hd
  · refine ⟨(decCascade_length p _ _ _).trans hd.1, ?_⟩
    exact (decCascade_forall p (DecStage.sound p) PairInLine (fun _ _ => decStep_sound) _ _ _ hd.2
      (mixed_inLine _ _ _)).1

section
variable {i : Instr} {s t : State}

theorem rxAdopt_lines (h : decLines s.params s.rx.dec) : decLines s.params (rxAdopt s).rx.dec := by
  unfold rxAdopt
  dsimp only
  split
  · exact decReset_lines s.params
  · exact h

theorem beginFrame_lines (h : decLines s.params s.rx.dec) : decLines s.params (beginFrame s).rx.dec := by
  unfold beginFrame
  split
  · dsimp only
    split
    · exact rxAdopt_lines h
    · exact h
  · exact h

theorem packFrame_dec {wall : Wall} (h : packFrame wall s = .ok t) : t.rx.dec = s.rx.dec := by
  obtain ⟨fb, -, rfl⟩ := packFrame_ok h; rfl

theorem storeSample_dec {y : Sample} {wall : Wall} (h : storeSample y wall s = .ok t) : t.rx.dec = s.rx.dec := by
  have h := storeSample_ok h
  dsimp only at h
  obtain ⟨-, -, h⟩ := h
  split at h
  · have hd := packFrame_dec h
    exact hd
  · subst h; rfl

theorem rxSample_lines {x : Sample} {wall : Wall} (hs : decLines s.params s.rx.dec) (h : rxSample x wall s = .ok t) :
    decLines s.params t.rx.dec := by
  have hd := decProcess_lines (beginFrame_lines hs) (beginFrame s).cfg.activeRx x
  obtain ⟨-, ⟨-, rfl⟩ | ⟨y, -, h⟩⟩ := rxSample_ok h
  · rw [← beginFrame_params s] at hd ⊢
    exact hd
  · rw [storeSample_dec h]
    rw [← beginFrame_params s] at hd ⊢
    exact hd

theorem RxMove.lines (hs : decLines s.params s.rx.dec) (h : RxMove i s t) : decLines s.params t.rx.dec := by
  cases h with
  | decimate x => exact decProcess_lines hs _ _
  | mix x => exact hs
  | clear => exact decReset_lines s.params
  | adopt hd => exact rxAdopt_lines hs
  | sample cur x wall hi h => exact rxSample_lines (s := { s with rx := { s.rx with cur := cur } }) hs h
  | pack wall hf h => rw [packFrame_dec h]; exact hs
  | send now h =>
    obtain ⟨-, -, rfl⟩ := netSend_ok h
    exact hs
  | refill v h =>
    have hq := pullVec_same h
    change decLines s.params _
    dsimp only
    rw [hq.rx]
    exact hs

/-! ### The interpolator -/

theorem intCascade_lines {p : Params} {n : Nat} {sts : List (List Sample)} {v : List Sample}
    (h : ∀ d ∈ sts, d.length = p.hbTaps.length) :
    (intCascade p n sts v).1.length = sts.length ∧ ∀ d ∈ (intCascade p n sts v).1, d.length = p.hbTaps.length := by
  induction n generalizing sts v with
  | zero => exact ⟨rfl, h⟩
  | succ n ih =>
    cases sts with
    | nil => exact ⟨rfl, h⟩
    | cons d r =>
      obtain ⟨hd, hr⟩ := List.forall_mem_cons.1 h
      obtain ⟨hlen, hall⟩ := ih (v := (intStage p d v).2) hr
      exact ⟨congrArg (· + 1) hlen, List.forall_mem_cons.2 ⟨(intStage_lengths p d v hd).1, hall⟩⟩

/-- The lines of the interpolator of a state. -/
def State.intSound (s : State) : Prop := intLines s.params s.tx.intp

theorem intProcess_lines (hs : s.intSound) (v : List Sample) : (intProcess v s).1.intSound := by
  obtain ⟨hlen, hall⟩ := intCascade_lines (p := s.params) (n := s.cfg.activeTx.interp.toNat) (v := v) hs.2
  exact ⟨hlen.trans hs.1, hall⟩

theorem State.intSound.congr (hs : s.intSound) (hp : t.params = s.params) (ht : t.tx.intp = s.tx.intp) : t.intSound := by
  unfold State.intSound
  rw [hp, ht]
  exact hs

theorem deliver_lines {v : List Sample} (hs : s.intSound) (h : deliver v s = .ok t) : t.intSound := by
  have hq := pushVec_same (deliver_ok h).1
  exact (intProcess_lines hs v).congr hq.params (by rw [hq.tx])

theorem loseFrame_lines {e : ErrorEvent} {f : U16} (hs : s.intSound) (h : loseFrame e f s = .ok t) : t.intSound :=
  deliver_lines (s := raise (.frameLoss f) (raise e s)) hs h

theorem acceptFrame_lines {m : List Byte} {data : List (List Byte)} (hs : s.intSound) (h : acceptFrame m data s = .ok t) :
    t.intSound :=
  deliver_lines (s := { s with
    tx := { s.tx with last := lastMetaOf m, padBps := byteAt m 8 }
    cnt := { s.cnt with ok := s.cnt.ok + 1 } }) hs h

theorem txRetire_lines (hs : s.intSound) (h : txRetire s = .ok t) : t.intSound := by
  obtain ⟨u, hu, -, rfl⟩ := txRetire_ok h
  have hu : u.intSound := by
    rcases settleHead_cases hu with ⟨-, h⟩ | ⟨e, -, -, ⟨-, h⟩ | ⟨-, -, -, h⟩ | ⟨-, -, h⟩⟩
    · exact loseFrame_lines hs h
    · exact loseFrame_lines hs h
    · exact loseFrame_lines hs h
    · exact acceptFrame_lines hs h
  exact hu

theorem txAdopt_lines (hs : s.intSound) : (txAdopt s).intSound := by
  unfold txAdopt
  split
  · dsimp only [State.intSound]
    split
    · exact intReset_lines s.params
    · exact hs
  · exact hs

theorem netRecv_lines {d : List Byte} (hs : s.intSound) (h : netRecv d s = .ok t) : t.intSound := by
  refine netRecv_keeps (P := State.intSound) (fun _ _ hu => hu) (fun f hu => ?_) (fun hu => hu) (fun hu h => ?_)
    txRetire_lines (txAdopt_lines hs) h
  · exact hu.congr (synchronise_params _ _) (synchronise_tx_intp _ _)
  · obtain ⟨hp, -, -, -, -, -, -, ht⟩ := storeSlot_same h
    exact hu.congr hp (by rw [ht])

theorem TxMove.lines (hs : s.intSound) (h : TxMove i s t) : t.intSound := by
  cases h with
  | interpolate v => exact intProcess_lines hs v
  | clear => exact intReset_lines s.params
  | adopt => exact txAdopt_lines hs
  | retire hl h => exact txRetire_lines hs h
  | arrive hi hl h => exact netRecv_lines hs h

/-! ### Every transition -/

theorem ControlMove.params (h : ControlMove i s t) : t.params = s.params := by
  cases h with
  | _ => rfl

theorem ControlMove.lines (hs : s.linesSound = true) (h : ControlMove i s t) : t.linesSound = true := by
  cases h with
  | reset => exact linesSound_iff.2 ⟨decReset_lines s.params, intReset_lines s.params⟩
  | start => exact linesSound_iff.2 ⟨decReset_lines s.params, intReset_lines s.params⟩
  | _ => exact hs

theorem Performs.params (h : Performs i s t) : t.params = s.params := by
  cases h with
  | control h => exact h.params
  | configure _ _ h => exact h.same.params
  | queue h => exact h.same.params
  | rx _ h => exact h.params
  | tx _ h => exact h.params

theorem Performs.lines (hs : s.linesSound = true) (h : Performs i s t) : t.linesSound = true := by
  have hp := h.params
  have hsame : t.rx = s.rx → t.tx = s.tx → t.linesSound = true := fun hrx htx => by
    rw [linesSound_iff, hp, hrx, htx, ← linesSound_iff]; exact hs
  obtain ⟨hdec, hint⟩ := linesSound_iff.1 hs
  cases h with
  | control h => exact h.lines hs
  | configure _ _ h => exact hsame h.same.rx h.same.tx
  | queue h => exact hsame h.same.rx h.same.tx
  | rx _ h => rw [linesSound_iff, hp, h.tx]; exact ⟨h.lines hdec, hint⟩
  | tx _ h => exact linesSound_iff.2 ⟨by rw [hp, h.rx]; exact hdec, h.lines hint⟩

end

end Sys2Proof.Machine

namespace Sys2Proof

/-- Settles O55: a stage keeps its line's length and range, `DSP.RESET` lays down lines of the kernel's length, and nothing writes
the parameters. -/
theorem stepKeepsLinesSound : Obligations.StepKeepsLinesSound := by
  intro s t hs h
  exact Machine.step_keeps (P := fun u => u.linesSound = true ∧ u.params = s.params) ⟨fun _ _ h => h, fun _ _ h => h⟩
    (fun hu h => ⟨h.lines hu.1, h.params.trans hu.2⟩) ⟨hs, rfl⟩ h

end Sys2Proof
end

section
/-! PROOFS. The registers stay legal and the window sound (O54, rules R21, R30 to R40, R44, R208). -/

namespace Sys2Proof.Machine

/-! ### Legal registers -/

theorem Bank.legal_iff {b : Bank} :
    b.legal = true ↔ b.fecblk.toNat ≤ 127 ∧ b.decim.toNat ≤ 6 ∧ b.interp.toNat ≤ 6 ∧ b.fcpos.toNat ≤ 2 ∧
      (b.bps = 1 ∨ b.bps = 2) ∧ 8 ≤ b.ebits.toNat ∧ b.ebits.toNat ≤ 16 := by
  simp only [Bank.legal, Bool.and_eq_true, Bool.or_eq_true, decide_eq_true_eq, and_assoc]

/-- A write that keeps a bank legal. -/
def LegalWrite (r : CfgReg) (v : Nat) : Prop := ∀ b : Bank, b.legal = true → (b.write r v).legal = true

theorem clampTop_le (top v : Nat) : (clampTop top v).1 ≤ top := by
  unfold clampTop
  split
  · assumption
  · exact Nat.le_refl top

/-- An accepted selection is the value asked for, and legal (rule R296). -/
theorem selectOnly_accepted {legal : Bool} {v : Nat} (ha : (selectOnly legal v).2.accepted = true) :
    legal = true ∧ (selectOnly legal v).1 = v := by
  unfold selectOnly at ha ⊢
  split
  · exact ⟨by assumption, rfl⟩
  · next hl => simp [hl, CfgOutcome.accepted] at ha

theorem toNat_ofNat_le {v top : Nat} (h : v ≤ top) : (BitVec.ofNat 8 v).toNat ≤ top := by
  rw [BitVec.toNat_ofNat]
  exact (Nat.mod_le _ _).trans h

theorem range_ebits_bounds (v : Nat) : 8 ≤ (range .ebits v).1 ∧ (range .ebits v).1 ≤ 16 := by
  by_cases hv : v < 8
  · simp [range, hv]
  · by_cases hv' : v ≤ 16
    · simp [range, clampTop, hv, hv']; omega
    · simp [range, clampTop, hv, hv']

/-- What `RANGE` accepts is legal (rule R296). -/
theorem legalWrite_range {r : CfgReg} {v : Nat} (ha : (range r v).2.accepted = true) : LegalWrite r (range r v).1 := by
  intro b hb
  rw [Bank.legal_iff] at hb ⊢
  obtain ⟨hfec, hdecim, hinterp, hfcpos, hbps, hebits⟩ := hb
  cases r with
  | txdelay => exact ⟨hfec, hdecim, hinterp, hfcpos, hbps, hebits⟩
  | fecblk => exact ⟨toNat_ofNat_le (clampTop_le 127 v), hdecim, hinterp, hfcpos, hbps, hebits⟩
  | decim => exact ⟨hfec, toNat_ofNat_le (clampTop_le 6 v), hinterp, hfcpos, hbps, hebits⟩
  | interp => exact ⟨hfec, hdecim, toNat_ofNat_le (clampTop_le 6 v), hfcpos, hbps, hebits⟩
  | fcpos =>
    obtain ⟨hle, hv⟩ := selectOnly_accepted ha
    have hle : (range .fcpos v).1 ≤ 2 := by simpa [range, hv] using hle
    exact ⟨hfec, hdecim, hinterp, toNat_ofNat_le hle, hbps, hebits⟩
  | freq => exact ⟨hfec, hdecim, hinterp, hfcpos, hbps, hebits⟩
  | srate => exact ⟨hfec, hdecim, hinterp, hfcpos, hbps, hebits⟩
  | bps =>
    obtain ⟨hsel, hv⟩ := selectOnly_accepted ha
    have hsel : (range .bps v).1 = 1 ∨ (range .bps v).1 = 2 := by simpa [range, hv] using hsel
    refine ⟨hfec, hdecim, hinterp, hfcpos, ?_, hebits⟩
    rcases hsel with hsel | hsel <;> simp [Bank.write, hsel]
  | ebits =>
    have hv := range_ebits_bounds v
    refine ⟨hfec, hdecim, hinterp, hfcpos, hbps, ?_⟩
    simp only [Bank.write, BitVec.toNat_ofNat]
    omega

/-- The registers that the device reads back have no illegal value (rules R37, R38, R298). -/
theorem legalWrite_device {r : CfgReg} (hr : r = .freq ∨ r = .srate) (v : Nat) : LegalWrite r v := by
  intro b hb
  rcases hr with rfl | rfl <;> exact hb

/-- The registers of the device-level keys (rule R101). -/
theorem reg_of_device {k : Key} {r : CfgReg} (hk : k.group = .device) (hr : k.reg = some r) : r = .freq ∨ r = .srate := by
  cases k <;> simp_all [Key.group, Key.reg]

/-- Whatever register an item writes, the write is a legal one (rules R297, R298). -/
theorem Item.effect_legal {it : Item} {r : CfgReg} {v : Nat} (h : it.effect.2 = some (r, v)) : LegalWrite r v := by
  unfold Item.effect at h
  split at h
  · cases h
  · cases h
  · cases h
  next k n _ =>
  split at h
  · next hk =>
    unfold deviceKey at h
    split at h
    · cases h
    next r' hr =>
    split at h
    · cases h
    split at h
    · cases h
    cases h
    exact legalWrite_device (reg_of_device hk hr) _
  · unfold registerKey at h
    split at h
    · cases h
    dsimp only at h
    split at h
    · next ha => cases h; exact legalWrite_range ha
    · cases h

theorem applyGroup_legal {g : KeyGroup} {items : List Item} {b : Bank} (hb : b.legal = true) :
    (applyGroup g items b).legal = true := by
  induction items generalizing b with
  | nil => exact hb
  | cons it r ih =>
    unfold applyGroup
    apply ih
    split
    · split
      · next h => exact Item.effect_legal h b hb
      · exact hb
    · exact hb

section
variable {i : Instr} {s t : State}

theorem applyMessage_legal (hb : s.cfg.pending.legal = true) (msg : List Byte) (dev : List DevAnswer) :
    (applyMessage msg dev s).cfg.pending.legal = true := by
  rcases applyMessage_cases msg dev s with ⟨r, h⟩ | ⟨items, -, h⟩
  · rw [h]; exact hb
  · rw [h]
    unfold applyItems
    dsimp only
    split
    · exact applyGroup_legal (applyGroup_legal (applyGroup_legal hb))
    · exact hb

theorem Configures.pending_legal (hb : s.cfg.pending.legal = true) (h : Configures s t) : t.cfg.pending.legal = true := by
  cases h with
  | write r v ha => exact legalWrite_range ha _ hb
  | message msg dev => exact applyMessage_legal hb msg dev

/-! ### `pad_bps` -/

/-- `pad_bps` is one of the two widths (rule R44). -/
def State.padLegal (s : State) : Prop := s.tx.padBps = 1 ∨ s.tx.padBps = 2

theorem State.padLegal.congr (hs : s.padLegal) (h : t.tx.padBps = s.tx.padBps) : t.padLegal := by
  unfold State.padLegal
  rw [h]
  exact hs

theorem deliver_padBps {v : List Sample} (h : deliver v s = .ok t) : t.tx.padBps = s.tx.padBps := by
  rw [(pushVec_same (deliver_ok h).1).tx, intProcess_tx_padBps]

theorem loseFrame_padBps {e : ErrorEvent} {f : U16} (h : loseFrame e f s = .ok t) : t.tx.padBps = s.tx.padBps :=
  deliver_padBps (s := raise (.frameLoss f) (raise e s)) h

theorem acceptFrame_padBps {m : List Byte} {data : List (List Byte)} (h : acceptFrame m data s = .ok t) :
    t.tx.padBps = byteAt m 8 :=
  deliver_padBps (s := { s with
    tx := { s.tx with last := lastMetaOf m, padBps := byteAt m 8 }
    cnt := { s.cnt with ok := s.cnt.ok + 1 } }) h

/-- A frame is accepted with one of the two widths only (rules R210, R212). -/
theorem txRetire_padLegal (hs : s.padLegal) (h : txRetire s = .ok t) : t.padLegal := by
  obtain ⟨u, hu, -, rfl⟩ := txRetire_ok h
  have hu : u.padLegal := by
    rcases settleHead_cases hu with ⟨-, h⟩ | ⟨e, -, -, ⟨-, h⟩ | ⟨-, -, -, h⟩ | ⟨-, hw, h⟩⟩
    · exact hs.congr (loseFrame_padBps h)
    · exact hs.congr (loseFrame_padBps h)
    · exact hs.congr (loseFrame_padBps h)
    · unfold State.padLegal
      rw [acceptFrame_padBps h]
      exact hw
  exact hu

theorem netRecv_padLegal {d : List Byte} (hs : s.padLegal) (h : netRecv d s = .ok t) : t.padLegal := by
  refine netRecv_keeps (P := State.padLegal) (fun _ _ hu => hu) (fun f hu => hu.congr (synchronise_tx_padBps _ _))
    (fun hu => hu) (fun hu h => ?_) txRetire_padLegal (hs.congr (txAdopt_tx_padBps s)) h
  obtain ⟨-, -, -, -, -, -, -, ht⟩ := storeSlot_same h
  exact hu.congr (by rw [ht])

theorem TxMove.padLegal (hs : s.padLegal) (h : TxMove i s t) : t.padLegal := by
  cases h with
  | interpolate v => exact hs
  | clear => exact hs
  | adopt => exact hs.congr (txAdopt_tx_padBps s)
  | retire hl h => exact txRetire_padLegal hs h
  | arrive hi hl h => exact netRecv_padLegal hs h

/-! ### All banks -/

theorem banksLegal_iff :
    s.banksLegal = true ↔
      s.cfg.pending.legal = true ∧ s.cfg.activeRx.legal = true ∧ s.cfg.activeTx.legal = true ∧ s.padLegal := by
  simp only [State.banksLegal, State.padLegal, Bool.and_eq_true, Bool.or_eq_true, decide_eq_true_eq, and_assoc]

theorem RxMove.activeRx_legal (hp : s.cfg.pending.legal = true) (ha : s.cfg.activeRx.legal = true) (h : RxMove i s t) :
    t.cfg.activeRx.legal = true := by
  rcases h.rxBank with ⟨hb, -⟩ | ⟨-, -, -, hb | ⟨-, hb⟩, -⟩ <;> rw [hb] <;> assumption

theorem TxMove.activeTx_legal (hp : s.cfg.pending.legal = true) (ha : s.cfg.activeTx.legal = true) (h : TxMove i s t) :
    t.cfg.activeTx.legal = true := by
  rcases h.txBank with ⟨hb, -⟩ | ⟨-, hb, -⟩ <;> rw [hb] <;> assumption

theorem ControlMove.banksLegal (hs : s.banksLegal = true) (h : ControlMove i s t) : t.banksLegal = true := by
  cases h with
  | reset => rfl
  | start hl =>
    obtain ⟨hp, -, -, -⟩ := banksLegal_iff.1 hs
    obtain ⟨-, -, -, -, hbps, -⟩ := Bank.legal_iff.1 hp
    exact banksLegal_iff.2 ⟨hp, hp, hp, hbps⟩
  | _ => exact hs

theorem Performs.banksLegal (hs : s.banksLegal = true) (h : Performs i s t) : t.banksLegal = true := by
  obtain ⟨hp, hrx, htx, hpad⟩ := banksLegal_iff.1 hs
  rw [banksLegal_iff]
  cases h with
  | control h => exact banksLegal_iff.1 (h.banksLegal hs)
  | configure _ _ h =>
    have hq := h.same
    exact ⟨h.pending_legal hp, by rw [hq.activeRx]; exact hrx, by rw [hq.activeTx]; exact htx, hpad.congr (by rw [hq.tx])⟩
  | queue h =>
    have hq := h.same
    rw [hq.cfg]
    exact ⟨hp, hrx, htx, hpad.congr (by rw [hq.tx])⟩
  | rx _ h =>
    exact ⟨by rw [h.pending]; exact hp, h.activeRx_legal hp hrx, by rw [h.activeTx]; exact htx, hpad.congr (by rw [h.tx])⟩
  | tx _ h =>
    exact ⟨by rw [h.pending]; exact hp, by rw [h.activeRx]; exact hrx, h.activeTx_legal hp htx, h.padLegal hpad⟩

/-! ### One entry of the window -/

/-- A sound entry but for having a slot: what a new entry has before its first body (rule R200 line 8). -/
structure WinEntry.SlotsSound (e : WinEntry) : Prop where
  rising : e.present.Pairwise fun a b => a < b
  bound : ∀ b ∈ e.present, b < Config.bodies
  counted : e.count = e.present.length
  within : e.body.within Config.bodies = true

theorem WinEntry.sound_iff {e : WinEntry} : e.sound = true ↔ e.SlotsSound ∧ 1 ≤ e.count := by
  simp only [WinEntry.sound, Bool.and_eq_true, decide_eq_true_eq, List.all_eq_true]
  exact ⟨fun ⟨⟨⟨⟨hr, hb⟩, hc⟩, h1⟩, hw⟩ => ⟨⟨hr, hb, hc, hw⟩, h1⟩, fun ⟨⟨hr, hb, hc, hw⟩, h1⟩ => ⟨⟨⟨⟨hr, hb⟩, hc⟩, h1⟩, hw⟩⟩

theorem WinEntry.empty_slotsSound (f : U16) : (WinEntry.empty f).SlotsSound :=
  ⟨List.Pairwise.nil, nofun, rfl, rfl⟩

/-- A body stored in a free slot (rule R200 line 10). -/
theorem WinEntry.SlotsSound.store {e : WinEntry} (he : e.SlotsSound) {b : Nat} {body : List Byte} (hb : b ∉ e.present)
    (hlt : b < Config.bodies) (hl : body.length = Config.bodyLen) : (e.store b body).sound = true := by
  refine WinEntry.sound_iff.2 ⟨⟨insertIndex_rising he.rising, fun x hx => ?_, ?_, WinEntry.store_within he.within hlt hl⟩, ?_⟩
  · rcases WinEntry.mem_store_present.1 hx with rfl | hx
    · exact hlt
    · exact he.bound x hx
  · change e.count + 1 = (insertIndex b e.present).length
    rw [insertIndex_length hb, he.counted]
  · exact Nat.le_add_left 1 e.count

/-! ### The window -/

/-- What `windowSound` says. -/
structure State.WindowSound (s : State) : Prop where
  rising : s.tx.win.Pairwise fun a b => a.fidx.toNat < b.fidx.toNat
  near : ∀ e ∈ s.tx.win, dist e.fidx s.tx.base ≤ Config.evictDistance
  entries : ∀ e ∈ s.tx.win, e.sound = true
  synced : s.tx.synced = true ∨ s.tx.win = []

theorem windowSound_iff : s.windowSound = true ↔ s.WindowSound := by
  simp only [State.windowSound, Bool.and_eq_true, Bool.or_eq_true, decide_eq_true_eq, List.all_eq_true, List.isEmpty_iff]
  exact ⟨fun ⟨⟨hr, he⟩, hy⟩ => ⟨hr, fun e h => (he e h).1, fun e h => (he e h).2, hy⟩,
    fun ⟨hr, hn, he, hy⟩ => ⟨⟨hr, fun e h => ⟨hn e h, he e h⟩⟩, hy⟩⟩

theorem State.WindowSound.congr (hs : s.WindowSound) (hw : t.tx.win = s.tx.win) (hb : t.tx.base = s.tx.base)
    (hy : t.tx.synced = s.tx.synced) : t.WindowSound where
  rising := by rw [hw]; exact hs.rising
  near := by rw [hw, hb]; exact hs.near
  entries := by rw [hw]; exact hs.entries
  synced := by rw [hw, hy]; exact hs.synced

theorem windowSound_of_empty (h : s.tx.win = []) : s.WindowSound where
  rising := by rw [h]; exact .nil
  near := by simp [h]
  entries := by simp [h]
  synced := .inr h

theorem dist_eq_zero_iff {a b : U16} : dist a b = 0 ↔ a = b := by
  unfold dist
  bv_omega

theorem dist_inj {a b c : U16} (h : dist a c = dist b c) : a = b := by
  unfold dist at h
  bv_omega

/-- Five distances, and no two entries at the same one. -/
theorem State.WindowSound.length_le (hs : s.WindowSound) : s.tx.win.length ≤ 5 := by
  have hnodup : (s.tx.win.map fun e => dist e.fidx s.tx.base).Nodup := by
    refine List.Pairwise.map _ (fun a b hab hd => ?_) hs.rising
    rw [dist_inj hd] at hab
    omega
  have hsub : (s.tx.win.map fun e => dist e.fidx s.tx.base) ⊆ List.range 5 := by
    intro n hn
    obtain ⟨e, he, rfl⟩ := List.mem_map.1 hn
    exact List.mem_range.2 (Nat.lt_succ_of_le (hs.near e he))
  simpa using (List.subperm_of_subset hnodup hsub).length_le

/-- `TX.RETIRE` drops the entry at the base, and every other comes one nearer (rule R210). -/
theorem txRetire_windowSound (hs : s.WindowSound) (h : txRetire s = .ok t) : t.WindowSound := by
  have hwin := txRetire_win h
  have hbase := txRetire_base h
  have hmem : ∀ e ∈ t.tx.win, e ∈ s.tx.win ∧ e.fidx ≠ s.tx.base := fun e he => mem_winDrop.1 (hwin ▸ he)
  have hsync : t.tx.synced = s.tx.synced := by
    obtain ⟨u, -, hu, rfl⟩ := txRetire_ok h
    exact hu.synced
  refine ⟨?_, fun e he => ?_, fun e he => hs.entries e (hmem e he).1, ?_⟩
  · rw [hwin]; exact winDrop_rising hs.rising _
  · obtain ⟨hin, hne⟩ := hmem e he
    have hnear := hs.near e hin
    rw [hbase, dist_succ fun h0 => hne (dist_eq_zero_iff.1 h0)]
    omega
  · rw [hsync, hwin]
    exact hs.synced.imp_right fun h0 => by rw [h0]; rfl

/-- A body stored at most 4 ahead of the base (rule R200 lines 8 to 10). -/
theorem storeSlot_windowSound {f : U16} {b : Nat} {body : List Byte} (hs : s.WindowSound) (hy : s.tx.synced = true)
    (hd : dist f s.tx.base ≤ Config.evictDistance) (hb : b < Config.bodies) (hl : body.length = Config.bodyLen)
    (h : storeSlot f b body s = .ok t) : t.WindowSound := by
  have hslots : ((winFind s.tx.win f).getD (WinEntry.empty f)).SlotsSound ∧
      ((winFind s.tx.win f).getD (WinEntry.empty f)).fidx = f := by
    cases he : winFind s.tx.win f with
    | none => exact ⟨WinEntry.empty_slotsSound f, rfl⟩
    | some e => exact ⟨(WinEntry.sound_iff.1 (hs.entries e (winFind_some he).1)).1, (winFind_some he).2⟩
  generalize hg : (winFind s.tx.win f).getD (WinEntry.empty f) = e at hslots
  obtain ⟨hslots, hf⟩ := hslots
  have h := storeSlot_ok h
  dsimp only at h
  rw [hg] at h
  rcases h with ⟨-, rfl⟩ | ⟨hfree, -, rfl⟩
  · exact hs.congr rfl rfl rfl
  refine ⟨winPut_rising hs.rising _, fun x hx => ?_, fun x hx => ?_, .inl hy⟩
  · rcases mem_winPut.1 hx with rfl | ⟨hx, -⟩
    · change dist e.fidx s.tx.base ≤ _
      rw [hf]; exact hd
    · exact hs.near x hx
  · rcases mem_winPut.1 hx with rfl | ⟨hx, -⟩
    · exact hslots.store hfree hb hl
    · exact hs.entries x hx

theorem synchronise_synced (f : U16) (s : State) : (synchronise f s).tx.synced = true := by
  unfold synchronise
  split
  · assumption
  · rfl

/-- Before synchronisation the window is empty, so that any base will do (rule R204). -/
theorem synchronise_windowSound (hs : s.WindowSound) (f : U16) : (synchronise f s).WindowSound := by
  by_cases hy : s.tx.synced = true
  · have h0 : synchronise f s = s := if_pos hy
    rw [h0]; exact hs
  · refine windowSound_of_empty ?_
    rw [synchronise_tx_win]
    exact hs.synced.resolve_left hy

theorem evict_synced {f : U16} {n : Nat} (hy : s.tx.synced = true) (h : evict f n s = .ok t) : t.tx.synced = true := by
  refine evict_keeps (P := fun u => u.tx.synced = true) (fun hu h => ?_) hy h
  obtain ⟨v, -, hv, rfl⟩ := txRetire_ok h
  exact hv.synced.trans hu

/-- An acceptable block leaves the window sound (rule R200 lines 6 to 11). -/
theorem acceptBlock_windowSound {f : U16} {b : Nat} {body : List Byte} (hs : s.WindowSound) (hy : s.tx.synced = true)
    (hb : b < Config.bodies) (hl : body.length = Config.bodyLen) (h : acceptBlock f b body s = .ok t) : t.WindowSound := by
  rcases acceptBlock_ok h with ⟨-, rfl⟩ | ⟨-, u, v, hu, hv, h⟩
  · exact hs.congr rfl rfl rfl
  have hdu : dist f u.tx.base ≤ Config.evictDistance := by
    rw [evict_dist (Nat.le_refl _) hu]
    exact Nat.min_le_left _ _
  have hus : u.WindowSound := evict_keeps txRetire_windowSound hs hu
  exact deliverComplete_keeps txRetire_windowSound (storeSlot_windowSound hus (evict_synced hy hu) hdu hb hl hv) h

/-- The body of a datagram of the right length (rule R90). -/
theorem block_body_length {d : List Byte} (h : d.length = Config.blockLen) : (d.drop 4).length = Config.bodyLen := by
  rw [List.length_drop, h]
  rfl

theorem txAdopt_windowSound (hs : s.WindowSound) : (txAdopt s).WindowSound :=
  hs.congr (txAdopt_tx_win s) (txAdopt_tx_base s) (txAdopt_tx_synced s)

/-- The adopted bank of a legal state gives at most 127 parity blocks. -/
theorem txAdopt_fecblk_le (hs : s.banksLegal = true) : (txAdopt s).cfg.activeTx.fecblk.toNat ≤ 127 := by
  obtain ⟨hp, -, htx, -⟩ := banksLegal_iff.1 hs
  have hadopted : (txAdopt s).cfg.activeTx.legal = true := TxMove.activeTx_legal hp htx (.adopt (s := s))
  exact (Bank.legal_iff.1 hadopted).1

theorem netRecv_windowSound {d : List Byte} (hleg : s.banksLegal = true) (hs : s.WindowSound) (h : netRecv d s = .ok t) :
    t.WindowSound := by
  have hs := txAdopt_windowSound hs
  rcases netRecv_ok h with ⟨-, rfl⟩ | ⟨-, -, rfl⟩ | ⟨hlen, hb, h⟩
  · exact hs.congr rfl rfl rfl
  · exact hs.congr rfl rfl rfl
  have hfec := txAdopt_fecblk_le hleg
  exact acceptBlock_windowSound (synchronise_windowSound hs _) (synchronise_synced _ _)
    (by simp only [Config.bodies]; omega) (block_body_length hlen) h

theorem TxMove.windowSound (hleg : s.banksLegal = true) (hs : s.WindowSound) (h : TxMove i s t) : t.WindowSound := by
  cases h with
  | interpolate v => exact hs.congr rfl rfl rfl
  | clear => exact hs.congr rfl rfl rfl
  | adopt => exact txAdopt_windowSound hs
  | retire hl h => exact txRetire_windowSound hs h
  | arrive hi hl h => exact netRecv_windowSound hleg hs h

theorem ControlMove.windowSound (hs : s.WindowSound) (h : ControlMove i s t) : t.WindowSound := by
  cases h with
  | reset => exact windowSound_of_empty rfl
  | start => exact windowSound_of_empty rfl
  | deviceError => exact windowSound_of_empty rfl
  | drain => exact windowSound_of_empty rfl
  | _ => exact hs.congr rfl rfl rfl

theorem Performs.windowSound (hleg : s.banksLegal = true) (hs : s.WindowSound) (h : Performs i s t) : t.WindowSound := by
  have hsame : t.tx = s.tx → t.WindowSound := fun htx => hs.congr (by rw [htx]) (by rw [htx]) (by rw [htx])
  cases h with
  | control h => exact h.windowSound hs
  | configure _ _ h => exact hsame h.same.tx
  | queue h => exact hsame h.same.tx
  | rx _ h => exact hsame h.tx
  | tx _ h => exact h.windowSound hleg hs

end

end Sys2Proof.Machine

namespace Sys2Proof

/-- Settles O54: a block is stored at most 4 ahead of the base, into a slot that its legal index names, and a retirement brings
every other entry one nearer. -/
theorem stepKeepsWindowSound : Obligations.StepKeepsWindowSound := by
  intro s hleg hs
  refine ⟨(Machine.windowSound_iff.1 hs).length_le, fun t h => ?_⟩
  refine Machine.step_keeps (P := fun u => u.banksLegal = true ∧ u.windowSound = true) ⟨fun _ _ h => h, fun _ _ h => h⟩
    (fun {i u v} hu h => ?_) ⟨hleg, hs⟩ h
  have hw : u.WindowSound := Machine.windowSound_iff.1 hu.2
  exact ⟨h.banksLegal hu.1, Machine.windowSound_iff.2 (h.windowSound hu.1 hw)⟩

end Sys2Proof
end

section
/-! PROOFS. The Rx half stays sound (O53, rules R25, R60, R61, R180). -/

namespace Sys2Proof.Machine

/-! ### Sound cursors, a wide frame -/

/-- What `rxCursors` says. -/
structure State.RxCursors (s : State) : Prop where
  idle : s.rx.emitting = true → s.rx.accCount = 0
  short : s.rx.accCount.toNat < samplesPerFrame s.rx.frameBps.toNat
  width : s.rx.frameBps = 1 ∨ s.rx.frameBps = 2
  ahead : s.rx.emitting = true → s.rx.emitIdx.toNat < 128 + s.rx.emitR.toNat
  parity : s.rx.emitR.toNat ≤ Config.parityMax
  store : s.rx.fb.within Config.bodies = true

/-- What `frameWide` says (rule R180(c)). -/
structure State.FrameWide (s : State) : Prop where
  building : s.cfg.activeRx.decim ≠ 0 → s.rx.accCount = 0 ∨ s.rx.frameBps = 2
  sending : s.cfg.activeRx.decim ≠ 0 → s.rx.emitting = true → byteAt (bodyOf s.rx.fb 0) 8 = 2

/-- Two Rx halves that differ in the decimator, the vector in work and the promotion only. -/
structure SameCursors (h h' : RxHalf) : Prop where
  fb : h'.fb = h.fb
  accCount : h'.accCount = h.accCount
  emitting : h'.emitting = h.emitting
  emitIdx : h'.emitIdx = h.emitIdx
  emitR : h'.emitR = h.emitR
  frameBps : h'.frameBps = h.frameBps

theorem SameCursors.refl (h : RxHalf) : SameCursors h h := ⟨rfl, rfl, rfl, rfl, rfl, rfl⟩

theorem decProcess_sameCursors (p : Params) (b : Bank) (x : Sample) (h : RxHalf) : SameCursors h (decProcess p b x h).1 := by
  obtain ⟨_, _, hd⟩ := decProcess_writes p b x h
  rw [hd]
  exact ⟨rfl, rfl, rfl, rfl, rfl, rfl⟩

theorem rxAdopt_sameCursors (s : State) : SameCursors s.rx (rxAdopt s).rx :=
  ⟨rxAdopt_rx_fb s, rxAdopt_rx_accCount s, rxAdopt_rx_emitting s, rxAdopt_rx_emitIdx s, rxAdopt_rx_emitR s,
    rxAdopt_rx_frameBps s⟩

theorem not_or_iff_implies {b : Bool} {q : Prop} : (!b) = true ∨ q ↔ (b = true → q) := by
  cases b <;> simp

section
variable {i : Instr} {s t : State}

theorem rxCursors_iff : s.rxCursors = true ↔ s.RxCursors := by
  simp only [State.rxCursors, Bool.and_eq_true, Bool.or_eq_true, decide_eq_true_eq, not_or_iff_implies]
  exact ⟨fun ⟨⟨⟨⟨⟨h1, h2⟩, h3⟩, h4⟩, h5⟩, h6⟩ => ⟨h1, h2, h3, h4, h5, h6⟩,
    fun ⟨h1, h2, h3, h4, h5, h6⟩ => ⟨⟨⟨⟨⟨h1, h2⟩, h3⟩, h4⟩, h5⟩, h6⟩⟩

theorem frameWide_iff : s.frameWide = true ↔ s.FrameWide := by
  simp only [State.frameWide, Bool.and_eq_true, Bool.or_eq_true, decide_eq_true_eq, not_or_iff_implies]
  constructor
  · rintro (h | ⟨hb, hs⟩)
    · exact ⟨fun hne => absurd h hne, fun hne => absurd h hne⟩
    · exact ⟨fun _ => hb, fun _ => hs⟩
  · rintro ⟨hb, hs⟩
    by_cases h : s.cfg.activeRx.decim = 0
    · exact .inl h
    · exact .inr ⟨hb h, hs h⟩

theorem State.RxCursors.congr (hs : s.RxCursors) (h : SameCursors s.rx t.rx) : t.RxCursors := by
  obtain ⟨hfb, hacc, hem, hidx, hr, hbps⟩ := h
  constructor
  · rw [hem, hacc]; exact hs.idle
  · rw [hacc, hbps]; exact hs.short
  · rw [hbps]; exact hs.width
  · rw [hem, hidx, hr]; exact hs.ahead
  · rw [hr]; exact hs.parity
  · rw [hfb]; exact hs.store

theorem State.FrameWide.congr (hs : s.FrameWide) (hb : t.cfg.activeRx = s.cfg.activeRx) (h : SameCursors s.rx t.rx) :
    t.FrameWide := by
  obtain ⟨hfb, hacc, hem, -, -, hbps⟩ := h
  constructor
  · rw [hb, hacc, hbps]; exact hs.building
  · rw [hb, hem, hfb]; exact hs.sending

/-- At a frame boundary no frame is under construction and none is sent. -/
theorem frameWide_of_boundary (ha : s.rx.accCount = 0) (he : s.rx.emitting = false) : s.FrameWide :=
  ⟨fun _ => .inl ha, fun _ h => by rw [he] at h; cases h⟩

theorem samplesPerFrame_pos {b : Byte} (hb : b = 1 ∨ b = 2) : 0 < samplesPerFrame b.toNat := by
  rcases hb with rfl | rfl <;> decide

/-- The bounds of rule R60. -/
theorem inBody_iff {blk off n : Nat} : inBody blk off n = true ↔ blk < 255 ∧ off + n ≤ 508 := by
  simp [inBody]

theorem samplesPerBlock_one : samplesPerBlock 1 = 254 := rfl

theorem samplesPerBlock_two : samplesPerBlock 2 = 127 := rfl

/-- A sample inside the frame has its two components inside a body of block 1 to 127 (rules R60, R61). -/
theorem component_bounds {w n : Nat} (hw : w = 1 ∨ w = 2) (hn : n < samplesPerFrame w) :
    inBody (1 + n / samplesPerBlock w) (n % samplesPerBlock w * (2 * w)) w = true ∧
      inBody (1 + n / samplesPerBlock w) (n % samplesPerBlock w * (2 * w) + w) w = true := by
  simp only [inBody_iff, samplesPerFrame, Config.sampleBlocks] at hn ⊢
  rcases hw with rfl | rfl
  · rw [samplesPerBlock_one] at hn ⊢
    omega
  · rw [samplesPerBlock_two] at hn ⊢
    omega

theorem State.RxCursors.component_bounds (hs : s.RxCursors) :
    let w := s.rx.frameBps.toNat
    let n := s.rx.accCount.toNat
    inBody (1 + n / samplesPerBlock w) (n % samplesPerBlock w * (2 * w)) w = true ∧
      inBody (1 + n / samplesPerBlock w) (n % samplesPerBlock w * (2 * w) + w) w = true :=
  Machine.component_bounds (by rcases hs.width with hw | hw <;> simp [hw]) hs.short

/-! ### `PACK.FRAME` -/

/-- Byte 8 of the meta body is the width (rule R177). -/
theorem metaBuild_width (b : Bank) (width r : Byte) (wall : Wall) : byteAt (metaBuild b width r wall) 8 = width := by
  rfl

/-- Bodies written from a block on leave the blocks below alone. -/
theorem fbWriteBodies_bodyOf {bodies : List (List Byte)} {m m' : Memory} {blk below : Nat} (hlt : below < blk)
    (h : fbWriteBodies m blk bodies = .ok m') : bodyOf m' below = bodyOf m below := by
  induction bodies generalizing m blk with
  | nil => cases h; rfl
  | cons b r ih =>
    obtain ⟨m1, h1, h2⟩ := bind_eq_ok.1 h
    obtain ⟨-, rfl⟩ := fbWrite_ok.1 h1
    rw [ih (by omega) h2]
    apply Memory.read_write_disjoint
    simp only [bodyAddr, Config.bodyLen]
    omega

/-- A packed frame is in order to be sent, and its meta body says its width (rules R176, R177). -/
theorem packFrame_sound {wall : Wall} (h : packFrame wall s = .ok t) (hfb : s.rx.fb.within Config.bodies = true)
    (hw : s.rx.frameBps = 1 ∨ s.rx.frameBps = 2) (hfec : s.cfg.activeRx.fecblk.toNat ≤ Config.parityMax) : t.RxCursors ∧ byteAt (bodyOf t.rx.fb 0) 8 = s.rx.frameBps := by
  obtain ⟨fb, hfb', rfl⟩ := packFrame_ok h
  have hin : inBody 0 0 (metaBuild s.cfg.activeRx s.rx.frameBps s.cfg.activeRx.fecblk wall).length = true := by
    rw [metaBuild_length]; rfl
  have hmeta := Memory.write_within hfb (bodyAddr_bound hin)
  refine ⟨⟨fun _ => rfl, samplesPerFrame_pos hw, hw, fun _ => ?_, hfec, fbWriteBodies_within hmeta hfb'⟩, ?_⟩
  · exact Nat.lt_of_lt_of_le (show (0 : Byte).toNat < 128 by decide) (Nat.le_add_right 128 _)
  · change byteAt (bodyOf fb 0) 8 = _
    rw [fbWriteBodies_bodyOf (by decide) hfb', bodyOf_write_same _ _ _ (metaBuild_length _ _ _ _), metaBuild_width]

/-! ### `RX.SAMPLE` -/

theorem effectiveBps_of_decim {b : Bank} (h : b.decim ≠ 0) (promoted : Bool) : effectiveBps b promoted = 2 := by
  have hpos : 1 ≤ b.decim.toNat := by
    have := BitVec.toNat_inj.not.2 h
    simp at this
    omega
  exact if_pos (.inl hpos)

theorem effectiveBps_legal {b : Bank} (h : b.legal = true) (promoted : Bool) :
    effectiveBps b promoted = 1 ∨ effectiveBps b promoted = 2 := by
  unfold effectiveBps
  split
  · exact .inr rfl
  · exact (Bank.legal_iff.1 h).2.2.2.2.1

/-- The width that a frame starts with (rule R173). -/
theorem beginFrame_frameBps (ha : s.rx.accCount = 0) :
    ∃ promoted, (beginFrame s).rx.frameBps = effectiveBps (beginFrame s).cfg.activeRx promoted := by
  unfold beginFrame
  rw [if_pos ha]
  exact ⟨_, rfl⟩

theorem beginFrame_legal (hp : s.cfg.pending.legal = true) (ha : s.cfg.activeRx.legal = true) :
    (beginFrame s).cfg.activeRx.legal = true := by
  by_cases h : s.rx.accCount = 0
  · obtain ⟨-, hb | ⟨-, hb⟩⟩ := beginFrame_adopts h <;> rw [hb] <;> assumption
  · rw [beginFrame_of_ne h]; exact ha

theorem beginFrame_cursors (hp : s.cfg.pending.legal = true) (ha : s.cfg.activeRx.legal = true) (hs : s.RxCursors) :
    (beginFrame s).RxCursors := by
  by_cases h : s.rx.accCount = 0
  · obtain ⟨promoted, hbps⟩ := beginFrame_frameBps h
    have hw : (beginFrame s).rx.frameBps = 1 ∨ (beginFrame s).rx.frameBps = 2 := by
      rw [hbps]; exact effectiveBps_legal (beginFrame_legal hp ha) promoted
    constructor
    · intro _; rw [beginFrame_rx_accCount]; exact h
    · rw [beginFrame_rx_accCount, h]; exact samplesPerFrame_pos hw
    · exact hw
    · rw [beginFrame_rx_emitting, beginFrame_rx_emitIdx, beginFrame_rx_emitR]; exact hs.ahead
    · rw [beginFrame_rx_emitR]; exact hs.parity
    · rw [beginFrame_rx_fb]; exact hs.store
  · rw [beginFrame_of_ne h]; exact hs

/-- With decimation the frame that is begun, or under way, is two bytes wide (rule R180(c)). -/
theorem beginFrame_wide (hs : s.FrameWide) (hd : (beginFrame s).cfg.activeRx.decim ≠ 0) :
    (beginFrame s).rx.frameBps = 2 := by
  by_cases h : s.rx.accCount = 0
  · obtain ⟨promoted, hbps⟩ := beginFrame_frameBps h
    rw [hbps, effectiveBps_of_decim hd]
  · rw [beginFrame_of_ne h] at hd ⊢
    exact (hs.building hd).resolve_left h

/-- A stored sample, and the frame packed where it is full (rules R174, R175). -/
theorem storeSample_sound {y : Sample} {wall : Wall} (h : storeSample y wall s = .ok t)
    (hfec : s.cfg.activeRx.fecblk.toNat ≤ Config.parityMax) (he : s.rx.emitting = false) (hs : s.RxCursors) :
    t.RxCursors ∧ ((s.cfg.activeRx.decim ≠ 0 → s.rx.frameBps = 2) → t.FrameWide) := by
  have hcfg := (storeSample_width h).1
  have h := storeSample_ok h
  dsimp only at h
  obtain ⟨h1, h2, h⟩ := h
  have hfb1 := Memory.write_within (bs := componentBytes s.rx.frameBps.toNat y.i) hs.store
    (by rw [componentBytes_length]; exact bodyAddr_bound h1)
  have hfb2 := Memory.write_within (bs := componentBytes s.rx.frameBps.toNat y.q) hfb1
    (by rw [componentBytes_length]; exact bodyAddr_bound h2)
  split at h
  · obtain ⟨hcur, hmeta⟩ := packFrame_sound h hfb2 hs.width hfec
    obtain ⟨fb, -, ht⟩ := packFrame_ok h
    have hacc : t.rx.accCount = 0 := by rw [ht]
    refine ⟨hcur, fun hwide => ⟨fun _ => .inl hacc, fun hd _ => hmeta.trans (hwide ?_)⟩⟩
    rw [← hcfg]; exact hd
  · next hfull =>
    subst h
    have hacc : (s.rx.accCount + 1).toNat = s.rx.accCount.toNat + 1 := by
      have hshort := hs.short
      have hmax : samplesPerFrame s.rx.frameBps.toNat ≤ 32258 := by
        rcases hs.width with hw | hw <;> rw [hw] <;> decide
      bv_omega
    have hidle : s.rx.emitting = true → s.rx.accCount + 1 = 0 := fun h => by rw [he] at h; cases h
    have hsend : s.rx.emitting = true → s.rx.emitIdx.toNat < 128 + s.rx.emitR.toNat := hs.ahead
    refine ⟨⟨hidle, ?_, hs.width, hsend, hs.parity, hfb2⟩, fun hwide => ⟨fun hd => .inr (hwide hd), fun _ h => ?_⟩⟩
    · have hshort := hs.short
      change (s.rx.accCount + 1).toNat < samplesPerFrame s.rx.frameBps.toNat
      omega
    · have h : s.rx.emitting = true := h
      rw [he] at h; cases h

theorem fecblk_le_of_legal {b : Bank} (h : b.legal = true) : b.fecblk.toNat ≤ Config.parityMax := (Bank.legal_iff.1 h).1

/-- A sample leaves the cursors in range and a decimated frame wide (rules R174, R180). -/
theorem rxSample_sound {x : Sample} {wall : Wall} (hp : s.cfg.pending.legal = true) (ha : s.cfg.activeRx.legal = true)
    (hs : s.RxCursors) (h : rxSample x wall s = .ok t) : t.RxCursors ∧ (s.FrameWide → t.FrameWide) := by
  have hu := beginFrame_cursors hp ha hs
  have hleg := beginFrame_legal hp ha
  have hsame := decProcess_sameCursors (beginFrame s).params (beginFrame s).cfg.activeRx x (beginFrame s).rx
  obtain ⟨he, h⟩ := rxSample_ok h
  dsimp only at h
  rcases h with ⟨-, rfl⟩ | ⟨y, -, h⟩
  · have hcur := hu.congr (t := { beginFrame s with
      rx := (decProcess (beginFrame s).params (beginFrame s).cfg.activeRx x (beginFrame s).rx).1 }) hsame
    refine ⟨hcur, fun hwide => ⟨fun hd => .inr ?_, fun _ hem => ?_⟩⟩
    · exact hsame.frameBps.trans (beginFrame_wide hwide hd)
    · have hem := hsame.emitting.symm.trans hem
      rw [beginFrame_rx_emitting, he] at hem
      cases hem
  · obtain ⟨hcur, hwide⟩ := storeSample_sound h (fecblk_le_of_legal hleg)
      (hsame.emitting.trans ((beginFrame_rx_emitting s).trans he)) (hu.congr hsame)
    exact ⟨hcur, fun hw => hwide fun hd => hsame.frameBps.trans (beginFrame_wide hw hd)⟩

/-! ### `NET.SEND` -/

/-- A datagram sent moves on to the next block, or ends the frame (rule R272). -/
theorem netSend_sound {now : U64} (hs : s.RxCursors) (h : netSend now s = .ok t) :
    t.RxCursors ∧ (s.FrameWide → t.FrameWide) := by
  obtain ⟨hready, -, rfl⟩ := netSend_ok h
  have hem : s.rx.emitting = true := by
    simp only [sendReady, Bool.and_eq_true] at hready
    exact hready.1
  refine ⟨⟨fun _ => hs.idle hem, hs.short, hs.width, fun hlast => ?_, hs.parity, hs.store⟩, fun hw =>
    ⟨hw.building, fun hd _ => hw.sending hd hem⟩⟩
  have hahead := hs.ahead hem
  have hparity := hs.parity
  have hidx : (s.rx.emitIdx + 1).toNat = s.rx.emitIdx.toNat + 1 := by
    simp only [Config.parityMax] at hparity
    bv_omega
  simp only [Bool.not_eq_true', decide_eq_false_iff_not] at hlast
  change (s.rx.emitIdx + 1).toNat < 128 + s.rx.emitR.toNat
  omega

/-! ### Every transition -/

theorem RxMove.sound (hp : s.cfg.pending.legal = true) (ha : s.cfg.activeRx.legal = true) (hs : s.RxCursors)
    (h : RxMove i s t) : t.RxCursors ∧ (s.FrameWide → t.FrameWide) := by
  have hsame : t.cfg.activeRx = s.cfg.activeRx → SameCursors s.rx t.rx → t.RxCursors ∧ (s.FrameWide → t.FrameWide) :=
    fun hb h => ⟨hs.congr h, fun hw => hw.congr hb h⟩
  cases h with
  | decimate x => exact hsame rfl (decProcess_sameCursors _ _ _ _)
  | mix x => exact hsame rfl ⟨rfl, rfl, rfl, rfl, rfl, rfl⟩
  | clear => exact hsame rfl ⟨rfl, rfl, rfl, rfl, rfl, rfl⟩
  | adopt hd =>
    obtain ⟨hacc, hem, -⟩ := rxMustAdopt_iff.1 hd
    have hcur := rxAdopt_sameCursors s
    exact ⟨hs.congr hcur, fun _ => frameWide_of_boundary (hcur.accCount.trans hacc) (hcur.emitting.trans hem)⟩
  | sample cur x wall hi h =>
    let u : State := { s with rx := { s.rx with cur := cur } }
    have hcur : SameCursors s.rx u.rx := ⟨rfl, rfl, rfl, rfl, rfl, rfl⟩
    obtain ⟨ht, hw⟩ := rxSample_sound (s := u) hp ha (hs.congr hcur) h
    exact ⟨ht, fun hwide => hw (hwide.congr rfl hcur)⟩
  | pack wall hf h =>
    have hshort := hs.short
    omega
  | send now h => exact netSend_sound hs h
  | refill v h =>
    have hq := pullVec_same h
    refine hsame (by rw [hq.cfg]) ?_
    rw [← hq.rx]
    exact ⟨rfl, rfl, rfl, rfl, rfl, rfl⟩

theorem ControlMove.sound (hp : s.cfg.pending.legal = true) (hs : s.RxCursors) (h : ControlMove i s t) :
    t.RxCursors ∧ (s.FrameWide → t.FrameWide) := by
  cases h with
  | reset => exact ⟨⟨nofun, samplesPerFrame_pos (.inr rfl), .inr rfl, nofun, Nat.zero_le _, rfl⟩, fun _ => frameWide_of_boundary rfl rfl⟩
  | start =>
    have hw := effectiveBps_legal hp (decide (1 ≤ s.cfg.pending.decim.toNat))
    exact ⟨⟨nofun, samplesPerFrame_pos hw, hw, nofun, Nat.zero_le _, hs.store⟩, fun _ => frameWide_of_boundary rfl rfl⟩
  | deviceError =>
    exact ⟨⟨nofun, samplesPerFrame_pos hs.width, hs.width, nofun, hs.parity, hs.store⟩,
      fun _ => frameWide_of_boundary rfl rfl⟩
  | drain _ _ _ he =>
    exact ⟨⟨fun _ => rfl, samplesPerFrame_pos hs.width, hs.width, hs.ahead, hs.parity, hs.store⟩,
      fun _ => frameWide_of_boundary rfl he⟩
  | _ => exact ⟨hs.congr (.refl _), fun hw => hw.congr rfl (.refl _)⟩

theorem Performs.cursors (hleg : s.banksLegal = true) (hs : s.RxCursors) (h : Performs i s t) :
    t.RxCursors ∧ (s.FrameWide → t.FrameWide) := by
  obtain ⟨hp, ha, -, -⟩ := banksLegal_iff.1 hleg
  have hsame : t.cfg.activeRx = s.cfg.activeRx → t.rx = s.rx → t.RxCursors ∧ (s.FrameWide → t.FrameWide) :=
    fun hb hrx => ⟨hs.congr (hrx ▸ .refl _), fun hw => hw.congr hb (hrx ▸ .refl _)⟩
  cases h with
  | control h => exact h.sound hp hs
  | configure _ _ h => exact hsame h.same.activeRx h.same.rx
  | queue h => exact hsame (by rw [h.same.cfg]) h.same.rx
  | rx _ h => exact h.sound hp ha hs
  | tx _ h => exact hsame h.activeRx h.rx

theorem rxSound_iff : s.rxSound = true ↔ s.banksLegal = true ∧ s.RxCursors := by
  rw [State.rxSound, Bool.and_eq_true, rxCursors_iff]

theorem Performs.rxSound (hs : s.rxSound = true) (h : Performs i s t) :
    t.rxSound = true ∧ (s.frameWide = true → t.frameWide = true) := by
  obtain ⟨hleg, hcur⟩ := rxSound_iff.1 hs
  obtain ⟨ht, hw⟩ := h.cursors hleg hcur
  exact ⟨rxSound_iff.2 ⟨h.banksLegal hleg, ht⟩, fun hwide => frameWide_iff.2 (hw (frameWide_iff.1 hwide))⟩

end

end Sys2Proof.Machine
end

section
/-! PROOFS. From a sound state no operation reaches outside `FB` or a frame of `WIN` (O53, rule R60). -/

namespace Sys2Proof.Machine

/-- The operation, or the part of one, is not refused for an access outside a store. -/
def StaysInside {α : Type} (o : Except Halt α) : Prop := o ≠ .error (.refuse .outsideStore)

section
variable {α β : Type}

theorem staysInside_ok (a : α) : StaysInside (.ok a) := nofun

theorem staysInside_noStep : StaysInside (.error .noStep : Except Halt α) := nofun

theorem StaysInside.bind {x : Except Halt α} {f : α → Except Halt β} (hx : StaysInside x)
    (hf : ∀ a, x = .ok a → StaysInside (f a)) : StaysInside (x.bind f) := by
  intro h
  rcases bind_eq_error.1 h with h | ⟨a, ha, h⟩
  · exact hx h
  · exact hf a ha h

theorem StaysInside.map {x : Except Halt α} (hx : StaysInside x) (f : α → β) : StaysInside (x.map f) := by
  cases x with
  | ok a => exact nofun
  | error e => exact fun h => hx (by cases h; rfl)

theorem staysInside_of_ok {x : Except Halt α} (h : ∃ a, x = .ok a) : StaysInside x := by
  obtain ⟨a, rfl⟩ := h
  exact staysInside_ok a

end

section
variable {s : State}

/-! ### The Tx half -/

theorem pushVec_staysInside (q : QueueId) (v : List Sample) (s : State) : StaysInside (pushVec q v s) := by
  unfold pushVec
  repeat' split
  all_goals exact nofun

theorem deliver_staysInside (v : List Sample) (s : State) : StaysInside (deliver v s) :=
  pushVec_staysInside .txq _ _

theorem loseFrame_staysInside (e : ErrorEvent) (f : U16) (s : State) : StaysInside (loseFrame e f s) :=
  deliver_staysInside _ _

/-- The complete frame at the base of a sound window has its slots inside the frame. -/
theorem headEntry_readsInside (hs : s.WindowSound) {e : WinEntry} (h : headEntry s = some e) : fecReadsInside e = true := by
  unfold headEntry at h
  split at h
  next e' he =>
    split at h
    · cases h
      exact fecReadsInside_of_present (WinEntry.sound_iff.1 (hs.entries e (winFind_some he).1)).1.bound
    · cases h
  · cases h

theorem settleHead_staysInside (hs : s.WindowSound) : StaysInside (settleHead s) := by
  unfold settleHead
  dsimp only
  split
  · exact loseFrame_staysInside _ _ _
  next e he =>
  refine StaysInside.bind (staysInside_of_ok ⟨_, winDecode_ok.2 ⟨headEntry_readsInside hs he, rfl⟩⟩) fun data _ => ?_
  split
  · exact loseFrame_staysInside _ _ _
  split
  · exact loseFrame_staysInside _ _ _
  · exact deliver_staysInside _ _

theorem txRetire_staysInside (hs : s.WindowSound) : StaysInside (txRetire s) :=
  (settleHead_staysInside hs).map _

theorem evict_staysInside (hs : s.WindowSound) (f : U16) (n : Nat) : StaysInside (evict f n s) := by
  induction n generalizing s with
  | zero => exact staysInside_ok s
  | succ n ih =>
    unfold evict
    split
    · exact (txRetire_staysInside hs).bind fun u hu => ih (txRetire_windowSound hs hu)
    · exact staysInside_ok s

theorem deliverComplete_staysInside (hs : s.WindowSound) (n : Nat) : StaysInside (deliverComplete n s) := by
  induction n generalizing s with
  | zero => exact staysInside_ok s
  | succ n ih =>
    unfold deliverComplete
    split
    · exact (txRetire_staysInside hs).bind fun u hu => ih (txRetire_windowSound hs hu)
    · exact staysInside_ok s

theorem storeSlot_staysInside {b : Nat} {body : List Byte} (hb : b < Config.bodies) (hl : body.length = Config.bodyLen)
    (f : U16) (s : State) : StaysInside (storeSlot f b body s) := by
  unfold storeSlot
  dsimp only
  split
  · exact staysInside_ok _
  · have hin : inBody b 0 body.length = true := inBody_iff.2 ⟨hb, by simp [hl]⟩
    exact (staysInside_of_ok ⟨_, winWrite_ok.2 ⟨hin, rfl⟩⟩).map _

theorem acceptBlock_staysInside {f : U16} {b : Nat} {body : List Byte} (hs : s.WindowSound) (hy : s.tx.synced = true)
    (hb : b < Config.bodies) (hl : body.length = Config.bodyLen) : StaysInside (acceptBlock f b body s) := by
  unfold acceptBlock
  split
  · exact staysInside_ok _
  refine (evict_staysInside hs f _).bind fun u hu => (storeSlot_staysInside hb hl f u).bind fun v hv => ?_
  have hdu : dist f u.tx.base ≤ Config.evictDistance := by
    rw [evict_dist (Nat.le_refl _) hu]
    exact Nat.min_le_left _ _
  have hus : u.WindowSound := evict_keeps txRetire_windowSound hs hu
  exact deliverComplete_staysInside (storeSlot_windowSound hus (evict_synced hy hu) hdu hb hl hv) _

theorem netRecv_staysInside (hleg : s.banksLegal = true) (hs : s.WindowSound) (d : List Byte) :
    StaysInside (netRecv d s) := by
  have hfec := txAdopt_fecblk_le hleg
  unfold netRecv
  dsimp only
  split
  · exact staysInside_ok _
  next hlen =>
  split
  · exact staysInside_ok _
  next hb =>
  exact acceptBlock_staysInside (synchronise_windowSound (txAdopt_windowSound hs) _) (synchronise_synced _ _)
    (by simp only [Config.bodies]; omega) (block_body_length (not_not.1 hlen))

/-! ### The Rx half -/

theorem packFrame_staysInside (wall : Wall) (h : s.cfg.activeRx.fecblk.toNat ≤ Config.parityMax) :
    StaysInside (packFrame wall s) :=
  staysInside_of_ok (packFrame_succeeds wall h)

theorem storeSample_staysInside (y : Sample) (wall : Wall) (hs : s.RxCursors)
    (hfec : s.cfg.activeRx.fecblk.toNat ≤ Config.parityMax) : StaysInside (storeSample y wall s) := by
  obtain ⟨h1, h2⟩ := hs.component_bounds
  unfold storeSample
  dsimp only
  refine (staysInside_of_ok ⟨_, fbWrite_ok.2 ⟨by rw [componentBytes_length]; exact h1, rfl⟩⟩).bind fun fb1 _ => ?_
  refine (staysInside_of_ok ⟨_, fbWrite_ok.2 ⟨by rw [componentBytes_length]; exact h2, rfl⟩⟩).bind fun fb2 _ => ?_
  split
  · exact packFrame_staysInside wall hfec
  · exact staysInside_ok _

theorem rxSample_staysInside (x : Sample) (wall : Wall) (hp : s.cfg.pending.legal = true)
    (ha : s.cfg.activeRx.legal = true) (hs : s.RxCursors) : StaysInside (rxSample x wall s) := by
  unfold rxSample
  split
  · exact staysInside_noStep
  dsimp only
  split
  · exact staysInside_ok _
  · refine storeSample_staysInside _ wall ?_ (fecblk_le_of_legal (beginFrame_legal hp ha))
    exact (beginFrame_cursors hp ha hs).congr (decProcess_sameCursors _ _ _ _)

theorem netSend_staysInside (now : U64) (hs : s.RxCursors) : StaysInside (netSend now s) := by
  by_cases hr : sendReady now s = true
  · have hem : s.rx.emitting = true := by
      simp only [sendReady, Bool.and_eq_true] at hr
      exact hr.1
    have hahead := hs.ahead hem
    have hparity := hs.parity
    simp only [Config.parityMax] at hparity
    exact staysInside_of_ok (netSend_succeeds hr (by simp only [Config.bodies]; omega))
  · unfold netSend
    rw [if_pos hr]
    exact staysInside_noStep

theorem rxwStep_staysInside (now : U64) (wall : Wall) (hp : s.cfg.pending.legal = true) (ha : s.cfg.activeRx.legal = true)
    (hs : s.RxCursors) : StaysInside (rxwStep now wall s) := by
  unfold rxwStep
  split
  · exact staysInside_noStep
  split
  · exact netSend_staysInside now hs
  split
  · next x rest _ =>
    exact rxSample_staysInside (s := { s with rx := { s.rx with cur := rest } }) x wall hp ha
      (hs.congr ⟨rfl, rfl, rfl, rfl, rfl, rfl⟩)
  · repeat' split
    all_goals exact nofun

/-! ### Every operation -/

theorem finish_inside {o : Except Halt State} {r : Result} (h : StaysInside o) : finish s r o ≠ .refused .outsideStore :=
  fun hf => h (finish_eq_refused.1 hf)

theorem unlessStopped_inside {o : Host.Outcome State Fault Refusal} (h : o ≠ .refused .outsideStore) :
    unlessStopped s o ≠ .refused .outsideStore := by
  unfold unlessStopped
  split
  · exact nofun
  · exact h

theorem configure_inside (msg : List Byte) (dev : List DevAnswer) (s : State) :
    configure msg dev s ≠ .refused .outsideStore := by
  obtain ⟨t, ht⟩ := configure_completes msg dev s
  rw [ht]
  exact nofun

theorem datagram_inside {i : Instr} {d : List Byte} (hi : i.datagram = some d) (hleg : s.banksLegal = true)
    (hs : s.WindowSound) : exec i s ≠ .refused .outsideStore := by
  rw [exec_of_datagram hi]
  unfold receive
  split
  · exact nofun
  · exact finish_inside (netRecv_staysInside hleg hs d)

theorem ctlStart_inside (devOk : Bool) (s : State) : execCtlStart devOk s ≠ .refused .outsideStore := by
  unfold execCtlStart
  repeat' split
  all_goals exact nofun

theorem ctlStop_inside (s : State) : execCtlStop s ≠ .refused .outsideStore := by
  unfold execCtlStop
  split <;> exact nofun

theorem ctlDeverr_inside (s : State) : execCtlDeverr s ≠ .refused .outsideStore := by
  unfold execCtlDeverr
  split <;> exact nofun

theorem cfgWrite_inside (reg : Byte) (v : Nat) (s : State) : execCfgWrite reg v s ≠ .refused .outsideStore := by
  unfold execCfgWrite
  split
  · exact nofun
  split
  · exact nofun
  · dsimp only
    split <;> exact nofun

theorem cfgRead_inside (reg : Byte) (s : State) : execCfgRead reg s ≠ .refused .outsideStore := by
  unfold execCfgRead
  split <;> exact nofun

theorem sbPush_inside (q : QueueId) (v : List Sample) (s : State) : execSbPush q v s ≠ .refused .outsideStore := by
  unfold execSbPush
  split
  · exact nofun
  · exact finish_inside (pushVec_staysInside q v s)

theorem sbPull_inside (q : QueueId) (s : State) : execSbPull q s ≠ .refused .outsideStore := by
  unfold execSbPull
  split <;> exact nofun

theorem rxAdopt_inside (s : State) : execRxAdopt s ≠ .refused .outsideStore := by
  refine unlessStopped_inside ?_
  split <;> exact nofun

theorem packFrame_inside (wall : Wall) (h : s.cfg.activeRx.fecblk.toNat ≤ Config.parityMax) :
    execPackFrame wall s ≠ .refused .outsideStore := by
  refine unlessStopped_inside (finish_inside ?_)
  split
  · exact packFrame_staysInside wall h
  · exact staysInside_noStep

theorem txRetire_inside (hw : s.WindowSound) : execTxRetire s ≠ .refused .outsideStore := by
  refine finish_inside ?_
  split
  · exact txRetire_staysInside hw
  · exact staysInside_noStep

theorem fecDecode_inside (slots : List Slot) (s : State) : execFecDecode slots s ≠ .refused .outsideStore := by
  unfold execFecDecode
  dsimp only
  split <;> exact nofun

/-- No operation of a state with a sound Rx half and a sound window is refused for an access outside a store. -/
theorem exec_inside (i : Instr) (hs : s.rxSound = true) (hw : s.WindowSound) : exec i s ≠ .refused .outsideStore := by
  obtain ⟨hleg, hcur⟩ := rxSound_iff.1 hs
  obtain ⟨hp, ha, -, -⟩ := banksLegal_iff.1 hleg
  cases i with
  | ctlReset => exact nofun
  | ctlStart devOk => exact ctlStart_inside devOk s
  | ctlStop => exact ctlStop_inside s
  | ctlDeverr => exact ctlDeverr_inside s
  | cfgWrite reg value => exact cfgWrite_inside reg value s
  | cfgRead reg => exact cfgRead_inside reg s
  | sbPush queue v => exact sbPush_inside queue v s
  | sbPull queue => exact sbPull_inside queue s
  | sbEnd queue => exact nofun
  | sbWaitfill queue n => exact nofun
  | sbQueued queue => exact nofun
  | decProcess x => exact unlessStopped_inside nofun
  | intProcess v => exact unlessStopped_inside nofun
  | dspReset half => cases half <;> exact unlessStopped_inside nofun
  | mixFs4 x => exact unlessStopped_inside nofun
  | rxwStep now wall => exact finish_inside (rxwStep_staysInside now wall hp ha hcur)
  | rxAdopt => exact rxAdopt_inside s
  | rxSample x wall => exact unlessStopped_inside (finish_inside (rxSample_staysInside x wall hp ha hcur))
  | packFrame wall => exact packFrame_inside wall (fecblk_le_of_legal ha)
  | crc32 bytes => exact nofun
  | netRecv d => exact datagram_inside rfl hleg hw
  | txAdopt => exact unlessStopped_inside nofun
  | txRetire => exact txRetire_inside hw
  | unpackExpand bodies b => exact nofun
  | fecEncode data m => exact nofun
  | fecDecode slots => exact fecDecode_inside slots s
  | netSend now => exact unlessStopped_inside (finish_inside (netSend_staysInside now hcur))
  | blkMeta fidx rsv body => exact datagram_inside rfl hleg hw
  | blkSample fidx b rsv body => exact datagram_inside rfl hleg hw
  | blkParity fidx b rsv body => exact datagram_inside rfl hleg hw
  | _ => exact configure_inside _ _ s

theorem step_inside (hs : s.rxSound = true) (hw : s.windowSound = true) : step s ≠ .refused .outsideStore := by
  unfold step
  split
  · exact nofun
  next rest _ =>
  split
  · next i _ => exact exec_inside (s := s.withInbox rest) i hs (windowSound_iff.1 hw)
  · exact nofun

end

end Sys2Proof.Machine

namespace Sys2Proof

/-- Settles O53: a sample is stored inside a frame of one of the two widths, a full frame becomes one that is sent, and sending ends
at its last block; and every access to a store has its bounds from the cursors, the legal registers and the window. -/
theorem stepKeepsRxSound : Obligations.StepKeepsRxSound := by
  intro s hs
  refine ⟨fun t h => ?_, fun hw => Machine.step_inside hs hw⟩
  refine Machine.step_keeps (P := fun u => u.rxSound = true ∧ (s.frameWide = true → u.frameWide = true))
    ⟨fun _ _ h => h, fun _ _ h => h⟩ (fun hu h => ?_) ⟨hs, id⟩ h
  obtain ⟨ht, hwide⟩ := h.rxSound hu.1
  exact ⟨ht, fun hw => hwide (hu.2 hw)⟩

end Sys2Proof
end

section
/-! PROOFS. The register table of `CFG.READ` (O13, rules R27, R41, R294). -/

namespace Sys2Proof.Machine

/-- `CFG.READ` of a register answers its value (rule R294). -/
theorem exec_cfgRead_of_some {s : State} {reg : Byte} {v : Nat} (h : readRegister s reg = some v) :
    exec (.cfgRead reg) s = .next (s.ret (.value (BitVec.ofNat 64 v))) := by
  change execCfgRead reg s = _
  unfold execCfgRead
  rw [h]

/-- `CFG.READ` of a number that is no register is rejected (rule R294). -/
theorem exec_cfgRead_of_none {s : State} {reg : Byte} (h : readRegister s reg = none) :
    exec (.cfgRead reg) s = .next (s.ret (.outcome (.rejected .unknown))) := by
  change execCfgRead reg s = _
  unfold execCfgRead
  rw [h]

/-- A bit of `FLAGS` as a summand (rule R41). -/
theorem flagBit_eq (n : Nat) (b : Bool) : flagBit n b = 2 ^ n * b.toNat := by
  cases b <;> simp [flagBit]

theorem flagsRegister_eq (s : State) :
    flagsRegister s =
      s.rx.promoted.toNat + 2 * s.rx.emitting.toNat + 4 * s.tx.synced.toNat + 8 * s.rxq.overLatch.toNat +
        16 * s.txq.overLatch.toNat + 32 * s.rxq.ended.toNat + 64 * s.txq.ended.toNat + 128 * s.ctl.stopFlag.toNat := by
  simp only [flagsRegister, flagBit_eq]
  omega

/-- The numbers of the registers (rules R32 to R40, R41). -/
def registerNumbers : List Byte :=
  [0x00, 0x01, 0x02, 0x03, 0x04, 0x05, 0x06, 0x07, 0x08, 0x10, 0x11, 0x12, 0x13, 0x14, 0x15, 0x18, 0x19, 0x1A, 0x1B, 0x1C, 0x20,
   0x21, 0x28, 0x29, 0x2A, 0x2B, 0x2C, 0x2D, 0x2E, 0x2F, 0x30, 0x31, 0x32, 0x38, 0x39, 0x3A, 0x3B, 0x3C, 0x3D, 0x3E, 0x3F, 0x40]

theorem eq_ofNat_of_toNat {reg : Byte} {n : Nat} (h : reg.toNat = n) : reg = BitVec.ofNat 8 n := by
  rw [← h, BitVec.ofNat_toNat, BitVec.setWidth_eq]

/-- A number that answers is one of the table. -/
theorem mem_registerNumbers_of_some {s : State} {reg : Byte} {v : Nat} (h : readRegister s reg = some v) :
    reg ∈ registerNumbers := by
  unfold readRegister at h
  split at h
  · next r hr =>
    unfold CfgReg.ofCode at hr
    split at hr
    case h_10 => cases hr
    all_goals next hreg => rw [eq_ofNat_of_toNat hreg]; decide
  · unfold readStatus at h
    split at h
    case h_34 => cases h
    all_goals next hreg => rw [eq_ofNat_of_toNat hreg]; decide

theorem readRegister_eq_none {s : State} {reg : Byte} (h : reg ∉ registerNumbers) : readRegister s reg = none :=
  Option.eq_none_iff_forall_ne_some.2 fun _ hv => h (mem_registerNumbers_of_some hv)

/-- The valid flag of the last meta body as a register (rule R41). -/
theorem readRegister_lastValid (s : State) : readRegister s 0x40 = some s.tx.last.valid.toNat := by
  change some (if s.tx.last.valid then 1 else 0) = _
  cases s.tx.last.valid <;> rfl

theorem readRegister_flags (s : State) :
    readRegister s 0x15 = some (s.rx.promoted.toNat + 2 * s.rx.emitting.toNat + 4 * s.tx.synced.toNat +
      8 * s.rxq.overLatch.toNat + 16 * s.txq.overLatch.toNat + 32 * s.rxq.ended.toNat + 64 * s.txq.ended.toNat +
        128 * s.ctl.stopFlag.toNat) :=
  congrArg some (flagsRegister_eq s)

end Sys2Proof.Machine

namespace Sys2Proof

/-- Settles O13: each register by its number, and no number outside the table answers. -/
theorem cfgReadTable : Obligations.CfgReadTable := by
  intro s lifecycle stopCause table
  refine ⟨fun x hx => Machine.exec_cfgRead_of_some ?_, fun reg hreg => Machine.exec_cfgRead_of_none ?_⟩
  · revert x
    simp only [table, List.forall_mem_cons, List.not_mem_nil, false_implies, implies_true, and_true, true_and,
      Machine.readRegister_flags, Machine.readRegister_lastValid]
    repeat' apply And.intro
    all_goals rfl
  · have hnumbers : table.map Prod.fst = Machine.registerNumbers := rfl
    refine Machine.readRegister_eq_none fun hmem => ?_
    rw [← hnumbers] at hmem
    obtain ⟨x, hx, rfl⟩ := List.mem_map.1 hmem
    exact hreg x hx rfl

end Sys2Proof
end

section
/-! PROOFS. What is pushed comes out in order (O22, rules R74, R132 to R134). -/

namespace Sys2Proof.Machine

/-! ### Runs -/

/-- A run begins with its first operation. -/
theorem runAll_cons {i : Instr} {l : List Instr} {s t u : State} {rs : List Result} (h : exec i s = .next t)
    (hl : runAll l t = some (u, rs)) : runAll (i :: l) s = some (u, t.io.result :: rs) := by
  simp only [runAll, h, hl, Option.map_some]

/-- The first operation of a run that completes, and the run of the rest. -/
theorem runAll_cons_eq_some {i : Instr} {l : List Instr} {s u : State} {rs : List Result}
    (h : runAll (i :: l) s = some (u, rs)) :
    ∃ t rs', exec i s = .next t ∧ runAll l t = some (u, rs') ∧ rs = t.io.result :: rs' := by
  rw [runAll] at h
  cases hi : exec i s with
  | next t =>
    rw [hi] at h
    obtain ⟨⟨u', rs'⟩, hl, hu⟩ := Option.map_eq_some_iff.1 h
    cases hu
    exact ⟨t, rs', rfl, hl, rfl⟩
  | fault _ => rw [hi] at h; cases h
  | refused _ => rw [hi] at h; cases h

/-! ### A queue that is filled and emptied -/

section
variable {q : QueueId} {s : State}

/-- From `s` to `t` queue `q` took the vectors `vs` behind what it held, and still accepts what it accepted (rule R132). -/
structure Enqueued (q : QueueId) (vs : List (List Sample)) (s t : State) : Prop where
  params : t.params = s.params
  ctl : t.ctl = s.ctl
  cfg : t.cfg = s.cfg
  ended : (t.queue q).ended = (s.queue q).ended
  vecs : (t.queue q).vecs = (s.queue q).vecs ++ vs

theorem hasRoom_of_unbounded (hcap : s.params.sbCap = none) (q : QueueId) (v : List Sample) : hasRoom s q v = true := by
  unfold hasRoom
  rw [hcap]

/-- A push into an open queue without a bound (rule R132). -/
theorem exec_sbPush_enqueues {v : List Sample} (hl : s.ctl.lifecycle = .streaming) (he : (s.queue q).ended = false)
    (hcap : s.params.sbCap = none) (hv : v ≠ [])
    (hfit : q = .rxq → ∀ x ∈ v, Sample.fitsWidth s.cfg.pending.bps x = true) :
    ∃ t, exec (.sbPush q v) s = .next t ∧ Enqueued q [v] s t := by
  have hpush := pushVec_of_ready hl he (fun hq => List.all_eq_true.2 (hfit hq)) (hasRoom_of_unbounded hcap q v)
  rw [if_neg hv] at hpush
  have hexec : exec (.sbPush q v) s =
      .next ((overrunCheck q (s.setQueue q { s.queue q with vecs := (s.queue q).vecs ++ [v] })).ret .done) := by
    change execSbPush q v s = _
    rw [execSbPush, if_neg (fun h => h.2 hl), hpush, finish_ok]
  exact ⟨_, hexec, by simp, by simp, by simp, by simp, by simp⟩

theorem runAll_sbPush_enqueues {vs : List (List Sample)} (hl : s.ctl.lifecycle = .streaming)
    (he : (s.queue q).ended = false) (hcap : s.params.sbCap = none)
    (hvs : ∀ v ∈ vs, v ≠ [] ∧ (q = .rxq → ∀ x ∈ v, Sample.fitsWidth s.cfg.pending.bps x = true)) :
    ∃ t rs, runAll (vs.map (.sbPush q)) s = some (t, rs) ∧ rs.length = vs.length ∧ Enqueued q vs s t := by
  induction vs generalizing s with
  | nil => exact ⟨s, [], rfl, rfl, rfl, rfl, rfl, rfl, (List.append_nil _).symm⟩
  | cons v vs ih =>
    obtain ⟨⟨hne, hfit⟩, hvs⟩ := List.forall_mem_cons.1 hvs
    obtain ⟨t, ht, hfirst⟩ := exec_sbPush_enqueues hl he hcap hne hfit
    obtain ⟨u, rs, hu, hlen, hrest⟩ := ih (s := t) (by rw [hfirst.ctl, hl]) (by rw [hfirst.ended, he])
      (by rw [hfirst.params, hcap]) (by rw [hfirst.cfg]; exact hvs)
    refine ⟨u, _, runAll_cons ht hu, by simp [hlen], hrest.params.trans hfirst.params, hrest.ctl.trans hfirst.ctl,
      hrest.cfg.trans hfirst.cfg, hrest.ended.trans hfirst.ended, ?_⟩
    rw [hrest.vecs, hfirst.vecs, List.append_assoc, List.singleton_append]

theorem notStarted_of_streaming (hl : s.ctl.lifecycle = .streaming) (q : QueueId) : notStarted q s = false := by
  simp [notStarted, hl]

/-- A pull takes the oldest vector and leaves the rest (rule R133). -/
theorem exec_sbPull_oldest {v : List Sample} {rest : List (List Sample)} (hl : s.ctl.lifecycle = .streaming)
    (hv : (s.queue q).vecs = v :: rest) :
    ∃ t, exec (.sbPull q) s = .next t ∧ t.io.result = .vector v ∧ t.ctl = s.ctl ∧
      (t.queue q).ended = (s.queue q).ended ∧ (t.queue q).vecs = rest := by
  refine ⟨(overrunRearm q (s.setQueue q { s.queue q with vecs := rest })).ret (.vector v), ?_, rfl, ?_, ?_, ?_⟩
  · change execSbPull q s = _
    simp only [execSbPull, pullVec, notStarted_of_streaming hl, hv, Bool.false_eq_true, if_false]
  all_goals simp

/-- A pull from an empty queue that has ended returns the empty vector of the end (rule R133). -/
theorem exec_sbPull_end (hl : s.ctl.lifecycle = .streaming) (he : (s.queue q).ended = true)
    (hv : (s.queue q).vecs = []) : exec (.sbPull q) s = .next (s.ret (.vector [])) := by
  change execSbPull q s = _
  simp only [execSbPull, pullVec, notStarted_of_streaming hl, hv, he, Bool.false_eq_true, Bool.true_or, if_false, if_true]

/-- The pulls that empty a queue that has ended. -/
theorem runAll_sbPull_drains {l : List (List Sample)} (hl : s.ctl.lifecycle = .streaming)
    (he : (s.queue q).ended = true) (hv : (s.queue q).vecs = l) :
    ∃ t, runAll (List.replicate (l.length + 1) (.sbPull q)) s = some (t, (l ++ [[]]).map .vector) ∧
      (t.queue q).vecs = [] := by
  induction l generalizing s with
  | nil => exact ⟨_, runAll_cons (exec_sbPull_end hl he hv) rfl, by rw [State.ret_queue, hv]⟩
  | cons v l ih =>
    obtain ⟨t, ht, hr, hctl, hended, hvecs⟩ := exec_sbPull_oldest hl hv
    obtain ⟨u, hu, hempty⟩ := ih (s := t) (by rw [hctl, hl]) (by rw [hended, he]) hvecs
    refine ⟨u, ?_, hempty⟩
    have hrun := runAll_cons ht hu
    rwa [hr] at hrun

end

end Sys2Proof.Machine

namespace Sys2Proof

open Machine

/-- Settles O22: the pushes lengthen the queue at its end, `SB.END` leaves its vectors, and each pull takes the oldest. -/
theorem queueIsFifo : Obligations.QueueIsFifo := by
  intro q s vs hl he hcap hvs
  obtain ⟨t, rs, ht, hlen, hq⟩ := runAll_sbPush_enqueues hl he hcap hvs
  have hend : exec (.sbEnd q) t = .next ((endQueue q t).ret .done) := rfl
  have hvecs : (((endQueue q t).ret .done).queue q).vecs = (s.queue q).vecs ++ vs := by simp [hq.vecs]
  obtain ⟨u, hu, hempty⟩ := runAll_sbPull_drains (s := (endQueue q t).ret .done) (by simp [hq.ctl, hl]) (by simp) hvecs
  rw [List.length_append] at hu
  refine ⟨u, _, runAll_append (runAll_append ht (runAll_cons hend rfl)) hu, ?_, hempty⟩
  exact List.drop_left' (by simp [hlen])

end Sys2Proof
end

section
/-! PROOFS. Operations that do not depend on what stands at the answer port: one half's operation gives the same from any last
answer, and one that never waits gives the same outcome wherever it is offered. -/

namespace Sys2Proof.Machine

/-- An operation of one half does not look at the last answer. -/
theorem LocalAt.ret {h : Half} {f : State → Except Halt State} {s : State} (hf : LocalAt h f s) (r : Result) :
    f (s.ret r) = (f s).map fun u => u.ret r := by
  have hs : s.ret r = s.withHalf h.other (s.ret r) := by cases h <;> rfl
  rw [hs]
  cases hu : f s with
  | error e => rw [hf, hu]; rfl
  | ok u =>
    rw [hf.ok hu, hf.writes hu]
    cases h <;> rfl

/-- The operation, or the part of one, is performed or refused: its agent does not wait. -/
def Proceeds {α : Type} (o : Except Halt α) : Prop := o ≠ .error .noStep

section
variable {α β : Type}

theorem proceeds_ok (a : α) : Proceeds (.ok a) := nofun

theorem Proceeds.bind {x : Except Halt α} {f : α → Except Halt β} (hx : Proceeds x)
    (hf : ∀ a, x = .ok a → Proceeds (f a)) : Proceeds (x.bind f) := by
  intro h
  rcases bind_eq_error.1 h with h | ⟨a, ha, h⟩
  · exact hx h
  · exact hf a ha h

theorem Proceeds.map {x : Except Halt α} (hx : Proceeds x) (f : α → β) : Proceeds (x.map f) := by
  cases x with
  | ok a => exact nofun
  | error e => exact fun h => hx (by cases h; rfl)

end

/-- What an operation that does not wait leads to does not depend on where it is offered. -/
theorem finish_of_proceeds {o : Except Halt State} (ho : Proceeds o) (s t : State) (r : Result) :
    finish s r o = finish t r o := by
  cases o with
  | ok u => rfl
  | error e =>
    cases e with
    | noStep => exact absurd rfl ho
    | refuse x => rfl

/-- An operation of one half that does not wait leads to the same from any last answer. -/
theorem LocalAt.finish_ret {h : Half} {f : State → Except Halt State} {s : State} (hf : LocalAt h f s)
    (hp : Proceeds (f s)) (t : State) (r r' : Result) :
    Machine.finish (s.ret r) r' (f (s.ret r)) = Machine.finish t r' (f s) := by
  rw [hf.ret r, finish_of_proceeds (hp.map _) _ t]
  cases f s with
  | ok u => rfl
  | error e => cases e <;> rfl

end Sys2Proof.Machine
end

section
/-! PROOFS. A sample inside a frame (O33, rules R60, R61, R174, R175). -/

namespace Sys2Proof

/-- Byte `k` of a little-endian layout (rule R9). -/
theorem leBytes_getElem {n v k : Nat} (h : k < (leBytes n v).length) : ((leBytes n v)[k]).toNat = v / 256 ^ k % 256 := by
  induction n generalizing v k with
  | zero => simp at h
  | succ n ih =>
    cases k with
    | zero => simp [leBytes]
    | succ k =>
      simp only [leBytes, List.getElem_cons_succ]
      rw [ih, Nat.div_div_eq_div_mul, Nat.pow_succ']

namespace Machine

/-! ### The place of a sample -/

/-- The address of sample `n` of a frame of width `w` (rule R61). -/
def sampleAddr (w n : Nat) : Nat := bodyAddr (1 + n / samplesPerBlock w) (n % samplesPerBlock w * (2 * w))

theorem bodyAddr_add (blk off k : Nat) : bodyAddr blk (off + k) = bodyAddr blk off + k := (Nat.add_assoc _ _ _).symm

/-- `FB` with sample `n` of a frame of width `w`: I, then Q, each little-endian (rules R61, R174). -/
def putSample (m : Memory) (w n : Nat) (y : Sample) : Memory :=
  (m.write (sampleAddr w n) (componentBytes w y.i)).write (sampleAddr w n + w) (componentBytes w y.q)

section
variable {m : Memory} {w n : Nat} {y : Sample}

/-- A byte of a component written at `a`. -/
theorem get_write_component {m : Memory} {a w k : Nat} (x : BitVec 16) (hk : k < w) :
    (Memory.get (m.write a (componentBytes w x)) (a + k)).toNat = x.toNat / 256 ^ k % 256 := by
  rw [Memory.get_write, dif_pos (by rw [componentBytes_length]; omega)]
  simp only [Nat.add_sub_cancel_left]
  exact leBytes_getElem _

theorem get_putSample_i {k : Nat} (hk : k < w) :
    (Memory.get (putSample m w n y) (sampleAddr w n + k)).toNat = y.i.toNat / 256 ^ k % 256 := by
  rw [putSample, Memory.get_write_ne _ _ _ _ (.inl (by omega))]
  exact get_write_component y.i hk

theorem get_putSample_q {k : Nat} (hk : k < w) :
    (Memory.get (putSample m w n y) (sampleAddr w n + w + k)).toNat = y.q.toNat / 256 ^ k % 256 :=
  get_write_component y.q hk

theorem get_putSample_ne {a : Nat} (ha : a < sampleAddr w n ∨ sampleAddr w n + 2 * w ≤ a) :
    Memory.get (putSample m w n y) a = Memory.get m a := by
  rw [putSample, Memory.get_write_ne, Memory.get_write_ne] <;> rw [componentBytes_length] <;> omega

theorem putSample_wf (hm : m.wf = true) : (putSample m w n y).wf = true :=
  Memory.write_wf (Memory.write_wf hm _ _) _ _

end

/-! ### The store of a sample -/

section
variable {s : State}

/-- The state with a decimated sample stored at its place, and counted (rule R174). -/
def State.withSample (s : State) (y : Sample) : State :=
  { s with
    rx :=
      { s.rx with
        fb := putSample s.rx.fb s.rx.frameBps.toNat s.rx.accCount.toNat y
        accCount := s.rx.accCount + 1 } }

/-- The count of a frame does not wrap (rule R25). -/
theorem accCount_succ (hw : s.rx.frameBps = 1 ∨ s.rx.frameBps = 2)
    (hn : s.rx.accCount.toNat < samplesPerFrame s.rx.frameBps.toNat) :
    (s.rx.accCount + 1).toNat = s.rx.accCount.toNat + 1 := by
  have hmax : samplesPerFrame s.rx.frameBps.toNat ≤ 32258 := by rcases hw with hw | hw <;> rw [hw] <;> decide
  bv_omega

/-- Inside a frame the store of a sample finds its place, and the frame that it fills is packed (rules R174, R175). -/
theorem storeSample_inside {y : Sample} {wall : Wall} (hw : s.rx.frameBps = 1 ∨ s.rx.frameBps = 2)
    (hn : s.rx.accCount.toNat < samplesPerFrame s.rx.frameBps.toNat) :
    (s.rx.accCount.toNat + 1 < samplesPerFrame s.rx.frameBps.toNat →
        storeSample y wall s = .ok (s.withSample y)) ∧
      (s.rx.accCount.toNat + 1 = samplesPerFrame s.rx.frameBps.toNat →
        storeSample y wall s = packFrame wall (s.withSample y)) := by
  have hwidth : s.rx.frameBps.toNat = 1 ∨ s.rx.frameBps.toNat = 2 := by rcases hw with hw | hw <;> simp [hw]
  obtain ⟨hi, hq⟩ := component_bounds hwidth hn
  unfold storeSample
  dsimp only
  rw [fbWrite_ok.2 ⟨by rw [componentBytes_length]; exact hi, rfl⟩]
  simp only [Except.bind]
  rw [fbWrite_ok.2 ⟨by rw [componentBytes_length]; exact hq, rfl⟩]
  simp only [accCount_succ hw hn, bodyAddr_add]
  exact ⟨fun hlt => if_neg (Nat.ne_of_lt hlt), fun hfull => if_pos hfull⟩

theorem fbWrite_proceeds (m : Memory) (blk off : Nat) (bs : List Byte) : Proceeds (fbWrite m blk off bs) := by
  unfold fbWrite
  split <;> exact nofun

theorem fbWriteBodies_proceeds (m : Memory) (blk : Nat) (bodies : List (List Byte)) :
    Proceeds (fbWriteBodies m blk bodies) := by
  induction bodies generalizing m blk with
  | nil => exact proceeds_ok m
  | cons b r ih => exact (fbWrite_proceeds m blk 0 b).bind fun m' _ => ih m' (blk + 1)

theorem packFrame_proceeds (wall : Wall) (s : State) : Proceeds (packFrame wall s) := by
  unfold packFrame
  exact (fbWrite_proceeds _ _ _ _).bind fun _ _ => (fbWriteBodies_proceeds _ _ _).bind fun _ _ => proceeds_ok _

/-- `PACK.FRAME` offered alone on a full frame is the packing that ends `RX.SAMPLE` (rules R174, R176). -/
theorem exec_packFrame_of_full {wall : Wall} (hl : s.ctl.lifecycle ≠ .stopped)
    (hf : s.rx.accCount.toNat = samplesPerFrame s.rx.frameBps.toNat) (t : State) (r : Result) :
    exec (.packFrame wall) (s.ret r) = finish t .done (packFrame wall s) := by
  have hexec : exec (.packFrame wall) (s.ret r) = finish (s.ret r) .done (packFrame wall (s.ret r)) := by
    change execPackFrame wall (s.ret r) = _
    rw [execPackFrame, unlessStopped_of_ne (s := s.ret r) hl, State.ret_rx, if_pos hf]
  rw [hexec]
  exact (packFrame_local wall s).finish_ret (packFrame_proceeds wall s) t r .done

/-! ### `RX.SAMPLE` -/

theorem exec_rxSample {x : Sample} {wall : Wall} (hl : s.ctl.lifecycle ≠ .stopped) :
    exec (.rxSample x wall) s = finish s .done (rxSample x wall s) :=
  unlessStopped_of_ne hl _

/-- While a frame is being sent `RX.SAMPLE` waits (rule R174). -/
theorem exec_rxSample_of_emitting {x : Sample} {wall : Wall} (hl : s.ctl.lifecycle ≠ .stopped)
    (he : s.rx.emitting = true) : exec (.rxSample x wall) s = .next (s.ret .noStep) := by
  rw [exec_rxSample hl, rxSample_eq, if_pos he, finish_noStep]

/-- The state with another content of the decimator (rule R45). -/
def State.withDecimator (s : State) (phase : BitVec 2) (dec : List DecStage) : State :=
  { s with rx := { s.rx with mixPhase := phase, dec := dec } }

/-- Inside a frame `RX.SAMPLE` is the decimator's step, which writes nothing but the decimator, and the store of what it yields. -/
theorem rxSample_inside {x : Sample} {wall : Wall} (hl : s.ctl.lifecycle ≠ .stopped) (he : s.rx.emitting = false)
    (ha : s.rx.accCount ≠ 0) :
    ∃ (phase : BitVec 2) (dec : List DecStage) (z : Option Sample),
      exec (.decProcess x) s = .next ((s.withDecimator phase dec).ret (.sample z)) ∧
        (z = none → rxSample x wall s = .ok (s.withDecimator phase dec)) ∧
        ∀ y, z = some y → rxSample x wall s = storeSample y wall (s.withDecimator phase dec) := by
  obtain ⟨phase, dec, hd⟩ := decProcess_writes s.params s.cfg.activeRx x s.rx
  have hexec : exec (.decProcess x) s =
      .next (({ s with rx := (decProcess s.params s.cfg.activeRx x s.rx).1 } : State).ret
        (.sample (decProcess s.params s.cfg.activeRx x s.rx).2)) := unlessStopped_of_ne hl _
  have hsample : rxSample x wall s = decimateAndStore x wall s := by
    rw [rxSample_eq, beginFrame_of_ne ha, he]
    rfl
  unfold decimateAndStore at hsample
  dsimp only at hsample
  rw [hd] at hexec hsample
  refine ⟨phase, dec, _, hexec, fun hz => ?_, fun y hz => ?_⟩
  · rw [hsample, hz]; rfl
  · rw [hsample, hz]; rfl

end

end Machine

open Machine

/-- Settles O33: the decimator writes nothing but itself, and a sample inside the frame has both components inside one body of
blocks 1 to 127, so that its store is not refused. -/
theorem rxSampleStores : Obligations.RxSampleStores := by
  intro x wall s hl
  refine ⟨exec_rxSample_of_emitting hl, fun he ha => ?_⟩
  obtain ⟨phase, dec, z, hdec, hnone, hsome⟩ := rxSample_inside (x := x) (wall := wall) hl he ha
  refine ⟨_, z, hdec, rfl, fun hz => ?_, fun y hz hw hn => ?_⟩
  · rw [exec_rxSample hl, hnone hz, finish_ok]
    rfl
  obtain ⟨hshort, hpack⟩ := storeSample_inside (s := s.withDecimator phase dec) (y := y) (wall := wall) hw hn
  refine ⟨putSample s.rx.fb s.rx.frameBps.toNat s.rx.accCount.toNat y, fun hlt => ?_, fun hfull => ?_,
    fun k hk => get_putSample_i hk, fun k hk => get_putSample_q hk, fun a ha => get_putSample_ne ha, putSample_wf⟩
  · rw [exec_rxSample hl, hsome y hz, hshort hlt, finish_ok]
    rfl
  · rw [exec_rxSample hl, hsome y hz, hpack hfull]
    have hacc := (accCount_succ hw hn).trans hfull
    exact (exec_packFrame_of_full (s := (s.withDecimator phase dec).withSample y) hl hacc s (.sample z)).symm

end Sys2Proof
end

section
/-! PROOFS. The order of an emission and the index of each frame (O40, rules R69, R180, R272, R273). -/

namespace Sys2Proof.Machine

/-! ### One frame, block by block -/

section
variable {s : State}

/-- Block `b` of the frame that is being sent, as it goes to the network (rules R90, R91, R272). -/
def State.frameBlock (s : State) (b : Nat) : List Byte :=
  blockBytes s.rx.frameCtr (BitVec.ofNat 8 b) 0 (bodyOf s.rx.fb b)

/-- The times of a run of sends respect the pacing: the first is not before `ready`, and each other follows the one before it by
`delay` at least (rule R272). -/
def Paced (delay : U64) : U64 → List U64 → Prop
  | _, [] => True
  | ready, t :: r => ready ≤ t ∧ Paced delay (t + delay) r

theorem paced_of_getElem {delay ready : U64} {times : List U64} (h0 : ∀ t, times[0]? = some t → ready ≤ t)
    (hs : ∀ k t u, times[k]? = some t → times[k + 1]? = some u → t + delay ≤ u) : Paced delay ready times := by
  induction times generalizing ready with
  | nil => trivial
  | cons t r ih =>
    exact ⟨h0 t rfl, ih (fun u hu => hs 0 t u rfl hu) fun k t' u ht hu => hs (k + 1) t' u ht hu⟩

/-- What a run of sends of one frame leaves alone, and that it counts each datagram: from `s` to `t` the blocks `bs` were sent. -/
structure SendsBlocks (bs : List Nat) (s t : State) : Prop where
  sent : t.io.sent = s.io.sent ++ bs.map s.frameBlock
  dgrams : t.cnt.dgramsSent = s.cnt.dgramsSent + BitVec.ofNat 32 bs.length
  fb : t.rx.fb = s.rx.fb
  tx : t.tx = s.tx

/-- From `s` to `t` the frame was sent to its end (rule R272). -/
structure EndsFrame (s t : State) : Prop where
  emitting : t.rx.emitting = false
  frameCtr : t.rx.frameCtr = s.rx.frameCtr + 1
  framesSent : t.cnt.framesSent = s.cnt.framesSent + 1

/-- Between two blocks of one frame: the registers that the next `NET.SEND` reads, with block `b` next and the pacing over at
`ready`. -/
structure Sending (b : Nat) (ready : U64) (s : State) : Prop where
  lifecycle : s.ctl.lifecycle ≠ .stopped
  emitting : s.rx.emitting = true
  index : s.rx.emitIdx.toNat = b
  pace : s.rx.paceReadyAt = ready

/-- From `s` to `t` the frame goes on: the registers that say which frame is sent stay. -/
structure SameFrame (s t : State) : Prop where
  emitR : t.rx.emitR = s.rx.emitR
  frameCtr : t.rx.frameCtr = s.rx.frameCtr
  framesSent : t.cnt.framesSent = s.cnt.framesSent
  txdelay : t.cfg.activeRx.txdelay = s.cfg.activeRx.txdelay

/-- One `NET.SEND` at its time sends the next block, and ends the frame where it is the last one (rule R272). -/
theorem exec_netSend_sends {b : Nat} {ready now : U64} (hs : Sending b ready s) (hb : b < 255) (hnow : ready ≤ now) :
    ∃ t, exec (.netSend now) s = .next t ∧ SendsBlocks [b] s t ∧
      (b + 1 = 128 + s.rx.emitR.toNat → EndsFrame s t) ∧
      (b + 1 ≠ 128 + s.rx.emitR.toNat →
        Sending (b + 1) (now + s.cfg.activeRx.txdelay.setWidth 64) t ∧ SameFrame s t) := by
  obtain ⟨hl, he, hidx, hpace⟩ := hs
  have hready : sendReady now s = true := by simp [sendReady, he, hpace, hnow]
  have hnext : (s.rx.emitIdx + 1).toNat = b + 1 := by bv_omega
  obtain ⟨u, hu⟩ := netSend_succeeds hready (by rw [hidx]; exact hb)
  have hexec : exec (.netSend now) s = .next (u.ret .done) := by
    change execNetSend now s = _
    rw [execNetSend, unlessStopped_of_ne hl, hu, finish_ok]
  refine ⟨_, hexec, ?_⟩
  obtain ⟨-, -, hu⟩ := netSend_ok hu
  have hblk : s.rx.emitIdx = BitVec.ofNat 8 b := by rw [← hidx, BitVec.ofNat_toNat, BitVec.setWidth_eq]
  rw [hnext, hidx, hblk] at hu
  by_cases hlast : b + 1 = 128 + s.rx.emitR.toNat
  · simp only [hlast, decide_true, if_true, Bool.not_true] at hu
    subst hu
    exact ⟨⟨rfl, rfl, rfl, rfl⟩, fun _ => ⟨rfl, rfl, rfl⟩, fun h => absurd hlast h⟩
  · simp only [hlast, decide_false, Bool.false_eq_true, if_false, Bool.not_false] at hu
    subst hu
    refine ⟨⟨rfl, rfl, rfl, rfl⟩, fun h => absurd h hlast, fun _ => ⟨⟨hl, rfl, ?_, rfl⟩, rfl, rfl, rfl, rfl⟩⟩
    rw [← hblk]
    exact hnext

theorem SendsBlocks.trans {bs bs' : List Nat} {t u : State} (h : SendsBlocks bs s t) (h' : SendsBlocks bs' t u)
    (hf : t.rx.frameCtr = s.rx.frameCtr) : SendsBlocks (bs ++ bs') s u where
  sent := by
    have hblock : t.frameBlock = s.frameBlock := by unfold State.frameBlock; rw [hf, h.fb]
    rw [h'.sent, h.sent, hblock, List.map_append, List.append_assoc]
  dgrams := by rw [h'.dgrams, h.dgrams, List.length_append, BitVec.ofNat_add, BitVec.add_assoc]
  fb := h'.fb.trans h.fb
  tx := h'.tx.trans h.tx

/-- The sends from block `b` to the end of the frame (rule R273). -/
theorem runAll_netSend {times : List U64} {b : Nat} {ready : U64} (hs : Sending b ready s)
    (hr : s.rx.emitR.toNat ≤ 127) (hne : times ≠ []) (hlen : b + times.length = 128 + s.rx.emitR.toNat)
    (hp : Paced (s.cfg.activeRx.txdelay.setWidth 64) ready times) :
    ∃ t rs, runAll (times.map .netSend) s = some (t, rs) ∧ SendsBlocks (List.range' b times.length) s t ∧
      EndsFrame s t := by
  induction times generalizing s b ready with
  | nil => exact absurd rfl hne
  | cons now rest ih =>
    obtain ⟨hnow, hp⟩ := hp
    rw [List.length_cons] at hlen
    obtain ⟨t, ht, hsend, hend, hgoes⟩ := exec_netSend_sends hs (by omega) hnow
    by_cases hrest : rest = []
    · subst hrest
      exact ⟨t, _, runAll_cons ht rfl, hsend, hend (by simpa using hlen)⟩
    · have hpos := List.length_pos_iff.2 hrest
      obtain ⟨hst, hsame⟩ := hgoes (by omega)
      obtain ⟨u, rs, hu, hsends, hends⟩ := ih hst (by rw [hsame.emitR]; exact hr) hrest
        (by rw [hsame.emitR]; omega) (by rw [hsame.txdelay]; exact hp)
      exact ⟨u, _, runAll_cons ht hu, hsend.trans hsends hsame.frameCtr, hends.emitting,
        by rw [hends.frameCtr, hsame.frameCtr], by rw [hends.framesSent, hsame.framesSent]⟩

end

/-! ### The index of the frames built since `CTL.START` -/

section
variable {i : Instr} {s t : State} {n : Nat}

/-- `n` frames were built since `CTL.START`: the one that is being sent carries index `n - 1`, and the next one will carry index `n`,
both modulo 65536 (rule R180(d)). -/
structure FrameIndexed (n : Nat) (s : State) : Prop where
  started : s.ctl.lifecycle ≠ .created
  sending : s.rx.emitting = true → 1 ≤ n ∧ s.rx.frameCtr = BitVec.ofNat 16 (n - 1)
  idle : s.ctl.lifecycle ≠ .stopped → s.rx.emitting = false → s.rx.frameCtr = BitVec.ofNat 16 n

/-- Whether an operation built a frame: it is being sent after it, and none was before. -/
def frameBuilt (s t : State) : Nat := if t.rx.emitting && !s.rx.emitting then 1 else 0

theorem frameBuilt_of_same (h : t.rx.emitting = s.rx.emitting) : frameBuilt s t = 0 := by
  unfold frameBuilt
  rw [h]
  simp

/-- In `Stopped` with nothing being sent no index is due. -/
theorem frameIndexed_of_stopped (hl : t.ctl.lifecycle = .stopped) (he : t.rx.emitting = false) : FrameIndexed n t :=
  ⟨by simp [hl], fun h => absurd h (by simp [he]), fun h => absurd hl h⟩

/-- The frame counter stays, and no emission ends. -/
def KeepsIndex (s t : State) : Prop :=
  t.rx.frameCtr = s.rx.frameCtr ∧ (t.rx.emitting = s.rx.emitting ∨ t.rx.emitting = true)

/-- The last block of a frame is sent (rule R272). -/
def EndsEmission (s t : State) : Prop :=
  s.rx.emitting = true ∧ t.rx.emitting = false ∧ t.rx.frameCtr = s.rx.frameCtr + 1

theorem packFrame_keepsIndex {wall : Wall} (h : packFrame wall s = .ok t) : KeepsIndex s t := by
  obtain ⟨fb, -, rfl⟩ := packFrame_ok h
  exact ⟨rfl, .inr rfl⟩

theorem storeSample_keepsIndex {y : Sample} {wall : Wall} (h : storeSample y wall s = .ok t) : KeepsIndex s t := by
  obtain ⟨-, -, h⟩ := storeSample_ok h
  split at h
  · obtain ⟨hf, he⟩ := packFrame_keepsIndex h
    exact ⟨hf, he⟩
  · subst h
    exact ⟨rfl, .inl rfl⟩

theorem decProcess_keepsIndex (p : Params) (b : Bank) (x : Sample) (h : RxHalf) :
    (decProcess p b x h).1.frameCtr = h.frameCtr ∧ (decProcess p b x h).1.emitting = h.emitting := by
  obtain ⟨_, _, hd⟩ := decProcess_writes p b x h
  rw [hd]
  exact ⟨rfl, rfl⟩

theorem rxSample_keepsIndex {x : Sample} {wall : Wall} (h : rxSample x wall s = .ok t) : KeepsIndex s t := by
  obtain ⟨hf, he⟩ := decProcess_keepsIndex (beginFrame s).params (beginFrame s).cfg.activeRx x (beginFrame s).rx
  rw [beginFrame_rx_frameCtr] at hf
  rw [beginFrame_rx_emitting] at he
  obtain ⟨-, ⟨-, rfl⟩ | ⟨y, -, h⟩⟩ := rxSample_ok h
  · exact ⟨hf, .inl he⟩
  · obtain ⟨hf', he'⟩ := storeSample_keepsIndex h
    exact ⟨hf'.trans hf, he'.imp_left fun h => h.trans he⟩

theorem netSend_index {now : U64} (h : netSend now s = .ok t) : KeepsIndex s t ∨ EndsEmission s t := by
  obtain ⟨hready, -, h⟩ := netSend_ok h
  have he : s.rx.emitting = true := by
    simp only [sendReady, Bool.and_eq_true] at hready
    exact hready.1
  by_cases hlast : (s.rx.emitIdx + 1).toNat = 128 + s.rx.emitR.toNat
  · simp only [hlast, decide_true, if_true, Bool.not_true] at h
    subst h
    exact .inr ⟨he, rfl, rfl⟩
  · simp only [hlast, decide_false, Bool.false_eq_true, if_false, Bool.not_false] at h
    subst h
    exact .inl ⟨rfl, .inr rfl⟩

/-- Of the transitions of the Rx half only the last send of a frame moves the frame counter. -/
theorem RxMove.index (h : RxMove i s t) : KeepsIndex s t ∨ EndsEmission s t := by
  cases h with
  | decimate x =>
    obtain ⟨hf, he⟩ := decProcess_keepsIndex s.params s.cfg.activeRx x s.rx
    exact .inl ⟨hf, .inl he⟩
  | mix x => exact .inl ⟨rfl, .inl rfl⟩
  | clear => exact .inl ⟨rfl, .inl rfl⟩
  | adopt hd => exact .inl ⟨rxAdopt_rx_frameCtr s, .inl (rxAdopt_rx_emitting s)⟩
  | sample cur x wall hi h =>
    obtain ⟨hf, he⟩ := rxSample_keepsIndex h
    exact .inl ⟨hf, he⟩
  | pack wall hf h => exact .inl (packFrame_keepsIndex h)
  | send now h => exact netSend_index h
  | @refill _ _ t v h =>
    have hrx := (pullVec_same h).rx
    have hf : t.rx.frameCtr = s.rx.frameCtr := by rw [hrx]
    have he : t.rx.emitting = s.rx.emitting := by rw [hrx]
    exact .inl ⟨hf, .inl he⟩

/-- Where nothing is built or ended, the frames keep their indices. -/
theorem FrameIndexed.congr (hs : FrameIndexed n s) (hl : t.ctl.lifecycle = s.ctl.lifecycle)
    (he : t.rx.emitting = s.rx.emitting) (hf : t.rx.frameCtr = s.rx.frameCtr) : FrameIndexed n t := by
  constructor
  · rw [hl]; exact hs.started
  · rw [he, hf]; exact hs.sending
  · rw [hl, he, hf]; exact hs.idle

/-- Where no emission begins or ends, no frame is built. -/
theorem FrameIndexed.add_frameBuilt (ht : FrameIndexed n t) (he : t.rx.emitting = s.rx.emitting) :
    FrameIndexed (n + frameBuilt s t) t := by
  rw [frameBuilt_of_same he]
  exact ht

/-- The frame that a transition of the Rx half builds takes the next index, and the end of an emission moves on to it. -/
theorem FrameIndexed.rxMove (hs : FrameIndexed n s) (hl : s.ctl.lifecycle ≠ .stopped) (h : RxMove i s t) :
    FrameIndexed (n + frameBuilt s t) t := by
  have hctl := h.ctl
  rcases h.index with ⟨hf, he⟩ | ⟨hse, hte, hf⟩
  · by_cases hsame : t.rx.emitting = s.rx.emitting
    · exact (hs.congr (by rw [hctl]) hsame hf).add_frameBuilt hsame
    have hte : t.rx.emitting = true := he.resolve_left hsame
    have hse : s.rx.emitting = false := by simpa [hte] using hsame
    have hone : frameBuilt s t = 1 := by simp [frameBuilt, hte, hse]
    rw [hone]
    exact ⟨by rw [hctl]; exact hs.started, fun _ => ⟨Nat.le_add_left 1 n, hf.trans (hs.idle hl hse)⟩,
      fun _ h => absurd h (by simp [hte])⟩
  · have hzero : frameBuilt s t = 0 := by simp [frameBuilt, hte]
    obtain ⟨hn, hctr⟩ := hs.sending hse
    rw [hzero]
    refine ⟨by rw [hctl]; exact hs.started, fun h => absurd h (by simp [hte]), fun _ _ => ?_⟩
    obtain ⟨m, rfl⟩ := Nat.exists_eq_add_of_le' hn
    rw [hf, hctr]
    exact (BitVec.ofNat_add m 1).symm

/-- No lifecycle operation builds a frame, and one that stops the block ends the one that is being sent (rules R302 to R304). -/
theorem FrameIndexed.controlMove (hs : FrameIndexed n s) (hi : i ≠ .ctlReset) (h : ControlMove i s t) :
    FrameIndexed (n + frameBuilt s t) t := by
  have hstart := hs.started
  cases h with
  | reset => exact absurd rfl hi
  | start hl => exact absurd hl hstart
  | startFails hl => exact absurd hl hstart
  | stopCreated hl => exact absurd hl hstart
  | stopStreaming hl =>
    exact FrameIndexed.add_frameBuilt ⟨nofun, hs.sending, fun _ => hs.idle (by simp [hl])⟩ rfl
  | stopAgain hl => exact .add_frameBuilt (hs.congr rfl rfl rfl) rfl
  | deviceError => exact frameIndexed_of_stopped rfl rfl
  | drain _ _ _ he => exact frameIndexed_of_stopped rfl he

theorem FrameIndexed.performs (hs : FrameIndexed n s) (hi : i ≠ .ctlReset) (h : Performs i s t) :
    FrameIndexed (n + frameBuilt s t) t := by
  have hsame : t.ctl = s.ctl → t.rx = s.rx → FrameIndexed (n + frameBuilt s t) t := fun hctl hrx => by
    exact (hs.congr (by rw [hctl]) (by rw [hrx]) (by rw [hrx])).add_frameBuilt (by rw [hrx])
  cases h with
  | control h => exact hs.controlMove hi h
  | configure _ _ h => exact hsame h.same.ctl h.same.rx
  | queue h => exact hsame h.same.ctl h.same.rx
  | rx hl h => exact hs.rxMove hl h
  | tx _ h => exact hsame h.ctl h.rx

theorem FrameIndexed.exec (hs : FrameIndexed n s) (hi : i ≠ .ctlReset) (h : exec i s = .next t) :
    FrameIndexed (n + frameBuilt s t) t := by
  obtain ⟨r, rfl | ⟨u, hu, rfl⟩⟩ := exec_performs h
  · exact .add_frameBuilt (hs.congr rfl rfl rfl) rfl
  · exact (hs.performs hi hu).congr rfl rfl rfl

/-- Along a run without `CTL.RESET` the frames built are counted on. -/
theorem FrameIndexed.runAll {l : List Instr} {rs : List Result} (hs : FrameIndexed n s) (hl : ∀ i ∈ l, i ≠ .ctlReset)
    (h : runAll l s = some (t, rs)) : FrameIndexed (n + framesBuilt l s) t := by
  induction l generalizing s n rs with
  | nil => cases h; exact hs
  | cons i l ih =>
    obtain ⟨hi, hl⟩ := List.forall_mem_cons.1 hl
    obtain ⟨u, rs', hu, hrun, -⟩ := runAll_cons_eq_some h
    have hcount : framesBuilt (i :: l) s = frameBuilt s u + framesBuilt l u := by simp only [framesBuilt, hu, frameBuilt]
    rw [hcount, ← Nat.add_assoc]
    exact ih (hs.exec hi hu) hl hrun

/-- After `CTL.START` no frame is built and the first one will carry index 0 (rule R301). -/
theorem frameIndexed_of_start (h : Machine.exec (.ctlStart true) s = .next t) : FrameIndexed 0 t := by
  change execCtlStart true s = _ at h
  unfold execCtlStart at h
  split at h
  · cases h
  · cases h
    exact ⟨nofun, nofun, fun _ _ => rfl⟩

end

end Sys2Proof.Machine

namespace Sys2Proof

open Machine

/-- Settles O40: each send of a frame moves on to the next block and the last one moves the frame counter, and from `CTL.START` on the
counter is one behind the frames built while one of them is being sent. -/
theorem emissionOrder : Obligations.EmissionOrder := by
  refine ⟨fun s t u l rs hstart hl hrun he => ?_, fun s times hl he hidx hr hlen h0 hpace => ?_⟩
  · have hframes := (frameIndexed_of_start hstart).runAll hl hrun
    rw [Nat.zero_add] at hframes
    exact hframes.sending he
  · have hne : times ≠ [] := List.length_pos_iff.1 (by omega)
    obtain ⟨t, rs, hrun, hsends, hend⟩ := runAll_netSend (b := 0) ⟨hl, he, by simp [hidx], rfl⟩ hr hne (by omega)
      (paced_of_getElem h0 hpace)
    have hdgrams := hsends.dgrams
    rw [List.length_range'] at hdgrams
    refine ⟨t, rs, hrun, ?_, hend.emitting, hend.frameCtr, hend.framesSent, hdgrams, hsends.fb, hsends.tx⟩
    rw [hsends.sent, List.range_eq_range']
    congr 2
    funext b
    exact blockBytes_eq _ _ _ _

end Sys2Proof
end

section
/-! PROOFS. An arrival into an unbounded `TXQ` is performed or refused, it does not wait (rules R130, R200). -/

namespace Sys2Proof.Machine

section
variable {s t : State}

/-- A push would not wait: streaming, and no capacity to wait for (rules R130, R132). -/
def State.flows (s : State) : Prop := s.ctl.lifecycle = .streaming ∧ s.params.sbCap = none

theorem State.flows.congr (hs : s.flows) (hctl : t.ctl = s.ctl) (hp : t.params = s.params) : t.flows := by
  unfold State.flows
  rw [hctl, hp]
  exact hs

theorem pushVec_proceeds (hs : s.flows) (q : QueueId) (v : List Sample) : Proceeds (pushVec q v s) := by
  obtain ⟨hl, hcap⟩ := hs
  unfold pushVec
  simp only [hl, hasRoom_of_unbounded hcap q v, ne_eq, not_true_eq_false, if_false]
  split
  · exact nofun
  split
  · exact nofun
  split <;> exact nofun

theorem deliver_proceeds (hs : s.flows) (v : List Sample) : Proceeds (deliver v s) :=
  pushVec_proceeds (s := (intProcess v s).1) hs .txq _

theorem loseFrame_proceeds (hs : s.flows) (e : ErrorEvent) (f : U16) : Proceeds (loseFrame e f s) :=
  deliver_proceeds (s := raise (.frameLoss f) (raise e s)) hs _

theorem acceptFrame_proceeds (hs : s.flows) (m : List Byte) (data : List (List Byte)) :
    Proceeds (acceptFrame m data s) :=
  deliver_proceeds (s := { s with
    tx := { s.tx with last := lastMetaOf m, padBps := byteAt m 8 }
    cnt := { s.cnt with ok := s.cnt.ok + 1 } }) hs _

theorem winDecode_proceeds (p : Params) (e : WinEntry) : Proceeds (winDecode p e) := by
  unfold winDecode
  split <;> exact nofun

theorem settleHead_proceeds (hs : s.flows) : Proceeds (settleHead s) := by
  unfold settleHead
  dsimp only
  split
  · exact loseFrame_proceeds hs _ _
  refine (winDecode_proceeds _ _).bind fun data _ => ?_
  split
  · exact loseFrame_proceeds hs _ _
  split
  · exact loseFrame_proceeds hs _ _
  · exact acceptFrame_proceeds hs _ _

theorem txRetire_proceeds (hs : s.flows) : Proceeds (txRetire s) := (settleHead_proceeds hs).map _

theorem txRetire_flows (hs : s.flows) (h : txRetire s = .ok t) : t.flows := by
  obtain ⟨u, -, hu, rfl⟩ := txRetire_ok h
  exact hs.congr hu.ctl hu.params

theorem evict_proceeds (hs : s.flows) (f : U16) (n : Nat) : Proceeds (evict f n s) := by
  induction n generalizing s with
  | zero => exact proceeds_ok s
  | succ n ih =>
    unfold evict
    split
    · exact (txRetire_proceeds hs).bind fun u hu => ih (txRetire_flows hs hu)
    · exact proceeds_ok s

theorem deliverComplete_proceeds (hs : s.flows) (n : Nat) : Proceeds (deliverComplete n s) := by
  induction n generalizing s with
  | zero => exact proceeds_ok s
  | succ n ih =>
    unfold deliverComplete
    split
    · exact (txRetire_proceeds hs).bind fun u hu => ih (txRetire_flows hs hu)
    · exact proceeds_ok s

theorem storeSlot_proceeds (f : U16) (b : Nat) (body : List Byte) (s : State) : Proceeds (storeSlot f b body s) := by
  unfold storeSlot
  dsimp only
  split
  · exact proceeds_ok _
  · refine Proceeds.map ?_ _
    unfold winWrite
    split <;> exact nofun

theorem acceptBlock_proceeds (hs : s.flows) (f : U16) (b : Nat) (body : List Byte) :
    Proceeds (acceptBlock f b body s) := by
  unfold acceptBlock
  split
  · exact proceeds_ok _
  refine (evict_proceeds hs f _).bind fun u hu => (storeSlot_proceeds f b body u).bind fun v hv => ?_
  obtain ⟨hp, hctl, -⟩ := storeSlot_same hv
  exact deliverComplete_proceeds ((evict_keeps txRetire_flows hs hu).congr hctl hp) _

theorem netRecv_proceeds (hs : s.flows) (d : List Byte) : Proceeds (netRecv d s) := by
  have ha : (txAdopt s).flows := hs.congr (txAdopt_ctl s) (txAdopt_params s)
  unfold netRecv
  dsimp only
  split
  · exact proceeds_ok _
  split
  · exact proceeds_ok _
  · exact acceptBlock_proceeds (ha.congr (synchronise_ctl _ _) (synchronise_params _ _)) _ _ _

end

end Sys2Proof.Machine
end

section
/-! PROOFS. One body into its slot (O43, rules R21, R60, R200 lines 8 to 10, R205). -/

namespace Sys2Proof.Machine

/-! ### The window as a set of entries -/

section
variable {w : List WinEntry} {e : WinEntry} {g : U16}

/-- A filter that lets every entry of a frame pass does not change what is found for it. -/
theorem winFind_filter_of_keeps {p : WinEntry → Bool} (hp : ∀ x, x.fidx = g → p x = true) (w : List WinEntry) :
    winFind (w.filter p) g = winFind w g := by
  unfold winFind
  rw [List.find?_filter]
  congr 1
  funext x
  by_cases hx : x.fidx = g
  · simp [hx, hp x hx]
  · simp [hx]

/-- A filter that lets no entry of a frame pass leaves nothing to be found for it. -/
theorem winFind_filter_of_drops {p : WinEntry → Bool} (hp : ∀ x, x.fidx = g → p x = false) (w : List WinEntry) :
    winFind (w.filter p) g = none := by
  unfold winFind
  rw [List.find?_filter, List.find?_eq_none]
  intro x _
  by_cases hx : x.fidx = g
  · simp [hp x hx]
  · simp [hx]

theorem winFind_append (w w' : List WinEntry) (g : U16) : winFind (w ++ w') g = (winFind w g).or (winFind w' g) :=
  List.find?_append

theorem winFind_cons_same (w : List WinEntry) (e : WinEntry) : winFind (e :: w) e.fidx = some e :=
  List.find?_cons_of_pos (by simp)

theorem winFind_cons_ne (h : g ≠ e.fidx) (w : List WinEntry) : winFind (e :: w) g = winFind w g :=
  List.find?_cons_of_neg (by simpa using h.symm)

/-- The entry that was put is found for its frame. -/
theorem winFind_winPut_same (w : List WinEntry) (e : WinEntry) : winFind (winPut w e) e.fidx = some e := by
  rw [winPut, winFind_append, winFind_filter_of_drops (fun x hx => by simp [hx]), winFind_cons_same, Option.none_or]

/-- An entry that is put leaves what is found for every other frame. -/
theorem winFind_winPut_ne (h : g ≠ e.fidx) (w : List WinEntry) : winFind (winPut w e) g = winFind w g := by
  rw [winPut, winFind_append, winFind_cons_ne h]
  rcases Nat.lt_or_gt_of_ne (BitVec.toNat_inj.not.2 h) with hlt | hgt
  · rw [winFind_filter_of_keeps (fun x hx => by simp [hx, hlt]),
      winFind_filter_of_drops (fun x hx => by simpa [hx] using hlt.le), Option.or_none]
  · rw [winFind_filter_of_drops (fun x hx => by simpa [hx] using hgt.le),
      winFind_filter_of_keeps (fun x hx => by simp [hx, hgt]), Option.none_or]

end

/-! ### The entry of a frame -/

section
variable {s t : State} {f : U16} {b : Nat} {body : List Byte}

/-- The entry of frame `f`, a new one where the frame is not tracked (rule R200 line 8). -/
def State.entryOf (s : State) (f : U16) : WinEntry := (winFind s.tx.win f).getD (WinEntry.empty f)

@[simp] theorem State.entryOf_fidx (s : State) (f : U16) : (s.entryOf f).fidx = f := by
  unfold State.entryOf
  cases he : winFind s.tx.win f with
  | none => rfl
  | some e => exact (winFind_some he).2

/-- The window with a body in a slot of frame `f`. -/
def State.windowWith (s : State) (f : U16) (b : Nat) (body : List Byte) : List WinEntry :=
  winPut s.tx.win ((s.entryOf f).store b body)

/-- The state with a body in a slot of frame `f`, and nothing else changed. -/
def State.withBody (s : State) (f : U16) (b : Nat) (body : List Byte) : State :=
  { s with tx := { s.tx with win := s.windowWith f b body } }

/-- The state with one more duplicate counted (rule R205). -/
def State.withDup (s : State) : State := { s with cnt := { s.cnt with dup := s.cnt.dup + 1 } }

theorem winFind_windowWith_same : winFind (s.windowWith f b body) f = some ((s.entryOf f).store b body) := by
  have hfind := winFind_winPut_same s.tx.win ((s.entryOf f).store b body)
  have hf : ((s.entryOf f).store b body).fidx = f := s.entryOf_fidx f
  rw [hf] at hfind
  exact hfind

theorem winFind_windowWith_ne {g : U16} (h : g ≠ f) : winFind (s.windowWith f b body) g = winFind s.tx.win g :=
  winFind_winPut_ne (by rw [show ((s.entryOf f).store b body).fidx = f from s.entryOf_fidx f]; exact h) _

/-- A second copy of a block is counted (rule R205). -/
theorem storeSlot_of_present (h : b ∈ (s.entryOf f).present) : storeSlot f b body s = .ok s.withDup := by
  unfold storeSlot
  exact if_pos (by simpa [State.entryOf] using h)

/-- The first copy of a block is a write of the window (rule R200 line 10). -/
theorem storeSlot_of_free (h : b ∉ (s.entryOf f).present) :
    storeSlot f b body s =
      (winWrite (s.entryOf f) b body).map fun e => { s with tx := { s.tx with win := winPut s.tx.win e } } := by
  unfold storeSlot
  exact if_neg (by simpa [State.entryOf] using h)

theorem storeSlot_inside (h : b ∉ (s.entryOf f).present) (hb : b < 255) (hlen : body.length = Config.bodyLen) :
    storeSlot f b body s = .ok (s.withBody f b body) := by
  have hin : inBody b 0 body.length = true := inBody_iff.2 ⟨hb, by simp [hlen]⟩
  rw [storeSlot_of_free h, winWrite_ok.2 ⟨hin, rfl⟩]
  rfl

/-- A slot outside the frame is refused (rule R60). -/
theorem storeSlot_outside (h : b ∉ (s.entryOf f).present) (hb : 255 ≤ b) :
    storeSlot f b body s = .error (.refuse .outsideStore) := by
  have hout : ¬inBody b 0 body.length = true := fun h => by have := (inBody_iff.1 h).1; omega
  rw [storeSlot_of_free h, winWrite, if_neg hout]
  rfl

/-! ### The frame at `tx_base` -/

theorem headEntry_eq_none_iff : headEntry s = none ↔ s.headIncomplete := by
  unfold headEntry State.headIncomplete
  cases winFind s.tx.win s.tx.base with
  | none => simp
  | some e => simp [Config.dataBlocks]

/-- Where the frame at `tx_base` is incomplete nothing is delivered (rule R207). -/
theorem deliverComplete_of_incomplete (h : s.headIncomplete) (n : Nat) : deliverComplete n s = .ok s := by
  cases n with
  | zero => rfl
  | succ n => rw [deliverComplete, headEntry_eq_none_iff.2 h]; rfl

/-- A stored body completes no frame but its own, and not before the 128th slot. -/
theorem withBody_headIncomplete (hs : s.headIncomplete) (hc : f ≠ s.tx.base ∨ (s.entryOf f).count + 1 < 128) :
    (s.withBody f b body).headIncomplete := by
  intro e he
  change winFind (s.windowWith f b body) s.tx.base = some e at he
  by_cases hf : f = s.tx.base
  · rw [← hf, winFind_windowWith_same] at he
    cases he
    exact hc.resolve_left (not_not.2 hf)
  · rw [winFind_windowWith_ne (Ne.symm hf)] at he
    exact hs e he

end

end Sys2Proof.Machine
end

section
/-! PROOFS. An acceptable arrival (O43, rules R60, R90, R91, R200, R201, R204, R205, R207). -/

namespace Sys2Proof.Machine

/-! ### Complete frames retire one after another -/

section
variable {s t u : State}

theorem deliver_succeeds (hs : s.canDeliver) (v : List Sample) : ∃ t, deliver v s = .ok t := by
  obtain ⟨hl, he, hcap⟩ := hs
  have hroom : hasRoom (intProcess v s).1 .txq (intProcess v s).2 = true :=
    hasRoom_of_unbounded (s := (intProcess v s).1) hcap _ _
  exact ⟨_, pushVec_of_ready (s := (intProcess v s).1) hl he nofun hroom⟩

theorem loseFrame_succeeds (hs : s.canDeliver) (e : ErrorEvent) (f : U16) : ∃ t, loseFrame e f s = .ok t :=
  deliver_succeeds (s := raise (.frameLoss f) (raise e s)) hs _

theorem acceptFrame_succeeds (hs : s.canDeliver) (m : List Byte) (data : List (List Byte)) :
    ∃ t, acceptFrame m data s = .ok t :=
  deliver_succeeds (s := { s with
    tx := { s.tx with last := lastMetaOf m, padBps := byteAt m 8 }
    cnt := { s.cnt with ok := s.cnt.ok + 1 } }) hs _

/-- A retirement that can deliver completes: the slots of a sound window lie inside the frame. -/
theorem txRetire_succeeds (hs : s.canDeliver) (hw : s.WindowSound) : ∃ t, txRetire s = .ok t := by
  suffices hsettle : ∃ t, settleHead s = .ok t by
    obtain ⟨t, ht⟩ := hsettle
    exact ⟨_, map_eq_ok.2 ⟨t, ht, rfl⟩⟩
  unfold settleHead
  dsimp only
  split
  · exact loseFrame_succeeds hs _ _
  next e he =>
  rw [winDecode_ok.2 ⟨headEntry_readsInside hw he, rfl⟩]
  simp only [Except.bind]
  split
  · exact loseFrame_succeeds hs _ _
  split
  · exact loseFrame_succeeds hs _ _
  · exact acceptFrame_succeeds hs _ _

theorem txRetire_canDeliver (hs : s.canDeliver) (h : txRetire s = .ok t) : t.canDeliver := by
  obtain ⟨u, -, hu, rfl⟩ := txRetire_ok h
  obtain ⟨hl, he, hcap⟩ := hs
  refine ⟨?_, hu.ended.trans he, ?_⟩
  · rw [advanceBase_ctl, hu.ctl, hl]
  · rw [advanceBase_params, hu.params, hcap]

theorem exec_txRetire (hl : s.ctl.lifecycle = .streaming) (h : txRetire s = .ok t) :
    exec .txRetire s = .next (t.ret .done) := by
  change execTxRetire s = _
  rw [execTxRetire, if_pos hl, h, finish_ok]

/-- The frame at `tx_base` leaves the window. -/
theorem txRetire_win_length (hh : ¬s.headIncomplete) (h : txRetire s = .ok t) : t.tx.win.length < s.tx.win.length := by
  rw [txRetire_win h]
  unfold State.headIncomplete at hh
  push Not at hh
  obtain ⟨e, he, -⟩ := hh
  obtain ⟨hmem, hf⟩ := winFind_some he
  exact List.length_filter_lt_length_iff_exists.2 ⟨e, hmem, by simp [hf]⟩

theorem retiresHead_refl (h : s.headIncomplete) : s.retiresHead s :=
  ⟨0, [], rfl, nofun, h, fun _ hj => absurd hj (Nat.not_lt_zero _)⟩

/-- One retirement, where the frame at `tx_base` is complete, and then the others. -/
theorem retiresHead_cons (hh : ¬s.headIncomplete) (ht : exec .txRetire s = .next t) (hr : t.io.result = .done)
    (hu : t.retiresHead u) : s.retiresHead u := by
  obtain ⟨k, rs, hrun, hdone, hend, hbefore⟩ := hu
  refine ⟨k + 1, _, runAll_cons ht hrun, List.forall_mem_cons.2 ⟨hr, hdone⟩, hend, fun j hj v rs' hv => ?_⟩
  cases j with
  | zero => cases hv; exact hh
  | succ j =>
    obtain ⟨t', rs', ht', hrun', -⟩ := runAll_cons_eq_some hv
    cases ht.symm.trans ht'
    exact hbefore j (Nat.lt_of_succ_lt_succ hj) v rs' hrun'

/-- Line 11 of rule R200 is `TX.RETIRE` performed until no complete frame waits; the window bounds how often. -/
theorem deliverComplete_retiresHead {n : Nat} (hn : s.tx.win.length ≤ n) (hs : s.canDeliver) (hw : s.WindowSound) :
    ∃ t u, deliverComplete n s = .ok t ∧ s.retiresHead u ∧ u.ret .done = t.ret .done := by
  induction n generalizing s with
  | zero =>
    have hempty : s.tx.win = [] := List.length_eq_zero_iff.1 (Nat.le_zero.1 hn)
    have hh : s.headIncomplete := fun e he => by simp [hempty, winFind] at he
    exact ⟨s, s, rfl, retiresHead_refl hh, rfl⟩
  | succ n ih =>
    by_cases hh : s.headIncomplete
    · exact ⟨s, s, deliverComplete_of_incomplete hh _, retiresHead_refl hh, rfl⟩
    obtain ⟨v, hv⟩ := txRetire_succeeds hs hw
    have hless := txRetire_win_length hh hv
    have hrest : (v.ret .done).tx.win.length ≤ n := Nat.le_of_lt_succ (Nat.lt_of_lt_of_le hless hn)
    have hcan : v.canDeliver := txRetire_canDeliver hs hv
    obtain ⟨t, u, ht, hu, heq⟩ := ih hrest hcan ((txRetire_windowSound hw hv).congr rfl rfl rfl)
    rw [(deliverComplete_local n v).ret .done] at ht
    obtain ⟨t', ht', rfl⟩ := map_eq_ok.1 ht
    have hsome : (headEntry s).isSome = true := Option.isSome_iff_ne_none.2 fun h => hh (headEntry_eq_none_iff.1 h)
    refine ⟨t', u, ?_, retiresHead_cons hh (exec_txRetire hs.1 hv) rfl hu, heq⟩
    rw [deliverComplete, if_pos hsome, hv]
    exact ht'

end

/-! ### The header of a datagram -/

section
variable {s : State} {i : Instr} {d : List Byte}

/-- The frame index of a header, from its two bytes (rule R91). -/
theorem le16_toNat (d : List Byte) : (le16 d 0).toNat = (byteAt d 0).toNat + 256 * (byteAt d 1).toNat := by
  have hbytes : slice d 0 2 = [byteAt d 0, byteAt d 1] := by
    rcases d with _ | ⟨a, _ | ⟨b, r⟩⟩ <;> rfl
  have ha := (byteAt d 0).isLt
  have hb := (byteAt d 1).isLt
  rw [le16, hbytes, BitVec.toNat_ofNat]
  simp only [leNat]
  omega

theorem le16_eq_of_toNat {f : U16} (h : f.toNat = (byteAt d 0).toNat + 256 * (byteAt d 1).toNat) : le16 d 0 = f :=
  BitVec.eq_of_toNat_eq (by rw [le16_toNat, h])

/-- The reserved byte of a header is no other byte of the datagram. -/
theorem byteAt_set_reserved (d : List Byte) (rsv : Byte) {k : Nat} (hk : 3 ≠ k) : byteAt (d.set 3 rsv) k = byteAt d k := by
  simp only [byteAt, List.getD_eq_getElem?_getD, List.getElem?_set_ne hk]

/-- The reserved byte never matters (rule R91). -/
theorem netRecv_set_reserved (d : List Byte) (rsv : Byte) (s : State) : netRecv (d.set 3 rsv) s = netRecv d s := by
  have hf : le16 (d.set 3 rsv) 0 = le16 d 0 := le16_eq_of_toNat (by
    rw [le16_toNat, byteAt_set_reserved d rsv (by decide), byteAt_set_reserved d rsv (by decide)])
  have hbody : (d.set 3 rsv).drop 4 = d.drop 4 := List.drop_set_of_lt (by decide)
  unfold netRecv
  rw [hf, hbody, List.length_set, byteAt_set_reserved d rsv (by decide)]

/-! ### The arrival -/

theorem txAdopt_of_eq (h : s.cfg.seqTx = s.cfg.seqP) : txAdopt s = s := if_neg (not_not.2 h)

theorem txAdopt_adopted (s : State) : (txAdopt s).cfg.seqTx = (txAdopt s).cfg.seqP := by
  by_cases h : s.cfg.seqTx = s.cfg.seqP
  · rw [txAdopt_of_eq h]; exact h
  · unfold txAdopt
    rw [if_pos h]

/-- In `Streaming` an operation that brings in a datagram is its arrival. -/
theorem exec_arrival (hi : i.datagram = some d) (hl : s.ctl.lifecycle = .streaming) :
    exec i s = finish s .done (netRecv d s) := by
  rw [exec_of_datagram hi]
  exact if_neg (not_not.2 hl)

/-- An arrival is the arrival after `TX.ADOPT` (rules R200, R201). -/
theorem exec_arrival_adopts (hi : i.datagram = some d) (hs : s.flows) :
    exec i s = exec i ((txAdopt s).ret .done) := by
  have ha : (txAdopt s).flows := hs.congr (txAdopt_ctl s) (txAdopt_params s)
  have hsame : netRecv d s = netRecv d (txAdopt s) := by
    unfold netRecv
    rw [txAdopt_of_eq (txAdopt_adopted s)]
  rw [exec_arrival hi hs.1, exec_arrival (s := (txAdopt s).ret .done) hi ha.1, hsame]
  exact ((netRecv_local d (txAdopt s)).finish_ret (netRecv_proceeds ha d) s .done .done).symm

/-- An arrival that is accepted: nothing to adopt, the right length, a block of the frame (rules R200, R202, R203). -/
structure Acceptable (d : List Byte) (s : State) : Prop where
  adopted : s.cfg.seqTx = s.cfg.seqP
  length : d.length = Config.blockLen
  index : (byteAt d 2).toNat < 128 + s.cfg.activeTx.fecblk.toNat

theorem netRecv_of_acceptable (h : Acceptable d s) :
    netRecv d s = acceptBlock (le16 d 0) (byteAt d 2).toNat (d.drop 4) (synchronise (le16 d 0) s) := by
  obtain ⟨hseq, hlen, hidx⟩ := h
  unfold netRecv
  rw [txAdopt_of_eq hseq]
  dsimp only
  rw [if_neg (not_not.2 hlen), if_neg (Nat.not_le.2 hidx)]

theorem synchronise_of_synced (h : s.tx.synced = true) (f : U16) : synchronise f s = s := if_pos h

theorem dist_self (f : U16) : dist f f = 0 := dist_eq_zero_iff.2 rfl

/-- A frame behind the base is counted late (rule R200 line 6). -/
theorem acceptBlock_late {f : U16} (h : 32768 ≤ dist f s.tx.base) (b : Nat) (body : List Byte) :
    acceptBlock f b body s = .ok { s with cnt := { s.cnt with late := s.cnt.late + 1 } } := if_pos h

/-! ### The slot, then the complete frames -/

/-- Lines 8 to 11 of rule R200: the body into its slot, then the complete frames at `tx_base`. -/
def storeAndDeliver (f : U16) (b : Nat) (body : List Byte) (s : State) : Except Halt State :=
  (storeSlot f b body s).bind fun u => deliverComplete u.tx.win.length u

/-- At most 4 ahead nothing is evicted (rules R200 line 7, R206). -/
theorem acceptBlock_near {f : U16} (h : dist f s.tx.base ≤ 4) (b : Nat) (body : List Byte) :
    acceptBlock f b body s = storeAndDeliver f b body s := by
  have hahead : ¬Config.behind ≤ dist f s.tx.base := by simp only [Config.behind]; omega
  have hev : ∀ n, evict f n s = .ok s := fun n => by
    cases n with
    | zero => rfl
    | succ n => rw [evict, if_neg (by simp only [Config.evictDistance]; omega)]
  rw [acceptBlock, if_neg hahead, hev]
  rfl

section
variable {f : U16} {b : Nat} {body : List Byte}

theorem storeAndDeliver_of_stored {v : State} (hv : storeSlot f b body s = .ok v) :
    storeAndDeliver f b body s = deliverComplete v.tx.win.length v := by
  rw [storeAndDeliver, hv]
  rfl

theorem storeAndDeliver_outside (h : b ∉ (s.entryOf f).present) (hb : 255 ≤ b) :
    storeAndDeliver f b body s = .error (.refuse .outsideStore) := by
  rw [storeAndDeliver, storeSlot_outside h hb]
  rfl

theorem storeAndDeliver_of_present (hh : s.headIncomplete) (h : b ∈ (s.entryOf f).present) :
    storeAndDeliver f b body s = .ok s.withDup := by
  rw [storeAndDeliver_of_stored (storeSlot_of_present h)]
  exact deliverComplete_of_incomplete (s := s.withDup) hh _

theorem storeAndDeliver_of_free (hh : s.headIncomplete) (h : b ∉ (s.entryOf f).present) (hb : b < 255)
    (hlen : body.length = Config.bodyLen) (hc : f ≠ s.tx.base ∨ (s.entryOf f).count + 1 < 128) :
    storeAndDeliver f b body s = .ok (s.withBody f b body) := by
  rw [storeAndDeliver_of_stored (storeSlot_inside h hb hlen)]
  exact deliverComplete_of_incomplete (withBody_headIncomplete hh hc) _

/-- The slot is stored or counted a duplicate, and then the complete frames retire one after another. -/
theorem storeAndDeliver_retiresHead (hs : s.canDeliver) (hw : s.WindowSound) (hy : s.tx.synced = true)
    (hd : dist f s.tx.base ≤ 4) (hb : b < 255) (hlen : body.length = Config.bodyLen) :
    ∃ t u, storeAndDeliver f b body s = .ok t ∧ u.ret .done = t.ret .done ∧
      (b ∈ (s.entryOf f).present → s.withDup.retiresHead u) ∧
      (b ∉ (s.entryOf f).present → (s.withBody f b body).retiresHead u) := by
  by_cases h : b ∈ (s.entryOf f).present
  · have hw' : s.withDup.WindowSound := hw.congr rfl rfl rfl
    obtain ⟨t, u, ht, hu, heq⟩ := deliverComplete_retiresHead (s := s.withDup) (Nat.le_refl _) hs hw'
    exact ⟨t, u, (storeAndDeliver_of_stored (storeSlot_of_present h)).trans ht, heq, fun _ => hu, fun hn => absurd h hn⟩
  · have hv := storeSlot_inside h hb hlen
    have hs' : (s.withBody f b body).canDeliver := hs
    obtain ⟨t, u, ht, hu, heq⟩ :=
      deliverComplete_retiresHead (Nat.le_refl _) hs' (storeSlot_windowSound hw hy hd hb hlen hv)
    exact ⟨t, u, (storeAndDeliver_of_stored hv).trans ht, heq, fun hp => absurd hp h, fun _ => hu⟩

/-- One block in an empty window completes no frame. -/
theorem storeAndDeliver_proceeds (hw : s.tx.win = []) : Proceeds (storeAndDeliver f b body s) := by
  have hh : s.headIncomplete := fun e he => by simp [hw, winFind] at he
  have hempty : s.entryOf f = WinEntry.empty f := by simp [State.entryOf, hw, winFind]
  refine (storeSlot_proceeds _ _ _ _).bind fun u hu => ?_
  have hhu : u.headIncomplete := by
    rcases storeSlot_ok hu with ⟨-, rfl⟩ | ⟨-, -, rfl⟩
    · exact hh
    · have hone : (s.entryOf f).count + 1 < 128 := by simp [hempty, WinEntry.empty]
      exact withBody_headIncomplete hh (.inr hone)
  rw [deliverComplete_of_incomplete hhu]
  exact proceeds_ok u

end

/-! ### The operation -/

/-- An acceptable arrival goes on with its frame, its block and its body behind the synchronisation (rule R200 lines 5 to 11). -/
theorem exec_acceptable (hi : i.datagram = some d) (hl : s.ctl.lifecycle = .streaming) (h : Acceptable d s)
    {f : U16} (hf : le16 d 0 = f) :
    exec i s = finish s .done (acceptBlock f (byteAt d 2).toNat (d.drop 4) (synchronise f s)) := by
  rw [exec_arrival hi hl, netRecv_of_acceptable h, hf]

/-- The state with the window synchronised at frame `f` (rule R204). -/
def State.syncedAt (s : State) (f : U16) : State := { s with tx := { s.tx with synced := true, base := f } }

/-- The first acceptable arrival synchronises the window at its own frame, and goes on as any other (rule R204): one block completes
no frame, so that nothing is delivered. -/
theorem exec_acceptable_synchronises (hi : i.datagram = some d) (hl : s.ctl.lifecycle = .streaming)
    (h : Acceptable d s) {f : U16} (hf : le16 d 0 = f) (hy : s.tx.synced = false) (hw : s.tx.win = []) :
    exec i s = exec i (s.syncedAt f) := by
  have hsync : synchronise f s = s.syncedAt f := if_neg (by simp [hy])
  have hacc : Acceptable d (s.syncedAt f) := ⟨h.adopted, h.length, h.index⟩
  have hnear : dist f (s.syncedAt f).tx.base ≤ 4 := (dist_self f).trans_le (Nat.zero_le 4)
  rw [exec_acceptable hi hl h hf, hsync, exec_acceptable (s := s.syncedAt f) hi hl hacc hf,
    synchronise_of_synced rfl, acceptBlock_near hnear]
  exact finish_of_proceeds (storeAndDeliver_proceeds (s := s.syncedAt f) hw) _ _ _

/-- At most 4 ahead of a synchronised window an acceptable block is stored, or counted, and the complete frames are delivered. -/
theorem exec_acceptable_near (hi : i.datagram = some d) (hl : s.ctl.lifecycle = .streaming) (h : Acceptable d s)
    {f : U16} (hf : le16 d 0 = f) (hy : s.tx.synced = true) (hd : dist f s.tx.base ≤ 4) :
    exec i s = finish s .done (storeAndDeliver f (byteAt d 2).toNat (d.drop 4) s) := by
  rw [exec_acceptable hi hl h hf, synchronise_of_synced hy, acceptBlock_near hd]

end

end Sys2Proof.Machine

namespace Sys2Proof

open Machine

/-- Settles O43: behind the adoption and the synchronisation an acceptable block is late, or, at most 4 ahead, stored as `storeAndDeliver`
says; the frames it completes are delivered by `TX.RETIRE` one after another. -/
theorem arrivalStored : Obligations.ArrivalStored := by
  intro i d s hi hl
  refine ⟨fun hcap hne => ?_, fun hlen hidx hseq f hf => ?_, fun rsv => ?_⟩
  · exact ⟨_, unlessStopped_of_ne (by simp [hl]) _, txAdopt_adopted s, exec_arrival_adopts hi ⟨hl, hcap⟩⟩
  · have hacc : Acceptable d s := ⟨hseq, hlen, hidx⟩
    have hf := le16_eq_of_toNat hf
    refine ⟨fun hy hw => ⟨_, rfl, exec_acceptable_synchronises hi hl hacc hf hy hw⟩, fun hy hd => ?_,
      fun hy hd e he => ?_⟩
    · rw [exec_acceptable hi hl hacc hf, synchronise_of_synced hy, acceptBlock_late hd, finish_ok]
      rfl
    · have hexec := exec_acceptable_near hi hl hacc hf hy hd
      have hbody := block_body_length hlen
      obtain rfl : e = s.entryOf f := he
      refine ⟨fun hfree hb => ?_, fun hh hp => ?_, s.windowWith f (byteAt d 2).toNat (d.drop 4), _,
        fun hh hfree hb hc => ?_, fun hs hw hb => ?_, winFind_windowWith_same, fun g hg => winFind_windowWith_ne hg, rfl,
        fun x => WinEntry.mem_store_present, bodyOf_write_same _ _ _ hbody, fun x hx => bodyOf_write_ne _ _ _ _ hbody hx⟩
      · rw [hexec, storeAndDeliver_outside hfree hb]
        rfl
      · rw [hexec, storeAndDeliver_of_present hh hp, finish_ok]
        rfl
      · rw [hexec, storeAndDeliver_of_free hh hfree hb hbody hc, finish_ok]
        rfl
      · obtain ⟨t, u, ht, heq, hdup, hstored⟩ := storeAndDeliver_retiresHead hs (windowSound_iff.1 hw) hy hd hb hbody
        refine ⟨u, ?_, hdup, hstored⟩
        rw [hexec, ht, finish_ok, ← heq]
        rfl
  · rw [exec_of_datagram hi]
    change receive (d.set 3 rsv) s = receive d s
    unfold receive
    rw [netRecv_set_reserved]

end Sys2Proof
end

section
/-! PROOFS. What is laid down is read back (rules R9, R91, R97): numbers, samples, clocks, bodies and slots, byte for byte. -/

namespace Sys2Proof

open Machine

/-! ### Slices of a byte string -/

theorem takeZ_append (a b : List Byte) : takeZ a.length (a ++ b) = a := by
  rw [takeZ_of_le (by simp), List.take_left]

/-- A slice past the first bytes is a slice of the rest. -/
theorem slice_append (a b : List Byte) (off n : Nat) : slice (a ++ b) (a.length + off) n = slice b off n := by
  rw [slice, List.drop_length_add_append, slice]

theorem le32_append (a b : List Byte) (off : Nat) : le32 (a ++ b) (a.length + off) = le32 b off := by
  rw [le32, slice_append, le32]

/-! ### Numbers -/

theorem leNat_shortBytesFuel {fuel v : Nat} (h : v ≤ fuel) : leNat (shortBytesFuel fuel v) = v := by
  induction fuel generalizing v with
  | zero =>
    obtain rfl := Nat.le_zero.1 h
    rfl
  | succ fuel ih =>
    rw [shortBytesFuel]
    split
    · next hv => rw [hv, leNat]
    · rw [leNat, ih (by omega), BitVec.toNat_ofNat]
      omega

/-- A number of any size is read back from its shortest layout. -/
@[simp] theorem leNat_shortBytes (v : Nat) : leNat (shortBytes v) = v := leNat_shortBytesFuel (Nat.le_refl v)

/-- A word of `n` bytes is read back from its layout, whatever follows. -/
theorem ofNat_slice_leBytes {n w : Nat} (hw : w = 8 * n) (x : BitVec w) (r : List Byte) :
    BitVec.ofNat w (leNat (slice (leBytes n x.toNat ++ r) 0 n)) = x := by
  have hslice : slice (leBytes n x.toNat ++ r) 0 n = leBytes n x.toNat := by
    simpa [slice] using takeZ_append (leBytes n x.toNat) r
  have hlt : x.toNat < 256 ^ n := by
    calc x.toNat < 2 ^ w := x.isLt
      _ = 256 ^ n := by rw [hw, Nat.pow_mul]
  rw [hslice, leNat_leBytes, Nat.mod_eq_of_lt hlt, BitVec.ofNat_toNat, BitVec.setWidth_eq]

@[simp] theorem le16_leBytes (x : U16) (r : List Byte) : le16 (leBytes 2 x.toNat ++ r) 0 = x :=
  ofNat_slice_leBytes (n := 2) rfl x r

@[simp] theorem le32_leBytes (x : U32) (r : List Byte) : le32 (leBytes 4 x.toNat ++ r) 0 = x :=
  ofNat_slice_leBytes (n := 4) rfl x r

@[simp] theorem le64_leBytes (x : U64) (r : List Byte) : le64 (leBytes 8 x.toNat ++ r) 0 = x :=
  ofNat_slice_leBytes (n := 8) rfl x r

/-! ### Operands -/

@[simp] theorem sampleAt_sampleBytes (x : Sample) (r : List Byte) : sampleAt (sampleBytes x ++ r) 0 = x := by
  have hi : le16 (sampleBytes x ++ r) 0 = x.i := by
    rw [sampleBytes, List.append_assoc, le16_leBytes]
  have hq : le16 (sampleBytes x ++ r) 2 = x.q := by
    change le16 (leBytes 2 x.q.toNat ++ r) 0 = x.q
    exact le16_leBytes x.q r
  rw [sampleAt, hi, hq]

/-- A vector of samples is read back from its layout. -/
@[simp] theorem samplesOf_flatMap (v : List Sample) : samplesOf (v.flatMap sampleBytes) = some v := by
  induction v with
  | nil => rfl
  | cons x v ih =>
    change (samplesOf (v.flatMap sampleBytes)).map (fun u => sampleAt (sampleBytes x) 0 :: u) = some (x :: v)
    have hx : sampleAt (sampleBytes x) 0 = x := by simpa using sampleAt_sampleBytes x []
    rw [ih, hx, Option.map_some]

/-- A wall clock is read back from its layout behind any bytes (rule R49). -/
theorem wallAt_wallBytes {w : Wall} (hw : w.wf = true) (a : List Byte) : wallAt (a ++ wallBytes w) a.length = some w := by
  have hsec : le32 (a ++ wallBytes w) a.length = w.sec := by
    rw [← Nat.add_zero a.length, le32_append, wallBytes, le32_leBytes]
  have husec : le32 (a ++ wallBytes w) (a.length + 4) = w.usec := by
    rw [le32_append]
    exact (le32_append (leBytes 4 w.sec.toNat) (leBytes 4 w.usec.toNat) 0).trans (by simpa using le32_leBytes w.usec [])
  simp only [wallAt, hsec, husec]
  exact if_pos hw

theorem wallAt_wf {r : List Byte} {off : Nat} {w : Wall} (h : wallAt r off = some w) : w.wf = true := by
  simp only [wallAt, Option.ite_none_right_eq_some, Option.some.injEq] at h
  obtain ⟨hw, rfl⟩ := h
  exact hw

/-! ### Bodies and slots -/

theorem bodiesWf_iff {n : Nat} {d : List (List Byte)} :
    bodiesWf n d = true ↔ d.length = n ∧ ∀ b ∈ d, b.length = 508 := by
  simp [bodiesWf]

theorem bodiesOf_flatten {d : List (List Byte)} (hd : ∀ b ∈ d, b.length = 508) : bodiesOf d.length d.flatten = d := by
  induction d with
  | nil => rfl
  | cons b d ih =>
    obtain ⟨hb, hd⟩ := List.forall_mem_cons.1 hd
    change takeZ 508 (b ++ d.flatten) :: bodiesOf d.length ((b ++ d.flatten).drop 508) = b :: d
    rw [← hb, takeZ_append, List.drop_left, ih hd]

/-- The bodies of an operand are read back from their layout (rules R213, R246). -/
theorem bodiesOf_of_wf {n : Nat} {d : List (List Byte)} (h : bodiesWf n d = true) : bodiesOf n d.flatten = d := by
  obtain ⟨rfl, hd⟩ := bodiesWf_iff.1 h
  exact bodiesOf_flatten hd

theorem flatten_length_of_wf {n : Nat} {d : List (List Byte)} (h : bodiesWf n d = true) : d.flatten.length = n * 508 := by
  obtain ⟨rfl, hd⟩ := bodiesWf_iff.1 h
  rw [List.length_flatten, List.map_congr_left hd, List.map_const', List.sum_replicate, smul_eq_mul]

theorem bodiesOf_wf (n : Nat) (r : List Byte) : bodiesWf n (bodiesOf n r) = true := by
  rw [bodiesWf_iff]
  induction n generalizing r with
  | zero => exact ⟨rfl, nofun⟩
  | succ n ih =>
    obtain ⟨hlen, hbody⟩ := ih (r.drop 508)
    exact ⟨congrArg (· + 1) hlen, List.forall_mem_cons.2 ⟨takeZ_length 508 r, hbody⟩⟩

theorem slotsFuel_flatMap {fuel : Nat} {sl : List Slot} (hl : ∀ x ∈ sl, x.body.length = 508)
    (hf : (sl.flatMap slotBytes).length ≤ fuel) : slotsFuel fuel (sl.flatMap slotBytes) = sl := by
  induction sl generalizing fuel with
  | nil => cases fuel <;> rfl
  | cons x sl ih =>
    obtain ⟨hx, hl⟩ := List.forall_mem_cons.1 hl
    cases fuel with
    | zero => simp [slotBytes] at hf
    | succ fuel =>
      have hrest : (sl.flatMap slotBytes).length ≤ fuel := by
        simp only [List.flatMap_cons, slotBytes, List.length_append, List.length_cons] at hf
        omega
      change ⟨x.blk, takeZ 508 (x.body ++ sl.flatMap slotBytes)⟩ ::
        slotsFuel fuel ((x.body ++ sl.flatMap slotBytes).drop 508) = x :: sl
      rw [← hx, takeZ_append, List.drop_left, ih hl hrest]

/-- The slots of an operand are read back from their layout (rule R248). -/
theorem slotsOf_flatMap {sl : List Slot} (h : slotsWf sl = true) : slotsOf (sl.flatMap slotBytes) = some sl := by
  have hl : ∀ x ∈ sl, x.body.length = 508 := fun x hx => by
    simp only [slotsWf, Bool.and_eq_true, List.all_eq_true, decide_eq_true_eq] at h
    exact (h.2 x hx).2
  simp only [slotsOf, slotsFuel_flatMap hl (Nat.le_refl _)]
  exact if_pos h

theorem slotsOf_wf {r : List Byte} {sl : List Slot} (h : slotsOf r = some sl) : slotsWf sl = true := by
  simp only [slotsOf, Option.ite_none_right_eq_some, Option.some.injEq] at h
  obtain ⟨hw, rfl⟩ := h
  exact hw

/-! ### A wire block -/

/-- The fields of a block header (rule R91). -/
theorem le16_blockBytes (f : U16) (blk rsv : Byte) (body : List Byte) : le16 (blockBytes f blk rsv body) 0 = f := by
  rw [blockBytes_eq]
  refine le16_eq_of_toNat ?_
  have := f.isLt
  simp [byteAt, Nat.shiftRight_eq_div_pow]
  omega

theorem byteAt_blockBytes_blk (f : U16) (blk rsv : Byte) (body : List Byte) : byteAt (blockBytes f blk rsv body) 2 = blk := by
  rw [blockBytes_eq]; rfl

theorem byteAt_blockBytes_rsv (f : U16) (blk rsv : Byte) (body : List Byte) : byteAt (blockBytes f blk rsv body) 3 = rsv := by
  rw [blockBytes_eq]; rfl

theorem drop_blockBytes (f : U16) (blk rsv : Byte) (body : List Byte) : (blockBytes f blk rsv body).drop 4 = body := by
  rw [blockBytes_eq]; rfl

/-- A datagram is its header fields and its body: no bit of it is lost (rules R90, R91). -/
theorem blockBytes_fields {d : List Byte} (hd : 4 ≤ d.length) :
    blockBytes (le16 d 0) (byteAt d 2) (byteAt d 3) (d.drop 4) = d := by
  match d, hd with
  | a :: b :: c :: e :: body, _ =>
    have hlow : (le16 (a :: b :: c :: e :: body) 0).setWidth 8 = a := by
      apply BitVec.eq_of_toNat_eq
      rw [BitVec.toNat_setWidth, le16_toNat]
      have := a.isLt
      simp [byteAt]
      omega
    have hhigh : ((le16 (a :: b :: c :: e :: body) 0) >>> 8).setWidth 8 = b := by
      apply BitVec.eq_of_toNat_eq
      rw [BitVec.toNat_setWidth, BitVec.toNat_ushiftRight, le16_toNat, Nat.shiftRight_eq_div_pow]
      have := a.isLt
      have := b.isLt
      simp [byteAt]
      omega
    rw [blockBytes_eq, hlow, hhigh]
    rfl

end Sys2Proof
end

section
/-! PROOFS. The grammar of configuration messages (rules R101, R103, R297 lines 2 to 4): items between commas, keys before
the first `=`, the table of keys, decimal numbers. -/

namespace Sys2Proof

open Machine

/-! ### Items between commas -/

theorem commaJoined_cons_cons (t u : List Byte) (l : List (List Byte)) :
    commaJoined (t :: u :: l) = t ++ comma :: commaJoined (u :: l) := by
  simp [commaJoined, List.intercalate]

@[simp] theorem commaJoined_singleton (t : List Byte) : commaJoined [t] = t := by
  simp [commaJoined, List.intercalate]

theorem joinItems_eq (l : List (List Byte)) : joinItems l = commaJoined l := by
  induction l with
  | nil => rfl
  | cons t l ih =>
    cases l with
    | nil => rw [commaJoined_singleton]; rfl
    | cons u l => rw [commaJoined_cons_cons, ← ih]; rfl

theorem splitItems_ne_nil (m : List Byte) : splitItems m ≠ [] := by
  cases m with
  | nil => nofun
  | cons c r =>
    rw [splitItems]
    split
    · nofun
    · split <;> nofun

theorem splitItems_cons_of_ne {c : Byte} (hc : c ≠ comma) {r t : List Byte} {l : List (List Byte)}
    (h : splitItems r = t :: l) :
    splitItems (c :: r) = (c :: t) :: l := by
  rw [splitItems, if_neg hc, h]

theorem splitItems_comma (r : List Byte) : splitItems (comma :: r) = [] :: splitItems r := by
  rw [splitItems, if_pos rfl]

/-- A text without a comma is one item. -/
theorem splitItems_of_notMem {t : List Byte} (h : comma ∉ t) : splitItems t = [t] := by
  induction t with
  | nil => rfl
  | cons c t ih =>
    exact splitItems_cons_of_ne (List.ne_of_not_mem_cons h).symm (ih (List.not_mem_of_not_mem_cons h))

theorem splitItems_append_comma {t : List Byte} (h : comma ∉ t) (r : List Byte) :
    splitItems (t ++ comma :: r) = t :: splitItems r := by
  induction t with
  | nil => exact splitItems_comma r
  | cons c t ih =>
    exact splitItems_cons_of_ne (List.ne_of_not_mem_cons h).symm (ih (List.not_mem_of_not_mem_cons h))

/-- The items of a message are the texts that were joined (rule R297 line 2). -/
theorem splitItems_commaJoined {l : List (List Byte)} (hne : l ≠ []) (h : ∀ t ∈ l, comma ∉ t) :
    splitItems (commaJoined l) = l := by
  induction l with
  | nil => exact absurd rfl hne
  | cons t l ih =>
    obtain ⟨ht, hl⟩ := List.forall_mem_cons.1 h
    cases l with
    | nil => rw [commaJoined_singleton, splitItems_of_notMem ht]
    | cons u l => rw [commaJoined_cons_cons, splitItems_append_comma ht, ih nofun hl]

/-- Joining the items gives the message back, and no item holds a comma. -/
theorem commaJoined_splitItems (m : List Byte) : commaJoined (splitItems m) = m ∧ ∀ t ∈ splitItems m, comma ∉ t := by
  induction m with
  | nil => exact ⟨commaJoined_singleton [], by simp [splitItems]⟩
  | cons c r ih =>
    obtain ⟨t, l, hr⟩ := List.exists_cons_of_ne_nil (splitItems_ne_nil r)
    obtain ⟨hjoin, hmem⟩ := ih
    rw [hr] at hjoin hmem
    by_cases hc : c = comma
    · subst hc
      rw [splitItems_comma, hr, commaJoined_cons_cons, hjoin]
      exact ⟨rfl, List.forall_mem_cons.2 ⟨List.not_mem_nil, hmem⟩⟩
    · rw [splitItems_cons_of_ne hc hr]
      obtain ⟨ht, hl⟩ := List.forall_mem_cons.1 hmem
      refine ⟨?_, List.forall_mem_cons.2 ⟨List.not_mem_cons_of_ne_of_not_mem (Ne.symm hc) ht, hl⟩⟩
      rw [← hjoin]
      cases l with
      | nil => simp only [commaJoined_singleton]
      | cons u l => simp only [commaJoined_cons_cons, List.cons_append]

/-- The one item of a message is the message. -/
theorem splitItems_singleton {m t : List Byte} (h : splitItems m = [t]) : t = m ∧ comma ∉ m := by
  obtain ⟨hjoin, hmem⟩ := commaJoined_splitItems m
  rw [h, commaJoined_singleton] at hjoin
  rw [h] at hmem
  exact ⟨hjoin, hjoin ▸ hmem t (List.mem_singleton_self t)⟩

theorem length_le_commaJoined {l : List (List Byte)} {t : List Byte} (h : t ∈ l) : t.length ≤ (commaJoined l).length := by
  induction l with
  | nil => cases h
  | cons u l ih =>
    cases l with
    | nil => rw [List.mem_singleton.1 h, commaJoined_singleton]
    | cons v l =>
      rw [commaJoined_cons_cons, List.length_append, List.length_cons]
      rcases List.mem_cons.1 h with rfl | h
      · omega
      · have := ih h
        omega

/-! ### Key and value of an item -/

section
variable {key : List Byte}

theorem span_keyValue (hk : equals ∉ key) (val : Option (List Byte)) :
    (keyValue key val).takeWhile (· != equals) = key ∧
      (keyValue key val).dropWhile (· != equals) = (val.map (equals :: ·)).getD [] := by
  have hkey : ∀ c ∈ key, (c != equals) = true := fun c hc => bne_iff_ne.2 fun h => hk (h ▸ hc)
  cases val with
  | none =>
    exact ⟨List.takeWhile_eq_self_iff.2 hkey, List.dropWhile_eq_nil_iff.2 hkey⟩
  | some v =>
    change (key ++ [equals] ++ v).takeWhile _ = key ∧ (key ++ [equals] ++ v).dropWhile _ = equals :: v
    rw [List.append_assoc, List.takeWhile_append_of_pos hkey, List.dropWhile_append_of_pos hkey]
    simp

/-- The key of `key[=value]` (rule R103). -/
theorem itemKey_keyValue (hk : equals ∉ key) (val : Option (List Byte)) : itemKey (keyValue key val) = key :=
  (span_keyValue hk val).1

theorem itemValue?_keyValue (hk : equals ∉ key) (val : Option (List Byte)) : itemValue? (keyValue key val) = val := by
  rw [itemValue?, (span_keyValue hk val).2]
  cases val <;> rfl

/-- The value of `key[=value]`, 1 for a bare key (rule R297 line 4). -/
theorem itemValue_keyValue (hk : equals ∉ key) (val : Option (List Byte)) :
    itemValue (keyValue key val) = val.getD (ascii ['1']) := by
  rw [itemValue, (span_keyValue hk val).2]
  cases val <;> rfl

/-- An item is its key and its value. -/
theorem keyValue_itemKey (it : List Byte) : keyValue (itemKey it) (itemValue? it) = it := by
  have hsplit : itemKey it ++ it.dropWhile (· != equals) = it := List.takeWhile_append_dropWhile
  cases h : it.dropWhile (· != equals) with
  | nil =>
    rw [h, List.append_nil] at hsplit
    rw [itemValue?, h]
    exact hsplit
  | cons c v =>
    have hc : c = equals := by
      have := List.head?_dropWhile_not (· != equals) it
      rw [h] at this
      simpa using this
    rw [itemValue?, h]
    subst hc
    rw [h] at hsplit
    change itemKey it ++ [equals] ++ v = it
    rw [List.append_assoc]
    exact hsplit

end

theorem itemKey_eq_nil_iff (it : List Byte) : itemKey it = [] ↔ it = [] ∨ it.head? = some equals := by
  cases it with
  | nil => simp [itemKey]
  | cons c r =>
    by_cases hc : c = equals <;> simp [itemKey, hc]

/-! ### The table of keys -/

theorem keyText_no_separator (k : Key) : comma ∉ k.text ∧ equals ∉ k.text ∧ k.text ≠ [] := by
  cases k <;> decide

theorem keyWord_eq (k : Key) : k.word = k.text := by
  cases k <;> rfl

theorem itemText_eq (k : Key) (val : Option (List Byte)) : itemText k val = keyValue k.word val := by
  rw [keyWord_eq]
  cases val with
  | none => rfl
  | some v => exact (List.append_assoc k.text [equals] v).symm

@[simp] theorem Key.ofText_text (k : Key) : Key.ofText k.text = some k := by
  cases k <;> rfl

theorem Key.ofText_eq_some {k : Key} {t : List Byte} : Key.ofText t = some k ↔ t = k.text := by
  constructor
  · intro h
    have hfound : (k.text == t) = true := by
      have hfind : Key.all.find? (fun k => k.text == t) = some k := h
      simpa using List.find?_some hfind
    exact (beq_iff_eq.1 hfound).symm
  · rintro rfl
    exact Key.ofText_text k

/-- The two tables of rule R101 name the same keys. -/
theorem keyOfWord_eq (t : List Byte) : keyOfWord t = Key.ofText t := by
  have htable : keyWords = Key.all.map fun k => (k, k.text) := rfl
  rw [keyOfWord, htable, List.find?_map, Option.map_map]
  exact congrFun Option.map_id _

theorem Key.deviceLevel_iff (k : Key) : k.deviceLevel = true ↔ k.group = .device := by
  cases k <;> decide

/-! ### Decimal numbers -/

theorem sum_digits_succ (l : List Byte) (n : Nat) :
    ((l.zipIdx (n + 1)).map fun x => (x.1.toNat - 0x30) * 10 ^ x.2).sum =
      10 * ((l.zipIdx n).map fun x => (x.1.toNat - 0x30) * 10 ^ x.2).sum := by
  induction l generalizing n with
  | nil => rfl
  | cons c l ih =>
    simp only [List.zipIdx_cons, List.map_cons, List.sum_cons, ih, Nat.pow_succ]
    ring

/-- Reading digits from the left is the sum of the digits, each at its place (rule R103). -/
theorem decimal_eq_sum (t : List Byte) :
    decimal t = (t.reverse.zipIdx.map fun x => (x.1.toNat - 0x30) * 10 ^ x.2).sum := by
  induction t using List.reverseRecOn with
  | nil => rfl
  | append_singleton t c ih =>
    have hstep : decimal (t ++ [c]) = 10 * decimal t + (c.toNat - 0x30) := by
      simp only [decimal, List.foldl_append, List.foldl_cons, List.foldl_nil]
    rw [hstep, ih, List.reverse_append]
    simp only [List.reverse_cons, List.reverse_nil, List.nil_append, List.cons_append, List.zipIdx_cons, List.map_cons,
      List.sum_cons, sum_digits_succ, Nat.pow_zero, Nat.mul_one]
    omega

/-- A number is not empty and all digits; then it is what the model reads. -/
theorem numberOf_some (t : List Byte) :
    numberOf (some t) = if t.isEmpty || !t.all isDigit then none else some (decimal t) := by
  have hcond : (t ≠ [] ∧ ∀ c ∈ t, 0x30 ≤ c.toNat ∧ c.toNat ≤ 0x39) ↔ (t.isEmpty || !t.all isDigit) = false := by
    simp [isDigit]
  rw [numberOf, decimal_eq_sum]
  by_cases h : (t.isEmpty || !t.all isDigit) = false
  · rw [if_pos (hcond.2 h), h]; rfl
  · rw [if_neg (mt hcond.1 h), if_pos (Bool.eq_true_of_not_eq_false h)]

theorem numberOf_getD (val : Option (List Byte)) :
    numberOf val = if (val.getD (ascii ['1'])).isEmpty || !(val.getD (ascii ['1'])).all isDigit then none
      else some (decimal (val.getD (ascii ['1']))) := by
  cases val with
  | none => rfl
  | some t => exact numberOf_some t

/-- A value that is a number holds no comma. -/
theorem comma_notMem_of_number {t : List Byte} {v : Nat} (h : numberOf (some t) = some v) : comma ∉ t := by
  rw [numberOf, Option.ite_none_right_eq_some] at h
  obtain ⟨⟨-, hdigits⟩, -⟩ := h
  intro hmem
  exact absurd (hdigits comma hmem).1 (by decide)

end Sys2Proof
end

section
/-! PROOFS. What the decoder does at each of the three ports (rules R91, R92, R98, R100, R101). -/

namespace Sys2Proof

open Machine

/-! ### The operation-code port -/

theorem decode_opTransaction (code : Byte) (r : List Byte) : decode (opTransaction code r) = decodeOp code r [] := rfl

theorem sized_of_le {code : Byte} {n : Nat} {r : List Byte} (h : r.length ≤ n) (i : Instr) :
    sized code n r (some i) = .ok i := if_pos h

theorem operand_ok {code : Byte} {o : Option Instr} {i : Instr} (h : operand code o = .ok i) : o = some i := by
  cases o with
  | none => cases h
  | some j => injection h with h; rw [h]

theorem sized_ok {code : Byte} {n : Nat} {r : List Byte} {o : Option Instr} {i : Instr} (h : sized code n r o = .ok i) :
    o = some i := by
  unfold sized at h
  split at h
  · exact operand_ok h
  · cases h

/-! ### The wire -/

/-- The kind of a block, by its index alone (rule R92). -/
theorem decodeBlock_blockBytes (f : U16) (blk rsv : Byte) (body : List Byte) :
    decodeBlock (blockBytes f blk rsv body) =
      if blk = 0 then .blkMeta f rsv body
      else if blk.toNat < 128 then .blkSample f (blk.setWidth 7) rsv body
      else .blkParity f (blk.setWidth 7) rsv body := by
  simp only [decodeBlock, le16_blockBytes, byteAt_blockBytes_blk, byteAt_blockBytes_rsv, drop_blockBytes]

theorem decode_wire_block {d : List Byte} (h : d.length = 512) : decode ⟨.wire, d, []⟩ = .ok (decodeBlock d) :=
  if_pos h

theorem sampleIndex_range : ∀ b : BitVec 7, b ≠ 0 → (b.setWidth 8 : Byte) ≠ 0 ∧ (b.setWidth 8 : Byte).toNat < 128 := by
  decide

theorem parityIndex_range : ∀ b : BitVec 7, ¬(0x80 ||| b.setWidth 8 : Byte).toNat < 128 := by
  decide

theorem setWidth_sampleIndex : ∀ b : BitVec 7, ((b.setWidth 8 : Byte).setWidth 7 : BitVec 7) = b := by
  decide

theorem setWidth_parityIndex : ∀ b : BitVec 7, ((0x80 ||| b.setWidth 8 : Byte).setWidth 7 : BitVec 7) = b := by
  decide

theorem decode_block {f : U16} {blk rsv : Byte} {body : List Byte} (h : body.length = 508) :
    decode ⟨.wire, blockBytes f blk rsv body, []⟩ = .ok (decodeBlock (blockBytes f blk rsv body)) :=
  decode_wire_block (by rw [blockBytes_length, h])

/-! ### The control channel -/

theorem keyWf_iff {k : Key} {val : Option (List Byte)} :
    keyWf k val = true ↔ comma ∉ itemText k val ∧ (itemText k val).length ≤ 4096 := by
  have hkey := (keyText_no_separator k).1
  have hval : (val.getD []).all (fun c => c != comma) = true ↔ comma ∉ val.getD [] := by
    simp only [List.all_eq_true, bne_iff_ne]
    exact ⟨fun h hm => h _ hm rfl, fun h c hc hcc => h (hcc ▸ hc)⟩
  have htext : comma ∉ itemText k val ↔ comma ∉ val.getD [] := by
    cases val with
    | none => simpa [itemText] using hkey
    | some v => simpa [itemText] using fun _ => hkey
  rw [keyWf, Bool.and_eq_true, hval, htext, decide_eq_true_eq]

/-- A message of one known item is the `KEY` operation of its key (rule R291; log entry 15). -/
theorem decodeControl_item {k : Key} {val : Option (List Byte)} {dev : List DevAnswer} (h : keyWf k val = true)
    (hdev : dev.length ≤ keyAnswers k) : decodeControl (itemText k val) dev = keyInstr k val dev.head? := by
  obtain ⟨hcomma, hlen⟩ := keyWf_iff.1 h
  have hkey : itemKey (itemText k val) = k.text := by
    rw [itemText_eq, keyWord_eq, itemKey_keyValue (keyText_no_separator k).2.1]
  have hvalue : itemValue? (itemText k val) = val := by
    rw [itemText_eq, keyWord_eq, itemValue?_keyValue (keyText_no_separator k).2.1]
  simp only [decodeControl, splitItems_of_notMem hcomma, hkey, Key.ofText_text, hvalue]
  exact if_pos ⟨hlen, hdev⟩

/-- Whatever a configuration message decodes to: the `KEY` operation of its one well-formed item, or `CFG.APPLY`. -/
theorem decodeControl_cases (msg : List Byte) (dev : List DevAnswer) :
    decodeControl msg dev = .cfgApply msg dev ∨
      ∃ k val, keyWf k val = true ∧ decodeControl msg dev = keyInstr k val dev.head? := by
  unfold decodeControl
  split
  · next it hsplit =>
    obtain ⟨rfl, hcomma⟩ := splitItems_singleton hsplit
    split
    · next k hk =>
      split
      · next hlen =>
        have htext : itemText k (itemValue? it) = it := by
          rw [itemText_eq, keyWord_eq, ← Key.ofText_eq_some.1 hk, keyValue_itemKey]
        exact .inr ⟨k, itemValue? it, keyWf_iff.2 (htext.symm ▸ ⟨hcomma, hlen.1⟩), rfl⟩
      · exact .inl rfl
    · exact .inl rfl
  · exact .inl rfl

theorem keyInstr_wf (k : Key) (val : Option (List Byte)) (dev : Option DevAnswer) :
    (keyInstr k val dev).wf = keyWf k val := by
  cases k <;> rfl

theorem decode_keyTransaction {k : Key} {val : Option (List Byte)} {dev : Option DevAnswer} (h : keyWf k val = true)
    (hdev : dev.toList.length ≤ keyAnswers k) : decode (keyTransaction k val dev) = .ok (keyInstr k val dev) := by
  have hhead : dev.toList.head? = dev := by cases dev <;> rfl
  exact congrArg Except.ok ((decodeControl_item h hdev).trans (by rw [hhead]))

/-- A device-level key takes an answer or none. -/
theorem decode_deviceKey {k : Key} (hk : keyAnswers k = 1) {val : Option (List Byte)} (h : keyWf k val = true)
    (dev : Option DevAnswer) : decode (keyTransaction k val dev) = .ok (keyInstr k val dev) :=
  decode_keyTransaction h (hk ▸ Option.length_toList_le)

end Sys2Proof
end

section
/-! PROOFS. Decoder and encoder agree (O1 to O4) and a step runs what is decoded (O5): rules R91, R92, R98, R100, R101. -/

namespace Sys2Proof

open Machine

/-! ### What stands behind a code -/

section
variable (r : List Byte)

theorem decodeOp_cfgWrite : decodeOp Opcode.cfgWrite r [] = .ok (.cfgWrite (byteAt r 0) (leNat (r.drop 1))) := rfl

theorem decodeOp_sbPush :
    decodeOp Opcode.sbPush r [] =
      operand Opcode.sbPush ((queueOf (byteAt r 0)).bind fun q => (samplesOf (r.drop 1)).map (.sbPush q)) := rfl

theorem decodeOp_sbWaitfill :
    decodeOp Opcode.sbWaitfill r [] =
      operand Opcode.sbWaitfill ((queueOf (byteAt r 0)).map fun q => .sbWaitfill q (leNat (r.drop 1))) := rfl

theorem decodeOp_decProcess :
    decodeOp Opcode.decProcess r [] = sized Opcode.decProcess 4 r (some (.decProcess (sampleAt r 0))) := rfl

theorem decodeOp_intProcess :
    decodeOp Opcode.intProcess r [] = operand Opcode.intProcess ((samplesOf r).map .intProcess) := rfl

theorem decodeOp_mixFs4 : decodeOp Opcode.mixFs4 r [] = sized Opcode.mixFs4 4 r (some (.mixFs4 (sampleAt r 0))) := rfl

theorem decodeOp_rxwStep :
    decodeOp Opcode.rxwStep r [] = sized Opcode.rxwStep 16 r ((wallAt r 8).map (.rxwStep (le64 r 0))) := rfl

theorem decodeOp_rxSample :
    decodeOp Opcode.rxSample r [] = sized Opcode.rxSample 12 r ((wallAt r 4).map (.rxSample (sampleAt r 0))) := rfl

theorem decodeOp_packFrame :
    decodeOp Opcode.packFrame r [] = sized Opcode.packFrame 8 r ((wallAt r 0).map .packFrame) := rfl

/-- The width of `UNPACK.EXPAND` is its byte and one (log entry 2). -/
theorem decodeOp_unpackExpand {b : Byte} (hb : b = 1 ∨ b = 2) :
    decodeOp Opcode.unpackExpand ((b - 1) :: r) [] =
      sized Opcode.unpackExpand (1 + 127 * 508) ((b - 1) :: r) (some (.unpackExpand (bodiesOf 127 r) b)) := by
  rcases hb with rfl | rfl <;> rfl

theorem decodeOp_fecEncode {m : Byte} (hm : m.toNat ≤ 127) :
    decodeOp Opcode.fecEncode (m :: r) [] =
      sized Opcode.fecEncode (1 + 128 * 508) (m :: r) (some (.fecEncode (bodiesOf 128 r) m)) :=
  congrArg (sized Opcode.fecEncode (1 + 128 * 508) (m :: r)) (if_pos hm)

theorem decodeOp_fecDecode :
    decodeOp Opcode.fecDecode r [] = operand Opcode.fecDecode ((slotsOf r).map .fecDecode) := rfl

theorem decodeOp_netSend : decodeOp Opcode.netSend r [] = sized Opcode.netSend 8 r (some (.netSend (le64 r 0))) := rfl

end

/-! ### Operations with operands -/

theorem decode_encode_cfgWrite (reg : Byte) (v : Nat) : decode (encode (.cfgWrite reg v)) = .ok (.cfgWrite reg v) := by
  rw [encode, decode_opTransaction, decodeOp_cfgWrite, List.drop_one, List.tail_cons, leNat_shortBytes]
  rfl

theorem decode_encode_sbPush (q : QueueId) (v : List Sample) : decode (encode (.sbPush q v)) = .ok (.sbPush q v) := by
  rw [encode, decode_opTransaction, decodeOp_sbPush, List.drop_one, List.tail_cons, samplesOf_flatMap]
  cases q <;> rfl

theorem decode_encode_sbWaitfill (q : QueueId) (n : Nat) : decode (encode (.sbWaitfill q n)) = .ok (.sbWaitfill q n) := by
  rw [encode, decode_opTransaction, decodeOp_sbWaitfill, List.drop_one, List.tail_cons, leNat_shortBytes]
  cases q <;> rfl

theorem decode_encode_decProcess (x : Sample) : decode (encode (.decProcess x)) = .ok (.decProcess x) := by
  have hx : sampleAt (sampleBytes x) 0 = x := by simpa using sampleAt_sampleBytes x []
  rw [encode, decode_opTransaction, decodeOp_decProcess, hx]
  exact sized_of_le (Nat.le_refl 4) _

theorem decode_encode_mixFs4 (x : Sample) : decode (encode (.mixFs4 x)) = .ok (.mixFs4 x) := by
  have hx : sampleAt (sampleBytes x) 0 = x := by simpa using sampleAt_sampleBytes x []
  rw [encode, decode_opTransaction, decodeOp_mixFs4, hx]
  exact sized_of_le (Nat.le_refl 4) _

theorem decode_encode_intProcess (v : List Sample) : decode (encode (.intProcess v)) = .ok (.intProcess v) := by
  rw [encode, decode_opTransaction, decodeOp_intProcess, samplesOf_flatMap]
  rfl

theorem decode_encode_rxwStep (now : U64) {wall : Wall} (h : wall.wf = true) :
    decode (encode (.rxwStep now wall)) = .ok (.rxwStep now wall) := by
  have hwall : wallAt (leBytes 8 now.toNat ++ wallBytes wall) 8 = some wall := wallAt_wallBytes h _
  rw [encode, decode_opTransaction, decodeOp_rxwStep, hwall, le64_leBytes]
  exact sized_of_le (Nat.le_refl 16) _

theorem decode_encode_rxSample (x : Sample) {wall : Wall} (h : wall.wf = true) :
    decode (encode (.rxSample x wall)) = .ok (.rxSample x wall) := by
  have hwall : wallAt (sampleBytes x ++ wallBytes wall) 4 = some wall := wallAt_wallBytes h _
  rw [encode, decode_opTransaction, decodeOp_rxSample, hwall, sampleAt_sampleBytes]
  exact sized_of_le (Nat.le_refl 12) _

theorem decode_encode_packFrame {wall : Wall} (h : wall.wf = true) :
    decode (encode (.packFrame wall)) = .ok (.packFrame wall) := by
  have hwall : wallAt (wallBytes wall) 0 = some wall := wallAt_wallBytes h []
  rw [encode, decode_opTransaction, decodeOp_packFrame, hwall]
  exact sized_of_le (Nat.le_refl 8) _

theorem decode_encode_unpackExpand {bodies : List (List Byte)} {b : Byte} (h : (Instr.unpackExpand bodies b).wf = true) :
    decode (encode (.unpackExpand bodies b)) = .ok (.unpackExpand bodies b) := by
  simp only [Instr.wf, Bool.and_eq_true, Bool.or_eq_true, decide_eq_true_eq] at h
  obtain ⟨hbodies, hb⟩ := h
  rw [encode, decode_opTransaction, decodeOp_unpackExpand _ hb, bodiesOf_of_wf hbodies]
  exact sized_of_le (Nat.le_of_eq (by rw [List.length_cons, flatten_length_of_wf hbodies, Nat.add_comm])) _

theorem decode_encode_fecEncode {data : List (List Byte)} {m : Byte} (h : (Instr.fecEncode data m).wf = true) :
    decode (encode (.fecEncode data m)) = .ok (.fecEncode data m) := by
  simp only [Instr.wf, Bool.and_eq_true, decide_eq_true_eq] at h
  obtain ⟨hdata, hm⟩ := h
  rw [encode, decode_opTransaction, decodeOp_fecEncode _ hm, bodiesOf_of_wf hdata]
  exact sized_of_le (Nat.le_of_eq (by rw [List.length_cons, flatten_length_of_wf hdata, Nat.add_comm])) _

theorem decode_encode_fecDecode {slots : List Slot} (h : slotsWf slots = true) :
    decode (encode (.fecDecode slots)) = .ok (.fecDecode slots) := by
  rw [encode, decode_opTransaction, decodeOp_fecDecode, slotsOf_flatMap h]
  rfl

theorem decode_encode_netSend (now : U64) : decode (encode (.netSend now)) = .ok (.netSend now) := by
  have hnow : le64 (leBytes 8 now.toNat) 0 = now := by simpa using le64_leBytes now []
  rw [encode, decode_opTransaction, decodeOp_netSend, hnow]
  exact sized_of_le (by rw [leBytes_length]) _

/-! ### Blocks -/

theorem decode_encode_blkMeta (f : U16) (rsv : Byte) {body : List Byte} (h : body.length = 508) :
    decode (encode (.blkMeta f rsv body)) = .ok (.blkMeta f rsv body) := by
  rw [encode, decode_block h, decodeBlock_blockBytes, if_pos rfl]

theorem decode_encode_blkSample (f : U16) {b : BitVec 7} (rsv : Byte) {body : List Byte} (hb : b ≠ 0)
    (h : body.length = 508) : decode (encode (.blkSample f b rsv body)) = .ok (.blkSample f b rsv body) := by
  obtain ⟨hne, hlt⟩ := sampleIndex_range b hb
  rw [encode, decode_block h, decodeBlock_blockBytes, if_neg hne, if_pos hlt, setWidth_sampleIndex]

theorem decode_encode_blkParity (f : U16) (b : BitVec 7) (rsv : Byte) {body : List Byte} (h : body.length = 508) :
    decode (encode (.blkParity f b rsv body)) = .ok (.blkParity f b rsv body) := by
  have hge := parityIndex_range b
  have hne : (0x80 ||| b.setWidth 8 : Byte) ≠ 0 := fun hz => hge (by rw [hz]; decide)
  rw [encode, decode_block h, decodeBlock_blockBytes, if_neg hne, if_neg hge, setWidth_parityIndex]

/-- Settles O1: operand by operand what the encoder lays down is what the decoder reads; a block is told by its index, a
key by its word. -/
theorem decodeEncodeAgree : Obligations.DecodeEncodeAgree := by
  intro i hi
  cases i with
  | ctlReset | ctlStop | ctlDeverr | rxAdopt | txAdopt | txRetire => rfl
  | cfgRead | cfgApply | crc32 | netRecv => rfl
  | ctlStart devOk => cases devOk <;> rfl
  | sbPull q | sbEnd q | sbQueued q => cases q <;> rfl
  | dspReset half => cases half <;> rfl
  | cfgWrite reg v => exact decode_encode_cfgWrite reg v
  | sbPush q v => exact decode_encode_sbPush q v
  | sbWaitfill q n => exact decode_encode_sbWaitfill q n
  | decProcess x => exact decode_encode_decProcess x
  | intProcess v => exact decode_encode_intProcess v
  | mixFs4 x => exact decode_encode_mixFs4 x
  | rxwStep now wall => exact decode_encode_rxwStep now hi
  | rxSample x wall => exact decode_encode_rxSample x hi
  | packFrame wall => exact decode_encode_packFrame hi
  | unpackExpand bodies b => exact decode_encode_unpackExpand hi
  | fecEncode data m => exact decode_encode_fecEncode hi
  | fecDecode slots => exact decode_encode_fecDecode hi
  | netSend now => exact decode_encode_netSend now
  | blkMeta f rsv body => exact decode_encode_blkMeta f rsv (of_decide_eq_true hi)
  | blkSample f b rsv body =>
    simp only [Instr.wf, Bool.and_eq_true, decide_eq_true_eq] at hi
    exact decode_encode_blkSample f rsv hi.1 hi.2
  | blkParity f b rsv body => exact decode_encode_blkParity f b rsv (of_decide_eq_true hi)
  | keyTxdelay | keyFecblk | keyDecim | keyInterp | keyFcpos => exact decode_keyTransaction hi (Nat.zero_le _)
  | keyFreq _ dev | keySrate _ dev | keyPpmp _ dev | keyPpmn _ dev | keyAgc _ dev | keyAntbias _ dev | keyGain _ dev
  | keyLgain _ dev | keyMgain _ dev | keyVgain _ dev | keyV1gain _ dev | keyV2gain _ dev | keyBwfilter _ dev | keyBw _ dev
  | keyExtamp _ dev | keyLagc _ dev | keyMagc _ dev | keyPwidle _ dev | keyBlklen _ dev | keyPower _ dev | keyDfp _ dev
  | keyDfn _ dev | keyFile _ dev => exact decode_deviceKey rfl hi dev

/-! ### Whatever is decoded is well formed -/

/-- Where the operands of a code stand for an operation, it is well formed. -/
def AllWf (o : Option Instr) : Prop := ∀ i, o = some i → i.wf = true

theorem allWf_none : AllWf none := nofun

theorem allWf_some {i : Instr} (h : i.wf = true) : AllWf (some i) := by
  rintro j ⟨⟩
  exact h

theorem allWf_map {α : Type} {o : Option α} {f : α → Instr} (h : ∀ a, o = some a → (f a).wf = true) : AllWf (o.map f) := by
  intro i hi
  obtain ⟨a, ha, rfl⟩ := Option.map_eq_some_iff.1 hi
  exact h a ha

theorem AllWf.ite {c : Prop} [Decidable c] {o o' : Option Instr} (h : c → AllWf o) (h' : AllWf o') :
    AllWf (if c then o else o') := by
  split
  · next hc => exact h hc
  · exact h'

theorem AllWf.operand {code : Byte} {o : Option Instr} (ho : AllWf o) {i : Instr} (h : operand code o = .ok i) :
    i.wf = true := ho i (operand_ok h)

theorem AllWf.sized {code : Byte} {n : Nat} {r : List Byte} {o : Option Instr} (ho : AllWf o) {i : Instr}
    (h : sized code n r o = .ok i) : i.wf = true := ho i (sized_ok h)

/-- Of a wall clock the decoder takes only what rule R49 admits. -/
theorem allWf_wall {f : Wall → Instr} (hf : ∀ w, (f w).wf = w.wf) (r : List Byte) (off : Nat) :
    AllWf ((wallAt r off).map f) := allWf_map fun w hw => by rw [hf, wallAt_wf hw]

theorem allWf_sbPush (r : List Byte) :
    AllWf ((queueOf (byteAt r 0)).bind fun q => (samplesOf (r.drop 1)).map (.sbPush q)) := by
  intro i hi
  obtain ⟨q, -, hi⟩ := Option.bind_eq_some_iff.1 hi
  exact allWf_map (fun _ _ => rfl) i hi

theorem unpackExpand_wf (r : List Byte) {b : Byte} (hb : b = 1 ∨ b = 2) :
    (Instr.unpackExpand (bodiesOf 127 r) b).wf = true := by
  simp only [Instr.wf, Bool.and_eq_true, Bool.or_eq_true, decide_eq_true_eq]
  exact ⟨bodiesOf_wf 127 r, hb⟩

theorem fecEncode_wf (r : List Byte) {m : Byte} (hm : m.toNat ≤ 127) : (Instr.fecEncode (bodiesOf 128 r) m).wf = true := by
  simp only [Instr.wf, Bool.and_eq_true, decide_eq_true_eq]
  exact ⟨bodiesOf_wf 128 r, hm⟩

/-- The codes in the order of rule R100. -/
theorem decodeOp_wf {code : Byte} {r : List Byte} {dev : List DevAnswer} {i : Instr} (h : decodeOp code r dev = .ok i) :
    i.wf = true := by
  unfold decodeOp at h
  split at h
  · cases h; rfl
  split at h
  · cases h
  split at h
  · exact (allWf_some rfl).sized h
  · exact (AllWf.ite (fun _ => allWf_some rfl) (AllWf.ite (fun _ => allWf_some rfl) allWf_none)).sized h
  · exact (allWf_some rfl).sized h
  · exact (allWf_some rfl).sized h
  · cases h; rfl
  · exact (allWf_some rfl).sized h
  · exact (allWf_sbPush r).operand h
  · exact (allWf_map fun _ _ => rfl).sized h
  · exact (allWf_map fun _ _ => rfl).sized h
  · exact (allWf_map fun _ _ => rfl).operand h
  · exact (allWf_map fun _ _ => rfl).sized h
  · exact (allWf_some rfl).sized h
  · exact (allWf_map fun _ _ => rfl).operand h
  · exact (allWf_map fun _ _ => rfl).sized h
  · exact (allWf_some rfl).sized h
  · exact (allWf_wall (fun _ => rfl) r 8).sized h
  · exact (allWf_some rfl).sized h
  · exact (allWf_wall (fun _ => rfl) r 4).sized h
  · exact (allWf_wall (fun _ => rfl) r 0).sized h
  · cases h; rfl
  · cases h; rfl
  · exact (allWf_some rfl).sized h
  · exact (allWf_some rfl).sized h
  · exact (AllWf.ite (fun _ => allWf_some (unpackExpand_wf _ (.inl rfl)))
      (AllWf.ite (fun _ => allWf_some (unpackExpand_wf _ (.inr rfl))) allWf_none)).sized h
  · exact (AllWf.ite (fun hm => allWf_some (fecEncode_wf _ hm)) allWf_none).sized h
  · exact (allWf_map (f := .fecDecode) fun _ hs => slotsOf_wf hs).operand h
  · exact (allWf_some rfl).sized h
  · cases h

theorem decodeBlock_wf {d : List Byte} (h : d.length = 512) : (decodeBlock d).wf = true := by
  have hbody : (d.drop 4).length = 508 := block_body_length h
  rw [← blockBytes_fields (d := d) (by omega), decodeBlock_blockBytes]
  split
  · exact decide_eq_true hbody
  · next hne =>
    split
    · next hlt =>
      have hidx : (byteAt d 2).setWidth 7 ≠ (0 : BitVec 7) := fun h0 => hne (by bv_omega)
      simp only [Instr.wf, Bool.and_eq_true, decide_eq_true_eq]
      exact ⟨hidx, hbody⟩
    · exact decide_eq_true hbody

theorem decodeWire_wf {d : List Byte} {dev : List DevAnswer} {i : Instr} (h : decodeWire d dev = .ok i) : i.wf = true := by
  unfold decodeWire at h
  split at h
  · cases h
  split at h
  · next hlen => cases h; exact decodeBlock_wf hlen
  · cases h; rfl

theorem decodeControl_wf (msg : List Byte) (dev : List DevAnswer) : (decodeControl msg dev).wf = true := by
  rcases decodeControl_cases msg dev with h | ⟨k, val, hwf, h⟩
  · rw [h]; rfl
  · rw [h, keyInstr_wf, hwf]

/-- Settles O2: at each port what is answered has passed the test of its operand form. -/
theorem decodedIsWellFormed : Obligations.DecodedIsWellFormed := by
  intro t i h
  obtain ⟨port, bytes, dev⟩ := t
  cases port with
  | op =>
    cases bytes with
    | nil => cases h
    | cons code r => exact decodeOp_wf h
  | wire => exact decodeWire_wf h
  | control => cases h; exact decodeControl_wf bytes dev

/-! ### The fields of a block -/

section
variable {d : List Byte}

theorem decodeBlock_meta (h : byteAt d 2 = 0) : decodeBlock d = .blkMeta (le16 d 0) (byteAt d 3) (d.drop 4) := if_pos h

theorem decodeBlock_sample (h : byteAt d 2 ≠ 0) (hlt : (byteAt d 2).toNat < 128) :
    decodeBlock d = .blkSample (le16 d 0) ((byteAt d 2).setWidth 7) (byteAt d 3) (d.drop 4) :=
  (if_neg h).trans (if_pos hlt)

theorem decodeBlock_parity (h : byteAt d 2 ≠ 0) (hge : ¬(byteAt d 2).toNat < 128) :
    decodeBlock d = .blkParity (le16 d 0) ((byteAt d 2).setWidth 7) (byteAt d 3) (d.drop 4) :=
  (if_neg h).trans (if_neg hge)

theorem sampleIndex_setWidth : ∀ blk : Byte, blk.toNat < 128 → (blk.setWidth 7 : BitVec 7).setWidth 8 = blk := by
  decide

theorem parityIndex_setWidth : ∀ blk : Byte, ¬blk.toNat < 128 → 0x80 ||| (blk.setWidth 7 : BitVec 7).setWidth 8 = blk := by
  decide

/-- No bit of a datagram is dropped (rules R91, R92). -/
theorem encode_decodeBlock (h : 4 ≤ d.length) : encode (decodeBlock d) = ⟨.wire, d, []⟩ := by
  by_cases h0 : byteAt d 2 = 0
  · rw [decodeBlock_meta h0, encode, ← h0, blockBytes_fields h]
  by_cases hlt : (byteAt d 2).toNat < 128
  · rw [decodeBlock_sample h0 hlt, encode, sampleIndex_setWidth _ hlt, blockBytes_fields h]
  · rw [decodeBlock_parity h0 hlt, encode, parityIndex_setWidth _ hlt, blockBytes_fields h]

/-- An operation that is encoded for the wire brings in its datagram. -/
theorem datagram_of_wire {i : Instr} (h : (encode i).port = .wire) : i.datagram = some (encode i).bytes := by
  cases i with
  | blkMeta f rsv body => exact congrArg some (blockBytes_eq f 0 rsv body).symm
  | blkSample f b rsv body => exact congrArg some (blockBytes_eq f (b.setWidth 8) rsv body).symm
  | blkParity f b rsv body =>
    rw [encode, parityIndex_eq]
    exact congrArg some (blockBytes_eq f (128 + b.setWidth 8) rsv body).symm
  | _ => cases h

end

/-- Settles O3: a datagram decodes to the block of its index, which is encoded as the datagram. -/
theorem wireBlockFields : Obligations.WireBlockFields := by
  intro d hd
  have hencode : encode (decodeBlock d) = ⟨.wire, d, []⟩ := encode_decodeBlock (by omega)
  have hdatagram : (decodeBlock d).datagram = some d := by
    rw [datagram_of_wire (by rw [hencode]), hencode]
  refine ⟨le16 d 0, decodeBlock d, le16_toNat d, decode_wire_block hd, hencode, hdatagram, fun h0 => ?_, fun hb => ?_,
    fun hb => ?_⟩
  · exact decodeBlock_meta (BitVec.eq_of_toNat_eq h0)
  · refine ⟨(byteAt d 2).setWidth 7, ?_, decodeBlock_sample (fun h0 => ?_) (by omega)⟩
    · rw [BitVec.toNat_setWidth]
      omega
    · rw [h0] at hb
      exact absurd hb.1 (by decide)
  · have hlt := (byteAt d 2).isLt
    refine ⟨(byteAt d 2).setWidth 7, ?_, decodeBlock_parity (fun h0 => ?_) (by omega)⟩
    · rw [BitVec.toNat_setWidth]
      omega
    · rw [h0] at hb
      exact absurd hb (by decide)

/-! ### Written words, and one step -/

/-- Settles O4: the words of the operation-code port and of the control channel by evaluation, the datagram by decoding what its
block operation is encoded as. -/
theorem writtenWordsDecode : Obligations.WrittenWordsDecode := by
  have hbody : (List.replicate 508 (0xAB : Byte)).length = 508 := List.length_replicate
  have hblock : decode ⟨.wire, [0x07, 0x00, 0x87, 0x00] ++ List.replicate 508 0xAB, []⟩ =
      .ok (.blkParity 7 7 0 (List.replicate 508 0xAB)) := by
    have h := decode_encode_blkParity 7 7 0 hbody
    rw [encode, blockBytes_eq] at h
    exact h
  exact ⟨rfl, rfl, rfl, rfl, rfl, hblock, rfl, rfl⟩

/-- Settles O5: the cases of `step`, by the inbox and by what the decoder answers. -/
theorem stepRunsDecoded : Obligations.StepRunsDecoded := by
  intro s
  refine ⟨fun h => ?_, fun t rest h => ⟨fun i hi => ?_, fun e he => ?_⟩⟩
  · rw [step, h]
  · rw [step, h]
    simp only [hi]
    rfl
  · rw [step, h]
    simp only [he]

end Sys2Proof
end

section
/-! PROOFS. `UNPACK.EXPAND` against the packer's layout (O47, rules R95, R97, R213). -/

namespace Sys2Proof

open Machine

/-- A component that a width of 1 or 2 bytes holds (rules R95, R131). -/
def FitsBytes (w : Nat) (x : BitVec 16) : Prop := w = 2 ∨ (w = 1 ∧ -128 ≤ x.toInt ∧ x.toInt ≤ 127)

/-- A component is read back from its low bytes by extending their sign (rule R97). -/
theorem componentOf_componentBytes {w : Nat} {x : BitVec 16} (h : FitsBytes w x) :
    componentOf w (componentBytes w x) = x := by
  rw [componentOf, componentBytes, leNat_leBytes]
  rcases h with rfl | ⟨rfl, hlow, hhigh⟩
  · have hx : BitVec.ofNat 16 (x.toNat % 256 ^ 2) = x := by
      rw [Nat.mod_eq_of_lt (show x.toNat < 256 ^ 2 from x.isLt), BitVec.ofNat_toNat, BitVec.setWidth_eq]
    exact (congrArg (BitVec.signExtend 16) hx).trans (BitVec.signExtend_eq x)
  · have hx : BitVec.ofNat 8 (x.toNat % 256 ^ 1) = x.setWidth 8 := by
      apply BitVec.eq_of_toNat_eq
      simp
    refine (congrArg (BitVec.signExtend 16) hx).trans (BitVec.eq_of_toInt_eq ?_)
    rw [BitVec.toInt_signExtend_of_le (by decide), BitVec.toInt_setWidth, Int.bmod_def]
    rw [BitVec.toInt_eq_toNat_cond] at hlow hhigh ⊢
    split at hlow <;> split <;> omega

/-- A sample as the packer lays it down (rule R97(f)). -/
def packed (w : Nat) (x : Sample) : List Byte := componentBytes w x.i ++ componentBytes w x.q

@[simp] theorem packed_length (w : Nat) (x : Sample) : (packed w x).length = 2 * w := by
  simp [packed, Nat.two_mul]

/-- Slices inside the `k`-th sample of a body. -/
theorem slice_flatMap_packed {w k : Nat} {v : List Sample} (hk : k < v.length) (off n : Nat) :
    ∃ r, slice (v.flatMap (packed w)) (2 * w * k + off) n = slice (packed w v[k] ++ r) off n := by
  induction v generalizing k with
  | nil => simp at hk
  | cons x v ih =>
    rw [List.flatMap_cons]
    cases k with
    | zero => exact ⟨v.flatMap (packed w), by simp⟩
    | succ k =>
      obtain ⟨r, hr⟩ := ih (Nat.lt_of_succ_lt_succ hk)
      refine ⟨r, ?_⟩
      have hoff : 2 * w * (k + 1) + off = (packed w x).length + (2 * w * k + off) := by
        rw [packed_length, Nat.mul_succ]
        omega
      rw [hoff, slice_append, hr, List.getElem_cons_succ]

theorem slice_packed_i (w : Nat) (x : Sample) (r : List Byte) : slice (packed w x ++ r) 0 w = componentBytes w x.i := by
  have h := takeZ_append (componentBytes w x.i) (componentBytes w x.q ++ r)
  rwa [componentBytes_length, ← List.append_assoc] at h

theorem slice_packed_q (w : Nat) (x : Sample) (r : List Byte) : slice (packed w x ++ r) w w = componentBytes w x.q := by
  have h := slice_append (componentBytes w x.i) (componentBytes w x.q ++ r) 0 w
  have h' := takeZ_append (componentBytes w x.q) r
  rw [componentBytes_length] at h h'
  rw [packed, List.append_assoc]
  refine h.trans ?_
  exact h'

/-- A body gives its samples back (rules R95, R213). -/
theorem expandBody_packed {w : Nat} {v : List Sample} (hlen : v.length = samplesPerBlock w)
    (hfit : ∀ x ∈ v, FitsBytes w x.i ∧ FitsBytes w x.q) : expandBody w (v.flatMap (packed w)) = v := by
  apply List.ext_getElem
  · simp [expandBody, hlen]
  · intro k _ hk
    obtain ⟨hi, hq⟩ := hfit v[k] (List.getElem_mem hk)
    obtain ⟨r, hr⟩ := slice_flatMap_packed (w := w) hk 0 w
    obtain ⟨r', hr'⟩ := slice_flatMap_packed (w := w) hk w w
    rw [slice_packed_i, Nat.add_zero] at hr
    rw [slice_packed_q] at hr'
    simp only [expandBody, List.getElem_map, List.getElem_range, hr, hr', componentOf_componentBytes hi,
      componentOf_componentBytes hq]

/-- Settles O47: body by body each component is its low bytes with the sign extended. -/
theorem unpackInvertsPack : Obligations.UnpackInvertsPack := by
  intro b blocks s hb _ hlen hrange
  have hfit : ∀ c ∈ blocks, ∀ x ∈ c, FitsBytes b.toNat x.i ∧ FitsBytes b.toNat x.q := by
    intro c hc x hx
    rcases hb with rfl | rfl
    · obtain ⟨hi, hi', hq, hq'⟩ := hrange rfl c hc x hx
      exact ⟨.inr ⟨rfl, hi, hi'⟩, .inr ⟨rfl, hq, hq'⟩⟩
    · exact ⟨.inl rfl, .inl rfl⟩
  have hbody : ∀ c ∈ blocks, expandBody b.toNat (c.flatMap (packed b.toNat)) = c :=
    fun c hc => expandBody_packed (hlen c hc) (hfit c hc)
  have hall : unpackExpand b.toNat (blocks.map fun c => c.flatMap (packed b.toNat)) = blocks.flatten := by
    rw [unpackExpand, List.flatMap_map, List.flatMap_def, List.map_congr_left hbody, List.map_id']
  exact congrArg (fun v => Host.Outcome.next (s.ret (.vector v))) hall

end Sys2Proof
end

section
/-! PROOFS. The arrivals that are dropped (O42, rules R98, R200, R202, R203, R305). -/

namespace Sys2Proof.Machine

section
variable {d : List Byte} {s : State}

/-- A datagram of a wrong length is counted and dropped after the adoption (rule R202). -/
theorem netRecv_of_length (h : d.length ≠ 512) : netRecv d s = .ok (raise .protocolLength (txAdopt s)) := if_pos h

/-- A block index outside the frame is counted and dropped after the adoption (rule R203). -/
theorem netRecv_of_index (h : d.length = 512) (hidx : 128 + (txAdopt s).cfg.activeTx.fecblk.toNat ≤ (byteAt d 2).toNat) :
    netRecv d s = .ok (raise .protocolHeader (txAdopt s)) :=
  (if_neg (not_not.2 h)).trans (if_pos hidx)

theorem exec_txAdopt (h : s.ctl.lifecycle = .streaming) : exec .txAdopt s = .next ((txAdopt s).ret .done) :=
  unlessStopped_of_ne (by simp [h]) _

theorem exec_arrival_outside {i : Instr} (hi : i.datagram = some d) (h : s.ctl.lifecycle ≠ .streaming) :
    exec i s = .next (s.ret .ignored) := by
  rw [exec_of_datagram hi]
  exact if_pos h

/-- What a protocol error leaves behind the adoption: one more in `CNT_PROTO`, one more in the trace (rule R339). -/
theorem raise_protocol_txAdopt {e : ErrorEvent} (he : e = .protocolLength ∨ e = .protocolHeader) :
    (raise e (txAdopt s)).ret .done =
      { (txAdopt s).ret .done with
        cnt.proto := s.cnt.proto + 1
        io.errors := s.io.errors ++ [e]
        io.result := .done } := by
  rcases he with rfl | rfl <;> simp only [raise, State.ret, Counters.record, txAdopt_cnt, txAdopt_io]

end

end Sys2Proof.Machine

namespace Sys2Proof

open Machine

/-- Settles O42: the first three lines of the arrival, after the lifecycle test. -/
theorem arrivalDropped : Obligations.ArrivalDropped := by
  intro i d s hi
  refine ⟨fun hl => exec_arrival_outside hi hl, fun hl => ⟨_, exec_txAdopt hl, fun hlen => ?_, fun hlen hidx => ?_⟩⟩
  · rw [exec_arrival hi hl, netRecv_of_length hlen, finish_ok, raise_protocol_txAdopt (.inl rfl)]
  · rw [exec_arrival hi hl, netRecv_of_index hlen hidx, finish_ok, raise_protocol_txAdopt (.inr rfl)]

end Sys2Proof
end

section
/-! PROOFS. Where a configuration message stops and where it is applied (O14, rules R101, R103, R297 lines 1 to 6, R332). -/

namespace Sys2Proof

open Machine

/-! ### Assignments as items of a message -/

theorem Assignment.wf_iff {a : Assignment} : a.wf = true ↔ (a.key ≠ [] ∧ equals ∉ a.key) ∧ comma ∉ a.text := by
  simp only [Assignment.wf, Bool.and_eq_true, decide_eq_true_eq]

section
variable {a : Assignment}

theorem Assignment.itemKey_text (h : a.wf = true) : itemKey a.text = a.key :=
  itemKey_keyValue (Assignment.wf_iff.1 h).1.2 a.value

theorem Assignment.comma_notMem_text (h : a.wf = true) : comma ∉ a.text := (Assignment.wf_iff.1 h).2

/-- The class of an item of an unknown key (rule R297 line 4). -/
theorem classify_unknown (h : a.wf = true) (hk : keyOfWord a.key = none) : classify a.text = .unknown := by
  rw [keyOfWord_eq] at hk
  simp only [classify, a.itemKey_text h, hk]

theorem classify_file (h : a.wf = true) (hk : keyOfWord a.key = some .file) : classify a.text = .text .file := by
  rw [keyOfWord_eq] at hk
  simp only [classify, a.itemKey_text h, hk, if_pos]

/-- The class of an item of a numeric key: the number of its value, or a parse failure (rules R103, R297 line 4). -/
theorem classify_numeric {k : Key} (h : a.wf = true) (hk : keyOfWord a.key = some k) (hf : k ≠ .file) :
    classify a.text = (numberOf a.value).elim .badValue (.number k) := by
  rw [keyOfWord_eq] at hk
  have hvalue : itemValue a.text = a.value.getD (ascii ['1']) := itemValue_keyValue (Assignment.wf_iff.1 h).1.2 a.value
  simp only [classify, a.itemKey_text h, hk, hvalue, if_neg hf, numberOf_getD]
  split <;> rfl

theorem Assignment.badValue_numeric {k : Key} (hk : keyOfWord a.key = some k) (hf : k ≠ .file) :
    a.badValue = (numberOf a.value).isNone := by
  simp only [Assignment.badValue, hk, decide_eq_true hf, Bool.true_and]

/-- Everything the class of a well-formed item can be. -/
theorem Assignment.class_cases (h : a.wf = true) :
    (keyOfWord a.key = none ∧ classify a.text = .unknown ∧ a.badValue = false) ∨
      (keyOfWord a.key = some .file ∧ classify a.text = .text .file ∧ a.badValue = false) ∨
      ∃ k, keyOfWord a.key = some k ∧
        ((classify a.text = .badValue ∧ a.badValue = true) ∨ ∃ v, classify a.text = .number k v ∧ a.badValue = false) := by
  cases hk : keyOfWord a.key with
  | none => exact .inl ⟨rfl, classify_unknown h hk, by simp only [Assignment.badValue, hk]⟩
  | some k =>
    by_cases hf : k = .file
    · subst hf
      exact .inr (.inl ⟨rfl, classify_file h hk, by simp [Assignment.badValue, hk]⟩)
    · have hclass := classify_numeric h hk hf
      have hbad := Assignment.badValue_numeric hk hf
      refine .inr (.inr ⟨k, rfl, ?_⟩)
      cases hv : numberOf a.value with
      | none => rw [hv] at hclass hbad; exact .inl ⟨hclass, hbad⟩
      | some v => rw [hv] at hclass hbad; exact .inr ⟨v, hclass, hbad⟩

theorem Assignment.badValue_iff (h : a.wf = true) : a.badValue = true ↔ classify a.text = .badValue := by
  rcases a.class_cases h with ⟨-, hc, hb⟩ | ⟨-, hc, hb⟩ | ⟨k, -, ⟨hc, hb⟩ | ⟨v, hc, hb⟩⟩ <;> simp [hc, hb]

end

/-- The words of a reply (rules R296, R297, decision D34). -/
theorem outcomeWord_eq (o : CfgOutcome) : outcomeWord o = o.text := by
  cases o with
  | ok | clamped => rfl
  | rejected why => cases why <;> rfl

namespace Machine

/-! ### The lines of rule R297 -/

section
variable {msg : List Byte} {dev : List DevAnswer} {s : State}

theorem exec_cfgApply (h : s.ctl.lifecycle = .created ∨ s.ctl.lifecycle = .streaming) (msg : List Byte)
    (dev : List DevAnswer) : exec (.cfgApply msg dev) s = .next (applyMessage msg dev s) :=
  if_pos (decide_eq_true h)

/-- Line 1. -/
theorem applyMessage_of_size (h : 4096 < msg.length) :
    applyMessage msg dev s = (raise .configParse s).ret (.reply (CfgOutcome.rejected .size).text) := if_pos h

/-- Line 3. -/
theorem applyMessage_of_malformed (hlen : msg.length ≤ 4096) (h : malformed msg = true) :
    applyMessage msg dev s = (raise .configParse s).ret (.reply (CfgOutcome.rejected .parse).text) :=
  (if_neg (Nat.not_lt.2 hlen)).trans (if_pos h)

/-- Line 5. -/
theorem applyMessage_of_badValue (hlen : msg.length ≤ 4096) (hm : malformed msg = false)
    (h : (pairAnswers (splitItems msg) dev).any (fun it => decide (it.cls = .badValue)) = true) :
    applyMessage msg dev s = (raise .configParse s).ret
      (.reply (joinItems ((pairAnswers (splitItems msg) dev).map fun it => replyItem it.text (abortedOutcome it)))) :=
  ((if_neg (Nat.not_lt.2 hlen)).trans (if_neg (Bool.not_eq_true _ ▸ hm))).trans (if_pos h)

/-- Lines 6 to 12. -/
theorem applyMessage_of_good (hlen : msg.length ≤ 4096) (hm : malformed msg = false)
    (h : (pairAnswers (splitItems msg) dev).any (fun it => decide (it.cls = .badValue)) = false) :
    applyMessage msg dev s = applyItems (pairAnswers (splitItems msg) dev) s :=
  ((if_neg (Nat.not_lt.2 hlen)).trans (if_neg (Bool.not_eq_true _ ▸ hm))).trans (if_neg (Bool.not_eq_true _ ▸ h))

end

/-- A message of items without a comma is malformed where an item has no key (rule R297 line 3). -/
theorem malformed_commaJoined {l : List (List Byte)} (hne : l ≠ []) (h : ∀ t ∈ l, comma ∉ t) :
    malformed (commaJoined l) = true ↔ ∃ t ∈ l, t = [] ∨ t.head? = some equals := by
  simp only [malformed, splitItems_commaJoined hne h, List.any_eq_true, List.isEmpty_iff, itemKey_eq_nil_iff]

/-- What does not look at the device's answers is the same of an item and of its text and class. -/
theorem map_pairAnswers {β : Type} {f : Item → β} (hf : ∀ t c x y, f ⟨t, c, x⟩ = f ⟨t, c, y⟩) (l : List (List Byte))
    (dev : List DevAnswer) : (pairAnswers l dev).map f = l.map fun t => f ⟨t, classify t, none⟩ := by
  induction l generalizing dev with
  | nil => rfl
  | cons t l ih =>
    rw [pairAnswers]
    dsimp only
    split
    · exact congrArg₂ List.cons (hf _ _ _ _) (ih dev.tail)
    · exact congrArg₂ List.cons rfl (ih dev)

/-- Whether a message has a bad value does not depend on the device. -/
theorem any_badValue_pairAnswers (l : List (List Byte)) (dev : List DevAnswer) :
    (pairAnswers l dev).any (fun it => decide (it.cls = .badValue)) = l.any fun t => decide (classify t = .badValue) := by
  have h := congrArg (fun l : List Bool => l.any id)
    (map_pairAnswers (f := fun it => decide (it.cls = .badValue)) (fun _ _ _ _ => rfl) l dev)
  simpa only [List.any_map, Function.id_comp] using h

section
variable {items : List Assignment}

theorem splitItems_assignments (hne : items ≠ []) (h : ∀ a ∈ items, a.wf = true) :
    splitItems (commaJoined (items.map Assignment.text)) = items.map Assignment.text :=
  splitItems_commaJoined (by simpa using hne)
    (List.forall_mem_map.2 fun a ha => Assignment.comma_notMem_text (h a ha))

theorem not_malformed_assignments (hne : items ≠ []) (h : ∀ a ∈ items, a.wf = true) :
    malformed (commaJoined (items.map Assignment.text)) = false := by
  simp only [malformed, splitItems_assignments hne h, List.any_map, List.any_eq_false, Function.comp_apply, List.isEmpty_iff]
  intro a ha
  rw [Assignment.itemKey_text (h a ha)]
  exact (Assignment.wf_iff.1 (h a ha)).1.1

/-- A bad value of the message is a bad value of one of its items (rule R297 line 4). -/
theorem any_badValue_assignments (h : ∀ a ∈ items, a.wf = true) (dev : List DevAnswer) :
    (pairAnswers (items.map Assignment.text) dev).any (fun it => decide (it.cls = .badValue)) =
      items.any Assignment.badValue := by
  rw [any_badValue_pairAnswers, List.any_map, Bool.eq_iff_iff]
  simp only [List.any_eq_true, Function.comp_apply, decide_eq_true_eq]
  exact exists_congr fun a => and_congr_right fun ha => (Assignment.badValue_iff (h a ha)).symm

end

/-- The answer of line 5 for one item, in the words of the rule. -/
theorem replyItem_aborted {a : Assignment} (h : a.wf = true) :
    replyItem a.text (abortedOutcome ⟨a.text, classify a.text, none⟩) =
      a.key ++ ascii ['=', 'r', 'e', 'j', 'e', 'c', 't', 'e', 'd', ':'] ++
        if a.badValue then ascii ['p', 'a', 'r', 's', 'e']
        else if keyOfWord a.key = none then ascii ['u', 'n', 'k', 'n', 'o', 'w', 'n']
        else ascii ['a', 'b', 'o', 'r', 't', 'e', 'd'] := by
  rw [replyItem, Assignment.itemKey_text h, List.append_assoc]
  rcases a.class_cases h with ⟨hk, hc, hb⟩ | ⟨hk, hc, hb⟩ | ⟨k, hk, ⟨hc, hb⟩ | ⟨v, hc, hb⟩⟩ <;>
    simp only [hk, hc, hb, if_true, if_false, reduceCtorEq, Bool.false_eq_true] <;> rfl

end Machine

/-- Settles O14: lines 1, 3 and 5 of rule R297 in turn, each before anything is written. -/
theorem cfgParseFailure : Obligations.CfgParseFailure := by
  intro s msg dev hl failed
  refine ⟨fun hsize => ?_, fun texts hne hcomma hmsg hlen hbad => ?_, fun items hwf hmsg hlen hbad => ?_⟩
  · exact (exec_cfgApply hl msg dev).trans (congrArg _ (applyMessage_of_size hsize))
  · have hm : malformed msg = true := hmsg ▸ (malformed_commaJoined hne hcomma).2 hbad
    exact (exec_cfgApply hl msg dev).trans (congrArg _ (applyMessage_of_malformed hlen hm))
  · have hne : items ≠ [] := by
      obtain ⟨a, ha, -⟩ := hbad
      exact List.ne_nil_of_mem ha
    have hsplit : splitItems msg = items.map Assignment.text := hmsg ▸ splitItems_assignments hne hwf
    have hany : (pairAnswers (splitItems msg) dev).any (fun it => decide (it.cls = .badValue)) = true := by
      rw [hsplit, any_badValue_assignments hwf, List.any_eq_true]
      exact hbad
    have hreply : joinItems ((pairAnswers (splitItems msg) dev).map fun it => replyItem it.text (abortedOutcome it)) =
        commaJoined (items.map fun a =>
          a.key ++ ascii ['=', 'r', 'e', 'j', 'e', 'c', 't', 'e', 'd', ':'] ++
            if a.badValue then ascii ['p', 'a', 'r', 's', 'e']
            else if keyOfWord a.key = none then ascii ['u', 'n', 'k', 'n', 'o', 'w', 'n']
            else ascii ['a', 'b', 'o', 'r', 't', 'e', 'd']) := by
      rw [joinItems_eq, map_pairAnswers (fun _ _ _ _ => rfl), hsplit, List.map_map]
      exact congrArg commaJoined (List.map_congr_left fun a ha => replyItem_aborted (hwf a ha))
    have happly := applyMessage_of_badValue (dev := dev) (s := s) hlen (hmsg ▸ not_malformed_assignments hne hwf) hany
    rw [hreply] at happly
    exact (exec_cfgApply hl msg dev).trans (congrArg _ happly)

end Sys2Proof
end

section
/-! PROOFS. A message against its items one by one (O15, rules R101, R103, R297 lines 6 to 12). -/

namespace Sys2Proof

open Machine

/-! ### Which pass writes which register -/

/-- The pass of rule R297 that writes a register (rule R101, last column). -/
def CfgReg.pass : CfgReg → KeyGroup
  | .txdelay | .fecblk => .packaging
  | .decim | .interp | .fcpos => .dsp
  | .freq | .srate | .bps | .ebits => .device

theorem pass_of_reg {k : Key} {r : CfgReg} (h : k.reg = some r) : r.pass = k.group := by
  cases k <;> cases h <;> rfl

namespace Machine

/-- What one item does to the pending bank (rule R297 lines 7 to 10). -/
def Item.write (it : Item) (b : Bank) : Bank :=
  match it.effect.2 with
  | some (r, v) => b.write r v
  | none => b

section
variable {it : Item}

theorem Item.write_of_some {r : CfgReg} {v : Nat} (h : it.effect.2 = some (r, v)) (b : Bank) : it.write b = b.write r v := by
  rw [Item.write, h]

theorem Item.write_of_none (h : it.effect.2 = none) (b : Bank) : it.write b = b := by
  rw [Item.write, h]

theorem Item.write_of_not_changes (h : it.changes = false) (b : Bank) : it.write b = b :=
  Item.write_of_none (Option.isNone_iff_eq_none.1 (by rw [← Option.not_isSome, ← Item.changes, h]; rfl)) b

/-- The register that a key writes is the key's own (rules R297, R298). -/
theorem effect_number_reg {k : Key} {n v : Nat} {r : CfgReg} (hc : it.cls = .number k n) (h : it.effect.2 = some (r, v)) :
    k.reg = some r := by
  simp only [Item.effect, hc] at h
  split at h
  · unfold deviceKey at h
    split at h
    · cases h
    next r' hr =>
    split at h
    · cases h
    split at h
    · cases h
    cases h
    exact hr
  · unfold registerKey at h
    split at h
    · cases h
    next r' hr =>
    dsimp only at h
    split at h
    · cases h; exact hr
    · cases h

/-- An item writes a register in the register's pass and in no other. -/
theorem inGroup_of_effect {r : CfgReg} {v : Nat} (h : it.effect.2 = some (r, v)) (g : KeyGroup) :
    it.inGroup g = decide (r.pass = g) := by
  cases hc : it.cls with
  | unknown => simp only [Item.effect, hc] at h; cases h
  | badValue => simp only [Item.effect, hc] at h; cases h
  | text k => simp only [Item.effect, hc] at h; cases h
  | number k n =>
    rw [pass_of_reg (effect_number_reg hc h)]
    simp only [Item.inGroup, hc, ItemClass.key]

/-- Items of different passes write different registers. -/
theorem Item.write_comm {it' : Item} {g : KeyGroup} (h : it.inGroup g = false) (h' : it'.inGroup g = true) (b : Bank) :
    it.write (it'.write b) = it'.write (it.write b) := by
  cases he : it.effect.2 with
  | none => rw [Item.write_of_none he, Item.write_of_none he]
  | some w =>
    obtain ⟨r, v⟩ := w
    cases he' : it'.effect.2 with
    | none => rw [Item.write_of_none he', Item.write_of_none he']
    | some w' =>
      obtain ⟨r', v'⟩ := w'
      rw [inGroup_of_effect he, decide_eq_false_iff_not] at h
      rw [inGroup_of_effect he', decide_eq_true_eq] at h'
      have hne : r ≠ r' := fun hr => h (hr ▸ h')
      rw [Item.write_of_some he, Item.write_of_some he', Item.write_of_some he, Item.write_of_some he',
        Bank.write_comm b r' r v' v hne]

/-! ### The three passes -/

theorem applyGroup_cons (g : KeyGroup) (it : Item) (l : List Item) (b : Bank) :
    applyGroup g (it :: l) b = applyGroup g l (if it.inGroup g then it.write b else b) := rfl

/-- An item of another pass may write before or after a pass. -/
theorem write_applyGroup {g : KeyGroup} (h : it.inGroup g = false) (l : List Item) (b : Bank) :
    it.write (applyGroup g l b) = applyGroup g l (it.write b) := by
  induction l generalizing b with
  | nil => rfl
  | cons it' l ih =>
    rw [applyGroup_cons, applyGroup_cons, ih]
    split
    · next h' => rw [Item.write_comm h h']
    · rfl

/-- The three passes of rule R297 lines 7 to 9. -/
def threePasses (l : List Item) (b : Bank) : Bank :=
  applyGroup .packaging l (applyGroup .dsp l (applyGroup .device l b))

/-- The first item may write before all three passes over the rest. -/
theorem threePasses_cons (it : Item) (l : List Item) (b : Bank) : threePasses (it :: l) b = threePasses l (it.write b) := by
  rw [threePasses, applyGroup_cons, applyGroup_cons, applyGroup_cons]
  cases he : it.effect.2 with
  | none => simp only [Item.write_of_none he, ite_self, threePasses]
  | some w =>
    obtain ⟨r, v⟩ := w
    have hgroup := inGroup_of_effect he
    cases hr : r.pass with
    | device =>
      have h1 : it.inGroup .device = true := by rw [hgroup, hr]; rfl
      have h2 : it.inGroup .dsp = false := by rw [hgroup, hr]; rfl
      have h3 : it.inGroup .packaging = false := by rw [hgroup, hr]; rfl
      simp only [h1, h2, h3, if_true, Bool.false_eq_true, if_false, threePasses]
    | dsp =>
      have h1 : it.inGroup .device = false := by rw [hgroup, hr]; rfl
      have h2 : it.inGroup .dsp = true := by rw [hgroup, hr]; rfl
      have h3 : it.inGroup .packaging = false := by rw [hgroup, hr]; rfl
      simp only [h1, h2, h3, if_true, Bool.false_eq_true, if_false, threePasses, write_applyGroup h1]
    | packaging =>
      have h1 : it.inGroup .device = false := by rw [hgroup, hr]; rfl
      have h2 : it.inGroup .dsp = false := by rw [hgroup, hr]; rfl
      have h3 : it.inGroup .packaging = true := by rw [hgroup, hr]; rfl
      simp only [h1, h2, h3, if_true, Bool.false_eq_true, if_false, threePasses, write_applyGroup h1, write_applyGroup h2]

end

theorem threePasses_of_unchanged {l : List Item} (h : ∀ it ∈ l, it.changes = false) (b : Bank) : threePasses l b = b := by
  induction l with
  | nil => rfl
  | cons it l ih =>
    obtain ⟨hit, hl⟩ := List.forall_mem_cons.1 h
    rw [threePasses_cons, Item.write_of_not_changes hit, ih hl]

/-! ### Accepted messages -/

/-- What an accepted message leaves: the passes, the sequence number once where an item wrote, the replies (rule R297 lines 6
to 12). -/
theorem applyItems_eq (l : List Item) (s : State) :
    applyItems l s =
      { s with
        cfg.pending := threePasses l s.cfg.pending
        cfg.seqP := if l.any Item.changes then s.cfg.seqP + 1 else s.cfg.seqP
        io.result := .reply (commaJoined (l.map fun it => replyItem it.text it.effect.1)) } := by
  rw [applyItems, joinItems_eq]
  by_cases h : l.any Item.changes = true
  · simp only [h, if_true]
    rfl
  · have hnone : ∀ it ∈ l, it.changes = false := by simpa using h
    rw [threePasses_of_unchanged hnone]
    simp only [h]
    rfl

/-- What an accepted message of one item leaves. -/
def State.withItem (s : State) (it : Item) : State :=
  { s with
    cfg.pending := it.write s.cfg.pending
    cfg.seqP := if it.changes then s.cfg.seqP + 1 else s.cfg.seqP
    io.result := .reply (replyItem it.text it.effect.1) }

@[simp] theorem State.withItem_pending (s : State) (it : Item) : (s.withItem it).cfg.pending = it.write s.cfg.pending := rfl

@[simp] theorem State.withItem_seqP (s : State) (it : Item) :
    (s.withItem it).cfg.seqP = if it.changes then s.cfg.seqP + 1 else s.cfg.seqP := rfl

theorem applyItems_singleton (it : Item) (s : State) : applyItems [it] s = s.withItem it := by
  rw [applyItems_eq, threePasses_cons]
  simp only [List.any_cons, List.any_nil, Bool.or_false, List.map_cons, List.map_nil, commaJoined_singleton]
  rfl

end Machine

/-! ### Assignments -/

/-- An assignment as the model's item. -/
def Assignment.item (a : Assignment) : Item := ⟨a.text, classify a.text, a.answer⟩

/-- An item that passes line 5 of rule R297, answered only where it is device-level. -/
structure Assignment.Good (a : Assignment) : Prop where
  wf : a.wf = true
  value : a.badValue = false
  answer : a.deviceLevel = false → a.answer = none

section
variable {a : Assignment}

/-- The items that meet an answer of the device are those of the device's keys (rules R297, R298). -/
theorem Assignment.inGroup_device (h : a.Good) (x : Option DevAnswer) :
    (⟨a.text, classify a.text, x⟩ : Item).inGroup .device = a.deviceLevel := by
  rcases a.class_cases h.wf with ⟨hk, hc, -⟩ | ⟨hk, hc, -⟩ | ⟨k, hk, ⟨-, hb⟩ | ⟨v, hc, -⟩⟩
  · simp only [Item.inGroup, hc, ItemClass.key, Assignment.deviceLevel, hk, Option.any_none]
  · simp only [Item.inGroup, hc, ItemClass.key, Assignment.deviceLevel, hk, Option.any_some]
    rfl
  · rw [h.value] at hb
    cases hb
  · simp only [Item.inGroup, hc, ItemClass.key, Assignment.deviceLevel, hk, Option.any_some]
    rw [Bool.eq_iff_iff, decide_eq_true_eq, Key.deviceLevel_iff]

end

/-- The device's answers meet the device-level items in message order (log entry 16). -/
theorem pairAnswers_assignments {items : List Assignment} {dev : List DevAnswer} (hgood : ∀ a ∈ items, a.Good)
    (hdev : ∀ (j : Nat) (a : Assignment), (items.filter Assignment.deviceLevel)[j]? = some a → a.answer = dev[j]?) :
    pairAnswers (items.map Assignment.text) dev = items.map Assignment.item := by
  induction items generalizing dev with
  | nil => rfl
  | cons a items ih =>
    obtain ⟨ha, hgood⟩ := List.forall_mem_cons.1 hgood
    rw [List.map_cons, List.map_cons, pairAnswers]
    simp only [Assignment.inGroup_device ha]
    cases hl : a.deviceLevel with
    | true =>
      rw [List.filter_cons_of_pos hl] at hdev
      have hanswer : dev.head? = a.answer := by rw [hdev 0 a rfl, List.head?_eq_getElem?]
      have hrest := ih (dev := dev.tail) hgood fun j a' h => by rw [List.getElem?_tail]; exact hdev (j + 1) a' h
      rw [if_pos rfl, hrest, hanswer]
      rfl
    | false =>
      rw [List.filter_cons_of_neg (by simp [hl])] at hdev
      rw [if_neg (by simp), ih hgood hdev, ← ha.answer hl]
      rfl

section
variable {s : State}

/-- A message of good items goes through lines 1 to 5 of rule R297. -/
theorem exec_cfgApply_items {items : List Assignment} {dev : List DevAnswer}
    (hl : s.ctl.lifecycle = .created ∨ s.ctl.lifecycle = .streaming) (hne : items ≠ []) (hgood : ∀ a ∈ items, a.Good)
    (hdev : ∀ (j : Nat) (a : Assignment), (items.filter Assignment.deviceLevel)[j]? = some a → a.answer = dev[j]?)
    (hlen : (commaJoined (items.map Assignment.text)).length ≤ 4096) :
    exec (.cfgApply (commaJoined (items.map Assignment.text)) dev) s = .next (applyItems (items.map Assignment.item) s) := by
  have hwf : ∀ a ∈ items, a.wf = true := fun a ha => (hgood a ha).wf
  have hbad : items.any Assignment.badValue = false := List.any_eq_false.2 fun a ha => by simp [(hgood a ha).value]
  have hsplit := splitItems_assignments hne hwf
  rw [exec_cfgApply hl, applyMessage_of_good hlen (not_malformed_assignments hne hwf), hsplit,
    pairAnswers_assignments hgood hdev]
  rw [hsplit, any_badValue_assignments hwf, hbad]

/-- The message of one good item. -/
theorem exec_cfgApply_item {a : Assignment} (hl : s.ctl.lifecycle = .created ∨ s.ctl.lifecycle = .streaming) (ha : a.Good)
    (hlen : a.text.length ≤ 4096) : exec (.cfgApply a.text a.answer.toList) s = .next (applyItems [a.item] s) := by
  have hdev : ∀ (j : Nat) (a' : Assignment),
      ([a].filter Assignment.deviceLevel)[j]? = some a' → a'.answer = a.answer.toList[j]? := by
    intro j a' h
    have hmem : a' ∈ [a] := List.mem_of_mem_filter (List.mem_of_getElem? h)
    obtain rfl := List.mem_singleton.1 hmem
    have hj : j = 0 := by
      have hlt := (List.getElem?_eq_some_iff.1 h).1
      have hle := List.length_filter_le Assignment.deviceLevel [a']
      simp only [List.length_singleton] at hle
      omega
    subst hj
    cases a'.answer <;> rfl
  have h := exec_cfgApply_items (items := [a]) hl nofun (by simpa using ha) hdev (by simpa using hlen)
  simpa using h

/-! ### A message and its items -/

/-- The answer to one item. -/
def Assignment.reply (a : Assignment) : List Byte := replyItem a.text a.item.effect.1

/-- What the messages of the items leave of the registers when they come one by one. -/
structure AppliesItems (items : List Assignment) (s t : State) : Prop where
  pending : t.cfg.pending = threePasses (items.map Assignment.item) s.cfg.pending
  seqP : t.cfg.seqP = s.cfg.seqP + BitVec.ofNat 32 ((items.map Assignment.item).countP Item.changes)

/-- The items of a message, applied each as a message of its own. -/
theorem runAll_items {items : List Assignment} (hl : s.ctl.lifecycle = .created ∨ s.ctl.lifecycle = .streaming)
    (hgood : ∀ a ∈ items, a.Good) (hlen : ∀ a ∈ items, a.text.length ≤ 4096) :
    ∃ t, runAll (items.map fun a => .cfgApply a.text a.answer.toList) s =
        some (t, (items.map Assignment.reply).map .reply) ∧ AppliesItems items s t := by
  induction items generalizing s with
  | nil => exact ⟨s, rfl, rfl, (BitVec.add_zero _).symm⟩
  | cons a items ih =>
    obtain ⟨ha, hgood⟩ := List.forall_mem_cons.1 hgood
    obtain ⟨hla, hlen⟩ := List.forall_mem_cons.1 hlen
    have hstep := exec_cfgApply_item hl ha hla
    rw [applyItems_singleton] at hstep
    obtain ⟨t, hrun, hpending, hseq⟩ := ih (s := s.withItem a.item) hl hgood hlen
    refine ⟨t, runAll_cons hstep hrun, ?_, ?_⟩
    · rw [hpending, List.map_cons, threePasses_cons, State.withItem_pending]
    · rw [hseq, List.map_cons, List.countP_cons, State.withItem_seqP]
      cases a.item.changes with
      | true => rw [if_pos rfl, if_pos rfl, BitVec.ofNat_add, add_assoc, add_comm (1 : U32)]; rfl
      | false => rfl

/-- A message has at least a byte for each of its items. -/
theorem length_le_of_wf {items : List Assignment} (h : ∀ a ∈ items, a.wf = true) :
    items.length ≤ (commaJoined (items.map Assignment.text)).length := by
  induction items with
  | nil => exact Nat.zero_le _
  | cons a items ih =>
    obtain ⟨ha, hitems⟩ := List.forall_mem_cons.1 h
    have hrest := ih hitems
    have hpos : 0 < a.text.length := by
      have hkey : 0 < a.key.length := List.length_pos_iff.2 (Assignment.wf_iff.1 ha).1.1
      rw [Assignment.text]
      cases a.value with
      | none => exact hkey
      | some v =>
        simp only [keyValue, List.length_append]
        omega
    cases items with
    | nil => rwa [List.map_singleton, commaJoined_singleton]
    | cons a' items =>
      rw [List.map_cons, List.map_cons, commaJoined_cons_cons, List.length_append, List.length_cons,
        List.length_cons (as := commaJoined _)]
      rw [List.map_cons] at hrest
      omega

/-- One by one the items move the sequence number where one of them writes a register (rule R31). -/
theorem AppliesItems.seqP_eq_iff {items : List Assignment} {t : State} (h : AppliesItems items s t)
    (hlen : items.length ≤ 4096) : t.cfg.seqP = s.cfg.seqP ↔ (items.map Assignment.item).any Item.changes = false := by
  have hcount : (items.map Assignment.item).countP Item.changes ≤ 4096 := by
    have := List.countP_le_length (p := Item.changes) (l := items.map Assignment.item)
    rw [List.length_map] at this
    omega
  have hzero : t.cfg.seqP = s.cfg.seqP ↔ (items.map Assignment.item).countP Item.changes = 0 := by
    rw [h.seqP, add_eq_left, ← BitVec.toNat_inj, BitVec.toNat_ofNat, Nat.mod_eq_of_lt (by omega)]
    rfl
  rw [hzero, List.countP_eq_zero, List.any_eq_false]

end

/-- Settles O15: the three passes write disjoint registers, so that they leave what the items leave in message order. -/
theorem cfgApplyInMessageOrder : Obligations.CfgApplyInMessageOrder := by
  intro s items dev hl hne hwf hdev hans msg hlen
  have hgood : ∀ a ∈ items, a.Good := fun a ha => ⟨(hwf a ha).1, (hwf a ha).2, hans a ha⟩
  have htext : ∀ a ∈ items, a.text.length ≤ 4096 :=
    fun a ha => (length_le_commaJoined (List.mem_map_of_mem ha)).trans hlen
  have hitems : items.length ≤ 4096 := (length_le_of_wf fun a ha => (hwf a ha).1).trans hlen
  refine ⟨?_, fun a ha hk => ?_⟩
  · obtain ⟨t, hrun, happlies⟩ := runAll_items hl hgood htext
    refine ⟨t, items.map Assignment.reply, hrun, ?_⟩
    have hseq : (if t.cfg.seqP = s.cfg.seqP then s.cfg.seqP else s.cfg.seqP + 1) =
        if (items.map Assignment.item).any Item.changes then s.cfg.seqP + 1 else s.cfg.seqP := by
      simp only [happlies.seqP_eq_iff hitems]
      cases (items.map Assignment.item).any Item.changes <;> rfl
    rw [exec_cfgApply_items hl hne hgood hdev hlen, applyItems_eq, happlies.pending, hseq, List.map_map]
    rfl
  · have heffect : a.item.effect = (.rejected .unknown, none) := by
      simp only [Item.effect, Assignment.item, classify_unknown (hgood a ha).wf hk]
    rw [exec_cfgApply_item hl (hgood a ha) (htext a ha), applyItems_singleton, State.withItem,
      Item.write_of_none (congrArg Prod.snd heffect), Item.changes, heffect, replyItem]
    change Host.Outcome.next { s with io.result := .reply (itemKey a.text ++ _) } = _
    rw [Assignment.itemKey_text (hgood a ha).wf]
    rfl

end Sys2Proof
end

section
/-! PROOFS. A key of the block's own registers is a write of its register (O16, rules R101, R103, R297, R306, R307). -/

namespace Sys2Proof

open Machine

namespace Machine

/-! ### `CFG.WRITE` -/

theorem ofCode_code (r : CfgReg) : CfgReg.ofCode r.code = some r := by
  cases r <;> rfl

/-- What `CFG.WRITE` leaves of the registers: the value of the range, where it is accepted, and one more update (rules R293,
R296). -/
def State.withWrite (s : State) (r : CfgReg) (v : Nat) : State :=
  if (range r v).2.accepted then updatePending (s.cfg.pending.write r (range r v).1) s else s

theorem exec_cfgWrite_code {s : State} (hl : s.ctl.lifecycle = .created ∨ s.ctl.lifecycle = .streaming)
    (r : CfgReg) (v : Nat) : exec (.cfgWrite r.code v) s = .next ((s.withWrite r v).ret (.outcome (range r v).2)) := by
  have hc : configurable s = true := decide_eq_true hl
  change execCfgWrite r.code v s = _
  simp only [execCfgWrite, hc, not_true_eq_false, if_false, ofCode_code, State.withWrite]
  split <;> rfl

/-! ### The item of a register -/

/-- What lines 8 and 9 of rule R297 do to a register's item. -/
def registerEffect (r : CfgReg) (v : Nat) : CfgOutcome × Option (CfgReg × Nat) :=
  ((range r v).2, if (range r v).2.accepted then some (r, (range r v).1) else none)

theorem Item.effect_register {it : Item} {k : Key} {r : CfgReg} {v : Nat} (hc : it.cls = .number k v)
    (hk : k.group ≠ .device) (hr : k.reg = some r) : it.effect = registerEffect r v := by
  simp only [Item.effect, hc, if_neg hk, registerKey, hr, registerEffect]

/-- An item of a register leaves what the write of its register leaves, and its own answer. -/
theorem withItem_register {it : Item} {r : CfgReg} {v : Nat} (h : it.effect = registerEffect r v) (s : State) :
    s.withItem it = (s.withWrite r v).ret (.reply (replyItem it.text (range r v).2)) := by
  cases ha : (range r v).2.accepted with
  | true =>
    have heffect : it.effect = ((range r v).2, some (r, (range r v).1)) := by rw [h, registerEffect, ha, if_pos rfl]
    rw [State.withItem, Item.write_of_some (congrArg Prod.snd heffect), Item.changes, heffect, State.withWrite, ha]
    rfl
  | false =>
    have heffect : it.effect = ((range r v).2, none) := by rw [h, registerEffect, ha]; rfl
    rw [State.withItem, Item.write_of_none (congrArg Prod.snd heffect), Item.changes, heffect, State.withWrite, ha]
    rfl

end Machine

section
variable {k : Key} {val : Option (List Byte)} {v : Nat}

/-- The assignment of a table key (rule R101). -/
def keyAssignment (k : Key) (val : Option (List Byte)) : Assignment := ⟨k.word, val, none⟩

theorem keyOfWord_word (k : Key) : keyOfWord k.word = some k := by
  rw [keyOfWord_eq, keyWord_eq, Key.ofText_text]

theorem keyAssignment_wf (h : numberOf val = some v) : (keyAssignment k val).wf = true := by
  obtain ⟨hcomma, hequals, hne⟩ := keyText_no_separator k
  rw [← keyWord_eq] at hcomma hequals hne
  refine Assignment.wf_iff.2 ⟨⟨hne, hequals⟩, ?_⟩
  cases val with
  | none => exact hcomma
  | some t =>
    have ht := comma_notMem_of_number h
    simp only [keyAssignment, Assignment.text, keyValue, List.mem_append, List.mem_singleton, not_or]
    exact ⟨⟨hcomma, by decide⟩, ht⟩

theorem keyAssignment_class (h : numberOf val = some v) (hf : k ≠ .file) :
    classify (keyAssignment k val).text = .number k v := by
  rw [classify_numeric (keyAssignment_wf h) (keyOfWord_word k) hf]
  exact congrArg (fun o => Option.elim o ItemClass.badValue (.number k)) h

theorem keyAssignment_good (h : numberOf val = some v) (hf : k ≠ .file) : (keyAssignment k val).Good where
  wf := keyAssignment_wf h
  value := (Assignment.badValue_numeric (keyOfWord_word k) hf).trans (congrArg Option.isNone h)
  answer _ := rfl

/-- A `KEY` operation of a register is the message of its item (rules R101, R297; log entry 15). -/
theorem configureItem_register {s : State} {r : CfgReg} (hl : s.ctl.lifecycle = .created ∨ s.ctl.lifecycle = .streaming)
    (hk : k.group ≠ .device) (hr : k.reg = some r) (h : numberOf val = some v) (hlen : (keyValue k.word val).length ≤ 4096) :
    configureItem k val none s =
      .next ((s.withWrite r v).ret (.reply (k.word ++ ascii ['='] ++ outcomeWord (range r v).2))) := by
  have hf : k ≠ .file := fun hfile => hk (hfile ▸ rfl)
  have heffect : (keyAssignment k val).item.effect = registerEffect r v :=
    Item.effect_register (keyAssignment_class h hf) hk hr
  have hreply : replyItem (keyAssignment k val).text (range r v).2 = k.word ++ ascii ['='] ++ outcomeWord (range r v).2 := by
    rw [replyItem, Assignment.itemKey_text (keyAssignment_wf h), outcomeWord_eq, List.append_assoc]
    rfl
  have hitem : exec (.cfgApply (keyAssignment k val).text []) s = .next (applyItems [(keyAssignment k val).item] s) :=
    exec_cfgApply_item hl (keyAssignment_good h hf) hlen
  rw [applyItems_singleton, withItem_register heffect] at hitem
  rw [← hreply]
  exact (congrArg (fun t => configure t [] s) (itemText_eq k val)).trans hitem

end

/-- Settles O16: the write of a register and the message of its item leave the same registers and the same outcome. -/
theorem keyWritesRegister : Obligations.KeyWritesRegister := by
  intro k hk s val v hl hv hlen
  have hkey : exec (k.1 val) s = configureItem k.2.1 val none s ∧ k.2.1.group ≠ .device ∧ k.2.1.reg = some k.2.2 := by
    simp only [List.mem_cons, List.not_mem_nil, or_false] at hk
    rcases hk with rfl | rfl | rfl | rfl | rfl <;> exact ⟨rfl, by decide, rfl⟩
  obtain ⟨hexec, hgroup, hreg⟩ := hkey
  refine ⟨_, _, exec_cfgWrite_code hl k.2.2 v, rfl, ?_⟩
  rw [hexec, configureItem_register hl hgroup hreg hv hlen]
  rfl

end Sys2Proof
end

section
/-! PROOFS. The sample buffer operations one by one (O20, O21, O23, O24, rules R130 to R137, R305). -/

namespace Sys2Proof.Machine

section
variable {q : QueueId} {v : List Sample} {s : State}

/-! ### The conditions of a push -/

/-- The capacity condition of rule R130 in words of the bound. -/
theorem hasRoom_iff :
    hasRoom s q v = true ↔ ∀ cap, s.params.sbCap = some cap → (s.queue q).samples + v.length ≤ cap := by
  unfold hasRoom
  cases s.params.sbCap <;> simp

/-- What a device of one byte a component can deliver; a wider one delivers every sample (rule R131). -/
theorem all_fitsWidth_iff {b : Byte} :
    v.all (Sample.fitsWidth b) = true ↔
      (b = 1 → ∀ x ∈ v, -128 ≤ x.i.toInt ∧ x.i.toInt ≤ 127 ∧ -128 ≤ x.q.toInt ∧ x.q.toInt ≤ 127) := by
  rw [List.all_eq_true]
  by_cases hb : b = 1
  · simp [Sample.fitsWidth, hb, and_assoc]
  · exact ⟨fun _ h => absurd h hb, fun _ _ _ => if_neg hb⟩

/-- A push outside `Streaming`, on a queue that has not ended, waits (log entry 11). -/
theorem pushVec_outside (he : (s.queue q).ended = false) (hl : s.ctl.lifecycle ≠ .streaming) :
    pushVec q v s = .error .noStep := by
  rw [pushVec, if_neg (by simp [he]), if_pos hl]

/-- A sample that the device cannot deliver is refused before the room is looked at (rule R131; log entry 10). -/
theorem pushVec_of_unfit (hl : s.ctl.lifecycle = .streaming) (he : (s.queue q).ended = false)
    (hfit : q = .rxq ∧ ¬v.all (Sample.fitsWidth s.cfg.pending.bps)) :
    pushVec q v s = .error (.refuse .sampleOutOfRange) := by
  rw [pushVec, if_neg (by simp [he]), if_neg (not_not.2 hl), if_pos hfit]

/-- A push beyond the capacity waits (rule R132). -/
theorem pushVec_of_full (hl : s.ctl.lifecycle = .streaming) (he : (s.queue q).ended = false)
    (hfit : q = .rxq → v.all (Sample.fitsWidth s.cfg.pending.bps) = true) (hroom : ¬hasRoom s q v = true) :
    pushVec q v s = .error .noStep := by
  rw [pushVec, if_neg (by simp [he]), if_neg (not_not.2 hl), if_neg fun h => h.2 (hfit h.1), if_pos hroom]

/-! ### What a push does -/

/-- How many upward crossings of the threshold a push of `v` makes: one, or none (rule R136). -/
def State.crossings (s : State) (q : QueueId) (v : List Sample) : Nat :=
  if (s.queue q).samples + v.length > 10 * s.cfg.pending.srate.toNat ∧ (s.queue q).overLatch = false then 1 else 0

/-- The state after a push of `v`, with the overrun warning where it crosses the threshold (rules R132, R136). -/
def State.pushed (q : QueueId) (v : List Sample) (s : State) : State :=
  { s.setQueue q ⟨(s.queue q).vecs ++ [v], (s.queue q).ended,
      decide ((s.queue q).samples + v.length > 10 * s.cfg.pending.srate.toNat)⟩ with
    cnt.overrun := s.cnt.overrun + BitVec.ofNat 32 (s.crossings q v)
    io.errors := s.io.errors ++ List.replicate (s.crossings q v) (.bufferOverrun q) }

/-- A vector at the end of a queue adds its samples to the count (rule R22). -/
theorem samples_append (x : SampleQueue) (v : List Sample) (ended latch : Bool) :
    SampleQueue.samples ⟨x.vecs ++ [v], ended, latch⟩ = x.samples + v.length := by
  simp [SampleQueue.samples]

theorem overrunCheck_append (q : QueueId) (v : List Sample) (s : State) :
    overrunCheck q (s.setQueue q { s.queue q with vecs := (s.queue q).vecs ++ [v] }) = s.pushed q v := by
  have hthreshold : ∀ x, overrunThreshold (s.setQueue q x) = 10 * s.cfg.pending.srate.toNat := by
    cases q <;> exact fun _ => rfl
  rw [overrunCheck_eq, State.queue_setQueue, samples_append, hthreshold, State.pushed, State.crossings]
  split
  · next h =>
    rw [decide_eq_true h.1]
    cases q <;> rfl
  · simp only [List.replicate_zero, List.append_nil, BitVec.add_zero]
    cases q <;> rfl

/-- Where a vector can be pushed it is, with the overrun check behind it (rules R132, R136). -/
theorem pushVec_eq_pushed (hl : s.ctl.lifecycle = .streaming) (he : (s.queue q).ended = false)
    (hfit : q = .rxq → v.all (Sample.fitsWidth s.cfg.pending.bps) = true) (hroom : hasRoom s q v = true) (hv : v ≠ []) :
    pushVec q v s = .ok (s.pushed q v) := by
  rw [pushVec_of_ready hl he hfit hroom, if_neg hv, overrunCheck_append]

/-- The operation is the push, but for a push on `RXQ` outside `Streaming` (rule R305). -/
theorem exec_sbPush (h : s.ctl.lifecycle = .streaming ∨ q = .txq) :
    exec (.sbPush q v) s = finish s .done (pushVec q v s) := by
  change execSbPush q v s = _
  refine if_neg fun hr => ?_
  rcases h with hl | hq
  · exact hr.2 hl
  · exact nomatch hq.symm.trans hr.1

/-- A push after the end is refused (rules R132, R134). -/
theorem exec_sbPush_ended (h : s.ctl.lifecycle = .streaming ∨ q = .txq) (he : (s.queue q).ended = true) (v : List Sample) :
    exec (.sbPush q v) s = .refused (.pushAfterEnd q) := by
  rw [exec_sbPush h, pushVec_ended he]
  rfl

/-! ### `SB.PULL` and `SB.WAITFILL` -/

theorem notStarted_eq_false_iff :
    notStarted q s = false ↔ ¬(q = .txq ∧ s.ctl.lifecycle = .created ∧ s.ctl.stopFlag = false) := by
  rw [← notStarted_iff, Bool.not_eq_true]

/-- A pull on `TXQ` before `CTL.START` waits (rule R305; log entry 24). -/
theorem exec_sbPull_notStarted (h : notStarted q s = true) : exec (.sbPull q) s = .next (s.ret .noStep) := by
  change execSbPull q s = _
  rw [execSbPull, pullVec, if_pos h]

/-- A pull takes the oldest vector and re-arms the latch at or under the threshold (rules R133, R136). -/
theorem exec_sbPull_cons {rest : List (List Sample)} (h : notStarted q s = false) (hv : (s.queue q).vecs = v :: rest) :
    exec (.sbPull q) s =
      .next ((s.setQueue q ⟨rest, (s.queue q).ended, (s.queue q).overLatch &&
        decide ((rest.map List.length).sum > 10 * s.cfg.pending.srate.toNat)⟩).ret (.vector v)) := by
  change execSbPull q s = _
  simp only [execSbPull, pullVec, h, hv, Bool.false_eq_true, if_false]
  cases q <;> rfl

/-- A pull from an empty queue after the end or a stop returns the empty vector (rules R133, R305). -/
theorem exec_sbPull_empty (h : notStarted q s = false) (hv : (s.queue q).vecs = [])
    (hend : (s.queue q).ended = true ∨ s.ctl.stopFlag = true) : exec (.sbPull q) s = .next (s.ret (.vector [])) := by
  change execSbPull q s = _
  have hend : ((s.queue q).ended || s.ctl.stopFlag) = true := by simpa using hend
  simp only [execSbPull, pullVec, h, hv, hend, Bool.false_eq_true, if_false, if_true]

/-- A pull from an empty queue without an end or a stop waits (rule R133). -/
theorem exec_sbPull_waits (hv : (s.queue q).vecs = []) (he : (s.queue q).ended = false) (hf : s.ctl.stopFlag = false) :
    exec (.sbPull q) s = .next (s.ret .noStep) := by
  cases h : notStarted q s with
  | true => exact exec_sbPull_notStarted h
  | false =>
    change execSbPull q s = _
    simp only [execSbPull, pullVec, h, hv, he, hf, Bool.or_self, Bool.false_eq_true, if_false]

theorem exec_sbWaitfill_filled {n : Nat} (h : filled q n s = true) :
    exec (.sbWaitfill q n) s = .next (s.ret .done) := by
  change execSbWaitfill q n s = _
  rw [execSbWaitfill, if_pos h]

theorem exec_sbWaitfill_waits {n : Nat} (h : ¬filled q n s = true) :
    exec (.sbWaitfill q n) s = .next (s.ret .noStep) := by
  change execSbWaitfill q n s = _
  rw [execSbWaitfill, if_neg h]

/-! ### `SB.END` -/

/-- The end of a queue is no start and no stop of the block. -/
@[simp] theorem notStarted_endQueue (q q' : QueueId) (s : State) : notStarted q (endQueue q' s) = notStarted q s := by
  simp [notStarted]

/-- A pull from a queue that has ended never waits, once the block was started (rules R133, R134). -/
theorem exec_sbPull_answers (h : notStarted q s = false) (he : (s.queue q).ended = true) :
    ∃ u v, exec (.sbPull q) s = .next u ∧ u.io.result = .vector v := by
  cases hv : (s.queue q).vecs with
  | nil => exact ⟨_, _, exec_sbPull_empty h hv (.inl he), rfl⟩
  | cons v rest => exact ⟨_, _, exec_sbPull_cons h hv, rfl⟩

end

end Sys2Proof.Machine

namespace Sys2Proof

open Machine

/-- Settles O20: the tests of `SB.PUSH` in the order of log entry 10, and the overrun check behind a vector that was queued. -/
theorem sbPushEffect : Obligations.SbPushEffect := by
  intro q v s fits room above crossing
  have hfit : fits ↔ (q = .rxq → v.all (Sample.fitsWidth s.cfg.pending.bps) = true) :=
    forall_congr' fun _ => all_fitsWidth_iff.symm
  have hroom : room ↔ hasRoom s q v = true := hasRoom_iff.symm
  refine ⟨fun hl he hf hr hv => ?_, fun hl he hr hv => ?_, fun hl hq => ?_, fun hl hq he => ?_, fun h he => ?_,
    fun hl he hf => ?_, fun hl he hf hr => ?_⟩
  · rw [exec_sbPush (.inl hl), pushVec_eq_pushed hl he (hfit.1 hf) (hroom.1 hr) hv, finish_ok, State.pushed,
      State.crossings, he]
    by_cases hc : crossing
    · rw [if_pos hc, if_pos hc, if_pos hc]
      rfl
    · rw [if_neg hc, if_neg hc, if_neg hc, List.replicate_zero, List.append_nil, BitVec.add_zero]
      rfl
  · subst hv
    rw [exec_sbPush (.inl hl), pushVec_of_ready hl he (fun _ => rfl) (hroom.1 hr), if_pos rfl]
    rfl
  · exact if_pos ⟨hq, hl⟩
  · rw [exec_sbPush (.inr hq), pushVec_outside he hl]
    rfl
  · exact exec_sbPush_ended h he v
  · rw [hfit, Classical.not_imp] at hf
    rw [exec_sbPush (.inl hl), pushVec_of_unfit hl he hf]
    rfl
  · rw [exec_sbPush (.inl hl), pushVec_of_full hl he (hfit.1 hf) (mt hroom.2 hr)]
    rfl

/-- Settles O21: by what stands first in the queue, behind the `Created` cell of rule R305. -/
theorem sbPullAndWaitfill : Obligations.SbPullAndWaitfill := by
  intro q s early
  have hearly : early → notStarted q s = true := notStarted_iff.2
  have hlate : ¬early → notStarted q s = false := notStarted_eq_false_iff.2
  refine ⟨fun h => ⟨exec_sbPull_notStarted (hearly h), fun n => exec_sbWaitfill_waits fun hfill => ?_⟩,
    fun h v rest hv => exec_sbPull_cons (hlate h) hv, fun h hv hend => exec_sbPull_empty (hlate h) hv hend,
    fun hv he hf => exec_sbPull_waits hv he hf,
    fun n => ⟨fun h hfill => exec_sbWaitfill_filled (filled_iff.2 ⟨hlate h, hfill⟩), fun hn he hf =>
      exec_sbWaitfill_waits fun hfill => ?_⟩⟩
  · exact Bool.false_ne_true ((filled_iff.1 hfill).1.symm.trans (hearly h))
  · rcases (filled_iff.1 hfill).2 with hle | hended | hflag
    · exact Nat.not_le.2 hn hle
    · exact Bool.false_ne_true (he.symm.trans hended)
    · exact Bool.false_ne_true (hf.symm.trans hflag)

/-- Settles O23: the state after `SB.END` differs in `ended` alone, and with it set no push and no pull waits. -/
theorem sbEndEffect : Obligations.SbEndEffect := by
  refine ⟨rfl, rfl, fun q s => ⟨(endQueue q s).ret .done, rfl, rfl, ?_, fun h v => ?_, ?_⟩⟩
  · cases q <;> rfl
  · exact exec_sbPush_ended (s := (endQueue q s).ret .done) (by simpa using h) (by simp) v
  intro early
  have hstart : notStarted q ((endQueue q s).ret .done) = notStarted q s := notStarted_endQueue q q s
  have hlate : ¬early → notStarted q ((endQueue q s).ret .done) = false :=
    fun h => hstart.trans (notStarted_eq_false_iff.2 h)
  refine ⟨fun h => exec_sbPull_answers (hlate h) (by simp), fun h hv => ?_, fun h => ?_⟩
  · exact exec_sbPull_empty (hlate h) (by simpa using hv) (.inl (by simp))
  · exact exec_sbPull_notStarted (hstart.trans (notStarted_iff.2 h))

/-- Settles O24: the operation and the status registers 0x1B and 0x1C give the same count. -/
theorem sbQueuedEffect : Obligations.SbQueuedEffect := by
  refine fun q s => ⟨rfl, rfl, rfl, (exec_cfgRead_of_some rfl).symm, (exec_cfgRead_of_some rfl).symm,
    fun a b c hv => ?_⟩
  have hcount : (s.queue q).samples = 3 := by rw [SampleQueue.samples, hv]; rfl
  change execSbQueued q s = _
  rw [execSbQueued, hcount]
  rfl

end Sys2Proof
end

section
/-! PROOFS. `TX.RETIRE` of a frame, lost or accepted (O45, O46, rules R132, R136, R148, R210 to R214). -/

namespace Sys2Proof.Machine

/-! ### Lengths -/

/-- Each interpolating stage doubles the vector, whatever its line holds (rule R148). -/
theorem intStage_length (p : Params) (d v : List Sample) : (intStage p d v).2.length = 2 * v.length := by
  induction v generalizing d with
  | nil => rfl
  | cons x xs ih =>
    simp only [intStage, List.length_cons, ih]
    omega

theorem intCascade_length (p : Params) {n : Nat} {sts : List (List Sample)} (hn : n ≤ sts.length) (v : List Sample) :
    (intCascade p n sts v).2.length = v.length <<< n := by
  induction n generalizing sts v with
  | zero => rfl
  | succ n ih =>
    cases sts with
    | nil => exact absurd hn (Nat.not_succ_le_zero n)
    | cons d sts =>
      rw [intCascade, ih (Nat.le_of_succ_le_succ hn), intStage_length, Nat.shiftLeft_succ_inside]

theorem unpackExpand_length (w : Nat) (bodies : List (List Byte)) :
    (unpackExpand w bodies).length = bodies.length * samplesPerBlock w := by
  simp [unpackExpand, expandBody, List.length_flatMap]

/-- The sample blocks of a decoded frame, expanded, are a frame's samples (rules R212, R213). -/
theorem unpackExpand_fecDecode_length (w : Nat) (p : Params) (e : WinEntry) :
    (unpackExpand w ((fecDecode p e).drop 1)).length = frameLength w := by
  have hblocks : ((fecDecode p e).drop 1).length = 127 := by simp [fecDecode, Config.dataBlocks]
  rw [unpackExpand_length, hblocks]
  rfl

section
variable {s t : State}

/-! ### `INT.PROCESS` -/

theorem exec_intProcess (hl : s.ctl.lifecycle = .streaming) (v : List Sample) :
    exec (.intProcess v) s = .next ((intProcess v s).1.ret (.vector (intProcess v s).2)) :=
  unlessStopped_of_ne (by simp [hl]) _

/-- The interpolator gives `2^INTERP` samples for each (rule R148). -/
theorem intProcess_length (hi : s.cfg.activeTx.interp.toNat ≤ 6) (hlen : s.tx.intp.length = 6) (v : List Sample) :
    (intProcess v s).2.length = v.length <<< s.cfg.activeTx.interp.toNat :=
  intCascade_length s.params (by omega) v

theorem intProcess_of_interp_zero (hi : s.cfg.activeTx.interp = 0) (v : List Sample) : (intProcess v s).2 = v := by
  rw [intProcess, hi]
  rfl

/-- What the interpolator makes of a frame's samples is no empty vector. -/
theorem intProcess_ne_nil {b : Byte} {v : List Sample} (hi : s.cfg.activeTx.interp.toNat ≤ 6) (hlen : s.tx.intp.length = 6)
    (hb : b = 1 ∨ b = 2) (hv : v.length = frameLength b.toNat) : (intProcess v s).2 ≠ [] := by
  have hpos : 0 < v.length := hv ▸ samplesPerFrame_pos hb
  rw [← List.length_pos_iff, intProcess_length hi hlen, Nat.shiftLeft_eq]
  exact Nat.mul_pos hpos (Nat.two_pow_pos _)

/-! ### Delivery -/

/-- A delivery interpolates, and pushes what it made (rule R214). -/
theorem deliver_eq_pushed {v : List Sample} (hs : s.canDeliver) (hne : (intProcess v s).2 ≠ []) :
    deliver v s = .ok ((intProcess v s).1.pushed .txq (intProcess v s).2) := by
  obtain ⟨hl, he, hcap⟩ := hs
  exact pushVec_eq_pushed (s := (intProcess v s).1) hl he nofun
    (hasRoom_of_unbounded (s := (intProcess v s).1) hcap _ _) hne

/-- Where the settling of the frame is a delivery from `t`, that is the retirement, but for the window and its base. -/
theorem exec_txRetire_of_deliver {v : List Sample} (hl : s.ctl.lifecycle = .streaming) (h : settleHead s = deliver v t)
    (ht : t.canDeliver) (hne : (intProcess v t).2 ≠ []) :
    exec .txRetire s =
      .next ((advanceBase s.tx.base ((intProcess v t).1.pushed .txq (intProcess v t).2)).ret .done) := by
  refine exec_txRetire hl ?_
  rw [txRetire, h, deliver_eq_pushed ht hne]
  rfl

/-! ### The frame at `tx_base` -/

/-- The state once a frame is declared lost: its cause and its loss counted and recorded (rule R211). -/
def State.frameLost (s : State) (cause : ErrorEvent) : State := raise (.frameLoss s.tx.base) (raise cause s)

/-- The silence of a lost frame (rule R211). -/
def State.silence (s : State) : List Sample := List.replicate (frameLength s.tx.padBps.toNat) ⟨0, 0⟩

theorem loseFrame_eq_deliver (cause : ErrorEvent) :
    loseFrame cause s.tx.base s = deliver s.silence (s.frameLost cause) := rfl

theorem settleHead_of_incomplete (h : s.headIncomplete) :
    settleHead s = loseFrame (.insufficientBlocks s.tx.base) s.tx.base s := by
  unfold settleHead
  rw [headEntry_eq_none_iff.2 h]

theorem headEntry_of_complete {e : WinEntry} (he : winFind s.tx.win s.tx.base = some e) (hc : 128 ≤ e.count) :
    headEntry s = some e := by
  unfold headEntry
  rw [he]
  exact if_pos hc

/-- The checks of a complete frame in their order (rule R210): the CRC of its meta body, then its width. -/
theorem settleHead_of_complete {e : WinEntry} (he : winFind s.tx.win s.tx.base = some e) (hc : 128 ≤ e.count)
    (hb : ∀ b ∈ e.present, b < 255) :
    let m := (fecDecode s.params e).headD []
    settleHead s =
      if crc32 (slice m 0 20) ≠ le32 m 20 then loseFrame (.crcFailure s.tx.base) s.tx.base s
      else if byteAt m 8 ≠ 1 ∧ byteAt m 8 ≠ 2 then loseFrame (.metaInvalid s.tx.base) s.tx.base s
      else acceptFrame m (fecDecode s.params e) s := by
  unfold settleHead
  rw [headEntry_of_complete he hc]
  dsimp only
  rw [winDecode_ok.2 ⟨fecReadsInside_of_present hb, rfl⟩]
  rfl

/-- The causes for which a frame is lost (rule R210). -/
inductive LossCause (f : U16) : ErrorEvent → Prop
  | slots : LossCause f (.insufficientBlocks f)
  | crc : LossCause f (.crcFailure f)
  | width : LossCause f (.metaInvalid f)

/-- A loss is counted and recorded once under its cause, and once as a loss (rules R43, R211, R340). -/
theorem frameLost_eq {cause : ErrorEvent} (h : LossCause s.tx.base cause) :
    s.frameLost cause =
      { s with
        cnt.insuff := if cause = .insufficientBlocks s.tx.base then s.cnt.insuff + 1 else s.cnt.insuff
        cnt.crc := if cause = .crcFailure s.tx.base then s.cnt.crc + 1 else s.cnt.crc
        cnt.badMeta := if cause = .metaInvalid s.tx.base then s.cnt.badMeta + 1 else s.cnt.badMeta
        cnt.lost := s.cnt.lost + 1
        io.errors := s.io.errors ++ [cause, .frameLoss s.tx.base] } := by
  cases h <;> simp [State.frameLost, raise, Counters.record]

/-- What the retirement of a lost frame leaves, before its answer: the interpolated silence pushed (rules R136, R210, R211). -/
theorem exec_txRetire_lost {cause : ErrorEvent} (hs : s.canDeliver) (hi : s.cfg.activeTx.interp.toNat ≤ 6)
    (hlen : s.tx.intp.length = 6) (hpad : s.tx.padBps = 1 ∨ s.tx.padBps = 2)
    (h : settleHead s = loseFrame cause s.tx.base s) :
    exec .txRetire s =
      .next ((advanceBase s.tx.base ((intProcess s.silence (s.frameLost cause)).1.pushed .txq
        (intProcess s.silence (s.frameLost cause)).2)).ret .done) := by
  have hne : (intProcess s.silence (s.frameLost cause)).2 ≠ [] :=
    intProcess_ne_nil (s := s.frameLost cause) hi hlen hpad List.length_replicate
  exact exec_txRetire_of_deliver hs.1 (h.trans (loseFrame_eq_deliver cause)) hs hne

/-- The state once a frame is accepted: its meta fields latched, and counted (rule R212). -/
def State.frameAccepted (s : State) (m : List Byte) : State :=
  { s with
    tx := { s.tx with last := lastMetaOf m, padBps := byteAt m 8 }
    cnt := { s.cnt with ok := s.cnt.ok + 1 } }

end

end Sys2Proof.Machine

namespace Sys2Proof

open Machine

/-- Settles O45: each cause ends in the same delivery of silence, from the state in which the loss is counted. -/
theorem txRetireLost : Obligations.TxRetireLost := by
  refine ⟨fun s hl => ?_, fun s hl he hh => ?_, fun s cause hs hi hlen hpad hlost => ?_⟩
  · change execTxRetire s = _
    rw [execTxRetire, if_neg hl, finish_noStep]
    rfl
  · have hdeliver : deliver s.silence (s.frameLost (.insufficientBlocks s.tx.base)) = .error (.refuse (.pushAfterEnd .txq)) :=
      pushVec_ended (s := (intProcess s.silence (s.frameLost (.insufficientBlocks s.tx.base))).1) he
    change execTxRetire s = _
    rw [execTxRetire, if_pos hl, txRetire, settleHead_of_incomplete hh, loseFrame_eq_deliver, hdeliver]
    rfl
  have hsettle : settleHead s = loseFrame cause s.tx.base s ∧ LossCause s.tx.base cause := by
    rcases hlost with ⟨hh, rfl⟩ | ⟨e, he, hc, hb, ⟨hcrc, rfl⟩ | ⟨hcrc, h1, h2, rfl⟩⟩
    · exact ⟨settleHead_of_incomplete hh, .slots⟩
    · exact ⟨(settleHead_of_complete he hc hb).trans (if_pos hcrc), .crc⟩
    · exact ⟨(settleHead_of_complete he hc hb).trans ((if_neg (not_not.2 hcrc)).trans (if_pos ⟨h1, h2⟩)), .width⟩
  obtain ⟨hsettle, hcause⟩ := hsettle
  refine ⟨(intProcess s.silence s).2, (intProcess s.silence s).1.tx.intp, ?_, ?_, exec_intProcess hs.1 s.silence,
    fun hzero => intProcess_of_interp_zero hzero s.silence⟩
  · rw [exec_txRetire_lost hs hi hlen hpad hsettle, frameLost_eq hcause]
    rfl
  · rw [intProcess_length hi hlen, State.silence, List.length_replicate]

/-- Settles O46: a complete frame that passes both checks is delivered from the state in which its meta fields are latched. -/
theorem txRetireAccepts : Obligations.TxRetireAccepts := by
  intro s e hs hi hlen he hc hb data m hcrc hwidth
  have hsettle : settleHead s = deliver (unpackExpand (byteAt m 8).toNat (data.drop 1)) (s.frameAccepted m) :=
    (settleHead_of_complete he hc hb).trans
      ((if_neg (not_not.2 hcrc)).trans (if_neg fun h => hwidth.elim h.1 h.2))
  have hframe : (unpackExpand (byteAt m 8).toNat (data.drop 1)).length = frameLength (byteAt m 8).toNat :=
    unpackExpand_fecDecode_length _ s.params e
  clear_value m data
  generalize unpackExpand (byteAt m 8).toNat (data.drop 1) = v at hframe hsettle ⊢
  have hne : (intProcess v (s.frameAccepted m)).2 ≠ [] :=
    intProcess_ne_nil (s := s.frameAccepted m) hi hlen hwidth hframe
  refine ⟨(intProcess v s).2, (intProcess v s).1.tx.intp, ?_, ?_, exec_intProcess hs.1 v,
    fun hzero => intProcess_of_interp_zero hzero v⟩
  · rw [exec_txRetire_of_deliver (t := s.frameAccepted m) hs.1 hsettle hs hne, State.frameAccepted, lastMetaOf]
    rfl
  · rw [intProcess_length hi hlen, hframe]

end Sys2Proof
end

section
/-! PROOFS. The operations of the DSP unit one by one: the mixer, `DEC.PROCESS`, `DSP.RESET` (O25, O30, rules R142, R146, R150), and
the state right after reset (O52, rules R141, R370). -/

namespace Sys2Proof.Machine

/-! ### The mixer -/

theorem mixerTurns_mod (fcpos : Byte) (n : Nat) : mixerTurns fcpos (n % 4) = mixerTurns fcpos n := by
  simp only [mixerTurns, Nat.mod_mod]

theorem two_le_of_ne {b : Byte} (h0 : b ≠ 0) (h1 : b ≠ 1) : 2 ≤ b.toNat := by bv_omega

/-- A quarter turn at a time, four of them to the circle: the tables of rule R142 hold no other factor. -/
theorem mixed_eq_quarterTurns (fcpos : Byte) (phase : BitVec 2) (x : Pair) :
    mixed fcpos phase x = quarterTurns (mixerTurns fcpos phase.toNat) x := by
  have hphase : phase.toNat = 0 ∨ phase.toNat = 1 ∨ phase.toNat = 2 ∨ phase.toNat = 3 := by omega
  by_cases h0 : fcpos = 0
  · subst h0
    rcases hphase with h | h | h | h <;> simp [mixed, mixerTurns, quarterTurns, h]
  by_cases h1 : fcpos = 1
  · subst h1
    rcases hphase with h | h | h | h <;> simp [mixed, mixerTurns, quarterTurns, h]
  obtain ⟨k, hk⟩ : ∃ k, fcpos.toNat = k + 2 :=
    Nat.exists_eq_add_of_le' (two_le_of_ne h0 h1)
  have hturns : mixerTurns fcpos phase.toNat = 0 := by rw [mixerTurns, if_neg h0, if_neg h1]
  rw [hturns, mixed, hk]
  rfl

section
variable {s : State} (hl : s.ctl.lifecycle ≠ .stopped)
include hl

theorem exec_mixFs4 (x : Sample) :
    exec (.mixFs4 x) s = .next
      { s with
        rx.mixPhase := s.rx.mixPhase + 1
        io.result := .pair (quarterTurns (mixerTurns s.cfg.activeRx.fcpos s.rx.mixPhase.toNat) x.toPair) } := by
  rw [← mixed_eq_quarterTurns]
  exact unlessStopped_of_ne hl _

/-! ### `DEC.PROCESS` -/

theorem exec_decProcess_zero (hd : s.cfg.activeRx.decim = 0) (x : Sample) :
    exec (.decProcess x) s = .next { s with io.result := .sample (some x) } := by
  have hpass : decProcess s.params s.cfg.activeRx x s.rx = (s.rx, some x) := if_pos hd
  change execDecProcess x s = _
  rw [execDecProcess, hpass]
  exact unlessStopped_of_ne hl _

/-- The stages that `DEC.PROCESS x` runs, on the mixed input (rule R146). -/
def State.decimate (s : State) (x : Sample) : List DecStage × Option Pair :=
  decCascade s.params s.cfg.activeRx.decim.toNat s.rx.dec
    (quarterTurns (mixerTurns s.cfg.activeRx.fcpos s.rx.mixPhase.toNat) x.toPair)

theorem exec_decProcess (hd : s.cfg.activeRx.decim ≠ 0) (x : Sample) :
    exec (.decProcess x) s = .next
      { s with
        rx.mixPhase := s.rx.mixPhase + 1
        rx.dec := (s.decimate x).1
        io.result := .sample ((s.decimate x).2.map Pair.toSample) } := by
  rw [State.decimate, ← mixed_eq_quarterTurns]
  change execDecProcess x s = _
  rw [execDecProcess, decProcess, if_neg hd]
  exact unlessStopped_of_ne hl _

/-! ### `DSP.RESET` -/

theorem exec_dspReset_rx :
    exec (.dspReset .rx) s = .next { s with rx.mixPhase := 0, rx.dec := decReset s.params, io.result := .done } :=
  unlessStopped_of_ne hl _

theorem exec_dspReset_tx : exec (.dspReset .tx) s = .next { s with tx.intp := intReset s.params, io.result := .done } :=
  unlessStopped_of_ne hl _

end

/-- The stages behind the first `n` are not run (rule R144). -/
theorem decCascade_drop (p : Params) (n : Nat) (sts : List DecStage) (x : Pair) :
    (decCascade p n sts x).1.drop n = sts.drop n := by
  induction n generalizing sts x with
  | zero => rfl
  | succ n ih =>
    cases sts with
    | nil => rfl
    | cons st r =>
      unfold decCascade
      split
      · rfl
      · next y _ => exact ih r y

end Sys2Proof.Machine

namespace Sys2Proof

open Machine

/-- Settles O25: the mixer's tables are quarter turns, and the cascade runs the first `DECIM` stages alone. -/
theorem mixAndDecimate : Obligations.MixAndDecimate := by
  intro x s hl
  refine ⟨fun turns hinfra hsupra hcenter => ?_, fun hd => exec_decProcess_zero hl hd x, fun hd => ?_⟩
  · have hturns : turns = mixerTurns s.cfg.activeRx.fcpos s.rx.mixPhase.toNat := by
      have hphase : s.rx.mixPhase.toNat % 4 = s.rx.mixPhase.toNat := Nat.mod_eq_of_lt s.rx.mixPhase.isLt
      simp only [mixerTurns, hphase]
      split
      · next h0 => exact hinfra (by rw [h0]; rfl)
      next h0 =>
      split
      · next h1 => exact hsupra (by rw [h1]; rfl)
      · next h1 => exact hcenter (two_le_of_ne h0 h1)
    rw [hturns]
    exact exec_mixFs4 hl x
  · exact ⟨_, _, exec_decProcess hl hd x, decCascade_length _ _ _ _, decCascade_drop _ _ _ _⟩

/-- Settles O30: both arms of `DSP.RESET`, with the reset stages written out. -/
theorem dspResetEffect : Obligations.DspResetEffect :=
  fun _ hl => ⟨exec_dspReset_rx hl, exec_dspReset_tx hl⟩

/-- Settles O52: the window is empty, the stages are the reset ones, and the rest is the evaluation of the reset values. -/
theorem resetSound : Obligations.ResetSound := by
  refine ⟨by decide, by decide, linesSound_iff.2 ⟨decReset_lines _, intReset_lines _⟩, by decide, ?_, nofun, by decide⟩
  exact frameWide_iff.2 (frameWide_of_boundary rfl rfl)

end Sys2Proof
end

section
/-! PROOFS. A halfband stage as a filter: what its delay line holds after a stream, and what the kernel makes of it (rules R143,
R149). -/

namespace Sys2Proof.Machine

/-! ### A delay line -/

/-- The delay line, `len` long and newest first, that a stream leaves behind it, `z` before the stream (rules R143, R150). -/
def delayLine {α : Type} (z : α) (len : Nat) (xs : List α) : List α := (xs.reverse ++ List.replicate len z).take len

section
variable {α : Type} (z : α) (len : Nat)

@[simp] theorem delayLine_nil : delayLine z len [] = List.replicate len z := by simp [delayLine]

@[simp] theorem delayLine_length (xs : List α) : (delayLine z len xs).length = len := by simp [delayLine]

/-- A stage shifts its input in at the front (rules R143, R149). -/
theorem delayLine_append (xs : List α) (x : α) : (x :: delayLine z len xs).take len = delayLine z len (xs ++ [x]) := by
  cases len with
  | zero => rfl
  | succ len =>
    simp only [delayLine, List.take_succ_cons, List.reverse_append, List.reverse_singleton, List.cons_append, List.nil_append,
      List.take_take, Nat.min_eq_left (Nat.le_succ len)]

theorem delayLine_map {β : Type} (f : α → β) (xs : List α) :
    (delayLine z len xs).map f = delayLine (f z) len (xs.map f) := by
  simp [delayLine, List.map_take]

/-- Cell `i` holds what came in `i` steps ago. -/
theorem delayLine_getD {n i : Nat} {xs : List α} (hlen : xs.length = n + 1) (hi : i < len) :
    (delayLine z len xs).getD i z = if i ≤ n then xs.getD (n - i) z else z := by
  rw [delayLine, List.getD_eq_getElem?_getD, List.getElem?_take_of_lt hi]
  split
  · next h =>
    rw [List.getElem?_append_left (by simp; omega), List.getElem?_reverse (by omega), List.getD_eq_getElem?_getD]
    congr 2
    omega
  · next h =>
    rw [List.getElem?_append_right (by simp; omega), List.getElem?_replicate_of_lt (by simp; omega)]
    rfl

end

/-! ### The kernel over a delay line -/

theorem dot_eq_sum_range {taps d : List Int} (h : d.length = taps.length) :
    dot taps d = ((List.range taps.length).map fun i => taps.getD i 0 * d.getD i 0).sum := by
  induction taps generalizing d with
  | nil => rfl
  | cons t taps ih =>
    cases d with
    | nil => cases h
    | cons x d =>
      rw [List.length_cons, List.range_succ_eq_map, List.map_cons, List.sum_cons, List.map_map]
      exact congrArg (t * x + ·) (ih (Nat.succ.inj h))

/-- A stage's output is its filter at the last input (rules R8, R143). -/
theorem sat16_dot_delayLine {taps : List Int} {shift n : Nat} {xs : List Int} (hlen : xs.length = n + 1) :
    sat16 (dot taps (delayLine 0 taps.length xs) / 2 ^ shift) = filtered taps shift xs n := by
  have hdot : dot taps (delayLine 0 taps.length xs) =
      ((List.range taps.length).map fun i => if i ≤ n then taps.getD i 0 * xs.getD (n - i) 0 else 0).sum := by
    rw [dot_eq_sum_range (delayLine_length _ _ _)]
    refine congrArg List.sum (List.map_congr_left fun i hi => ?_)
    rw [delayLine_getD _ _ hlen (List.mem_range.1 hi), mul_ite, mul_zero]
  rw [hdot]
  rfl

/-- A filter looks back alone. -/
theorem filtered_append {taps : List Int} {shift n : Nat} {xs : List Int} (h : n < xs.length) (ys : List Int) :
    filtered taps shift (xs ++ ys) n = filtered taps shift xs n := by
  have hback : ∀ i, (xs ++ ys).getD (n - i) 0 = xs.getD (n - i) 0 := fun i => by
    simp only [List.getD_eq_getElem?_getD, List.getElem?_append_left (show n - i < xs.length by omega)]
  simp only [filtered, hback]

theorem filtered_bounds (taps : List Int) (shift : Nat) (xs : List Int) (n : Nat) :
    -32768 ≤ filtered taps shift xs n ∧ filtered taps shift xs n ≤ 32767 :=
  sat16_bounds _

/-- Both components of a filter's output `n`. -/
def filteredPair (taps : List Int) (shift : Nat) (xs : List Pair) (n : Nat) : Pair :=
  ⟨filtered taps shift (xs.map Pair.i) n, filtered taps shift (xs.map Pair.q) n⟩

theorem filteredPair_append {taps : List Int} {shift n : Nat} {xs : List Pair} (h : n < xs.length) (ys : List Pair) :
    filteredPair taps shift (xs ++ ys) n = filteredPair taps shift xs n := by
  simp [filteredPair, filtered_append, h]

/-- A filter's output fits the 16-bit registers (rule R143). -/
theorem toPair_toSample_filteredPair (taps : List Int) (shift : Nat) (xs : List Pair) (n : Nat) :
    (filteredPair taps shift xs n).toSample.toPair = filteredPair taps shift xs n := by
  have hi := filtered_bounds taps shift (xs.map Pair.i) n
  have hq := filtered_bounds taps shift (xs.map Pair.q) n
  simp only [filteredPair, Pair.toSample, Sample.toPair, toInt_ofInt_of_bounds hi.1 hi.2, toInt_ofInt_of_bounds hq.1 hq.2]

theorem filterPairs_eq (taps : List Int) (shift start stride count : Nat) (xs : List Pair) :
    filterPairs taps shift start stride count xs =
      (List.range count).map fun m => filteredPair taps shift xs (start + stride * m) := rfl

end Sys2Proof.Machine
end

section
/-! PROOFS. The decimating stages over a stream: when the cascade answers and what (rules R143, R144, R147). -/

namespace Sys2Proof.Machine

/-! ### One input through the cascade -/

/-- The line of a stage with `x` shifted in (rule R143). -/
def DecStage.shifted (p : Params) (st : DecStage) (x : Pair) : List Pair := (x :: st.d).take p.hbTaps.length

/-- What the kernel makes of a line (rule R143). -/
def kernelOutput (p : Params) (d : List Pair) : Pair :=
  ⟨scaled p (dot p.hbTaps (d.map Pair.i)), scaled p (dot p.hbTaps (d.map Pair.q))⟩

section
variable {p : Params} {k n : Nat} {st : DecStage} {sts : List DecStage} {xs ys : List Pair}

/-- An even input ends at its stage (rules R143, R144). -/
theorem decCascade_of_even (h : st.par = false) (x : Pair) :
    decCascade p (n + 1) (st :: sts) x = (⟨st.shifted p x, true⟩ :: sts, none) := by
  simp only [decCascade, decStep_eq, h, Bool.not_false]
  rfl

/-- An odd input goes on to the next stage as an output (rules R143, R144). -/
theorem decCascade_of_odd (h : st.par = true) (x : Pair) :
    decCascade p (n + 1) (st :: sts) x =
      (⟨st.shifted p x, false⟩ :: (decCascade p n sts (kernelOutput p (st.shifted p x))).1,
        (decCascade p n sts (kernelOutput p (st.shifted p x))).2) := by
  simp only [decCascade, decStep_eq, h, Bool.not_true]
  rfl

/-! ### When the cascade answers -/

/-- The parities of the first `n` stages after `k` inputs since they were aligned: stage 0 saw `k`, the next one every second of
them, and so on (rules R143, R144). -/
def Counted : Nat → Nat → List DecStage → Prop
  | _, 0, _ => True
  | _, _ + 1, [] => False
  | k, n + 1, st :: sts => st.par = decide (k % 2 = 1) ∧ Counted (k / 2) n sts

theorem two_pow_succ_dvd_iff : 2 ^ (n + 1) ∣ k ↔ k % 2 = 0 ∧ 2 ^ n ∣ k / 2 := by
  constructor
  · intro h
    have h2 : 2 ∣ k := (Dvd.intro_left _ (Nat.pow_succ ..).symm).trans h
    exact ⟨Nat.mod_eq_zero_of_dvd h2, (Nat.dvd_div_iff_mul_dvd h2).2 (Nat.pow_succ' ▸ h)⟩
  · rintro ⟨h2, h⟩
    exact Nat.pow_succ' ▸ (Nat.dvd_div_iff_mul_dvd (Nat.dvd_of_mod_eq_zero h2)).1 h

/-- The stages count their inputs, and answer at every `2^n`-th (rules R144, R147). -/
theorem decCascade_counted (p : Params) (h : Counted k n sts) (x : Pair) :
    Counted (k + 1) n (decCascade p n sts x).1 ∧ ((decCascade p n sts x).2.isSome = true ↔ 2 ^ n ∣ k + 1) := by
  induction n generalizing k sts x with
  | zero => exact ⟨trivial, by simp [decCascade]⟩
  | succ n ih =>
    cases sts with
    | nil => exact h.elim
    | cons st sts =>
      obtain ⟨hpar, hrest⟩ := h
      rw [two_pow_succ_dvd_iff]
      rcases Nat.mod_two_eq_zero_or_one k with hk | hk
      · rw [decCascade_of_even (by simp [hpar, hk])]
        have hhalf : (k + 1) / 2 = k / 2 := by omega
        refine ⟨⟨by simp; omega, hhalf ▸ hrest⟩, ⟨nofun, fun hdvd => by omega⟩⟩
      · rw [decCascade_of_odd (by simp [hpar, hk])]
        have hhalf : (k + 1) / 2 = k / 2 + 1 := by omega
        obtain ⟨hcount, hsome⟩ := ih hrest (kernelOutput p (st.shifted p x))
        rw [hhalf]
        exact ⟨⟨by simp; omega, hhalf ▸ hcount⟩, hsome.trans ⟨fun h => ⟨by omega, h⟩, And.right⟩⟩

/-- Aligned stages have seen nothing since they were aligned (rule R180(b)). -/
theorem counted_zero (hn : n ≤ sts.length) (h : ∀ st ∈ sts.take n, st.par = false) : Counted 0 n sts := by
  induction n generalizing sts with
  | zero => trivial
  | succ n ih =>
    cases sts with
    | nil => exact absurd hn (Nat.not_succ_le_zero n)
    | cons st sts =>
      obtain ⟨hst, hsts⟩ := List.forall_mem_cons.1 h
      exact ⟨hst, ih (Nat.le_of_succ_le_succ hn) hsts⟩

/-- A multiple of `2^n` inputs leaves the stages aligned (rule R180(b)). -/
theorem aligned_of_counted (h : Counted k n sts) (hk : 2 ^ n ∣ k) : ∀ st ∈ sts.take n, st.par = false := by
  induction n generalizing k sts with
  | zero => simp
  | succ n ih =>
    cases sts with
    | nil => exact h.elim
    | cons st sts =>
      obtain ⟨hpar, hrest⟩ := h
      obtain ⟨heven, hdvd⟩ := two_pow_succ_dvd_iff.1 hk
      exact List.forall_mem_cons.2 ⟨by simp [hpar, heven], ih hrest hdvd⟩

theorem counted_decReset (p : Params) (hn : n ≤ 6) : Counted 0 n (decReset p) := by
  refine counted_zero (by simpa [decReset] using hn) fun st hst => ?_
  rw [List.eq_of_mem_replicate (List.mem_of_mem_take hst)]

/-! ### What the cascade answers -/

theorem decimated_length (p : Params) (xs : List Pair) : (decimated p xs).length = xs.length / 2 := by
  simp [decimated, filterPairs]

/-- Every second input adds an output to the decimated stream (rule R143). -/
theorem decimated_append (p : Params) (xs : List Pair) (x : Pair) :
    decimated p (xs ++ [x]) =
      decimated p xs ++ if xs.length % 2 = 1 then [filteredPair p.hbTaps p.hbShift (xs ++ [x]) xs.length] else [] := by
  have hold : ∀ m ∈ List.range (xs.length / 2), filteredPair p.hbTaps p.hbShift (xs ++ [x]) (1 + 2 * m) =
      filteredPair p.hbTaps p.hbShift xs (1 + 2 * m) := fun m hm =>
    filteredPair_append (by have := List.mem_range.1 hm; omega) [x]
  simp only [decimated, filterPairs_eq, List.length_append, List.length_singleton]
  split
  · next h =>
    rw [show (xs.length + 1) / 2 = xs.length / 2 + 1 by omega, List.range_succ, List.map_append, List.map_congr_left hold,
      List.map_singleton, show 1 + 2 * (xs.length / 2) = xs.length by omega]
  · next h => rw [show (xs.length + 1) / 2 = xs.length / 2 by omega, List.map_congr_left hold, List.append_nil]

/-- What comes later changes no output that is there. -/
theorem decimated_prefix (h : xs <+: ys) : decimated p xs <+: decimated p ys := by
  obtain ⟨zs, rfl⟩ := h
  induction zs generalizing xs with
  | nil => simp
  | cons z zs ih =>
    rw [← List.singleton_append, ← List.append_assoc]
    exact (decimated_append p xs z ▸ List.prefix_append _ _).trans ih

theorem iterate_decimated_length (p : Params) (n : Nat) (xs : List Pair) :
    ((decimated p)^[n] xs).length = xs.length / 2 ^ n := by
  induction n generalizing xs with
  | zero => simp
  | succ n ih => rw [Function.iterate_succ_apply, ih, decimated_length, Nat.div_div_eq_div_mul, Nat.pow_succ']

theorem iterate_decimated_prefix (n : Nat) (h : xs <+: ys) : (decimated p)^[n] xs <+: (decimated p)^[n] ys := by
  induction n generalizing xs ys with
  | zero => exact h
  | succ n ih => exact ih (decimated_prefix h)

/-- The output of a stage fits the 16-bit registers (rule R143). -/
theorem toPair_toSample_of_mem_decimated {y : Pair} (h : y ∈ decimated p xs) : y.toSample.toPair = y := by
  rw [decimated, filterPairs_eq] at h
  obtain ⟨m, -, rfl⟩ := List.mem_map.1 h
  exact toPair_toSample_filteredPair _ _ _ _

/-- The lines of the first `n` stages after the stream `xs` from reset: each holds what the stages before it made of it. -/
def Fed (p : Params) : List Pair → Nat → List DecStage → Prop
  | _, 0, _ => True
  | _, _ + 1, [] => False
  | xs, n + 1, st :: sts => st.d = delayLine Pair.zero p.hbTaps.length xs ∧ Fed p (decimated p xs) n sts

theorem fed_replicate {m : Nat} (hn : n ≤ m) (par : Bool) :
    Fed p [] n (List.replicate m ⟨List.replicate p.hbTaps.length Pair.zero, par⟩) := by
  induction n generalizing m with
  | zero => trivial
  | succ n ih =>
    cases m with
    | zero => exact absurd hn (Nat.not_succ_le_zero n)
    | succ m => exact ⟨(delayLine_nil _ _).symm, ih (Nat.le_of_succ_le_succ hn)⟩

/-- What the kernel makes of the line after a stream is the filter at the stream's last input (rule R143). -/
theorem kernelOutput_delayLine (p : Params) (hlen : xs.length = n + 1) :
    kernelOutput p (delayLine Pair.zero p.hbTaps.length xs) = filteredPair p.hbTaps p.hbShift xs n := by
  have hi : (xs.map Pair.i).length = n + 1 := by simpa using hlen
  have hq : (xs.map Pair.q).length = n + 1 := by simpa using hlen
  simp only [kernelOutput, delayLine_map, scaled, sat16_dot_delayLine hi, sat16_dot_delayLine hq, filteredPair]

/-- An input goes into the lines, and an answer is the last sample of the stream decimated so far (rules R143, R144). -/
theorem decCascade_fed (hfed : Fed p xs n sts) (hcount : Counted xs.length n sts) (x : Pair) :
    Fed p (xs ++ [x]) n (decCascade p n sts x).1 ∧
      ∀ y, (decCascade p n sts x).2 = some y → ((decimated p)^[n] (xs ++ [x])).getLast? = some y := by
  induction n generalizing xs sts x with
  | zero => exact ⟨trivial, fun y hy => by simpa [decCascade] using hy⟩
  | succ n ih =>
    cases sts with
    | nil => exact hfed.elim
    | cons st sts =>
      obtain ⟨hline, hfed⟩ := hfed
      obtain ⟨hpar, hcount⟩ := hcount
      have hshift : st.shifted p x = delayLine Pair.zero p.hbTaps.length (xs ++ [x]) := by
        rw [DecStage.shifted, hline, delayLine_append]
      have hdec := decimated_append p xs x
      rcases Nat.mod_two_eq_zero_or_one xs.length with hk | hk
      · rw [if_neg (by omega), List.append_nil] at hdec
        rw [decCascade_of_even (by simp [hpar, hk])]
        exact ⟨⟨hshift, hdec.symm ▸ hfed⟩, nofun⟩
      · rw [if_pos hk] at hdec
        rw [decCascade_of_odd (by simp [hpar, hk]), hshift, kernelOutput_delayLine p (n := xs.length) (by simp)]
        obtain ⟨hrest, hout⟩ := ih hfed (decimated_length p xs ▸ hcount)
          (filteredPair p.hbTaps p.hbShift (xs ++ [x]) xs.length)
        rw [← hdec] at hrest hout
        exact ⟨⟨rfl, hrest⟩, hout⟩

end

end Sys2Proof.Machine
end

section
/-! PROOFS. How many samples the decimator gives over a run, and the frame packed at its last input (O26, rules R144, R147, R174,
R180). -/

namespace Sys2Proof.Machine

/-! ### Runs -/

/-- A run of operations each of which is performed where an invariant `P` holds, keeps it, and gives an answer as `R` says. -/
theorem runAll_of_invariant {P : Nat → State → Prop} {R : Nat → Result → Prop} {l : List Instr} {s : State} (h0 : P 0 s)
    (hstep : ∀ n i u, l[n]? = some i → P n u → ∃ t, exec i u = .next t ∧ P (n + 1) t ∧ R n t.io.result) :
    ∃ t rs, runAll l s = some (t, rs) ∧ P l.length t ∧ rs.length = l.length ∧ ∀ n r, rs[n]? = some r → R n r := by
  induction l generalizing P R s with
  | nil => exact ⟨s, [], rfl, h0, rfl, nofun⟩
  | cons i l ih =>
    obtain ⟨t, ht, hP, hR⟩ := hstep 0 i s rfl h0
    obtain ⟨u, rs, hrun, hend, hlen, hrs⟩ := ih (P := fun n => P (n + 1)) (R := fun n => R (n + 1)) hP
      fun n j v hj => hstep (n + 1) j v hj
    refine ⟨u, t.io.result :: rs, runAll_cons ht hrun, hend, congrArg Nat.succ hlen, fun n r hr => ?_⟩
    cases n with
    | zero => exact Option.some.inj hr ▸ hR
    | succ n => exact hrs n r hr

/-! ### The length law -/

/-- `DEC.PROCESS` answers at every `2^DECIM`-th input, at `DECIM = 0` at every one (rules R146, R147). -/
theorem decProcess_counted {k : Nat} {b : Bank} {h : RxHalf} (p : Params) (hc : Counted k b.decim.toNat h.dec) (x : Sample) :
    Counted (k + 1) b.decim.toNat (decProcess p b x h).1.dec ∧
      ((decProcess p b x h).2.isSome = true ↔ 2 ^ b.decim.toNat ∣ k + 1) := by
  unfold decProcess
  split
  · next hd => simp [hd, Counted]
  · dsimp only
    rw [Option.isSome_map]
    exact decCascade_counted p hc _

theorem exec_decProcess_eq {s : State} (hl : s.ctl.lifecycle ≠ .stopped) (x : Sample) :
    exec (.decProcess x) s =
      .next (({ s with rx := (decProcess s.params s.cfg.activeRx x s.rx).1 } : State).ret
        (.sample (decProcess s.params s.cfg.activeRx x s.rx).2)) :=
  unlessStopped_of_ne hl _

theorem isSample_sample (z : Option Sample) : Result.isSample (.sample z) = z.isSome := by cases z <;> rfl

/-- Behind `DSP.RESET`, the answers to a stream are samples at the multiples of `2^DECIM` (rule R147). -/
theorem runAll_decProcess_counted {s : State} (hl : s.ctl.lifecycle ≠ .stopped) (hd : s.cfg.activeRx.decim.toNat ≤ 6)
    (xs : List Sample) :
    ∃ t rs, runAll (.dspReset .rx :: xs.map .decProcess) s = some (t, .done :: rs) ∧ rs.length = xs.length ∧
      ∀ n r, rs[n]? = some r → (r.isSample = true ↔ 2 ^ s.cfg.activeRx.decim.toNat ∣ n + 1) := by
  obtain ⟨t, rs, hrun, -, hlen, hrs⟩ := runAll_of_invariant (l := xs.map .decProcess)
    (s := { s with rx.mixPhase := 0, rx.dec := decReset s.params, io.result := .done })
    (P := fun n u => u.ctl.lifecycle ≠ .stopped ∧ u.cfg.activeRx = s.cfg.activeRx ∧
      Counted n s.cfg.activeRx.decim.toNat u.rx.dec)
    (R := fun n r => r.isSample = true ↔ 2 ^ s.cfg.activeRx.decim.toNat ∣ n + 1)
    ⟨hl, rfl, counted_decReset s.params hd⟩ (by
      rintro n i u hi ⟨hl, hb, hc⟩
      obtain ⟨x, -, rfl⟩ := List.mem_map.1 (List.mem_of_getElem? hi)
      rw [← hb] at hc ⊢
      obtain ⟨hcount, hsome⟩ := decProcess_counted u.params hc x
      exact ⟨_, exec_decProcess_eq hl x, ⟨hl, rfl, hcount⟩, by rw [State.ret_io_result, isSample_sample, hsome]⟩)
  exact ⟨t, rs, runAll_cons (exec_dspReset_rx hl) hrun, by simpa using hlen, hrs⟩

/-- How many of `rs.length` consecutive counts from `k + 1` on are multiples of `m`. -/
theorem filter_isSample_length {m k : Nat} {rs : List Result}
    (h : ∀ n r, rs[n]? = some r → (r.isSample = true ↔ m ∣ k + n + 1)) :
    (rs.filter Result.isSample).length + k / m = (k + rs.length) / m := by
  induction rs generalizing k with
  | nil => simp
  | cons r rs ih =>
    have hrest := ih (k := k + 1) fun n r' hr => by
      rw [h (n + 1) r' hr]
      exact iff_of_eq (congrArg (m ∣ ·) (by omega))
    have hfirst := h 0 r rfl
    rw [Nat.succ_div, show k + 1 + rs.length = k + (r :: rs).length by simp; omega] at hrest
    rw [List.filter_cons]
    split
    · next hr =>
      rw [if_pos (hfirst.1 hr)] at hrest
      rw [List.length_cons]
      omega
    · next hr =>
      rw [if_neg fun hdvd => hr (hfirst.2 hdvd)] at hrest
      exact hrest

/-! ### The frame and its last input -/

/-- The inputs that a frame of width `w` takes (rule R180(b)). -/
abbrev frameInputs (b : Bank) (w : Byte) : Nat := samplesPerFrame w.toNat * 2 ^ b.decim.toNat

/-- `n` inputs into a frame of width `w`, with nothing to adopt: every `2^DECIM`-th stored (rules R172 to R174,
R180). -/
structure Filling (b : Bank) (w : Byte) (n : Nat) (u : State) : Prop where
  running : u.ctl.lifecycle ≠ .stopped
  bank : u.cfg.activeRx = b
  adopted : u.cfg.seqRx = u.cfg.seqP
  notEmitting : u.rx.emitting = false
  stages : u.rx.dec.length = 6
  counted : Counted n b.decim.toNat u.rx.dec
  stored : u.rx.accCount.toNat = n / 2 ^ b.decim.toNat
  effective : effectiveBps b u.rx.promoted = w
  width : u.rx.accCount ≠ 0 → u.rx.frameBps = w

/-- The frame is packed, and the stages are aligned behind it (rule R180(b)). -/
structure Packed (b : Bank) (u : State) : Prop where
  emitting : u.rx.emitting = true
  accCount : u.rx.accCount = 0
  stages : u.rx.dec.length = 6
  aligned : ∀ st ∈ u.rx.dec.take b.decim.toNat, st.par = false

section
variable {b : Bank} {w : Byte} {n : Nat} {u : State}

/-- The Rx half with a frame of width `w` begun. -/
def RxHalf.ofWidth (w : Byte) (h : RxHalf) : RxHalf := { h with frameBps := w }

/-- With nothing to adopt the start of a frame settles its width alone (rules R172, R173). -/
theorem Filling.beginFrame_eq (h : Filling b w n u) : beginFrame u = { u with rx := u.rx.ofWidth w } := by
  by_cases ha : u.rx.accCount = 0
  · rw [beginFrame, if_pos ha, if_neg (not_not.2 h.adopted)]
    dsimp only
    rw [h.bank, h.effective, RxHalf.ofWidth]
  · rw [beginFrame_of_ne ha, ← h.width ha, RxHalf.ofWidth]

theorem decProcess_length (p : Params) (b : Bank) (x : Sample) (h : RxHalf) : (decProcess p b x h).1.dec.length = h.dec.length := by
  unfold decProcess
  split
  · rfl
  · exact decCascade_length _ _ _ _

/-- The state of a frame of width `w` with another content of the decimator. -/
def State.decimatedInto (w : Byte) (phase : BitVec 2) (dec : List DecStage) (u : State) : State :=
  ({ u with rx := u.rx.ofWidth w } : State).withDecimator phase dec

/-- `RX.SAMPLE` into a frame is a step of the counted stages, and the store of what it yields (rules R146, R174). -/
theorem Filling.decimates (h : Filling b w n u) (x : Sample) (wall : Wall) :
    ∃ phase dec z, Counted (n + 1) b.decim.toNat dec ∧ dec.length = 6 ∧ (z.isSome = true ↔ 2 ^ b.decim.toNat ∣ n + 1) ∧
      (z = none → Machine.rxSample x wall u = .ok (u.decimatedInto w phase dec)) ∧
      ∀ y, z = some y → Machine.rxSample x wall u = storeSample y wall (u.decimatedInto w phase dec) := by
  obtain ⟨hcount, hsome⟩ := decProcess_counted (h := u.rx.ofWidth w) u.params h.counted x
  have hlen := (decProcess_length u.params b x (u.rx.ofWidth w)).trans h.stages
  have hsample : Machine.rxSample x wall u = decimateAndStore x wall { u with rx := u.rx.ofWidth w } := by
    rw [rxSample_eq, h.notEmitting, h.beginFrame_eq]
    rfl
  simp only [decimateAndStore, h.bank] at hsample
  obtain ⟨phase, dec, hwrites⟩ := decProcess_writes u.params b x (u.rx.ofWidth w)
  rw [hwrites] at hcount hlen hsample
  refine ⟨phase, dec, _, hcount, hlen, hsome, fun hz => ?_, fun y hz => ?_⟩ <;> rw [hsample, hz] <;> rfl

theorem Filling.accCount_lt {size : Nat} (h : Filling b w n u) (hn : n < size * 2 ^ b.decim.toNat) :
    u.rx.accCount.toNat < size :=
  h.stored ▸ (Nat.div_lt_iff_lt_mul (Nat.two_pow_pos _)).2 hn

/-- An input that yields no sample leaves the frame as it is, and is not its last one. -/
theorem Filling.skip {phase : BitVec 2} {dec : List DecStage} (h : Filling b w n u)
    (hcount : Counted (n + 1) b.decim.toNat dec) (hlen : dec.length = 6) (hdvd : ¬2 ^ b.decim.toNat ∣ n + 1) :
    Filling b w (n + 1) (u.decimatedInto w phase dec) where
  running := h.running
  bank := h.bank
  adopted := h.adopted
  notEmitting := h.notEmitting
  stages := hlen
  counted := hcount
  stored := by rw [Nat.succ_div, if_neg hdvd]; exact h.stored
  effective := h.effective
  width _ := rfl

/-- A sample stored short of the frame's end (rule R174). -/
theorem Filling.store {phase : BitVec 2} {dec : List DecStage} (h : Filling b w n u)
    (hcount : Counted (n + 1) b.decim.toNat dec) (hlen : dec.length = 6) (hdvd : 2 ^ b.decim.toNat ∣ n + 1)
    (hacc : (u.rx.accCount + 1).toNat = u.rx.accCount.toNat + 1) (y : Sample) :
    Filling b w (n + 1) ((u.decimatedInto w phase dec).withSample y) where
  running := h.running
  bank := h.bank
  adopted := h.adopted
  notEmitting := h.notEmitting
  stages := hlen
  counted := hcount
  stored := by rw [Nat.succ_div, if_pos hdvd, ← h.stored]; exact hacc
  effective := h.effective
  width _ := rfl

/-- The sample is taken: the frame goes on, or it was the last one and the frame is packed (rules R174, R175, R180(b)). -/
theorem Filling.exec_rxSample (h : Filling b w n u) (hw : w = 1 ∨ w = 2) (hfec : b.fecblk.toNat ≤ 127)
    (hn : n < frameInputs b w) (x : Sample) (wall : Wall) :
    ∃ t : State, exec (.rxSample x wall) u = .next (t.ret .done) ∧
      (n + 1 < frameInputs b w → Filling b w (n + 1) (t.ret .done)) ∧
      (n + 1 = frameInputs b w → Packed b (t.ret .done)) := by
  obtain ⟨phase, dec, z, hcount, hlen, hsome, hnone, hstore⟩ := h.decimates x wall
  rw [Machine.exec_rxSample h.running]
  cases z with
  | none =>
    have hdvd : ¬2 ^ b.decim.toNat ∣ n + 1 := fun hdvd => nomatch hsome.2 hdvd
    rw [hnone rfl, finish_ok]
    refine ⟨_, rfl, fun _ => ?_, fun hlast => absurd (Dvd.intro_left _ hlast.symm) hdvd⟩
    have hskip := h.skip (phase := phase) hcount hlen hdvd
    exact { hskip with }
  | some y =>
    have hdvd := hsome.1 rfl
    have hacc := accCount_succ (s := u.decimatedInto w phase dec) hw (h.accCount_lt hn)
    have hnext : u.rx.accCount.toNat + 1 = (n + 1) / 2 ^ b.decim.toNat := by rw [Nat.succ_div, if_pos hdvd, h.stored]
    obtain ⟨hshort, hpack⟩ := storeSample_inside (s := u.decimatedInto w phase dec) (y := y) (wall := wall) hw
      (h.accCount_lt hn)
    rw [hstore y rfl]
    rcases Nat.lt_or_eq_of_le (Nat.succ_le_of_lt hn) with hlt | hlast
    · have hroom : u.rx.accCount.toNat + 1 < samplesPerFrame w.toNat :=
        hnext ▸ (Nat.div_lt_iff_lt_mul (Nat.two_pow_pos _)).2 hlt
      rw [hshort hroom, finish_ok]
      refine ⟨_, rfl, fun _ => ?_, fun hlast => absurd hlast (Nat.ne_of_lt hlt)⟩
      have hfill := h.store (phase := phase) hcount hlen hdvd hacc y
      exact { hfill with }
    · have hfull : u.rx.accCount.toNat + 1 = samplesPerFrame w.toNat := by
        rw [hnext, show n + 1 = _ from hlast, Nat.mul_div_cancel _ (Nat.two_pow_pos _)]
      obtain ⟨t, ht⟩ := packFrame_succeeds wall (s := (u.decimatedInto w phase dec).withSample y) (h.bank ▸ hfec)
      rw [hpack hfull, ht, finish_ok]
      refine ⟨t, rfl, fun hlt => absurd hlast (Nat.ne_of_lt hlt), fun _ => ?_⟩
      obtain ⟨fb, -, rfl⟩ := packFrame_ok ht
      exact ⟨rfl, rfl, hlen, aligned_of_counted hcount hdvd⟩

/-- A run of inputs into a frame: it is being filled until its last input, which packs it (rules R174, R175, R180(b)). -/
theorem Filling.runAll_rxSample (h : Filling b w 0 u) (hw : w = 1 ∨ w = 2) (hfec : b.fecblk.toNat ≤ 127)
    {xs : List (Sample × Wall)} (hlen : xs.length ≤ frameInputs b w) :
    ∃ t rs, runAll (xs.map fun x => .rxSample x.1 x.2) u = some (t, rs) ∧ (∀ r ∈ rs, r = .done) ∧
      (xs.length < frameInputs b w → Filling b w xs.length t) ∧
      (xs.length = frameInputs b w → Packed b t) := by
  have hpos : 0 < frameInputs b w := Nat.mul_pos (samplesPerFrame_pos hw) (Nat.two_pow_pos _)
  obtain ⟨t, rs, hrun, hend, -, hrs⟩ := runAll_of_invariant (l := xs.map fun x => Instr.rxSample x.1 x.2) (s := u)
    (P := fun n v =>
      (n < frameInputs b w → Filling b w n v) ∧
        (n = frameInputs b w → Packed b v))
    (R := fun _ r => r = .done) ⟨fun _ => h, fun h0 => absurd h0 (Nat.ne_of_lt hpos)⟩ (by
      rintro n i v hi ⟨hfill, -⟩
      obtain ⟨x, -, rfl⟩ := List.mem_map.1 (List.mem_of_getElem? hi)
      have hn : n < xs.length := by simpa using (List.getElem?_eq_some_iff.1 hi).1
      have hn := Nat.lt_of_lt_of_le hn hlen
      obtain ⟨t, ht, hP⟩ := (hfill hn).exec_rxSample hw hfec hn x.1 x.2
      exact ⟨_, ht, hP, rfl⟩)
  rw [List.length_map] at hend
  refine ⟨t, rs, hrun, fun r hr => ?_, hend⟩
  obtain ⟨n, hn⟩ := List.mem_iff_getElem?.1 hr
  exact hrs n r hn

end

end Sys2Proof.Machine

namespace Sys2Proof

open Machine

/-- Settles O26: a frame is filled until the counted stages yield its last sample, and the samples among the answers to a stream
are the multiples of `2^DECIM` among its positions. -/
theorem decimatorLengthLaw : Obligations.DecimatorLengthLaw := by
  refine ⟨?_, fun s earlier call hl hd => ?_⟩
  · intro s xs hl he ha hseq hd hfec hstages hpar width hwidth hlen
    have hfill : Filling s.cfg.activeRx width 0 s :=
      ⟨hl, rfl, hseq, he, hstages, counted_zero (hstages ▸ hd) hpar, by simp [ha], rfl, fun h => absurd ha h⟩
    change xs.length = frameInputs s.cfg.activeRx width at hlen
    refine ⟨?_, fun k hk => ?_⟩
    · obtain ⟨t, rs, hrun, hdone, -, hpacked⟩ := hfill.runAll_rxSample hwidth hfec (Nat.le_of_eq hlen)
      obtain ⟨hemit, hacc, hstages, haligned⟩ := hpacked hlen
      exact ⟨t, rs, hrun, hdone, hemit, hacc, hstages, haligned⟩
    · have hshort : (xs.take k).length = k := List.length_take_of_le (Nat.le_of_lt hk)
      have hbelow : (xs.take k).length < frameInputs s.cfg.activeRx width := by
        rw [hshort, ← hlen]
        exact hk
      obtain ⟨u, rs, hrun, -, hfilling, -⟩ := hfill.runAll_rxSample hwidth hfec (Nat.le_of_lt hbelow)
      exact ⟨u, rs, hrun, (hfilling hbelow).notEmitting⟩
  obtain ⟨t, rs, hrun, hlen, hrs⟩ := runAll_decProcess_counted hl hd (earlier ++ call)
  have htotal := filter_isSample_length (k := 0) fun n r hr => by rw [Nat.zero_add]; exact hrs n r hr
  have hcall := filter_isSample_length (k := earlier.length) (rs := rs.drop earlier.length) fun n r hr =>
    hrs (earlier.length + n) r (List.getElem?_drop ▸ hr)
  rw [List.length_append] at hlen
  rw [hlen, Nat.zero_div, Nat.add_zero, Nat.zero_add] at htotal
  rw [List.length_drop, hlen, Nat.add_sub_cancel_left] at hcall
  have hdrop : (Result.done :: rs).drop (1 + earlier.length) = rs.drop earlier.length := by rw [Nat.add_comm]; rfl
  dsimp only
  refine ⟨t, _, hrun, htotal, ?_, fun hearlier hdvd => ?_⟩
  · rw [hdrop, ← hcall, Nat.add_sub_cancel_right]
  · rw [hdrop, Nat.shiftRight_eq_div_pow]
    rw [Nat.add_div_of_dvd_right hearlier] at hcall
    omega

end Sys2Proof
end

section
/-! PROOFS. What the decimator answers to a stream, and to a constant (O27, O28, rules R141 to R144, R146, R151). -/

namespace Sys2Proof.Machine

/-! ### The mixed stream -/

/-- A stream behind the mixer, its phase at 0 before it (rule R142). -/
def mixedStream (fcpos : Byte) (xs : List Sample) : List Pair :=
  xs.zipIdx.map fun x => quarterTurns (mixerTurns fcpos x.2) x.1.toPair

@[simp] theorem mixedStream_length (fcpos : Byte) (xs : List Sample) : (mixedStream fcpos xs).length = xs.length := by
  simp [mixedStream]

theorem mixedStream_getElem? {fcpos : Byte} {xs : List Sample} {n : Nat} {x : Sample} (h : xs[n]? = some x) :
    (mixedStream fcpos xs)[n]? = some (quarterTurns (mixerTurns fcpos n) x.toPair) := by
  simp [mixedStream, List.getElem?_zipIdx, h]

/-- At center the mixer passes its input on (rule R142). -/
theorem mixedStream_center (xs : List Sample) : mixedStream 2 xs = xs.map Sample.toPair := by
  refine List.ext_getElem? fun n => ?_
  simp [mixedStream, List.getElem?_zipIdx, mixerTurns, quarterTurns, Function.comp_def]

/-! ### The response to a stream -/

/-- The decimator of `s` after the first `n` inputs of the stream `xs` since `DSP.RESET rx`. -/
structure Decimates (s : State) (xs : List Sample) (n : Nat) (u : State) : Prop where
  running : u.ctl.lifecycle ≠ .stopped
  params : u.params = s.params
  bank : u.cfg.activeRx = s.cfg.activeRx
  phase : u.rx.mixPhase = BitVec.ofNat 2 n
  counted : Counted n s.cfg.activeRx.decim.toNat u.rx.dec
  fed : Fed s.params ((mixedStream s.cfg.activeRx.fcpos xs).take n) s.cfg.activeRx.decim.toNat u.rx.dec

/-- The stream `xs` mixed and put through the stages of `s` (rules R142 to R144, R146). -/
def State.decimatedStream (s : State) (xs : List Sample) : List Pair :=
  (decimated s.params)^[s.cfg.activeRx.decim.toNat] (mixedStream s.cfg.activeRx.fcpos xs)

/-- The answer to input `n` of the stream `xs`: at every `2^DECIM`-th input the next sample (rules R144, R146). -/
def Decimates.Answer (s : State) (xs : List Sample) (n : Nat) (r : Result) : Prop :=
  (2 ^ s.cfg.activeRx.decim.toNat ∣ n + 1 →
    ∃ y : Sample, r = .sample (some y) ∧
      (s.decimatedStream xs)[(n + 1) / 2 ^ s.cfg.activeRx.decim.toNat - 1]? = some y.toPair) ∧
  (¬2 ^ s.cfg.activeRx.decim.toNat ∣ n + 1 → r = .sample none)

section
variable {s u : State} {xs : List Sample} {n : Nat}

/-- The last sample of the stream decimated so far stands in the whole one at its place. -/
theorem decimatedStream_getElem? (hn : n < xs.length) {y : Pair}
    (h : ((decimated s.params)^[s.cfg.activeRx.decim.toNat]
      ((mixedStream s.cfg.activeRx.fcpos xs).take (n + 1))).getLast? = some y) :
    (s.decimatedStream xs)[(n + 1) / 2 ^ s.cfg.activeRx.decim.toNat - 1]? = some y := by
  rw [List.getLast?_eq_getElem?, iterate_decimated_length, List.length_take_of_le (by simpa using hn)] at h
  obtain ⟨rest, hrest⟩ := iterate_decimated_prefix (p := s.params) s.cfg.activeRx.decim.toNat
    (List.take_prefix (n + 1) (mixedStream s.cfg.activeRx.fcpos xs))
  rw [State.decimatedStream, ← hrest, List.getElem?_append_left (List.getElem?_eq_some_iff.1 h).1, h]

/-- Behind the first stage every sample fits the 16-bit registers (rule R143). -/
theorem toPair_toSample_of_mem_decimatedStream (hd : s.cfg.activeRx.decim ≠ 0) {y : Pair} (h : y ∈ s.decimatedStream xs) :
    y.toSample.toPair = y := by
  obtain ⟨d, hd⟩ := Nat.exists_eq_succ_of_ne_zero fun h0 => hd (BitVec.eq_of_toNat_eq h0)
  rw [State.decimatedStream, hd, Function.iterate_succ_apply'] at h
  exact toPair_toSample_of_mem_decimated h

theorem Decimates.step (h : Decimates s xs n u) (hd : s.cfg.activeRx.decim ≠ 0) {x : Sample} (hx : xs[n]? = some x) :
    ∃ t, exec (.decProcess x) u = .next t ∧ Decimates s xs (n + 1) t ∧ Decimates.Answer s xs n t.io.result := by
  have hn : n < xs.length := (List.getElem?_eq_some_iff.1 hx).1
  have hphase : mixerTurns u.cfg.activeRx.fcpos u.rx.mixPhase.toNat = mixerTurns s.cfg.activeRx.fcpos n := by
    rw [h.bank, h.phase, BitVec.toNat_ofNat, mixerTurns_mod]
  have hdec : u.decimate x = decCascade s.params s.cfg.activeRx.decim.toNat u.rx.dec
      (quarterTurns (mixerTurns s.cfg.activeRx.fcpos n) x.toPair) := by
    rw [State.decimate, hphase, h.params, h.bank]
  have hturned := mixedStream_getElem? (fcpos := s.cfg.activeRx.fcpos) hx
  generalize quarterTurns (mixerTurns s.cfg.activeRx.fcpos n) x.toPair = turned at hdec hturned
  have htake : (mixedStream s.cfg.activeRx.fcpos xs).take (n + 1) =
      (mixedStream s.cfg.activeRx.fcpos xs).take n ++ [turned] := by
    rw [List.take_add_one, hturned]
    rfl
  have hlen : ((mixedStream s.cfg.activeRx.fcpos xs).take n).length = n :=
    List.length_take_of_le (by simpa using Nat.le_of_lt hn)
  obtain ⟨hcount, hsome⟩ := decCascade_counted s.params h.counted turned
  obtain ⟨hfed, hlast⟩ := decCascade_fed h.fed (hlen.symm ▸ h.counted) turned
  rw [← htake, ← hdec] at hfed hlast
  rw [← hdec] at hcount hsome
  refine ⟨_, exec_decProcess h.running (h.bank ▸ hd) x,
    ⟨h.running, h.params, h.bank, by simp [h.phase, BitVec.ofNat_add], hcount, hfed⟩, fun hdvd => ?_, fun hdvd => ?_⟩
  · obtain ⟨y, hy⟩ := Option.isSome_iff_exists.1 (hsome.2 hdvd)
    have hplace := decimatedStream_getElem? hn (hlast y hy)
    refine ⟨y.toSample, by rw [hy]; rfl, ?_⟩
    rw [toPair_toSample_of_mem_decimatedStream hd (List.mem_of_getElem? hplace), hplace]
  · rw [Option.not_isSome_iff_eq_none.1 fun h => hdvd (hsome.1 h)]
    rfl

/-- The answers of the decimator to a stream from reset (rules R142 to R144, R146). -/
theorem runAll_decProcess (hl : s.ctl.lifecycle ≠ .stopped) (hd : s.cfg.activeRx.decim ≠ 0)
    (hd6 : s.cfg.activeRx.decim.toNat ≤ 6) (xs : List Sample) :
    ∃ t rs, runAll (.dspReset .rx :: xs.map .decProcess) s = some (t, .done :: rs) ∧ rs.length = xs.length ∧
      ∀ n r, rs[n]? = some r → Decimates.Answer s xs n r := by
  obtain ⟨t, rs, hrun, -, hlen, hrs⟩ := runAll_of_invariant (l := xs.map .decProcess) (P := Decimates s xs)
    (R := Decimates.Answer s xs) (s := { s with rx.mixPhase := 0, rx.dec := decReset s.params, io.result := .done })
    ⟨hl, rfl, rfl, rfl, counted_decReset s.params hd6, fed_replicate hd6 false⟩ (by
      intro n i u hi hu
      rw [List.getElem?_map] at hi
      obtain ⟨x, hx, rfl⟩ := Option.map_eq_some_iff.1 hi
      exact hu.step hd hx)
  exact ⟨t, rs, runAll_cons (exec_dspReset_rx hl) hrun, by simpa using hlen, hrs⟩

/-- The answers by their places in the run. -/
theorem answers_getElem? {rs : List Result} (hlen : rs.length = xs.length)
    (hrs : ∀ n r, rs[n]? = some r → Decimates.Answer s xs n r) (hn : n < xs.length) :
    ∃ r, (Result.done :: rs)[1 + n]? = some r ∧ Decimates.Answer s xs n r := by
  have hr := List.getElem?_eq_getElem (hlen ▸ hn)
  exact ⟨_, by rw [Nat.add_comm, List.getElem?_cons_succ, hr], hrs n _ hr⟩

/-! ### One stage, no mixing -/

/-- One stage from reset gives its filter at every second input, and nothing at the others (rule R143). -/
theorem runAll_decProcess_stage (hl : s.ctl.lifecycle ≠ .stopped) (hd : s.cfg.activeRx.decim = 1)
    (hf : s.cfg.activeRx.fcpos = 2) (xs : List Sample) :
    ∃ t rs, runAll (.dspReset .rx :: xs.map .decProcess) s = some (t, rs) ∧ ∀ m,
      (2 * m < xs.length → rs[1 + 2 * m]? = some (.sample none)) ∧
      (2 * m + 1 < xs.length → ∃ y : Sample, rs[1 + (2 * m + 1)]? = some (.sample (some y)) ∧
        y.toPair = filteredPair s.params.hbTaps s.params.hbShift (xs.map Sample.toPair) (2 * m + 1)) := by
  have hd1 : s.cfg.activeRx.decim.toNat = 1 := by rw [hd]; rfl
  obtain ⟨t, rs, hrun, hlen, hrs⟩ := runAll_decProcess hl (by rw [hd]; decide) (by omega) xs
  refine ⟨t, _, hrun, fun m => ⟨fun hm => ?_, fun hm => ?_⟩⟩
  · obtain ⟨r, hr, -, hnone⟩ := answers_getElem? hlen hrs hm
    rw [hr, hnone (by rw [hd1]; omega)]
  · obtain ⟨r, hr, hsome, -⟩ := answers_getElem? hlen hrs hm
    obtain ⟨y, rfl, hy⟩ := hsome (by rw [hd1]; omega)
    refine ⟨y, hr, ?_⟩
    have hplace : (2 * m + 1 + 1) / 2 ^ 1 - 1 = m := by omega
    rw [State.decimatedStream, hd1, hf, mixedStream_center, Function.iterate_one, hplace, decimated, filterPairs_eq,
      List.getElem?_map, List.getElem?_range (by simp; omega)] at hy
    rw [Nat.add_comm (2 * m)]
    exact (Option.some.inj hy).symm

end

/-- A filter over one component of a stream of samples, with silence before it (rules R8, R143). -/
theorem filtered_toPair {f : Pair → Int} (h0 : f Pair.zero = 0) (taps : List Int) (shift : Nat) (xs : List Sample) (n : Nat) :
    filtered taps shift ((xs.map Sample.toPair).map f) n =
      max (-32768) (min 32767 (((List.range taps.length).map fun i =>
        if i ≤ n then taps.getD i 0 * f (xs.getD (n - i) ⟨0, 0⟩).toPair else 0).sum / 2 ^ shift)) := by
  have hcell : ∀ k, ((xs.map Sample.toPair).map f).getD k 0 = f (xs.getD k ⟨0, 0⟩).toPair := fun k => by
    have hzero : 0 = f (Sample.toPair ⟨0, 0⟩) := h0.symm
    rw [List.map_map, hzero]
    exact List.getD_map _ _ (f ∘ Sample.toPair)
  simp only [filtered, hcell]

/-! ### A constant input -/

theorem map_getD_range (l : List Int) : (List.range l.length).map (fun i => l.getD i 0) = l := by
  refine List.ext_getElem (by simp) fun i h _ => ?_
  have hi : i < l.length := by simpa using h
  simp [hi]

/-- A filter whose taps add up to its scale gives a constant back once it is settled (rule R151). -/
theorem filtered_replicate {taps : List Int} {shift n m : Nat} {c : Int} (hsum : taps.sum = 2 ^ shift)
    (hsettled : taps.length ≤ n + 1) (hn : n < m) (hc : -32768 ≤ c ∧ c ≤ 32767) :
    filtered taps shift (List.replicate m c) n = c := by
  have hterm : ∀ i ∈ List.range taps.length,
      (if i ≤ n then taps.getD i 0 * (List.replicate m c).getD (n - i) 0 else 0) = taps.getD i 0 * c := fun i hi => by
    have hi := List.mem_range.1 hi
    rw [if_pos (by omega), List.getD_replicate (h := by omega)]
  have hacc : ((List.range taps.length).map fun i =>
      if i ≤ n then taps.getD i 0 * (List.replicate m c).getD (n - i) 0 else 0).sum = 2 ^ shift * c := by
    rw [List.map_congr_left hterm, List.sum_map_mul_right, map_getD_range, hsum]
  rw [filtered, hacc, Int.mul_ediv_cancel_left _ (by positivity)]
  exact sat16_of_bounds hc.1 hc.2

theorem sum_of_kernelLegal {p : Params} (h : kernelLegal p = true) : p.hbTaps.sum = 2 ^ p.hbShift := by
  simp only [kernelLegal, Bool.and_eq_true, decide_eq_true_eq] at h
  exact h.1.2

end Sys2Proof.Machine

namespace Sys2Proof

open Machine

/-- Settles O27: the answers are the samples of the stream put through the stages; a single stage is its filter. -/
theorem decimatorStageResponse : Obligations.DecimatorStageResponse := by
  refine ⟨fun s xs hl hd hd6 _ => ?_, fun s xs hl hd hf => ?_⟩
  · obtain ⟨t, rs, hrun, hlen, hrs⟩ := runAll_decProcess hl (fun h0 => absurd (h0 ▸ hd) (by decide)) hd6 xs
    refine ⟨t, _, hrun, fun n hn => ?_⟩
    obtain ⟨r, hr, hsome, hnone⟩ := answers_getElem? hlen hrs hn
    rw [hr]
    exact ⟨fun hdvd => (hsome hdvd).imp fun y hy => hy.imp (congrArg some) id, fun hdvd => congrArg some (hnone hdvd)⟩
  · obtain ⟨t, rs, hrun, hrs⟩ := runAll_decProcess_stage hl hd hf xs
    refine ⟨t, rs, hrun, fun m => ⟨(hrs m).1, fun hm => ?_⟩⟩
    obtain ⟨y, hr, hy⟩ := (hrs m).2 hm
    exact ⟨y, hr, (congrArg Pair.i hy).trans (filtered_toPair rfl _ _ _ _),
      (congrArg Pair.q hy).trans (filtered_toPair rfl _ _ _ _)⟩

/-- Settles O28: a settled filter of a legal kernel, whose taps add up to its scale, gives a constant back. -/
theorem decimatorDcGain : Obligations.DecimatorDcGain := by
  intro s c n hl hlegal hd hf
  obtain ⟨t, rs, hrun, hrs⟩ := runAll_decProcess_stage hl hd hf (List.replicate n c)
  rw [List.map_replicate] at hrun
  refine ⟨t, rs, hrun, fun m hm hn => ?_⟩
  obtain ⟨y, hr, hy⟩ := (hrs m).2 (by simpa using hn)
  have hbounds := toPair_bounds c
  rw [filteredPair, List.map_replicate, List.map_replicate, List.map_replicate,
    filtered_replicate (sum_of_kernelLegal hlegal) (by omega) hn hbounds.1,
    filtered_replicate (sum_of_kernelLegal hlegal) (by omega) hn hbounds.2] at hy
  have hyc : y = c := by rw [← Sample.toPair_toSample y, hy]; exact Sample.toPair_toSample c
  rw [hr, hyc]

end Sys2Proof
end

section
/-! PROOFS. The interpolating stages over a vector, across calls, and what they answer (O29, rules R148, R149). -/

namespace Sys2Proof.Machine

/-! ### One stage over a vector -/

/-- A stream with a zero behind each sample (rule R149). -/
def stuffed (v : List Sample) : List Sample := v.flatMap fun x => [x, Sample.zero]

theorem stuffed_getD (v : List Sample) (k : Nat) :
    (stuffed v).getD k ⟨0, 0⟩ = if k % 2 = 0 then v.getD (k / 2) ⟨0, 0⟩ else ⟨0, 0⟩ := by
  induction v generalizing k with
  | nil => simp [stuffed]
  | cons x xs ih =>
    match k with
    | 0 => rfl
    | 1 => rfl
    | k + 2 =>
      change (stuffed xs).getD k ⟨0, 0⟩ = _
      rw [ih, Nat.add_mod_right, Nat.add_div_right k (by omega), List.getD_cons_succ]

theorem stuffed_map_toPair (v : List Sample) :
    (stuffed v).map Sample.toPair = (v.map Sample.toPair).flatMap fun y => [y, ⟨0, 0⟩] := by
  induction v with
  | nil => rfl
  | cons x xs ih => exact congrArg (x.toPair :: (⟨0, 0⟩ : Pair) :: ·) ih

/-- The doubled kernel (rule R149). -/
def doubledTaps (p : Params) : List Int := p.hbTaps.map fun h => 2 * h

theorem doubledTaps_getD (p : Params) (i : Nat) : (doubledTaps p).getD i 0 = 2 * p.hbTaps.getD i 0 :=
  List.getD_map (d := 0) p.hbTaps (fun h => 2 * h)

/-- A push into the line of a stream gives the doubled filter at its last input (rule R149). -/
theorem intPush_delayLine (p : Params) (past : List Sample) (u : Sample) :
    intPush p (delayLine Sample.zero p.hbTaps.length past) u =
      (delayLine Sample.zero p.hbTaps.length (past ++ [u]),
        (filteredPair (doubledTaps p) p.hbShift ((past ++ [u]).map Sample.toPair) past.length).toSample) := by
  have hdot : ∀ f : Sample → Int, f Sample.zero = 0 →
      scaled p (dot (doubledTaps p) ((delayLine Sample.zero p.hbTaps.length (past ++ [u])).map f)) =
        filtered (doubledTaps p) p.hbShift ((past ++ [u]).map f) past.length := fun f h0 => by
    have hlen : p.hbTaps.length = (doubledTaps p).length := by simp [doubledTaps]
    rw [delayLine_map, h0, hlen]
    exact sat16_dot_delayLine (by simp)
  simp only [intPush, delayLine_append]
  change (_, Pair.toSample ⟨scaled p (dot (doubledTaps p) _), scaled p (dot (doubledTaps p) _)⟩) = _
  rw [hdot (fun x => x.i.toInt) rfl, hdot (fun x => x.q.toInt) rfl, filteredPair, List.map_map, List.map_map]
  rfl

/-- The pushes of a whole stream through a stage's line (rule R149). -/
def pushAll (p : Params) : List Sample → List Sample → List Sample × List Sample
  | d, [] => (d, [])
  | d, u :: us => ((pushAll p (intPush p d u).1 us).1, (intPush p d u).2 :: (pushAll p (intPush p d u).1 us).2)

theorem intStage_eq_pushAll (p : Params) (d v : List Sample) : intStage p d v = pushAll p d (stuffed v) := by
  induction v generalizing d with
  | nil => rfl
  | cons x xs ih => simp only [intStage, ih]; rfl

/-- The outputs of the pushes behind a stream that went before. -/
theorem pushAll_delayLine (p : Params) (past us : List Sample) :
    (pushAll p (delayLine Sample.zero p.hbTaps.length past) us).2 =
      (List.range us.length).map fun m =>
        (filteredPair (doubledTaps p) p.hbShift ((past ++ us).map Sample.toPair) (past.length + m)).toSample := by
  induction us generalizing past with
  | nil => rfl
  | cons u us ih =>
    have hsplit : past ++ u :: us = (past ++ [u]) ++ us := by simp
    have hfirst : filteredPair (doubledTaps p) p.hbShift ((past ++ u :: us).map Sample.toPair) past.length =
        filteredPair (doubledTaps p) p.hbShift ((past ++ [u]).map Sample.toPair) past.length := by
      rw [hsplit, List.map_append]
      exact filteredPair_append (by simp) _
    rw [pushAll, intPush_delayLine, ih, List.length_cons, List.range_succ_eq_map, List.map_cons, List.map_map, Nat.add_zero,
      hfirst, ← hsplit, List.length_append]
    simp only [Function.comp_def, Nat.succ_eq_add_one, List.length_singleton, Nat.add_assoc, Nat.add_comm 1]

/-- A stage from reset is the doubled filter over the stuffed stream (rules R148, R149). -/
theorem intStage_reset (p : Params) (v : List Sample) :
    (intStage p (List.replicate p.hbTaps.length Sample.zero) v).2.map Sample.toPair =
      interpolated p (v.map Sample.toPair) := by
  have hlen : (stuffed v).length = 2 * v.length := by simp [stuffed, List.length_flatMap, Nat.mul_comm]
  rw [intStage_eq_pushAll, ← delayLine_nil, pushAll_delayLine, List.map_map, hlen, interpolated, filterPairs_eq,
    List.length_map, ← stuffed_map_toPair]
  refine List.map_congr_left fun m _ => ?_
  rw [Nat.one_mul]
  exact toPair_toSample_filteredPair _ _ _ _

/-- A stage goes on where it stopped (rule R148). -/
theorem intStage_append (p : Params) (d v v' : List Sample) :
    intStage p d (v ++ v') =
      ((intStage p (intStage p d v).1 v').1, (intStage p d v).2 ++ (intStage p (intStage p d v).1 v').2) := by
  induction v generalizing d with
  | nil => rfl
  | cons x xs ih => simp only [List.cons_append, intStage, ih]

/-! ### The cascade -/

/-- The cascade goes on where it stopped (rule R148). -/
theorem intCascade_append (p : Params) (n : Nat) (sts : List (List Sample)) (v v' : List Sample) :
    intCascade p n sts (v ++ v') =
      ((intCascade p n (intCascade p n sts v).1 v').1,
        (intCascade p n sts v).2 ++ (intCascade p n (intCascade p n sts v).1 v').2) := by
  induction n generalizing sts v v' with
  | zero => rfl
  | succ n ih =>
    cases sts with
    | nil => rfl
    | cons d sts => simp only [intCascade, intStage_append, ih]

/-- The stages behind the first `n` are not run (rule R148). -/
theorem intCascade_drop (p : Params) (n : Nat) (sts : List (List Sample)) (v : List Sample) :
    (intCascade p n sts v).1.drop n = sts.drop n := by
  induction n generalizing sts v with
  | zero => rfl
  | succ n ih =>
    cases sts with
    | nil => rfl
    | cons d sts => exact ih sts _

theorem intCascade_stages (p : Params) (n : Nat) (sts : List (List Sample)) (v : List Sample) :
    (intCascade p n sts v).1.length = sts.length := by
  induction n generalizing sts v with
  | zero => rfl
  | succ n ih =>
    cases sts with
    | nil => rfl
    | cons d sts => exact congrArg Nat.succ (ih sts _)

/-- The cascade from reset is one stage upon another (rules R148, R149). -/
theorem intCascade_reset (p : Params) {n m : Nat} (hn : n ≤ m) (v : List Sample) :
    (intCascade p n (List.replicate m (List.replicate p.hbTaps.length Sample.zero)) v).2.map Sample.toPair =
      (interpolated p)^[n] (v.map Sample.toPair) := by
  induction n generalizing m v with
  | zero => rfl
  | succ n ih =>
    cases m with
    | zero => exact absurd hn (Nat.not_succ_le_zero n)
    | succ m =>
      rw [List.replicate_succ, intCascade, Function.iterate_succ_apply, ← intStage_reset]
      exact ih (Nat.le_of_succ_le_succ hn) _

/-! ### `INT.PROCESS` -/

section
variable {s : State} (hl : s.ctl.lifecycle ≠ .stopped)
include hl

theorem exec_intProcess_eq (v : List Sample) :
    exec (.intProcess v) s = .next ((intProcess v s).1.ret (.vector (intProcess v s).2)) :=
  unlessStopped_of_ne hl _

/-- A call from reset (rule R148). -/
theorem runAll_intProcess (v : List Sample) :
    ∃ t, runAll [.dspReset .tx, .intProcess v] s = some (t, [.done, .vector
      (intCascade s.params s.cfg.activeTx.interp.toNat (intReset s.params) v).2]) :=
  ⟨_, runAll_cons (exec_dspReset_tx hl) (runAll_cons (exec_intProcess_eq (by exact hl) v) rfl)⟩

/-- Two calls from reset give, one behind the other, what one call gives of both vectors (rule R148). -/
theorem runAll_intProcess_intProcess (v v' : List Sample) :
    ∃ t w w', runAll [.dspReset .tx, .intProcess v, .intProcess v'] s = some (t, [.done, .vector w, .vector w']) ∧
      w ++ w' = (intCascade s.params s.cfg.activeTx.interp.toNat (intReset s.params) (v ++ v')).2 :=
  ⟨_, _, _,
    runAll_cons (exec_dspReset_tx hl)
      (runAll_cons (exec_intProcess_eq (by exact hl) v) (runAll_cons (exec_intProcess_eq (by exact hl) v') rfl)),
    (congrArg Prod.snd (intCascade_append _ _ _ _ _)).symm⟩

end

/-- One stage from reset gives the doubled filter over the stuffed stream at every place (rule R149). -/
theorem intCascade_one_getElem? (p : Params) (v : List Sample) {n : Nat} (hn : n < 2 * v.length) :
    ∃ y, (intCascade p 1 (intReset p) v).2[n]? = some y ∧
      y.toPair = filteredPair (doubledTaps p) p.hbShift ((stuffed v).map Sample.toPair) n := by
  have hout := congrArg (·[n]?) (intCascade_reset p (n := 1) (m := 6) (by omega) v)
  simp only [Function.iterate_one, interpolated, filterPairs_eq, List.getElem?_map, List.length_map,
    List.getElem?_range hn, ← stuffed_map_toPair, Nat.zero_add, Nat.one_mul] at hout
  exact Option.map_eq_some_iff.1 hout

/-- The doubled filter over one component of the stuffed stream (rules R148, R149). -/
theorem filtered_stuffed {f : Pair → Int} (h0 : f Pair.zero = 0) (p : Params) (v : List Sample) (n : Nat) :
    filtered (doubledTaps p) p.hbShift (((stuffed v).map Sample.toPair).map f) n =
      max (-32768) (min 32767 (((List.range p.hbTaps.length).map fun i =>
        if i ≤ n then
          2 * p.hbTaps.getD i 0 * f (if (n - i) % 2 = 0 then v.getD ((n - i) / 2) ⟨0, 0⟩ else ⟨0, 0⟩).toPair
        else 0).sum / 2 ^ p.hbShift)) := by
  have hlen : (doubledTaps p).length = p.hbTaps.length := by simp [doubledTaps]
  simp only [filtered_toPair h0, hlen, doubledTaps_getD, stuffed_getD]

end Sys2Proof.Machine

namespace Sys2Proof

open Machine

/-- Settles O29: a stage from reset is a filter over the stuffed stream, and the cascade over two vectors in turn is the cascade
over one behind the other. -/
theorem interpolatorResponse : Obligations.InterpolatorResponse := by
  intro s v hl hi hlen
  refine ⟨⟨_, _, exec_intProcess_eq hl v, intProcess_length hi hlen v, intCascade_drop _ _ _ _,
    (intCascade_stages _ _ _ _).trans hlen, fun hzero => intProcess_of_interp_zero hzero v⟩, fun hone => ?_, fun v' => ?_⟩
  · have hone : s.cfg.activeTx.interp.toNat = 1 := by rw [hone]; rfl
    obtain ⟨t, hrun⟩ := runAll_intProcess hl v
    rw [hone] at hrun
    refine ⟨t, _, _, hrun, rfl, (intCascade_length _ (by simp [intReset]) v).trans (by rw [Nat.shiftLeft_eq]; omega),
      fun n hn => ?_⟩
    obtain ⟨y, hy, hfilter⟩ := intCascade_one_getElem? s.params v hn
    exact ⟨y, hy, (congrArg Pair.i hfilter).trans (filtered_stuffed rfl _ _ _),
      (congrArg Pair.q hfilter).trans (filtered_stuffed rfl _ _ _)⟩
  · obtain ⟨t, w, w', hrun, hout⟩ := runAll_intProcess_intProcess hl v v'
    exact ⟨t, w, w', hrun, hout ▸ intCascade_reset s.params hi (v ++ v')⟩

end Sys2Proof
end

section
/-! PROOFS. `CRC32` tells two byte strings apart that differ in one byte, so in one bit (O37, rules R178, R337). -/

namespace Sys2Proof.Machine

/-- The top bit of a CRC step is the bit that was shifted out: the polynomial has its top bit set, the shift clears it. -/
theorem crcBit_getLsbD_top (c : U32) : (crcBit c).getLsbD 31 = c.getLsbD 0 := by
  unfold crcBit
  split
  · next h => rw [BitVec.getLsbD_xor, BitVec.getLsbD_ushiftRight, BitVec.getLsbD_of_ge c _ (by decide), h]; decide
  · next h => rw [BitVec.getLsbD_ushiftRight, BitVec.getLsbD_of_ge c _ (by decide)]; simpa using h

/-- A CRC step loses nothing (rule R178). -/
theorem crcBit_injective : Function.Injective crcBit := by
  intro c d h
  have hlow : c.getLsbD 0 = d.getLsbD 0 := by
    rw [← crcBit_getLsbD_top, ← crcBit_getLsbD_top, h]
  have hshift : c >>> 1 = d >>> 1 := by
    unfold crcBit at h
    rw [hlow] at h
    split at h
    · exact (BitVec.xor_left_inj _).1 h
    · exact h
  refine BitVec.eq_of_getLsbD_eq fun n _ => ?_
  cases n with
  | zero => exact hlow
  | succ n =>
    have hn := congrArg (·.getLsbD n) hshift
    simpa only [BitVec.getLsbD_ushiftRight, Nat.add_comm 1] using hn

theorem crcBits_injective (n : Nat) : Function.Injective (crcBits n) := by
  induction n with
  | zero => exact Function.injective_id
  | succ n ih => exact ih.comp crcBit_injective

/-- From different registers the same byte leads to different registers. -/
theorem crcByte_left_injective (b : Byte) : Function.Injective fun c => crcByte c b :=
  fun _ _ h => (BitVec.xor_left_inj _).1 (crcBits_injective 8 h)

/-- From the same register different bytes lead to different registers. -/
theorem crcByte_right_injective (c : U32) : Function.Injective (crcByte c) := by
  intro b b' h
  have hwide : b.setWidth 32 = b'.setWidth 32 := (BitVec.xor_right_inj _).1 (crcBits_injective 8 h)
  have hnat := congrArg BitVec.toNat hwide
  simp only [BitVec.toNat_setWidth_of_le (show 8 ≤ 32 by decide)] at hnat
  exact BitVec.eq_of_toNat_eq hnat

/-- Bytes behind a difference do not undo it. -/
theorem foldl_crcByte_injective (bs : List Byte) : Function.Injective fun c => bs.foldl crcByte c := by
  induction bs with
  | nil => exact Function.injective_id
  | cons b r ih => exact ih.comp (crcByte_left_injective b)

/-- Two byte strings that differ in one byte have different CRCs. -/
theorem crc32_append_cons_inj {pre post : List Byte} {b b' : Byte} :
    crc32 (pre ++ b :: post) = crc32 (pre ++ b' :: post) ↔ b = b' := by
  refine ⟨fun h => ?_, fun h => h ▸ rfl⟩
  have hfold := (BitVec.xor_left_inj _).1 h
  rw [List.foldl_append, List.foldl_append] at hfold
  exact crcByte_right_injective _ (foldl_crcByte_injective post hfold)

theorem xor_one_shiftLeft_ne (b : Byte) {j : Nat} (hj : j < 8) : b ^^^ (1 <<< j) ≠ b := by
  intro h
  have hbit : (b ^^^ BitVec.ofNat 8 (1 <<< j)).getLsbD j = b.getLsbD j := congrArg (·.getLsbD j) h
  rw [BitVec.getLsbD_xor, BitVec.getLsbD_ofNat] at hbit
  simp [hj] at hbit

end Sys2Proof.Machine

namespace Sys2Proof

open Machine

/-- Settles O37: the bytes before the flipped bit leave one register, its byte splits it in two, and no byte behind it joins them. -/
theorem crcDetectsSingleBit : Obligations.CrcDetectsSingleBit := by
  refine ⟨fun _ _ => rfl, by decide +kernel, rfl, fun bs k j hk hj h => ?_⟩
  have hbs : bs = bs.take k ++ bs[k] :: bs.drop (k + 1) := by simp
  have hflip : flipBit bs k j = bs.take k ++ (bs[k] ^^^ (1 <<< j)) :: bs.drop (k + 1) :=
    List.modify_eq_take_cons_drop hk
  rw [hflip] at h
  conv_rhs at h => rw [hbs]
  exact xor_one_shiftLeft_ne _ hj (crc32_append_cons_inj.1 h)

end Sys2Proof
end

section
/-! PROOFS. Where a frame begins: the adoption of either half (O31, rules R172, R201), and the first sample of a frame (O34, rules
R172 to R174). -/

namespace Sys2Proof.Machine

section
variable {s : State}

/-! ### The adoptions -/

theorem exec_rxAdopt (hl : s.ctl.lifecycle ≠ .stopped) :
    exec .rxAdopt s = if rxMustAdopt s then .next ((rxAdopt s).ret .done) else .next (s.ret .noStep) :=
  unlessStopped_of_ne hl _

/-- At its point the adoption is performed (rule R172). -/
theorem exec_rxAdopt_of_due (hl : s.ctl.lifecycle ≠ .stopped) (ha : s.rx.accCount = 0) (he : s.rx.emitting = false)
    (hseq : s.cfg.seqRx ≠ s.cfg.seqP) : exec .rxAdopt s = .next ((rxAdopt s).ret .done) :=
  (exec_rxAdopt hl).trans (if_pos (rxMustAdopt_iff.2 ⟨ha, he, hseq⟩))

/-- Away from its point the adoption waits (rule R172; log entry 5). -/
theorem exec_rxAdopt_waits (hl : s.ctl.lifecycle ≠ .stopped)
    (h : s.rx.accCount ≠ 0 ∨ s.rx.emitting = true ∨ s.cfg.seqRx = s.cfg.seqP) :
    exec .rxAdopt s = .next (s.ret .noStep) := by
  refine (exec_rxAdopt hl).trans (if_neg fun hdue => ?_)
  obtain ⟨ha, he, hseq⟩ := rxMustAdopt_iff.1 hdue
  rcases h with h | h | h
  · exact h ha
  · rw [he] at h; cases h
  · exact hseq h

/-- The promotion is never taken back (rules R42, R172). -/
theorem promoted_eq_or (b : Bank) (promoted : Bool) :
    (if 1 ≤ b.decim.toNat then true else promoted) = (promoted || decide (1 ≤ b.decim.toNat)) := by
  by_cases h : 1 ≤ b.decim.toNat <;> simp [h]

/-- The whole state that `RX.ADOPT` leaves (rule R172). -/
theorem rxAdopt_eq (s : State) :
    let reset := s.cfg.pending.decim ≠ s.cfg.activeRx.decim ∨ s.cfg.pending.fcpos ≠ s.cfg.activeRx.fcpos
    rxAdopt s =
      { s with
        cfg.activeRx := s.cfg.pending
        cfg.seqRx := s.cfg.seqP
        rx.promoted := s.rx.promoted || decide (1 ≤ s.cfg.pending.decim.toNat)
        rx.mixPhase := if reset then 0 else s.rx.mixPhase
        rx.dec := if reset then decReset s.params else s.rx.dec } := by
  intro reset
  by_cases h : reset
  · rw [rxAdopt, if_pos h, if_pos h, if_pos h, ← promoted_eq_or]
    rfl
  · rw [rxAdopt, if_neg h, if_neg h, if_neg h, ← promoted_eq_or]

/-- `TX.ADOPT` is performed outside `Stopped`, whether or not an update waits (rule R201; log entry 31). -/
theorem exec_txAdopt_of_ne_stopped (hl : s.ctl.lifecycle ≠ .stopped) : exec .txAdopt s = .next ((txAdopt s).ret .done) :=
  unlessStopped_of_ne hl _

/-- The whole state that `TX.ADOPT` leaves where an update waits (rule R201). -/
theorem txAdopt_of_due (hseq : s.cfg.seqTx ≠ s.cfg.seqP) :
    txAdopt s =
      { s with
        cfg.activeTx := s.cfg.pending
        cfg.seqTx := s.cfg.seqP
        tx.intp := if s.cfg.pending.interp ≠ s.cfg.activeTx.interp then intReset s.params else s.tx.intp } := by
  rw [txAdopt, if_pos hseq]
  split <;> rfl

/-! ### The start of a frame -/

/-- A frame begun right behind the adoption that was due is the frame begun without it: `RX.SAMPLE` adopts first (rule R174). -/
theorem beginFrame_rxAdopt (ha : s.rx.accCount = 0) (hseq : s.cfg.seqRx ≠ s.cfg.seqP) :
    beginFrame (rxAdopt s) = beginFrame s := by
  have ha' : (rxAdopt s).rx.accCount = 0 := (rxAdopt_rx_accCount s).trans ha
  have hseq' : ¬(rxAdopt s).cfg.seqRx ≠ (rxAdopt s).cfg.seqP := not_not.2 rfl
  rw [beginFrame, if_pos ha', if_neg hseq', beginFrame, if_pos ha, if_pos hseq]

theorem rxSample_rxAdopt (x : Sample) (wall : Wall) (ha : s.rx.accCount = 0) (hseq : s.cfg.seqRx ≠ s.cfg.seqP) :
    rxSample x wall (rxAdopt s) = rxSample x wall s := by
  rw [rxSample_eq, rxSample_eq, beginFrame_rxAdopt ha hseq, rxAdopt_rx_emitting]

theorem storeSample_proceeds (y : Sample) (wall : Wall) (s : State) : Proceeds (storeSample y wall s) := by
  unfold storeSample
  refine (fbWrite_proceeds _ _ _ _).bind fun _ _ => (fbWrite_proceeds _ _ _ _).bind fun _ _ => ?_
  dsimp only
  split
  · exact packFrame_proceeds _ _
  · exact proceeds_ok _

theorem decimateAndStore_proceeds (x : Sample) (wall : Wall) (s : State) : Proceeds (decimateAndStore x wall s) := by
  unfold decimateAndStore
  dsimp only
  split
  · exact proceeds_ok _
  · exact storeSample_proceeds _ _ _

/-- `RX.SAMPLE` waits for nothing but the end of an emission (rule R174). -/
theorem rxSample_proceeds {x : Sample} {wall : Wall} (he : s.rx.emitting = false) : Proceeds (rxSample x wall s) := by
  rw [rxSample_eq, he]
  exact decimateAndStore_proceeds x wall _

/-- `RX.SAMPLE` with an adoption due is `RX.ADOPT`, then `RX.SAMPLE` (rules R172, R174). -/
theorem exec_rxSample_rxAdopt (x : Sample) (wall : Wall) (hl : s.ctl.lifecycle ≠ .stopped) (he : s.rx.emitting = false)
    (ha : s.rx.accCount = 0) (hseq : s.cfg.seqRx ≠ s.cfg.seqP) :
    exec (.rxSample x wall) s = exec (.rxSample x wall) ((rxAdopt s).ret .done) := by
  have hp : Proceeds (rxSample x wall (rxAdopt s)) := rxSample_proceeds ((rxAdopt_rx_emitting s).trans he)
  rw [exec_rxSample hl, exec_rxSample (s := (rxAdopt s).ret .done) hl, (rxSample_local x wall (rxAdopt s)).finish_ret hp s,
    rxSample_rxAdopt x wall ha hseq]

/-- With nothing to adopt the start of a frame settles its width alone (rules R172, R173). -/
theorem beginFrame_of_adopted (ha : s.rx.accCount = 0) (hseq : s.cfg.seqRx = s.cfg.seqP) :
    beginFrame s = { s with rx := s.rx.ofWidth (effectiveBps s.cfg.activeRx s.rx.promoted) } := by
  rw [beginFrame, if_pos ha, if_neg (not_not.2 hseq)]
  rfl

/-- At a frame boundary with nothing to adopt, `RX.SAMPLE` is the decimator's step into a frame of the effective width, and the
store of what it yields (rules R173, R174). -/
theorem rxSample_at_boundary (x : Sample) (wall : Wall) (hl : s.ctl.lifecycle ≠ .stopped) (he : s.rx.emitting = false)
    (ha : s.rx.accCount = 0) (hseq : s.cfg.seqRx = s.cfg.seqP) :
    let w := effectiveBps s.cfg.activeRx s.rx.promoted
    ∃ (phase : BitVec 2) (dec : List DecStage) (z : Option Sample),
      exec (.decProcess x) s = .next ((s.withDecimator phase dec).ret (.sample z)) ∧
        (z = none → rxSample x wall s = .ok (s.decimatedInto w phase dec)) ∧
        ∀ y, z = some y → rxSample x wall s = storeSample y wall (s.decimatedInto w phase dec) := by
  intro w
  obtain ⟨phase, dec, hd⟩ := decProcess_writes s.params s.cfg.activeRx x s.rx
  have hexec : exec (.decProcess x) s =
      .next (({ s with rx := (decProcess s.params s.cfg.activeRx x s.rx).1 } : State).ret
        (.sample (decProcess s.params s.cfg.activeRx x s.rx).2)) := unlessStopped_of_ne hl _
  have hsample : rxSample x wall s = decimateAndStore x wall { s with rx := s.rx.ofWidth w } := by
    rw [rxSample_eq, he, beginFrame_of_adopted ha hseq]
    rfl
  have hwide : decProcess s.params s.cfg.activeRx x (s.rx.ofWidth w) =
      ((decProcess s.params s.cfg.activeRx x s.rx).1.ofWidth w, (decProcess s.params s.cfg.activeRx x s.rx).2) := by
    unfold decProcess
    split <;> rfl
  unfold decimateAndStore at hsample
  dsimp only at hsample
  rw [hwide, hd] at hsample
  rw [hd] at hexec
  refine ⟨phase, dec, _, hexec, fun hz => ?_, fun y hz => ?_⟩
  · rw [hsample, hz]; rfl
  · rw [hsample, hz]; rfl

/-- The first sample of a frame does not fill it. -/
theorem storeSample_first (y : Sample) (wall : Wall) (ha : s.rx.accCount = 0) (hw : s.rx.frameBps = 1 ∨ s.rx.frameBps = 2) :
    storeSample y wall s = .ok (s.withSample y) := by
  have hacc : s.rx.accCount.toNat + 1 < samplesPerFrame s.rx.frameBps.toNat := by
    rw [ha]
    rcases hw with hw | hw <;> rw [hw] <;> decide
  exact (storeSample_inside hw (by omega)).1 hacc

/-- The state behind the first sample of a frame of width `w` (rules R173, R174). -/
theorem exec_rxSample_first {x y : Sample} {wall : Wall} {w : Byte} {phase : BitVec 2} {dec : List DecStage}
    (hl : s.ctl.lifecycle ≠ .stopped) (ha : s.rx.accCount = 0) (hw : w = 1 ∨ w = 2)
    (hstore : rxSample x wall s = storeSample y wall (s.decimatedInto w phase dec)) :
    exec (.rxSample x wall) s = .next
      { s.withDecimator phase dec with
        rx.fb := putSample s.rx.fb w.toNat 0 y
        rx.accCount := 1
        rx.frameBps := w
        io.result := .done } := by
  have hfirst : (s.decimatedInto w phase dec).rx.accCount = 0 := ha
  rw [exec_rxSample hl, hstore, storeSample_first y wall hfirst hw, finish_ok, State.withSample, hfirst]
  rfl

theorem sampleAddr_zero (w : Nat) : sampleAddr w 0 = 508 := by
  simp [sampleAddr, bodyAddr]

/-- What `FB` holds behind the first sample of a frame: its components from the start of block 1 on, the rest as before. -/
theorem putSample_zero (m : Memory) (w : Nat) (y : Sample) :
    (∀ k, k < w → (Memory.get (putSample m w 0 y) (508 + k)).toNat = y.i.toNat / 256 ^ k % 256) ∧
      (∀ k, k < w → (Memory.get (putSample m w 0 y) (508 + w + k)).toNat = y.q.toNat / 256 ^ k % 256) ∧
      ∀ a, a < 508 ∨ 508 + 2 * w ≤ a → Memory.get (putSample m w 0 y) a = Memory.get m a := by
  rw [← sampleAddr_zero w]
  exact ⟨fun k hk => get_putSample_i hk, fun k hk => get_putSample_q hk, fun a ha => get_putSample_ne ha⟩

end

end Sys2Proof.Machine

namespace Sys2Proof

open Machine

/-- Settles O31: the adoptions, each where it is due and where it is not. -/
theorem adoptionEffect : Obligations.AdoptionEffect := by
  intro s hl
  refine ⟨fun ha he hseq => ?_, exec_rxAdopt_waits hl, fun hseq => ?_, fun hseq => ?_⟩
  · rw [exec_rxAdopt_of_due hl ha he hseq, rxAdopt_eq]
    rfl
  · rw [exec_txAdopt_of_ne_stopped hl, txAdopt_of_due hseq]
    rfl
  · rw [exec_txAdopt_of_ne_stopped hl, txAdopt_of_eq hseq]
    rfl

/-- Settles O34: `RX.SAMPLE` gives the same behind an adoption that was due, and with none due its frame has the effective width,
so that its first sample lies at the start of block 1. -/
theorem rxSampleAtBoundary : Obligations.RxSampleAtBoundary := by
  intro x wall s hl he ha
  refine ⟨fun hseq => ⟨_, exec_rxAdopt_of_due hl ha he hseq, rfl, exec_rxSample_rxAdopt x wall hl he ha hseq⟩, fun hseq => ?_⟩
  obtain ⟨phase, dec, z, hdec, hnone, hsome⟩ := rxSample_at_boundary x wall hl he ha hseq
  refine ⟨fun hd hw => ?_, fun u y hu hy hd => ?_⟩
  · have hpass := Host.Outcome.next.inj (hdec.symm.trans (exec_decProcess_zero hl hd x))
    have hz : z = some x := Result.sample.inj (congrArg (·.io.result) hpass)
    have hphase : phase = s.rx.mixPhase := congrArg (·.rx.mixPhase) hpass
    have hlines : dec = s.rx.dec := congrArg (·.rx.dec) hpass
    subst hphase hlines
    exact ⟨_, exec_rxSample_first hl ha hw (hsome x hz), putSample_zero _ _ _⟩
  · have hu := Host.Outcome.next.inj (hdec.symm.trans hu)
    subst hu
    have hz : z = y := Result.sample.inj hy
    have hwide := effectiveBps_of_decim hd s.rx.promoted
    rw [hwide] at hnone hsome
    refine ⟨fun hy => ?_, fun v hv => ⟨_, exec_rxSample_first hl ha (.inr rfl) (hsome v (hz.trans hv)), putSample_zero _ _ _⟩⟩
    rw [exec_rxSample hl, hnone (hz.trans hy), finish_ok]
    rfl

end Sys2Proof
end

section
/-! PROOFS. `PACK.FRAME` and the meta body (O35, O36, rules R176, R177). -/

namespace Sys2Proof.Machine

/-! ### Whole bodies written one behind the other -/

section
variable {bodies : List (List Byte)} {m m' : Memory} {blk : Nat}

theorem fbWriteBodies_wf (hm : m.wf = true) (h : fbWriteBodies m blk bodies = .ok m') : m'.wf = true := by
  induction bodies generalizing m blk with
  | nil => cases h; exact hm
  | cons b r ih =>
    obtain ⟨m1, h1, h2⟩ := bind_eq_ok.1 h
    obtain ⟨-, rfl⟩ := fbWrite_ok.1 h1
    exact ih (Memory.write_wf hm _ _) h2

/-- Bodies written from a block on leave every byte before them and behind them alone. -/
theorem fbWriteBodies_get {a : Nat} (hlen : ∀ b ∈ bodies, b.length = Config.bodyLen) (h : fbWriteBodies m blk bodies = .ok m')
    (ha : a < 508 * blk ∨ 508 * (blk + bodies.length) ≤ a) : Memory.get m' a = Memory.get m a := by
  induction bodies generalizing m blk with
  | nil => cases h; rfl
  | cons b r ih =>
    obtain ⟨m1, h1, h2⟩ := bind_eq_ok.1 h
    obtain ⟨-, rfl⟩ := fbWrite_ok.1 h1
    have hb : b.length = Config.bodyLen := hlen b (by simp)
    rw [List.length_cons] at ha
    rw [ih (fun c hc => hlen c (by simp [hc])) h2 (by omega)]
    apply Memory.get_write_ne
    simp only [bodyAddr, hb, Config.bodyLen]
    omega

/-- The `i`-th of the bodies written from a block on stands `i` blocks behind it. -/
theorem fbWriteBodies_getElem? (hlen : ∀ b ∈ bodies, b.length = Config.bodyLen) (h : fbWriteBodies m blk bodies = .ok m')
    {i : Nat} (hi : i < bodies.length) : bodies[i]? = some (bodyOf m' (blk + i)) := by
  induction bodies generalizing m blk i with
  | nil => simp at hi
  | cons b r ih =>
    obtain ⟨m1, h1, h2⟩ := bind_eq_ok.1 h
    obtain ⟨-, rfl⟩ := fbWrite_ok.1 h1
    cases i with
    | zero =>
      rw [Nat.add_zero, fbWriteBodies_bodyOf (Nat.lt_succ_self blk) h2, bodyOf_write_same _ _ _ (hlen b (by simp))]
      rfl
    | succ i =>
      rw [List.getElem?_cons_succ, ih (fun c hc => hlen c (by simp [hc])) h2 (by simpa using hi), Nat.add_right_comm]
      rfl

/-- Bodies written behind the data bodies leave these alone. -/
theorem fbWriteBodies_dataBodies (h : fbWriteBodies m Config.dataBlocks bodies = .ok m') : dataBodies m' = dataBodies m :=
  List.map_congr_left fun _ hb => fbWriteBodies_bodyOf (List.mem_range.1 hb) h

end

/-! ### `PACK.FRAME` -/

theorem exec_packFrame {wall : Wall} {s : State} (hl : s.ctl.lifecycle ≠ .stopped) :
    exec (.packFrame wall) s = finish s .done
      (if s.rx.accCount.toNat = frameLength s.rx.frameBps.toNat then packFrame wall s else .error .noStep) :=
  unlessStopped_of_ne hl _

/-! ### The meta body -/

section
variable (b : Bank) (width r : Byte) (wall : Wall)

/-- The bytes of the meta body that its CRC covers (rule R177). -/
def metaHead : List Byte :=
  leBytes 4 (b.freq.toNat / 1000) ++ leBytes 4 (b.srate >>> b.decim.toNat).toNat ++ [width, b.ebits, 128, r] ++
    leBytes 4 wall.sec.toNat ++ leBytes 4 wall.usec.toNat

theorem metaHead_length : (metaHead b width r wall).length = 20 := rfl

theorem metaBuild_eq :
    metaBuild b width r wall =
      metaHead b width r wall ++ leBytes 4 (crc32 (metaHead b width r wall)).toNat ++ List.replicate 484 0 := rfl

/-- The meta body starts with the bytes that its CRC covers. -/
theorem metaBuild_take_head : (metaBuild b width r wall).take 20 = metaHead b width r wall := by
  rw [metaBuild_eq, List.append_assoc]
  exact List.take_left' (metaHead_length b width r wall)

/-- Four bytes hold a `u32`. -/
theorem leNat_leBytes_u32 (x : U32) : leNat (leBytes 4 x.toNat) = x.toNat := by
  rw [leNat_leBytes]
  exact Nat.mod_eq_of_lt x.isLt

/-- Behind its CRC the meta body is zeros. -/
theorem byteAt_metaBuild_zero {k : Nat} (h : 24 ≤ k) : byteAt (metaBuild b width r wall) k = 0 := by
  have hlen : (metaHead b width r wall ++ leBytes 4 (crc32 (metaHead b width r wall)).toNat).length = 24 := by
    rw [List.length_append, metaHead_length, leBytes_length]
  rw [metaBuild_eq, byteAt, List.getD_append_right _ _ _ _ (by omega), hlen, List.getD_eq_getElem?_getD,
    List.getElem?_replicate]
  split <;> rfl

end

end Sys2Proof.Machine

namespace Sys2Proof

open Machine

/-- Settles O35: with `FECBLK` legal every body lies inside `FB`; the parity bodies stand behind the data bodies, so that these
are the ones encoded. -/
theorem packFrameEffect : Obligations.PackFrameEffect := by
  intro wall s hl
  refine ⟨fun hacc => ?_, fun hacc hr => ?_⟩
  · rw [exec_packFrame hl, if_neg hacc, finish_noStep]
    rfl
  intro r
  obtain ⟨t, ht⟩ := packFrame_succeeds wall hr
  obtain ⟨fb, hfb, rfl⟩ := packFrame_ok ht
  have hmeta := metaBuild_length s.cfg.activeRx s.rx.frameBps s.cfg.activeRx.fecblk wall
  generalize metaBuild s.cfg.activeRx s.rx.frameBps s.cfg.activeRx.fecblk wall = head at hfb hmeta
  obtain ⟨hcount, hlen⟩ :=
    fecEncode_bodies (p := s.params) (m := r.toNat) (dataBodies_length (s.rx.fb.write (bodyAddr 0 0) head))
  have hparity := fun i hi => fbWriteBodies_getElem? hlen hfb (i := i) (hcount.symm ▸ hi)
  rw [← fbWriteBodies_dataBodies hfb] at hparity
  refine ⟨fb, ?_, ?_, fun b h1 h127 => ?_, hparity, fun a h508 ha => ?_, fun hwf =>
    fbWriteBodies_wf (Memory.write_wf hwf _ _) hfb⟩
  · rw [exec_packFrame hl, if_pos hacc, ht, finish_ok]
    rfl
  · rw [fbWriteBodies_bodyOf (by decide) hfb, bodyOf_write_same _ _ _ hmeta]
  · rw [fbWriteBodies_bodyOf (by simp only [Config.dataBlocks]; omega) hfb, bodyOf_write_ne _ _ _ _ hmeta (by omega)]
  · rw [fbWriteBodies_get hlen hfb (by rw [hcount]; exact ha)]
    exact Memory.get_write_ne _ _ _ _ (.inr (by rw [hmeta]; exact h508))

/-- Settles O36: the head of the meta body field by field, its CRC, and the zeros behind it; the example is evaluated. -/
theorem metaBuildLayout : Obligations.MetaBuildLayout := by
  refine ⟨fun b width r wall => ?_, by decide +kernel⟩
  intro m
  have hfreq : m.take 4 = leBytes 4 (b.freq.toNat / 1000) := rfl
  have hsrate : (m.drop 4).take 4 = leBytes 4 (b.srate >>> b.decim.toNat).toNat := rfl
  have hsec : (m.drop 12).take 4 = leBytes 4 wall.sec.toNat := rfl
  have husec : (m.drop 16).take 4 = leBytes 4 wall.usec.toNat := rfl
  have hcrc : (m.drop 20).take 4 = leBytes 4 (crc32 (metaHead b width r wall)).toNat := rfl
  have hhead : m.take 20 = metaHead b width r wall := metaBuild_take_head b width r wall
  refine ⟨metaBuild_length b width r wall, ?_, ?_, rfl, rfl, rfl, rfl, ?_, ?_, ?_,
    fun k hk _ => byteAt_metaBuild_zero b width r wall hk, fun _ => rfl⟩
  · exact hfreq ▸ leNat_leBytes 4 _
  · rw [hsrate, leNat_leBytes_u32, BitVec.toNat_ushiftRight, Nat.shiftRight_eq_div_pow]
  · rw [hsec, leNat_leBytes_u32]
  · rw [husec, leNat_leBytes_u32]
  · rw [hcrc, hhead, leNat_leBytes_u32]

end Sys2Proof
end

section
/-! PROOFS. The arms of the Rx worker (O38, rules R171, R303). -/

namespace Sys2Proof.Machine

section
variable {now : U64} {wall : Wall} {s : State}

theorem workerRuns_iff : workerRuns s = true ↔ s.ctl.lifecycle = .streaming ∨ s.ctl.lifecycle = .draining := by
  simp [workerRuns]

theorem exec_rxwStep : exec (.rxwStep now wall) s = finish s .done (rxwStep now wall s) := rfl

/-- Before `CTL.START` and in `Stopped` the worker takes no step. -/
theorem rxwStep_outside (hl : s.ctl.lifecycle = .created ∨ s.ctl.lifecycle = .stopped) :
    rxwStep now wall s = .error .noStep := by
  refine if_pos fun hrun => ?_
  rcases workerRuns_iff.1 hrun with h | h <;> simp [h] at hl

/-- A pull takes the oldest vector (rule R133). -/
theorem pullVec_cons {q : QueueId} {v : List Sample} {rest : List (List Sample)} (h : notStarted q s = false)
    (hv : (s.queue q).vecs = v :: rest) :
    pullVec q s = some (overrunRearm q (s.setQueue q { s.queue q with vecs := rest }), v) := by
  simp only [pullVec, h, hv, Bool.false_eq_true, if_false]

/-! ### One equation for each arm, in their order -/

section
variable (hl : s.ctl.lifecycle = .streaming ∨ s.ctl.lifecycle = .draining)
include hl

theorem ne_stopped_of_runs : s.ctl.lifecycle ≠ .stopped := by
  rcases hl with h | h <;> simp [h]

/-- SEND. -/
theorem rxwStep_send (he : s.rx.emitting = true) : rxwStep now wall s = netSend now s := by
  simp [rxwStep, workerRuns_iff.2 hl, he]

/-- PROCESS. -/
theorem rxwStep_process {x : Sample} {rest : List Sample} (he : s.rx.emitting = false) (hc : s.rx.cur = x :: rest) :
    rxwStep now wall s = rxSample x wall { s with rx.cur := rest } := by
  simp [rxwStep, workerRuns_iff.2 hl, he, hc]

/-- PULL. -/
theorem rxwStep_pull {t : State} {v : List Sample} (he : s.rx.emitting = false) (hc : s.rx.cur = [])
    (hv : s.rxq.vecs ≠ []) (hp : pullVec .rxq s = some (t, v)) : rxwStep now wall s = .ok { t with rx.cur := v } := by
  simp [rxwStep, workerRuns_iff.2 hl, he, hc, hv, hp]

/-- END. -/
theorem rxwStep_end (he : s.rx.emitting = false) (hc : s.rx.cur = []) (hv : s.rxq.vecs = [])
    (hend : s.rxq.ended = true ∨ s.ctl.lifecycle = .draining) : rxwStep now wall s = .ok (drainTransition s) := by
  simp [rxwStep, workerRuns_iff.2 hl, he, hc, hv, hend]

/-- With `RXQ` empty and open the worker waits. -/
theorem rxwStep_waits (he : s.rx.emitting = false) (hc : s.rx.cur = []) (hv : s.rxq.vecs = [])
    (hend : ¬(s.rxq.ended = true ∨ s.ctl.lifecycle = .draining)) : rxwStep now wall s = .error .noStep := by
  simp [rxwStep, workerRuns_iff.2 hl, he, hc, hv, hend]

end

end

end Sys2Proof.Machine

namespace Sys2Proof

open Machine

/-- Settles O38: the equation of each arm; SEND and PROCESS are the operations offered alone, which neither the lifecycle nor, for
a sample with no frame to send, anything else makes wait. -/
theorem rxWorkerArms : Obligations.RxWorkerArms := by
  intro now wall s
  refine ⟨fun hl => ⟨fun he => ?send, fun x rest he hc => ?process, fun v rest he hc hv => ?pull,
    fun he hc hv hend => ?drain, fun he hc hv hopen hrun => ?wait⟩, fun hl => ?outside⟩
  case send =>
    rw [exec_rxwStep, rxwStep_send hl he]
    exact (unlessStopped_of_ne (ne_stopped_of_runs hl) _).symm
  case process =>
    rw [exec_rxwStep, rxwStep_process hl he hc, exec_rxSample (s := { s with rx.cur := rest }) (ne_stopped_of_runs hl)]
    exact finish_of_proceeds (rxSample_proceeds (s := { s with rx.cur := rest }) he) _ _ _
  case pull =>
    have hstarted := notStarted_rxq s
    refine ⟨_, exec_sbPull_cons hstarted hv, rfl, ?_⟩
    rw [exec_rxwStep, rxwStep_pull hl he hc (by simp [hv]) (pullVec_cons hstarted hv)]
    rfl
  case drain =>
    rw [exec_rxwStep, rxwStep_end hl he hc hv hend]
    rfl
  case wait =>
    rw [exec_rxwStep, rxwStep_waits hl he hc hv (by simp [hopen, hrun])]
    rfl
  case outside =>
    rw [exec_rxwStep, rxwStep_outside hl]
    rfl

end Sys2Proof
end

section
/-! PROOFS. Behind an accepted arrival no complete frame waits at `tx_base` (O57, rules R200 line 11, R207, R208(c)). -/

namespace Sys2Proof.Machine

section
variable {s t : State}

/-- The frame at `tx_base` is a matter of the window and its base alone. -/
theorem headIncomplete_congr (hw : t.tx.win = s.tx.win) (hb : t.tx.base = s.tx.base) (hs : s.headIncomplete) :
    t.headIncomplete := by
  unfold State.headIncomplete
  rw [hw, hb]
  exact hs

/-- Line 11 of rule R200 ends with no complete frame at `tx_base`: each retirement shortens the window. -/
theorem deliverComplete_headIncomplete {n : Nat} (hn : s.tx.win.length ≤ n) (h : deliverComplete n s = .ok t) :
    t.headIncomplete := by
  induction n generalizing s with
  | zero =>
    have hempty : s.tx.win = [] := List.length_eq_zero_iff.1 (Nat.le_zero.1 hn)
    cases h
    intro e he
    simp [hempty, winFind] at he
  | succ n ih =>
    by_cases hh : s.headIncomplete
    · rw [deliverComplete_of_incomplete hh] at h
      cases h
      exact hh
    rw [deliverComplete, if_pos (Option.isSome_iff_ne_none.2 fun h0 => hh (headEntry_eq_none_iff.1 h0))] at h
    obtain ⟨u, hu, h⟩ := bind_eq_ok.1 h
    exact ih (Nat.le_of_lt_succ (Nat.lt_of_lt_of_le (txRetire_win_length hh hu) hn)) h

/-- An accepted block that is not late leaves no complete frame at `tx_base`. -/
theorem acceptBlock_headIncomplete {f : U16} {b : Nat} {body : List Byte} (hd : dist f s.tx.base < 32768)
    (h : acceptBlock f b body s = .ok t) : t.headIncomplete := by
  rcases acceptBlock_ok h with ⟨hlate, -⟩ | ⟨-, u, v, -, -, h⟩
  · exact absurd hd (Nat.not_lt.2 hlate)
  · exact deliverComplete_headIncomplete (Nat.le_refl _) h

/-- A datagram is accepted: the right length, and a block of a frame that is not behind (rules R200, R202 to R204). -/
structure Accepts (d : List Byte) (s : State) : Prop where
  length : d.length = 512
  index : (byteAt d 2).toNat < 128 + s.cfg.activeTx.fecblk.toNat
  ahead : s.tx.synced = true → dist (le16 d 0) s.tx.base < 32768

/-- An arrival that is accepted leaves no complete frame at `tx_base`, and any other leaves the window and its base alone. -/
theorem netRecv_head {d : List Byte} (h : netRecv d s = .ok t) :
    (Accepts d (txAdopt s) → t.headIncomplete) ∧ (s.headIncomplete → t.headIncomplete) := by
  have hadopt : s.headIncomplete → (txAdopt s).headIncomplete :=
    headIncomplete_congr (txAdopt_tx_win s) (txAdopt_tx_base s)
  rcases netRecv_ok h with ⟨hlen, rfl⟩ | ⟨-, hidx, rfl⟩ | ⟨-, -, h⟩
  · exact ⟨fun ha => absurd ha.length hlen, fun hs => headIncomplete_congr rfl rfl (hadopt hs)⟩
  · exact ⟨fun ha => absurd ha.index (Nat.not_lt.2 hidx), fun hs => headIncomplete_congr rfl rfl (hadopt hs)⟩
  generalize txAdopt s = a at h hadopt
  by_cases hy : a.tx.synced = true
  · rw [synchronise_of_synced hy] at h
    refine ⟨fun ha => acceptBlock_headIncomplete (ha.ahead hy) h, fun hs => ?_⟩
    by_cases hd : dist (le16 d 0) a.tx.base < 32768
    · exact acceptBlock_headIncomplete hd h
    · rw [acceptBlock_late (Nat.not_lt.1 hd)] at h
      cases h
      exact headIncomplete_congr rfl rfl (hadopt hs)
  · have hbase : synchronise (le16 d 0) a = a.syncedAt (le16 d 0) := if_neg hy
    rw [hbase] at h
    have ht := acceptBlock_headIncomplete (s := a.syncedAt (le16 d 0)) ((dist_self _).trans_lt (by decide)) h
    exact ⟨fun _ => ht, fun _ => ht⟩

end

end Sys2Proof.Machine

namespace Sys2Proof

open Machine

/-- Settles O57: an arrival that is ignored, waits, is dropped or is late moves nothing in the window, and any other ends with the
complete frames delivered. -/
theorem arrivalLeavesHeadIncomplete : Obligations.ArrivalLeavesHeadIncomplete := by
  intro i d s t hi h
  rw [exec_of_datagram hi] at h
  rcases receive_eq_next h with ⟨-, rfl⟩ | ⟨-, rfl⟩ | ⟨hl, u, hu, rfl⟩
  · exact ⟨id, fun _ _ hr => nomatch hr⟩
  · exact ⟨id, fun _ _ hr => nomatch hr⟩
  obtain ⟨haccepted, hkeeps⟩ := netRecv_head hu
  refine ⟨hkeeps, fun a ha _ hlen hidx hnear => haccepted ?_⟩
  have hadopt : exec .txAdopt s = .next ((txAdopt s).ret .done) := unlessStopped_of_ne (by simp [hl]) _
  cases hadopt.symm.trans ha
  exact ⟨hlen, hidx, hnear _ (le16_toNat d)⟩

end Sys2Proof
end

section
/-! PROOFS. Every arrival is received to the end, and an eviction is `TX.RETIRE` again and again (O44, rules R200, R206, R210,
R211). -/

namespace Sys2Proof.Machine

section
variable {s t u : State} {f : U16} {b : Nat} {body : List Byte}

/-! ### The arrival is performed -/

theorem evict_succeeds (hs : s.canDeliver) (hw : s.WindowSound) (f : U16) (n : Nat) : ∃ t, evict f n s = .ok t := by
  induction n generalizing s with
  | zero => exact ⟨s, rfl⟩
  | succ n ih =>
    unfold evict
    split
    · obtain ⟨u, hu⟩ := txRetire_succeeds hs hw
      obtain ⟨t, ht⟩ := ih (txRetire_canDeliver hs hu) (txRetire_windowSound hw hu)
      exact ⟨t, bind_eq_ok.2 ⟨u, hu, ht⟩⟩
    · exact ⟨s, rfl⟩

/-- Behind an eviction an acceptable block goes on as one at most 4 ahead (rules R200 lines 7 to 11, R206). -/
theorem acceptBlock_of_evict (hd : dist f s.tx.base < 32768) (h : evict f (dist f s.tx.base) s = .ok u) :
    acceptBlock f b body s = storeAndDeliver f b body u := by
  rw [acceptBlock, if_neg (Nat.not_le.2 hd), h]
  rfl

theorem acceptBlock_succeeds (hs : s.canDeliver) (hw : s.WindowSound) (hy : s.tx.synced = true) (f : U16) (hb : b < 255)
    (hlen : body.length = Config.bodyLen) : ∃ t, acceptBlock f b body s = .ok t := by
  by_cases hd : dist f s.tx.base < 32768
  · obtain ⟨u, hu⟩ := evict_succeeds hs hw f (dist f s.tx.base)
    have hnear : dist f u.tx.base ≤ 4 := (evict_dist (Nat.le_refl _) hu).trans_le (Nat.min_le_left _ _)
    obtain ⟨t, -, ht, -⟩ := storeAndDeliver_retiresHead (evict_keeps txRetire_canDeliver hs hu)
      (evict_keeps txRetire_windowSound hw hu) (evict_synced hy hu) hnear hb hlen
    exact ⟨t, (acceptBlock_of_evict hd hu).trans ht⟩
  · exact ⟨_, acceptBlock_late (Nat.not_lt.1 hd) b body⟩

/-- From legal registers and a sound window every byte string is received (rule R200). -/
theorem netRecv_succeeds (hs : s.canDeliver) (hleg : s.banksLegal = true) (hw : s.WindowSound) (d : List Byte) :
    ∃ t, netRecv d s = .ok t := by
  have hfec := txAdopt_fecblk_le hleg
  unfold netRecv
  dsimp only
  split
  · exact ⟨_, rfl⟩
  next hlen =>
  split
  · exact ⟨_, rfl⟩
  next hidx =>
  refine acceptBlock_succeeds ?_ (synchronise_windowSound (txAdopt_windowSound hw) _) (synchronise_synced _ _) _ (by omega)
    (block_body_length (not_not.1 hlen))
  obtain ⟨hl, he, hcap⟩ := hs
  exact ⟨by simp [hl], by simp [he], by simp [hcap]⟩

/-! ### The eviction as a run -/

/-- While the frame is at most 4 ahead nothing is evicted (rule R206). -/
theorem evict_of_near (hd : dist f s.tx.base ≤ 4) (n : Nat) : evict f n s = .ok s := by
  cases n with
  | zero => rfl
  | succ n => exact if_neg (Nat.not_lt.2 hd)

/-- While the frame is more than 4 ahead a retirement brings it one nearer (rule R206). -/
theorem evict_of_far {n : Nat} (hd : 4 < dist f s.tx.base) (h : txRetire s = .ok u) : evict f (n + 1) s = evict f n u := by
  rw [evict, if_pos hd, h]
  rfl

theorem dist_txRetire (hd : 4 < dist f s.tx.base) (h : txRetire s = .ok t) : dist f t.tx.base = dist f s.tx.base - 1 := by
  rw [txRetire_base h]
  exact dist_succ (by omega)

/-- Line 7 of rule R200 is `TX.RETIRE` performed as often as the frame is beyond the fourth ahead. -/
theorem evict_runs {n k : Nat} (hn : dist f s.tx.base ≤ n) (hk : dist f s.tx.base - 4 = k) (hs : s.canDeliver)
    (hw : s.WindowSound) :
    ∃ t v rs, evict f n s = .ok t ∧ runAll (List.replicate k .txRetire) s = some (v, rs) ∧ (∀ r ∈ rs, r = .done) ∧
      v.ret .done = t.ret .done := by
  induction k generalizing s n with
  | zero => exact ⟨s, s, [], evict_of_near (by omega) n, rfl, nofun, rfl⟩
  | succ k ih =>
    obtain ⟨n, rfl⟩ := Nat.exists_eq_add_of_le' (show 1 ≤ n by omega)
    obtain ⟨u, hu⟩ := txRetire_succeeds hs hw
    have hfar : 4 < dist f s.tx.base := by omega
    have hnearer := dist_txRetire hfar hu
    have hcan : u.canDeliver := txRetire_canDeliver hs hu
    obtain ⟨t, v, rs, ht, hrun, hdone, heq⟩ := ih (s := u.ret .done) (n := n) (by rw [State.ret_tx]; omega)
      (by rw [State.ret_tx]; omega) hcan ((txRetire_windowSound hw hu).congr rfl rfl rfl)
    rw [(evict_local f n u).ret .done] at ht
    obtain ⟨t', ht', rfl⟩ := map_eq_ok.1 ht
    exact ⟨t', v, _, (evict_of_far hfar hu).trans ht', runAll_cons (exec_txRetire hs.1 hu) hrun,
      List.forall_mem_cons.2 ⟨rfl, hdone⟩, heq⟩

/-- The base after an eviction, from the distance (rule R11). -/
theorem base_of_dist {g h : U16} (hd : dist f h = min 4 (dist f g)) : h = g + BitVec.ofNat 16 (dist f g - 4) := by
  unfold dist at *
  rcases Nat.le_total 4 (f - g).toNat with hle | hle
  · rw [Nat.min_eq_left hle] at hd
    bv_omega
  · rw [Nat.min_eq_right hle] at hd
    bv_omega

/-- An arrival does not look at the last answer. -/
theorem exec_arrival_ret {i : Instr} {d : List Byte} (hi : i.datagram = some d) (hs : s.flows) (r : Result) :
    exec i (s.ret r) = exec i s := by
  rw [exec_arrival hi hs.1, exec_arrival (s := s.ret r) hi hs.1]
  exact (netRecv_local d s).finish_ret (netRecv_proceeds hs d) s r .done

/-- An acceptable arrival is the arrival after the retirements that it takes (rule R206). -/
theorem exec_arrival_evicts {i : Instr} {d : List Byte} (hi : i.datagram = some d) (h : Acceptable d s)
    (hs : s.canDeliver) (hy : s.tx.synced = true) (hf : le16 d 0 = f) (hd : dist f s.tx.base < 32768)
    (hu : evict f (dist f s.tx.base) s = .ok u) :
    exec i s = exec i u ∧ exec i u = finish u .done (storeAndDeliver f (byteAt d 2).toNat (d.drop 4) u) := by
  have hcfg : u.cfg = s.cfg := evict_keeps (P := fun u => u.cfg = s.cfg) (fun h0 h1 => (txRetire_cfg h1).trans h0) rfl hu
  have hcan : u.canDeliver := evict_keeps txRetire_canDeliver hs hu
  have hacc : Acceptable d u := ⟨by rw [hcfg]; exact h.adopted, h.length, by rw [hcfg]; exact h.index⟩
  have hnear : dist f u.tx.base ≤ 4 := (evict_dist (Nat.le_refl _) hu).trans_le (Nat.min_le_left _ _)
  have hexec := exec_acceptable_near hi hcan.1 hacc hf (evict_synced hy hu) hnear
  refine ⟨?_, hexec⟩
  rw [hexec, exec_acceptable hi hs.1 h hf, synchronise_of_synced hy, acceptBlock_of_evict hd hu]
  refine finish_of_proceeds ?_ _ _ _
  rw [← acceptBlock_near hnear]
  exact acceptBlock_proceeds ⟨hcan.1, hcan.2.2⟩ _ _ _

/-! ### The incomplete frames that are evicted -/

/-- From `s` to `t` `n` frames were lost for their slots, and no entry came into the window (rules R210, R211). -/
structure LosesFrames (n : Nat) (s t : State) : Prop where
  insuff : t.cnt.insuff = s.cnt.insuff + BitVec.ofNat 32 n
  lost : t.cnt.lost = s.cnt.lost + BitVec.ofNat 32 n
  win : t.tx.win ⊆ s.tx.win

theorem LosesFrames.trans {m n : Nat} (h : LosesFrames m s t) (k : LosesFrames n t u) : LosesFrames (m + n) s u where
  insuff := by rw [k.insuff, h.insuff, BitVec.ofNat_add, BitVec.add_assoc]
  lost := by rw [k.lost, h.lost, BitVec.ofNat_add, BitVec.add_assoc]
  win := List.Subset.trans k.win h.win

/-- A delivery counts no lost frame. -/
theorem deliver_losses {v : List Sample} (h : deliver v s = .ok t) : t.cnt.insuff = s.cnt.insuff ∧ t.cnt.lost = s.cnt.lost := by
  obtain ⟨hpush, -⟩ := deliver_ok h
  obtain ⟨-, -, -, -, ⟨-, rfl⟩ | ⟨-, rfl⟩⟩ := pushVec_ok hpush
  · exact ⟨rfl, rfl⟩
  · rcases overrunCheck_cnt .txq ((intProcess v s).1.setQueue .txq
      { (intProcess v s).1.queue .txq with vecs := ((intProcess v s).1.queue .txq).vecs ++ [(intProcess v s).2] }) with h | h <;>
      rw [h] <;> exact ⟨rfl, rfl⟩

theorem txRetire_losesFrame (hh : s.headIncomplete) (h : txRetire s = .ok t) : LosesFrames 1 s t := by
  have hwin : t.tx.win ⊆ s.tx.win := fun e he => (mem_winDrop.1 (txRetire_win h ▸ he)).1
  obtain ⟨u, hu, -, rfl⟩ := txRetire_ok h
  rw [settleHead_of_incomplete hh, loseFrame_eq_deliver] at hu
  obtain ⟨hinsuff, hlost⟩ := deliver_losses hu
  exact ⟨hinsuff, hlost, hwin⟩

/-- A window without a complete frame has none at `tx_base`. -/
theorem headIncomplete_of_win (h : ∀ e ∈ s.tx.win, e.count < 128) : s.headIncomplete :=
  fun e he => h e (winFind_some he).1

/-- Incomplete frames that are evicted are counted lost one by one (rule R206). -/
theorem evict_losesFrames {n k : Nat} (hn : dist f s.tx.base ≤ n) (hk : dist f s.tx.base - 4 = k)
    (hc : ∀ e ∈ s.tx.win, e.count < 128) (h : evict f n s = .ok t) : LosesFrames k s t := by
  induction k generalizing s n with
  | zero =>
    rw [evict_of_near (by omega)] at h
    cases h
    exact ⟨by simp, by simp, List.Subset.refl _⟩
  | succ k ih =>
    obtain ⟨n, rfl⟩ := Nat.exists_eq_add_of_le' (show 1 ≤ n by omega)
    have hfar : 4 < dist f s.tx.base := by omega
    rw [evict, if_pos hfar] at h
    obtain ⟨u, hu, h⟩ := bind_eq_ok.1 h
    have hnearer := dist_txRetire hfar hu
    have hone := txRetire_losesFrame (headIncomplete_of_win hc) hu
    rw [Nat.add_comm]
    exact hone.trans (ih (by omega) (by omega) (fun e he => hc e (hone.win he)) h)

/-- The first block of a frame in a window without complete frames is stored, and nothing is delivered. -/
theorem storeAndDeliver_first (hc : ∀ e ∈ s.tx.win, e.count < 128 ∧ e.fidx ≠ f) (hb : b < 255)
    (hlen : body.length = Config.bodyLen) : storeAndDeliver f b body s = .ok (s.withBody f b body) := by
  have hnone : winFind s.tx.win f = none := List.find?_eq_none.2 fun e he => by simpa using (hc e he).2
  have hempty : s.entryOf f = WinEntry.empty f := by rw [State.entryOf, hnone]; rfl
  refine storeAndDeliver_of_free (headIncomplete_of_win fun e he => (hc e he).1) ?_ hb hlen (.inr ?_) <;> rw [hempty]
  · exact List.not_mem_nil
  · exact (by decide : 0 + 1 < 128)

end

end Sys2Proof.Machine

namespace Sys2Proof

open Machine

/-- Settles O44: no part of the arrival waits or is refused; line 7 of rule R200 is a run of `TX.RETIRE`, each of which, on an
incomplete frame, counts one loss. -/
theorem arrivalTotal : Obligations.ArrivalTotal := by
  intro i d s hi hs hleg hwin
  have hw := windowSound_iff.1 hwin
  obtain ⟨t, ht⟩ := netRecv_succeeds hs hleg hw d
  have hexec : exec i s = .next (t.ret .done) := by rw [exec_arrival hi hs.1, ht, finish_ok]
  refine ⟨t.ret .done, hexec, rfl, fun hlen hidx hseq hy f hf hd => ?_⟩
  have hacc : Acceptable d s := ⟨hseq, hlen, hidx⟩
  obtain ⟨u, v, rs, hu, hrun, hdone, hvu⟩ := evict_runs (f := f) (Nat.le_refl _) rfl hs hw
  obtain ⟨hsu, hstore⟩ := exec_arrival_evicts hi hacc hs hy (le16_eq_of_toNat hf) hd hu
  have hdist := evict_dist (Nat.le_refl _) hu
  have hbase := base_of_dist hdist
  have hvtx : v.tx = u.tx := congrArg (·.tx) hvu
  refine ⟨⟨v, rs, hrun, hdone, hvtx ▸ hbase, hvtx ▸ hdist, ?_⟩, fun hc => ?_⟩
  · have hcan : u.canDeliver := evict_keeps txRetire_canDeliver hs hu
    have hflows : u.flows := ⟨hcan.1, hcan.2.2⟩
    have hvflows : v.flows := hflows.congr (congrArg (·.ctl) hvu) (congrArg (·.params) hvu)
    rw [hsu, ← exec_arrival_ret hi hflows .done, ← hvu, exec_arrival_ret hi hvflows]
  · have hlost := evict_losesFrames (Nat.le_refl _) rfl (fun e he => (hc e he).1) hu
    obtain ⟨-, -, htx, -⟩ := banksLegal_iff.1 hleg
    have hfec := (Bank.legal_iff.1 htx).1
    rw [storeAndDeliver_first (fun e he => hc e (hlost.win he)) (by omega) (block_body_length hlen), finish_ok] at hstore
    have ht := Host.Outcome.next.inj (hexec.symm.trans (hsu.trans hstore))
    rw [ht]
    exact ⟨hbase, hlost.insuff, hlost.lost⟩

end Sys2Proof
end

section
/-! PROOFS. The field of the erasure code (rule R241): the product is bilinear, and that of the default polynomial is the product of
a field of 256 elements. -/

namespace Sys2Proof.Machine

/-! ### The product is bilinear -/

/-- `a` times `x`, reduced (rule R241). -/
def timesX (red a : Byte) : Byte := if a.getLsbD 7 then (a <<< 1) ^^^ red else a <<< 1

theorem byte_xor_zero (a : Byte) : a ^^^ 0 = a := BitVec.xor_zero

theorem byte_zero_xor (a : Byte) : 0 ^^^ a = a := BitVec.zero_xor

theorem byte_xor_self (a : Byte) : a ^^^ a = 0 := BitVec.xor_self

theorem timesX_xor (red a b : Byte) : timesX red (a ^^^ b) = timesX red a ^^^ timesX red b := by
  unfold timesX
  rw [BitVec.getLsbD_xor, BitVec.shiftLeft_xor_distrib]
  generalize a <<< 1 = x, b <<< 1 = y
  cases a.getLsbD 7 <;> cases b.getLsbD 7
  · rfl
  · exact BitVec.xor_assoc _ _ _
  · change x ^^^ y ^^^ red = x ^^^ red ^^^ y
    ac_rfl
  · calc x ^^^ y = x ^^^ y ^^^ (red ^^^ red) := by rw [byte_xor_self, byte_xor_zero]
      _ = (x ^^^ red) ^^^ (y ^^^ red) := by ac_rfl

/-- One bit of the product loop. -/
theorem gmulLoop_succ (red : Byte) (n : Nat) (a b acc : Byte) :
    gmulLoop red (n + 1) a b acc =
      gmulLoop red n (timesX red a) (b >>> 1) (if b.getLsbD 0 then acc ^^^ a else acc) := rfl

theorem gmulLoop_acc (red : Byte) (n : Nat) (a b acc : Byte) :
    gmulLoop red n a b acc = acc ^^^ gmulLoop red n a b 0 := by
  induction n generalizing a b acc with
  | zero => exact (byte_xor_zero acc).symm
  | succ n ih =>
    simp only [gmulLoop_succ]
    split
    · rw [ih _ _ (acc ^^^ a), ih _ _ (0 ^^^ a), byte_zero_xor, BitVec.xor_assoc]
    · exact ih _ _ acc

/-- The lowest bit of `b` adds `a`, and the others go on with `a` times `x` (rule R241). -/
theorem gmulLoop_zero_succ (red : Byte) (n : Nat) (a b : Byte) :
    gmulLoop red (n + 1) a b 0 =
      (if b.getLsbD 0 then a else 0) ^^^ gmulLoop red n (timesX red a) (b >>> 1) 0 := by
  rw [gmulLoop_succ, gmulLoop_acc, byte_zero_xor]

theorem gmulLoop_xor_left (red : Byte) (n : Nat) (a a' b : Byte) :
    gmulLoop red n (a ^^^ a') b 0 = gmulLoop red n a b 0 ^^^ gmulLoop red n a' b 0 := by
  induction n generalizing a a' b with
  | zero => exact (byte_xor_self 0).symm
  | succ n ih =>
    have hlow : (if b.getLsbD 0 then a ^^^ a' else 0) =
        (if b.getLsbD 0 then a else 0) ^^^ (if b.getLsbD 0 then a' else 0) := by
      cases b.getLsbD 0
      · exact (byte_xor_self 0).symm
      · rfl
    rw [gmulLoop_zero_succ, gmulLoop_zero_succ, gmulLoop_zero_succ, timesX_xor, ih, hlow]
    ac_rfl

theorem gmulLoop_xor_right (red : Byte) (n : Nat) (a b b' : Byte) :
    gmulLoop red n a (b ^^^ b') 0 = gmulLoop red n a b 0 ^^^ gmulLoop red n a b' 0 := by
  induction n generalizing a b b' with
  | zero => exact (byte_xor_self 0).symm
  | succ n ih =>
    have hlow : (if (b ^^^ b').getLsbD 0 then a else 0) =
        (if b.getLsbD 0 then a else 0) ^^^ (if b'.getLsbD 0 then a else 0) := by
      rw [BitVec.getLsbD_xor]
      cases b.getLsbD 0 <;> cases b'.getLsbD 0
      · exact (byte_xor_self 0).symm
      · exact (byte_zero_xor a).symm
      · exact (byte_xor_zero a).symm
      · exact (byte_xor_self a).symm
    rw [gmulLoop_zero_succ, gmulLoop_zero_succ, gmulLoop_zero_succ, BitVec.ushiftRight_xor_distrib, ih, hlow]
    ac_rfl

section
variable (p : Params)

theorem gmul_xor_left (a a' b : Byte) : gmul p (a ^^^ a') b = gmul p a b ^^^ gmul p a' b :=
  gmulLoop_xor_left _ _ _ _ _

theorem gmul_xor_right (a b b' : Byte) : gmul p a (b ^^^ b') = gmul p a b ^^^ gmul p a b' :=
  gmulLoop_xor_right _ _ _ _ _

theorem gmul_zero (a : Byte) : gmul p a 0 = 0 := by
  have h := gmul_xor_right p a 0 0
  rwa [byte_xor_self, byte_xor_self] at h

theorem zero_gmul (a : Byte) : gmul p 0 a = 0 := by
  have h := gmul_xor_left p 0 0 a
  rwa [byte_xor_self, byte_xor_self] at h

end

/-! ### The codec depends on the polynomial alone -/

section
variable {p q : Params}

theorem gmul_congr (h : p.gfPoly = q.gfPoly) : gmul p = gmul q := by
  unfold gmul reduction
  rw [h]

theorem gpowSquares_congr (h : p.gfPoly = q.gfPoly) (n : Nat) (a acc : Byte) :
    gpowSquares p n a acc = gpowSquares q n a acc := by
  induction n generalizing a acc with
  | zero => rfl
  | succ n ih => rw [gpowSquares, gpowSquares, gmul_congr h, ih]

theorem ginv_congr (h : p.gfPoly = q.gfPoly) (a : Byte) : ginv p a = ginv q a := by
  unfold ginv
  rw [gpowSquares_congr h]

theorem combine_congr (h : p.gfPoly = q.gfPoly) (i : Nat) (l : List (Nat × List Byte)) (acc : List Byte) :
    combine p i l acc = combine q i l acc := by
  induction l generalizing acc with
  | nil => rfl
  | cons x r ih => rw [combine, combine, scaleBytes, scaleBytes, gmul_congr h, cauchy, cauchy, ginv_congr h, ih]

theorem fecEncode_congr (h : p.gfPoly = q.gfPoly) (data : List (List Byte)) (m : Nat) :
    fecEncode p data m = fecEncode q data m :=
  List.map_congr_left fun i _ => combine_congr h i _ _

end

/-! ### The field of the default polynomial -/

/-- The bytes with a single bit set span all bytes. -/
theorem byte_eq_xor_bits : ∀ a : Byte,
    a = xorAll ((List.range 8).map fun k => if a.getLsbD k then 1 <<< k else 0) := by
  decide +kernel

/-- What holds for 0 and the bytes with a single bit set and is closed under exclusive-or holds for every byte. -/
theorem byte_induction {P : Byte → Prop} (h0 : P 0) (hbit : ∀ k < 8, P (1 <<< k)) (hxor : ∀ a b, P a → P b → P (a ^^^ b))
    (a : Byte) : P a := by
  have hall : ∀ (l : List Byte) (acc : Byte), P acc → (∀ x ∈ l, P x) → P (l.foldl (fun a b => a ^^^ b) acc) := by
    intro l
    induction l with
    | nil => exact fun _ hacc _ => hacc
    | cons x r ih => exact fun acc hacc hl => ih _ (hxor _ _ hacc (hl x (by simp))) fun y hy => hl y (by simp [hy])
  rw [byte_eq_xor_bits a]
  refine hall _ 0 h0 fun x hx => ?_
  obtain ⟨k, hk, rfl⟩ := List.mem_map.1 hx
  split
  · exact hbit k (List.mem_range.1 hk)
  · exact h0

section
variable {p : Params} (hp : p.gfPoly = 0x14D)
include hp

theorem gmul_eq_default : gmul p = gmul Params.default := gmul_congr hp

theorem gmul_comm (a b : Byte) : gmul p a b = gmul p b a := by
  have hbits : ∀ i < 8, ∀ j < 8, gmul Params.default (1 <<< i) (1 <<< j) = gmul Params.default (1 <<< j) (1 <<< i) := by
    decide +kernel
  rw [gmul_eq_default hp]
  induction a using byte_induction with
  | h0 => rw [gmul_zero, zero_gmul]
  | hxor a a' ha ha' => rw [gmul_xor_left, gmul_xor_right, ha, ha']
  | hbit i hi =>
    induction b using byte_induction with
    | h0 => rw [gmul_zero, zero_gmul]
    | hxor b b' hb hb' => rw [gmul_xor_left, gmul_xor_right, hb, hb']
    | hbit j hj => exact hbits i hi j hj

theorem gmul_assoc (a b c : Byte) : gmul p (gmul p a b) c = gmul p a (gmul p b c) := by
  have hbits : ∀ i < 8, ∀ j < 8, ∀ k < 8,
      gmul Params.default (gmul Params.default (1 <<< i) (1 <<< j)) (1 <<< k) =
        gmul Params.default (1 <<< i) (gmul Params.default (1 <<< j) (1 <<< k)) := by
    decide +kernel
  rw [gmul_eq_default hp]
  induction a using byte_induction with
  | h0 => simp only [zero_gmul]
  | hxor a a' ha ha' => rw [gmul_xor_left, gmul_xor_left, gmul_xor_left, ha, ha']
  | hbit i hi =>
    induction b using byte_induction with
    | h0 => simp only [zero_gmul, gmul_zero]
    | hxor b b' hb hb' => rw [gmul_xor_right, gmul_xor_left, gmul_xor_left, gmul_xor_right, hb, hb']
    | hbit j hj =>
      induction c using byte_induction with
      | h0 => simp only [gmul_zero]
      | hxor c c' hc hc' => rw [gmul_xor_right, gmul_xor_right, gmul_xor_right, hc, hc']
      | hbit k hk => exact hbits i hi j hj k hk

theorem gmul_one (a : Byte) : gmul p a 1 = a := by
  have hbits : ∀ i < 8, gmul Params.default (1 <<< i) 1 = 1 <<< i := by decide +kernel
  rw [gmul_eq_default hp]
  induction a using byte_induction with
  | h0 => exact zero_gmul _ _
  | hxor a a' ha ha' => rw [gmul_xor_left, ha, ha']
  | hbit i hi => exact hbits i hi

/-- `inv` gives the inverse (rule R241). -/
theorem gmul_ginv {a : Byte} (ha : a ≠ 0) : gmul p a (ginv p a) = 1 := by
  have hall : ∀ a : Byte, a ≠ 0 → gmul Params.default a (gpowSquares Params.default 7 a 1) = 1 := by decide +kernel
  rw [gmul_eq_default hp, ginv_congr (q := Params.default) hp, ginv, if_neg ha]
  exact hall a ha

end

/-- A map of the bytes into a field under which exclusive-or is the sum and `⊗` the product (rule R241). -/
structure FieldCode (p : Params) {K : Type} [Field K] (φ : Byte → K) : Prop where
  inj : Function.Injective φ
  xor : ∀ a b, φ (a ^^^ b) = φ a + φ b
  mul : ∀ a b, φ (gmul p a b) = φ a * φ b
  one : φ 1 = 1
  inv : ∀ a, a ≠ 0 → φ (ginv p a) = (φ a)⁻¹

/-- The bytes are a field under exclusive-or and the product of the default polynomial (rule R241). -/
theorem exists_fieldCode {p : Params} (hp : p.gfPoly = 0x14D) :
    ∃ (K : Type) (_ : Field K) (φ : Byte → K), FieldCode p φ := by
  let field : Field Byte :=
    @Field.ofMinimalAxioms Byte ⟨fun a b => a ^^^ b⟩ ⟨gmul p⟩ ⟨id⟩ ⟨fun a => if a = 0 then 0 else ginv p a⟩ ⟨0⟩ ⟨1⟩
      BitVec.xor_assoc (fun _ => BitVec.zero_xor) (fun _ => BitVec.xor_self) (gmul_assoc hp) (gmul_comm hp)
      (fun a => (gmul_comm hp 1 a).trans (gmul_one hp a))
      (fun a ha => (congrArg (gmul p a) (if_neg ha)).trans (gmul_ginv hp ha)) (if_pos rfl) (gmul_xor_right p)
      ⟨0, 1, by decide⟩
  exact ⟨Byte, field, id, Function.injective_id, fun _ _ => rfl, fun _ _ => rfl, rfl, fun a ha => (if_neg ha).symm⟩

namespace FieldCode

variable {p : Params} {K : Type} [Field K] {φ : Byte → K}

theorem zero (h : FieldCode p φ) : φ 0 = 0 := by
  have h0 := h.xor 0 0
  rw [byte_xor_self] at h0
  exact left_eq_add.1 h0

theorem eq_zero_iff (h : FieldCode p φ) {a : Byte} : φ a = 0 ↔ a = 0 := by
  rw [← h.zero]
  exact h.inj.eq_iff

/-- Every element is its own negative. -/
theorem add_self (h : FieldCode p φ) (x : K) : x + x = 0 := by
  have htwo : (1 : K) + 1 = 0 := by rw [← h.one, ← h.xor, byte_xor_self, h.zero]
  calc x + x = x * (1 + 1) := by ring
    _ = 0 := by rw [htwo, mul_zero]

theorem sub_eq_add (h : FieldCode p φ) (x y : K) : x - y = x + y := by
  rw [sub_eq_iff_eq_add, add_assoc, h.add_self, add_zero]

end FieldCode

end Sys2Proof.Machine
end

section
/-! PROOFS. The elimination of rule R248: from rows that a solution satisfies and that determine it, it gives the solution. -/

namespace Sys2Proof.Machine

/-! ### Bytes of combined bodies -/

/-- `XOR` of two bodies, byte by byte. -/
theorem byteAt_xorBytes {a b : List Byte} (h : a.length = b.length) (k : Nat) :
    byteAt (xorBytes a b) k = byteAt a k ^^^ byteAt b k := by
  simp only [byteAt, xorBytes, List.getD_eq_getElem?_getD, List.getElem?_zipWith]
  by_cases hk : k < a.length
  · simp [List.getElem?_eq_getElem hk, List.getElem?_eq_getElem (h ▸ hk)]
  · have ha : a[k]? = none := List.getElem?_eq_none (Nat.not_lt.1 hk)
    have hb : b[k]? = none := List.getElem?_eq_none (h ▸ Nat.not_lt.1 hk)
    rw [ha, hb]
    exact (byte_xor_self 0).symm

/-- A body times a coefficient, byte by byte. -/
theorem byteAt_map_gmul (p : Params) (c : Byte) (b : List Byte) (k : Nat) :
    byteAt (b.map (gmul p c)) k = gmul p c (byteAt b k) := by
  simp only [byteAt, List.getD_eq_getElem?_getD, List.getElem?_map]
  cases b[k]? with
  | none => exact (gmul_zero p c).symm
  | some x => rfl

theorem byteAt_scaleBytes (p : Params) (c : Byte) (b : List Byte) (k : Nat) :
    byteAt (scaleBytes p c b) k = gmul p c (byteAt b k) := byteAt_map_gmul p c b k

/-- Bodies of one length with the same bytes are one body. -/
theorem bytes_ext {a b : List Byte} (hl : a.length = b.length) (h : ∀ k, byteAt a k = byteAt b k) : a = b := by
  refine List.ext_getElem hl fun k ha hb => ?_
  have hk := h k
  simpa [byteAt, List.getD_eq_getElem?_getD, ha, hb] using hk

/-! ### Rows -/

section
variable {p : Params} {K : Type} [Field K] (φ : Byte → K)

/-- What the coefficients of a row make of values for the `n` unknowns. -/
def FecRow.apply (n : Nat) (z : Nat → K) (r : FecRow) : K := ∑ c ∈ Finset.range n, φ (byteAt r.coef c) * z c

/-- A row of `n` coefficients that the bodies `x` satisfy, byte by byte. -/
structure FecRow.Satisfied (n : Nat) (x : Nat → List Byte) (r : FecRow) : Prop where
  coefs : r.coef.length = n
  body : r.body.length = Config.bodyLen
  sum : ∀ k, r.apply φ n (fun c => φ (byteAt (x c) k)) = φ (byteAt r.body k)

variable {φ} {n : Nat} {z : Nat → K} {x : Nat → List Byte} {r pivot : FecRow}

theorem FecRow.apply_scale (h : FieldCode p φ) (a : Byte) : (r.scale p a).apply φ n z = φ a * r.apply φ n z := by
  unfold FecRow.apply
  rw [Finset.mul_sum]
  refine Finset.sum_congr rfl fun c _ => ?_
  rw [FecRow.scale, byteAt_map_gmul, h.mul, mul_assoc]

/-- The coefficients of an eliminated row. -/
theorem FecRow.byteAt_eliminate (hl : r.coef.length = pivot.coef.length) (c j : Nat) :
    byteAt (FecRow.eliminate p c pivot r).coef j =
      byteAt r.coef j ^^^ gmul p (byteAt r.coef c) (byteAt pivot.coef j) := by
  rw [FecRow.eliminate, byteAt_xorBytes (by simpa using hl), byteAt_map_gmul]

theorem FecRow.apply_eliminate (h : FieldCode p φ) (hl : r.coef.length = pivot.coef.length) (c : Nat) :
    (FecRow.eliminate p c pivot r).apply φ n z = r.apply φ n z + φ (byteAt r.coef c) * pivot.apply φ n z := by
  unfold FecRow.apply
  rw [Finset.mul_sum, ← Finset.sum_add_distrib]
  refine Finset.sum_congr rfl fun j _ => ?_
  rw [FecRow.byteAt_eliminate hl, h.xor, h.mul]
  ring

theorem FecRow.Satisfied.scale (h : FieldCode p φ) (hr : r.Satisfied φ n x) (a : Byte) :
    (r.scale p a).Satisfied φ n x where
  coefs := by simpa [FecRow.scale] using hr.coefs
  body := by simpa [FecRow.scale] using hr.body
  sum k := by rw [FecRow.apply_scale h, hr.sum, FecRow.scale, byteAt_scaleBytes, h.mul]

theorem FecRow.Satisfied.eliminate (h : FieldCode p φ) (hr : r.Satisfied φ n x) (hp : pivot.Satisfied φ n x) (c : Nat) :
    (FecRow.eliminate p c pivot r).Satisfied φ n x where
  coefs := by simp [FecRow.eliminate, hr.coefs, hp.coefs]
  body := by simp [FecRow.eliminate, hr.body, hp.body]
  sum k := by
    have hl : r.body.length = (scaleBytes p (byteAt r.coef c) pivot.body).length := by simp [hr.body, hp.body]
    rw [FecRow.apply_eliminate h (hr.coefs.trans hp.coefs.symm), hr.sum, hp.sum, FecRow.eliminate, byteAt_xorBytes hl,
      byteAt_scaleBytes, h.xor, h.mul]

/-! ### The pivot -/

/-- The pivot is a row whose coefficient is not 0, and the rest are the other rows. -/
theorem pickPivot_some {c : Nat} {todo rest : List FecRow} (h : pickPivot c todo = some (r, rest)) :
    byteAt r.coef c ≠ 0 ∧ ∀ y, y ∈ todo ↔ y = r ∨ y ∈ rest := by
  induction todo generalizing rest with
  | nil => cases h
  | cons w todo ih =>
    rw [pickPivot] at h
    split at h
    · next hw =>
      cases h
      exact ⟨hw, fun y => List.mem_cons⟩
    · obtain ⟨⟨r', rest'⟩, hpick, hw⟩ := Option.map_eq_some_iff.1 h
      cases hw
      obtain ⟨hne, hmem⟩ := ih hpick
      refine ⟨hne, fun y => ?_⟩
      rw [List.mem_cons, List.mem_cons, hmem, or_left_comm]

theorem pickPivot_none {c : Nat} {todo : List FecRow} (h : pickPivot c todo = none) : ∀ y ∈ todo, byteAt y.coef c = 0 := by
  induction todo with
  | nil => exact nofun
  | cons w todo ih =>
    rw [pickPivot] at h
    split at h
    · cases h
    · next hw => exact List.forall_mem_cons.2 ⟨not_not.1 hw, ih (Option.map_eq_none_iff.1 h)⟩

/-! ### The elimination -/

/-- The rows after the elimination of the first `c` columns: row `i` of `solved` is the unit row in these columns, the rows of `todo`
are 0 there, the bodies `x` satisfy them all, and together they have the trivial kernel. -/
structure Eliminated (φ : Byte → K) (n : Nat) (x : Nat → List Byte) (c : Nat) (solved todo : List FecRow) : Prop where
  length : solved.length = c
  satisfied : ∀ r ∈ solved ++ todo, r.Satisfied φ n x
  unit : ∀ i r, solved[i]? = some r → ∀ j < c, byteAt r.coef j = if j = i then 1 else 0
  cleared : ∀ r ∈ todo, ∀ j < c, byteAt r.coef j = 0
  regular : ∀ z : Nat → K, (∀ r ∈ solved ++ todo, r.apply φ n z = 0) → ∀ j < n, z j = 0

section
variable {c : Nat} {solved todo rest : List FecRow}

/-- Where column `c` has no pivot: the combination of the columns before it that it is, as an element of the kernel. -/
def kernelVector (φ : Byte → K) (c : Nat) (solved : List FecRow) (j : Nat) : K :=
  match solved[j]? with
  | some r => φ (byteAt r.coef c)
  | none => if j = c then 1 else 0

theorem kernelVector_of_some {j : Nat} (h : solved[j]? = some r) : kernelVector φ c solved j = φ (byteAt r.coef c) := by
  rw [kernelVector, h]

theorem kernelVector_of_le {j : Nat} (h : solved.length ≤ j) : kernelVector φ c solved j = if j = c then 1 else 0 := by
  rw [kernelVector, List.getElem?_eq_none h]

/-- Row `i` in the kernel: its unit coefficient meets its own coefficient in column `c`, and so does the 1 of column `c`. -/
theorem Eliminated.summand (h : FieldCode p φ) (he : Eliminated φ n x c solved todo) {i : Nat} (hr : solved[i]? = some r)
    (j : Nat) : φ (byteAt r.coef j) * kernelVector φ c solved j =
      (if j = i then φ (byteAt r.coef c) else 0) + if j = c then φ (byteAt r.coef c) else 0 := by
  have hic : i < c := he.length ▸ (List.getElem?_eq_some_iff.1 hr).1
  by_cases hj : j < c
  · obtain ⟨y, hy⟩ : ∃ y, solved[j]? = some y := ⟨_, List.getElem?_eq_getElem (he.length.symm ▸ hj)⟩
    have hunit := he.unit i r hr j hj
    rw [kernelVector_of_some hy, if_neg (Nat.ne_of_lt hj), add_zero, hunit]
    by_cases hji : j = i
    · subst hji
      cases hr.symm.trans hy
      rw [if_pos rfl, if_pos rfl, h.one, one_mul]
    · rw [if_neg hji, if_neg hji, h.zero, zero_mul]
  · rw [kernelVector_of_le (he.length.trans_le (Nat.not_lt.1 hj)), if_neg (show j ≠ i by omega), zero_add]
    split
    · next hjc => rw [hjc, mul_one]
    · exact mul_zero _

/-- In a system with the trivial kernel every column has a pivot. -/
theorem Eliminated.pivot_exists (h : FieldCode p φ) (he : Eliminated φ n x c solved todo) (hc : c < n) :
    pickPivot c todo ≠ none := by
  intro hnone
  have hcol := pickPivot_none hnone
  have hkernel : ∀ r ∈ solved ++ todo, r.apply φ n (kernelVector φ c solved) = 0 := by
    intro r hr
    rcases List.mem_append.1 hr with hr | hr
    · obtain ⟨i, hi⟩ := List.mem_iff_getElem?.1 hr
      have hin : i < n := (he.length ▸ (List.getElem?_eq_some_iff.1 hi).1 : i < c).trans hc
      unfold FecRow.apply
      rw [Finset.sum_congr rfl fun j _ => he.summand h hi j, Finset.sum_add_distrib, Finset.sum_ite_eq',
        Finset.sum_ite_eq', if_pos (Finset.mem_range.2 hin), if_pos (Finset.mem_range.2 hc), h.add_self]
    · refine Finset.sum_eq_zero fun j _ => ?_
      rcases Nat.lt_trichotomy j c with hj | rfl | hj
      · rw [he.cleared r hr j hj, h.zero, zero_mul]
      · rw [hcol r hr, h.zero, zero_mul]
      · rw [kernelVector_of_le (he.length.trans_le hj.le), if_neg (Nat.ne_of_gt hj), mul_zero]
  have hone := he.regular _ hkernel c hc
  rw [kernelVector_of_le he.length.le, if_pos rfl] at hone
  exact one_ne_zero hone

/-- The coefficients of the pivot row once it is scaled: 0 before column `c` and 1 in it. -/
theorem Eliminated.pivot_coef (hp : p.gfPoly = 0x14D) (he : Eliminated φ n x c solved todo) (hr : r ∈ todo)
    (hne : byteAt r.coef c ≠ 0) {j : Nat} (hj : j < c + 1) :
    byteAt (r.scale p (ginv p (byteAt r.coef c))).coef j = if j = c then 1 else 0 := by
  rw [FecRow.scale, byteAt_map_gmul]
  split
  · next hjc => rw [hjc, gmul_comm hp, gmul_ginv hp hne]
  · next hjc => rw [he.cleared r hr j (by omega), gmul_zero]

/-- An eliminated row keeps its coefficients before column `c` and has 0 in it. -/
theorem FecRow.eliminate_coef (hp : p.gfPoly = 0x14D) (hl : r.coef.length = pivot.coef.length)
    (hpivot : ∀ j < c + 1, byteAt pivot.coef j = if j = c then 1 else 0) {j : Nat} (hj : j < c + 1) :
    byteAt (FecRow.eliminate p c pivot r).coef j = if j = c then 0 else byteAt r.coef j := by
  rw [FecRow.byteAt_eliminate hl, hpivot j hj]
  split
  · next hjc => rw [hjc, gmul_one hp, byte_xor_self]
  · rw [gmul_zero, byte_xor_zero]

/-- One column is eliminated (rule R248). -/
theorem Eliminated.step (hp : p.gfPoly = 0x14D) (h : FieldCode p φ) (he : Eliminated φ n x c solved todo)
    (hpick : pickPivot c todo = some (r, rest)) :
    let pivot := r.scale p (ginv p (byteAt r.coef c))
    Eliminated φ n x (c + 1) (solved.map (FecRow.eliminate p c pivot) ++ [pivot])
      (rest.map (FecRow.eliminate p c pivot)) := by
  intro pivot
  obtain ⟨hne, hmem⟩ := pickPivot_some hpick
  have hr : r ∈ todo := (hmem r).2 (.inl rfl)
  have hpivotSat : pivot.Satisfied φ n x := (he.satisfied r (List.mem_append_right _ hr)).scale h _
  have hpivot : ∀ j < c + 1, byteAt pivot.coef j = if j = c then 1 else 0 := fun j hj => he.pivot_coef hp hr hne hj
  have hold : ∀ y ∈ solved ++ rest, y.Satisfied φ n x := fun y hy => he.satisfied y <| by
    rcases List.mem_append.1 hy with hy | hy
    · exact List.mem_append_left _ hy
    · exact List.mem_append_right _ ((hmem y).2 (.inr hy))
  have hcoef : ∀ y ∈ solved ++ rest, ∀ j < c + 1,
      byteAt (FecRow.eliminate p c pivot y).coef j = if j = c then 0 else byteAt y.coef j := fun y hy j hj =>
    FecRow.eliminate_coef hp ((hold y hy).coefs.trans hpivotSat.coefs.symm) hpivot hj
  refine ⟨by simp [he.length], fun y hy => ?satisfied, fun i y hy j hj => ?unit, fun y hy j hj => ?cleared,
    fun z hz => he.regular z fun y hy => ?regular⟩
  case satisfied =>
    simp only [List.append_assoc, List.mem_append, List.mem_map, List.mem_cons, List.not_mem_nil, or_false] at hy
    rcases hy with ⟨w, hw, rfl⟩ | rfl | ⟨w, hw, rfl⟩
    · exact (hold w (List.mem_append_left _ hw)).eliminate h hpivotSat c
    · exact hpivotSat
    · exact (hold w (List.mem_append_right _ hw)).eliminate h hpivotSat c
  case unit =>
    by_cases hi : i < c
    · rw [List.getElem?_append_left (by simpa [he.length] using hi), List.getElem?_map] at hy
      obtain ⟨w, hw, rfl⟩ := Option.map_eq_some_iff.1 hy
      rw [hcoef w (List.mem_append_left _ (List.mem_of_getElem? hw)) j hj]
      split
      · next hjc => rw [if_neg (by omega)]
      · next hjc => exact he.unit i w hw j (by omega)
    · have hlast := (List.getElem?_eq_some_iff.1 hy).1
      simp only [List.length_append, List.length_map, he.length, List.length_cons, List.length_nil] at hlast
      obtain rfl : i = c := by omega
      rw [List.getElem?_append_right (by simp [he.length])] at hy
      simp only [List.length_map, he.length, Nat.sub_self, List.getElem?_cons_zero, Option.some.injEq] at hy
      rw [← hy]
      exact hpivot j hj
  case cleared =>
    obtain ⟨w, hw, rfl⟩ := List.mem_map.1 hy
    rw [hcoef w (List.mem_append_right _ hw) j hj]
    split
    · rfl
    · next hjc => exact he.cleared w ((hmem w).2 (.inr hw)) j (by omega)
  case regular =>
    have hzero : pivot.apply φ n z = 0 := hz pivot (by simp)
    have hother : ∀ w ∈ solved ++ rest, w.apply φ n z = 0 := fun w hw => by
      have hw0 := hz (FecRow.eliminate p c pivot w) (by
        rcases List.mem_append.1 hw with hw | hw
        · exact List.mem_append_left _ (List.mem_append_left _ (List.mem_map_of_mem hw))
        · exact List.mem_append_right _ (List.mem_map_of_mem hw))
      rwa [FecRow.apply_eliminate h ((hold w hw).coefs.trans hpivotSat.coefs.symm), hzero, mul_zero, add_zero] at hw0
    rcases List.mem_append.1 hy with hy | hy
    · exact hother y (List.mem_append_left _ hy)
    · rcases (hmem y).1 hy with rfl | hy
      · rw [FecRow.apply_scale h, h.inv _ hne] at hzero
        exact (mul_eq_zero.1 hzero).resolve_left (inv_ne_zero fun h0 => hne (h.eq_zero_iff.1 h0))
      · exact hother y (List.mem_append_right _ hy)

/-- The elimination of the columns that are left completes, with a unit row for every unknown. -/
theorem Eliminated.eliminate (hp : p.gfPoly = 0x14D) (h : FieldCode p φ) {m : Nat} (hm : c + m = n)
    (he : Eliminated φ n x c solved todo) :
    ∃ done todo', Machine.eliminate p m c solved todo = some done ∧ Eliminated φ n x n done todo' := by
  induction m generalizing c solved todo with
  | zero => exact ⟨solved, todo, rfl, hm ▸ he⟩
  | succ m ih =>
    cases hpick : pickPivot c todo with
    | none => exact absurd hpick (he.pivot_exists h (by omega))
    | some pick =>
      obtain ⟨r, rest⟩ := pick
      obtain ⟨done, todo', hdone, hend⟩ := ih (by omega) (he.step hp h hpick)
      refine ⟨done, todo', ?_, hend⟩
      rw [Machine.eliminate, hpick]
      exact hdone

/-- Behind the last column each row holds the body of its unknown. -/
theorem Eliminated.bodies (h : FieldCode p φ) (hx : ∀ c < n, (x c).length = Config.bodyLen)
    (he : Eliminated φ n x n solved todo) : solved.map FecRow.body = (List.range n).map x := by
  refine List.ext_getElem (by simp [he.length]) fun i hi hi' => ?_
  rw [List.length_map] at hi
  have hin : i < n := he.length ▸ hi
  have hsat := he.satisfied solved[i] (List.mem_append_left _ (List.getElem_mem hi))
  rw [List.getElem_map, List.getElem_map, List.getElem_range]
  refine bytes_ext (hsat.body.trans (hx i hin).symm) fun k => h.inj ?_
  rw [← hsat.sum k, FecRow.apply, Finset.sum_eq_single i]
  · rw [he.unit i _ (List.getElem?_eq_getElem hi) i hin, if_pos rfl, h.one, one_mul]
  · intro j hj hji
    rw [he.unit i _ (List.getElem?_eq_getElem hi) j (Finset.mem_range.1 hj), if_neg hji, h.zero, zero_mul]
  · exact fun hi => absurd (Finset.mem_range.2 hin) hi

end

/-- A square system with the trivial kernel, satisfied by the bodies `x`, is solved by them (rule R248). -/
theorem solveSystem_eq (hp : p.gfPoly = 0x14D) (h : FieldCode p φ) {rows : List FecRow} (hlen : rows.length = n)
    (hx : ∀ c < n, (x c).length = Config.bodyLen) (hsat : ∀ r ∈ rows, r.Satisfied φ n x)
    (hreg : ∀ z : Nat → K, (∀ r ∈ rows, r.apply φ n z = 0) → ∀ j < n, z j = 0) :
    solveSystem p rows = (List.range n).map x := by
  have hstart : Eliminated φ n x 0 [] rows := ⟨rfl, hsat, nofun, nofun, hreg⟩
  obtain ⟨done, todo, hdone, hend⟩ := hstart.eliminate hp h (Nat.zero_add n)
  rw [solveSystem, hlen, hdone]
  exact hend.bodies h hx

end

end Sys2Proof.Machine
end

section
/-! PROOFS. Any 128 blocks of a code word determine it (rules R244 to R249): a Cauchy system has the trivial kernel, and
`FEC.DECODE` solves it. -/

namespace Sys2Proof.Machine

/-! ### Cauchy systems -/

/-- A Cauchy system with as many points as nodes has the trivial kernel: the interpolation polynomial of an element of the kernel
vanishes at every point. -/
theorem cauchy_kernel_trivial {K ι κ : Type} [Field K] [DecidableEq ι] {s : Finset ι} {v : ι → K} {t : Finset κ} {x : κ → K}
    (hcard : s.card ≤ t.card) (hv : Set.InjOn v s) (hx : Set.InjOn x t) (hne : ∀ k ∈ t, ∀ i ∈ s, x k ≠ v i) {z : ι → K}
    (hz : ∀ k ∈ t, ∑ i ∈ s, (x k - v i)⁻¹ * z i = 0) : ∀ i ∈ s, z i = 0 := by
  let r : ι → K := fun i => (Lagrange.nodalWeight s v i)⁻¹ * z i
  have hweight : ∀ i ∈ s, Lagrange.nodalWeight s v i ≠ 0 := fun i hi => Lagrange.nodalWeight_ne_zero hv hi
  have hroots : ∀ k ∈ t, (Lagrange.interpolate s v r).eval (x k) = 0 := fun k hk => by
    rw [Lagrange.eval_interpolate_not_at_node r (hne k hk), Finset.sum_congr rfl (g := fun i => (x k - v i)⁻¹ * z i), hz k hk,
      mul_zero]
    intro i hi
    rw [mul_comm (Lagrange.nodalWeight s v i), mul_assoc, mul_inv_cancel_left₀ (hweight i hi)]
  have hdegree : (Lagrange.interpolate s v r).degree < t.card :=
    (Lagrange.degree_interpolate_lt r hv).trans_le (by exact_mod_cast hcard)
  have hpoly := Polynomial.eq_zero_of_degree_lt_of_eval_index_eq_zero t hx hdegree hroots
  intro i hi
  have hvalue := Lagrange.eval_interpolate_at_node r hv hi
  rw [hpoly, Polynomial.eval_zero] at hvalue
  exact (mul_eq_zero.1 hvalue.symm).resolve_left (inv_ne_zero (hweight i hi))

section
variable {p : Params} {K : Type} [Field K] {φ : Byte → K}

/-- The point of a block in the field: `y_j = j` of a data block, `x_i = 128 + i` of a parity block (rule R244). -/
def blockPoint (φ : Byte → K) (b : Nat) : K := φ (BitVec.ofNat 8 b)

theorem blockPoint_inj (h : FieldCode p φ) {a b : Nat} (ha : a < 256) (hb : b < 256) (he : blockPoint φ a = blockPoint φ b) :
    a = b := by
  have hab := congrArg BitVec.toNat (h.inj he)
  rwa [BitVec.toNat_ofNat, BitVec.toNat_ofNat, Nat.mod_eq_of_lt ha, Nat.mod_eq_of_lt hb] at hab

/-- `C(i, j)` of parity block `b` and data block `j` (rule R244). -/
theorem cauchy_eq (h : FieldCode p φ) {b j : Nat} (hb : 128 ≤ b) (hb' : b < 256) (hj : j < 128) :
    φ (cauchy p (b - 128) j) = (blockPoint φ b - blockPoint φ j)⁻¹ := by
  have hne : BitVec.ofNat 8 b ^^^ BitVec.ofNat 8 j ≠ (0 : Byte) := by
    intro h0
    have hpoints : blockPoint φ b = blockPoint φ j := by
      rw [← sub_eq_zero, h.sub_eq_add, blockPoint, blockPoint, ← h.xor, h0, h.zero]
    have := blockPoint_inj h hb' (by omega) hpoints
    omega
  rw [cauchy, Nat.add_sub_cancel' hb, h.inv _ hne, h.xor, h.sub_eq_add, blockPoint, blockPoint]

/-! ### Sums over blocks -/

/-- A body combined from others (rules R246, R248), byte by byte. -/
theorem byteAt_combine (h : FieldCode p φ) (i : Nat) {l : List (Nat × List Byte)} {acc : List Byte}
    (hl : ∀ y ∈ l, y.2.length = acc.length) (k : Nat) :
    φ (byteAt (combine p i l acc) k) =
      φ (byteAt acc k) + (l.map fun y => φ (cauchy p i y.1) * φ (byteAt y.2 k)).sum := by
  induction l generalizing acc with
  | nil => simp [combine]
  | cons y r ih =>
    obtain ⟨j, d⟩ := y
    have hd : acc.length = (scaleBytes p (cauchy p i j) d).length := by
      rw [scaleBytes_length]
      exact (hl (j, d) (by simp)).symm
    have hacc : (xorBytes acc (scaleBytes p (cauchy p i j) d)).length = acc.length := by
      rw [xorBytes_length, ← hd, Nat.min_self]
    rw [combine, ih (fun y hy => (hl y (List.mem_cons_of_mem _ hy)).trans hacc.symm), byteAt_xorBytes hd, byteAt_scaleBytes,
      h.xor, h.mul, List.map_cons, List.sum_cons, add_assoc]

theorem indexed_eq (j : Nat) (data : List (List Byte)) :
    indexed j data = (List.range data.length).map fun c => (j + c, data.getD c []) := by
  induction data generalizing j with
  | nil => rfl
  | cons d r ih =>
    rw [indexed, ih, List.length_cons, List.range_succ_eq_map, List.map_cons, List.map_map]
    congr 1
    refine List.map_congr_left fun c _ => ?_
    simp [Nat.add_assoc, Nat.add_comm 1]

/-- A sum over the places of a list is the sum over the list. -/
theorem sum_range_getD (l : List Nat) (g : Nat → K) : ∑ c ∈ Finset.range l.length, g (l.getD c 0) = (l.map g).sum := by
  induction l with
  | nil => rfl
  | cons a r ih => rw [List.length_cons, Finset.sum_range_succ', List.map_cons, List.sum_cons, ← ih, add_comm]; rfl

theorem byteAt_coef (i : Nat) {l : List Nat} {c : Nat} (hc : c < l.length) :
    byteAt (l.map (cauchy p i)) c = cauchy p i (l.getD c 0) := by
  simp [byteAt, List.getD_eq_getElem?_getD, hc]

/-- Every byte of a parity body is the Cauchy combination of the same byte of the data bodies (rule R246). -/
theorem byteAt_parityBody (h : FieldCode p φ) {data : List (List Byte)} (hbody : ∀ d ∈ data, d.length = 508) (i k : Nat) :
    φ (byteAt (parityBody p data i) k) =
      ((List.range data.length).map fun j => φ (cauchy p i j) * φ (byteAt (data.getD j []) k)).sum := by
  have hzero : byteAt zeroBody k = 0 := by
    rw [byteAt, zeroBody, List.getD_eq_getElem?_getD, List.getElem?_replicate]
    split <;> rfl
  have hlen : ∀ y ∈ indexed 0 data, y.2.length = zeroBody.length := fun y hy =>
    (hbody _ (indexed_snd hy)).trans List.length_replicate.symm
  rw [parityBody, byteAt_combine h i hlen, hzero, h.zero, zero_add, indexed_eq, List.map_map]
  simp only [Function.comp_def, Nat.zero_add]

/-! ### A frame of a code word -/

theorem mem_missingData {l : List Nat} {j : Nat} : j ∈ missingData l ↔ j < 128 ∧ j ∉ l := by
  simp [missingData, Config.dataBlocks]

theorem missingData_nodup (l : List Nat) : (missingData l).Nodup := List.nodup_range.filter _

/-- A sum over the data blocks is that over the present ones and that over the missing ones. -/
theorem sum_present_add_sum_missing (l : List Nat) (g : Nat → K) :
    (((List.range Config.dataBlocks).filter fun j => l.contains j).map g).sum + ((missingData l).map g).sum =
      ((List.range Config.dataBlocks).map g).sum := by
  have hsplit := List.sum_map_filter_add_sum_map_filter_not (fun j => j ∈ l) g (List.range Config.dataBlocks)
  simpa [missingData] using hsplit

theorem presentData_length (e : WinEntry) : ∀ y ∈ presentData e, y.2.length = Config.bodyLen := by
  intro y hy
  obtain ⟨j, -, rfl⟩ := List.mem_map.1 hy
  simp only [bodyOf_length]

/-- The entry holds 128 blocks or more of the code word of `data` with `m` parity blocks (rule R246). -/
structure WinEntry.HoldsWord (p : Params) (data : List (List Byte)) (m : Nat) (e : WinEntry) : Prop where
  rising : e.present.Pairwise fun a b => a < b
  bound : ∀ b ∈ e.present, b < 128 + m
  enough : 128 ≤ e.present.length
  bodies : ∀ b ∈ e.present, bodyOf e.body b = (data ++ fecEncode p data m).getD b []

namespace WinEntry.HoldsWord

section
variable {data : List (List Byte)} {m : Nat} {e : WinEntry} (he : e.HoldsWord p data m)
include he

/-- There are as many parity blocks as data blocks are missing (rule R249). -/
theorem chosen_length :
    (chosenParity e.present (missingData e.present).length).length = (missingData e.present).length := by
  have hnodup : e.present.Nodup := he.rising.imp Nat.ne_of_lt
  have hsplit := e.present.length_eq_length_filter_add fun b => decide (128 ≤ b)
  have hrange := (List.range 128).length_eq_length_filter_add fun j => !e.present.contains j
  have hsub : (e.present.filter fun b => !decide (128 ≤ b)).length ≤
      ((List.range 128).filter fun j => !!e.present.contains j).length := by
    refine (List.subperm_of_subset (hnodup.filter _) fun b hb => ?_).length_le
    obtain ⟨hmem, hlt⟩ := List.mem_filter.1 hb
    exact List.mem_filter.2 ⟨List.mem_range.2 (by simpa using hlt), by simpa using hmem⟩
  have henough := he.enough
  rw [List.length_range] at hrange
  rw [chosenParity, List.length_take, missingData]
  simp only [Config.dataBlocks]
  omega

theorem mem_chosen {b t : Nat} (hb : b ∈ chosenParity e.present t) : b ∈ e.present ∧ 128 ≤ b ∧ b < 128 + m := by
  obtain ⟨hmem, hle⟩ := List.mem_filter.1 (List.mem_of_mem_take hb)
  exact ⟨hmem, of_decide_eq_true hle, he.bound b hmem⟩

theorem chosen_nodup (t : Nat) : (chosenParity e.present t).Nodup :=
  ((he.rising.imp Nat.ne_of_lt).filter _).sublist (List.take_sublist _ _)

/-- The system of the missing data bodies has the trivial kernel (rule R245). -/
theorem system_regular (h : FieldCode p φ) (hm : m ≤ 127) {z : Nat → K}
    (hz : ∀ b ∈ chosenParity e.present (missingData e.present).length,
      (systemRow p e (missingData e.present) b).apply φ (missingData e.present).length z = 0) :
    ∀ c < (missingData e.present).length, z c = 0 := by
  have hnode : ∀ c < (missingData e.present).length, (missingData e.present).getD c 0 < 128 := fun c hc => by
    rw [List.getD_eq_getElem _ _ hc]
    exact (mem_missingData.1 (List.getElem_mem hc)).1
  have hpoint : ∀ b ∈ (chosenParity e.present (missingData e.present).length).toFinset, 128 ≤ b ∧ b < 256 := fun b hb => by
    obtain ⟨-, hle, hlt⟩ := he.mem_chosen (List.mem_toFinset.1 hb)
    omega
  intro c hc
  refine cauchy_kernel_trivial (s := Finset.range (missingData e.present).length)
    (v := fun c => blockPoint φ ((missingData e.present).getD c 0))
    (t := (chosenParity e.present (missingData e.present).length).toFinset) (x := blockPoint φ) ?_
    (fun a ha b hb hab => ?_) (fun a ha b hb hab => ?_) (fun b hb c hc hbc => ?_) (fun b hb => ?_) c (Finset.mem_range.2 hc)
  · rw [Finset.card_range, List.toFinset_card_of_nodup (he.chosen_nodup _), he.chosen_length]
  · have ha := Finset.mem_range.1 ha
    have hb := Finset.mem_range.1 hb
    have hna := hnode a ha
    have hnb := hnode b hb
    have hsame := blockPoint_inj h (by omega) (by omega) hab
    rw [List.getD_eq_getElem _ _ ha, List.getD_eq_getElem _ _ hb] at hsame
    exact (missingData_nodup e.present).getElem_inj_iff.1 hsame
  · exact blockPoint_inj h (hpoint a ha).2 (hpoint b hb).2 hab
  · have hnc := hnode c (Finset.mem_range.1 hc)
    obtain ⟨hle, hlt⟩ := hpoint b hb
    have := blockPoint_inj h hlt (by omega) hbc
    omega
  · rw [← hz b (List.mem_toFinset.1 hb), FecRow.apply]
    refine Finset.sum_congr rfl fun c hc => ?_
    have hc := Finset.mem_range.1 hc
    obtain ⟨hle, hlt⟩ := hpoint b hb
    rw [systemRow, byteAt_coef _ hc, cauchy_eq h hle hlt (hnode c hc)]

variable (hdata : data.length = 128)
include hdata

theorem data_body {j : Nat} (hj : j ∈ e.present) (hlt : j < 128) : bodyOf e.body j = data.getD j [] := by
  rw [he.bodies j hj, List.getD_append _ _ _ _ (by omega)]

theorem parity_body {b : Nat} (hb : b ∈ e.present) (hle : 128 ≤ b) : bodyOf e.body b = parityBody p data (b - 128) := by
  have hlt := he.bound b hb
  rw [he.bodies b hb, List.getD_append_right _ _ _ _ (by omega), hdata, fecEncode, List.getD_eq_getElem?_getD,
    List.getElem?_map, List.getElem?_range (by omega)]
  rfl

/-- What the present data bodies add to a syndrome (rule R248), byte by byte. -/
theorem sum_presentData (i k : Nat) :
    ((presentData e).map fun y => φ (cauchy p i y.1) * φ (byteAt y.2 k)).sum =
      (((List.range Config.dataBlocks).filter fun j => e.present.contains j).map fun j =>
        φ (cauchy p i j) * φ (byteAt (data.getD j []) k)).sum := by
  rw [presentData, List.map_map]
  refine congrArg List.sum (List.map_congr_left fun j hj => ?_)
  obtain ⟨hlt, hj⟩ := List.mem_filter.1 hj
  rw [Function.comp_apply, he.data_body hdata (by simpa using hj) (List.mem_range.1 hlt)]

variable (hbody : ∀ d ∈ data, d.length = 508)
include hbody

/-- Row by row, the missing data bodies satisfy the system: the syndrome is what the parity body has of them (rule R248). -/
theorem systemRow_satisfied (h : FieldCode p φ) {b : Nat} (hb : b ∈ e.present) (hle : 128 ≤ b) :
    (systemRow p e (missingData e.present) b).Satisfied φ (missingData e.present).length
      (fun c => data.getD ((missingData e.present).getD c 0) []) where
  coefs := by simp [systemRow]
  body := combine_length (presentData_length e) (bodyOf_length e.body b)
  sum k := by
    let g : Nat → K := fun j => φ (cauchy p (b - 128) j) * φ (byteAt (data.getD j []) k)
    have hmissing : (systemRow p e (missingData e.present) b).apply φ (missingData e.present).length
        (fun c => φ (byteAt (data.getD ((missingData e.present).getD c 0) []) k)) = ((missingData e.present).map g).sum := by
      rw [← sum_range_getD, FecRow.apply]
      refine Finset.sum_congr rfl fun c hc => ?_
      rw [systemRow, byteAt_coef _ (Finset.mem_range.1 hc)]
    have hlen : ∀ y ∈ presentData e, y.2.length = (bodyOf e.body b).length := fun y hy => by
      rw [presentData_length e y hy, bodyOf_length]
    rw [hmissing, systemRow, byteAt_combine h _ hlen, he.sum_presentData hdata, he.parity_body hdata hb hle,
      byteAt_parityBody h hbody, hdata, ← sum_present_add_sum_missing e.present g]
    calc ((missingData e.present).map g).sum
        = (((List.range 128).filter fun j => e.present.contains j).map g).sum +
            (((List.range 128).filter fun j => e.present.contains j).map g).sum + ((missingData e.present).map g).sum := by
          rw [h.add_self, zero_add]
      _ = _ := by ring

end

end WinEntry.HoldsWord

/-- The body solved for a missing block is found under its index. -/
theorem solvedFor_map {l : List Nat} {j : Nat} (hj : j ∈ l) (f : Nat → List Byte) : solvedFor j l (l.map f) = some (f j) := by
  induction l with
  | nil => exact nomatch hj
  | cons a r ih =>
    rw [List.map_cons, solvedFor]
    split
    · next haj => rw [haj]
    · next haj => exact ih ((List.mem_cons.1 hj).resolve_left (Ne.symm haj))

/-- Any 128 blocks of a code word give the data back (rules R248, R251(d)). -/
theorem fecDecode_of_holdsWord {data : List (List Byte)} {m : Nat} {e : WinEntry} (hp : p.gfPoly = 0x14D)
    (hdata : data.length = 128) (hbody : ∀ d ∈ data, d.length = 508) (hm : m ≤ 127) (he : e.HoldsWord p data m) :
    fecDecode p e = data := by
  obtain ⟨K, field, φ, h⟩ := exists_fieldCode hp
  have hsolved : solveSystem p ((chosenParity e.present (missingData e.present).length).map
      (systemRow p e (missingData e.present))) = (missingData e.present).map fun j => data.getD j [] := by
    rw [solveSystem_eq hp h (n := (missingData e.present).length)
      (x := fun c => data.getD ((missingData e.present).getD c 0) []) (by rw [List.length_map, he.chosen_length])]
    · refine List.ext_getElem (by simp) fun c hc hc' => ?_
      rw [List.length_map] at hc'
      rw [List.getElem_map, List.getElem_map, List.getElem_range, List.getD_eq_getElem _ _ hc']
    · intro c hc
      have hlt := (mem_missingData.1 (List.getElem_mem hc)).1
      rw [List.getD_eq_getElem _ _ hc, List.getD_eq_getElem _ _ (by omega)]
      exact hbody _ (List.getElem_mem _)
    · intro r hr
      obtain ⟨b, hb, rfl⟩ := List.mem_map.1 hr
      obtain ⟨hmem, hle, -⟩ := he.mem_chosen hb
      exact he.systemRow_satisfied hdata hbody h hmem hle
    · exact fun z hz => he.system_regular h hm fun b hb => hz _ (List.mem_map_of_mem hb)
  unfold fecDecode
  dsimp only
  rw [hsolved]
  refine List.ext_getElem (by simp [hdata, Config.dataBlocks]) fun j hj hj' => ?_
  have hlt : j < 128 := by omega
  rw [List.getElem_map, List.getElem_range]
  split
  · next hmem => rw [he.data_body hdata (by simpa using hmem) hlt, List.getD_eq_getElem _ _ hj']
  · next hmem =>
    rw [solvedFor_map (mem_missingData.2 ⟨hlt, by simpa using hmem⟩), Option.getD_some, List.getD_eq_getElem _ _ hj']

end

end Sys2Proof.Machine
end

section
/-! PROOFS. A frame from the packer to `TXQ` over a channel that loses and reorders blocks (O60, rules R176, R200, R204 to R207, R212,
R215, R251(d), R272). -/

namespace Sys2Proof.Machine

/-! ### What is packed -/

section
variable {tx sent : State} {wall : Wall}

/-- From `tx` to `sent` a frame was packed: its meta body names its width, the sample bodies stay, its blocks are a code word, and its
emission begins (rule R176). -/
structure PacksFrame (tx sent : State) : Prop where
  lifecycle : sent.ctl.lifecycle ≠ .stopped
  emitting : sent.rx.emitting = true
  emitIdx : sent.rx.emitIdx = 0
  frameCtr : sent.rx.frameCtr = tx.rx.frameCtr
  dgrams : sent.io.sent = tx.io.sent
  head : ∃ bank r wall, bodyOf sent.rx.fb 0 = metaBuild bank tx.rx.frameBps r wall
  samples : ∀ b, 1 ≤ b → b ≤ 127 → bodyOf sent.rx.fb b = bodyOf tx.rx.fb b
  parity : ∀ i, i < sent.rx.emitR.toNat →
    (fecEncode tx.params (dataBodies sent.rx.fb) sent.rx.emitR.toNat)[i]? = some (bodyOf sent.rx.fb (128 + i))

/-- `PACK.FRAME` that is performed packs a frame. -/
theorem packsFrame_of_done (h : exec (.packFrame wall) tx = .next sent) (hdone : sent.io.result = .done)
    (hr : sent.rx.emitR.toNat ≤ 127) : PacksFrame tx sent := by
  have hl : tx.ctl.lifecycle ≠ .stopped := fun hl => by
    cases (unlessStopped_of_stopped hl _).symm.trans h
    cases hdone
  have hacc : tx.rx.accCount.toNat = frameLength tx.rx.frameBps.toNat := by
    by_contra hacc
    rw [exec_packFrame hl, if_neg hacc] at h
    cases h
    cases hdone
  have hfec : sent.rx.emitR = tx.cfg.activeRx.fecblk := by
    rw [exec_packFrame hl, if_pos hacc] at h
    rcases finish_eq_next.1 h with ⟨u, hu, rfl⟩ | ⟨-, rfl⟩
    · obtain ⟨fb, -, rfl⟩ := packFrame_ok hu
      rfl
    · cases hdone
  obtain ⟨fb, hexec, hmeta, hsamples, hparity, -⟩ := (packFrameEffect wall tx hl).2 hacc (hfec ▸ hr)
  have hsent := Host.Outcome.next.inj (h.symm.trans hexec)
  subst hsent
  exact ⟨hl, rfl, rfl, rfl, rfl, ⟨_, _, _, hmeta⟩, hsamples, hparity⟩

theorem dataBodies_length_eq (m : Memory) : (dataBodies m).length = 128 := by
  simp [dataBodies, Config.dataBlocks]

theorem dataBodies_getElem? (m : Memory) {b : Nat} (hb : b < 128) : (dataBodies m)[b]? = some (bodyOf m b) := by
  rw [dataBodies, List.getElem?_map, List.getElem?_range hb, Option.map_some]

theorem dataBodies_headD (m : Memory) : (dataBodies m).headD [] = bodyOf m 0 := by
  rw [List.headD_eq_head?_getD, List.head?_eq_getElem?, dataBodies_getElem? m (by decide), Option.getD_some]

namespace PacksFrame

/-- Each block of the frame is the block of the code word (rule R246). -/
theorem block (h : PacksFrame tx sent) {b : Nat} (hb : b < 128 + sent.rx.emitR.toNat) :
    bodyOf sent.rx.fb b =
      (dataBodies sent.rx.fb ++ fecEncode tx.params (dataBodies sent.rx.fb) sent.rx.emitR.toNat).getD b [] := by
  have hdata := dataBodies_length_eq sent.rx.fb
  rw [List.getD_eq_getElem?_getD]
  by_cases hlt : b < 128
  · rw [List.getElem?_append_left (hdata.symm ▸ hlt), dataBodies_getElem? _ hlt, Option.getD_some]
  · rw [List.getElem?_append_right (hdata.trans_le (Nat.not_lt.1 hlt)), hdata, h.parity _ (by omega),
      Nat.add_sub_cancel' (Nat.not_lt.1 hlt), Option.getD_some]

/-- The sample bodies of the frame are the sender's (rule R176). -/
theorem dataBodies_drop (h : PacksFrame tx sent) :
    (dataBodies sent.rx.fb).drop 1 = (List.range 127).map fun b => bodyOf tx.rx.fb (1 + b) := by
  refine List.ext_getElem (by simp [dataBodies_length_eq]) fun b hb hb' => ?_
  rw [List.length_map, List.length_range] at hb'
  simp only [dataBodies, List.getElem_drop, List.getElem_map, List.getElem_range]
  exact h.samples _ (by omega) (by omega)

/-- Any 128 blocks of the frame give its data bodies back, for any receiver with the default field (rule R251(d)). -/
theorem decode (h : PacksFrame tx sent) {p : Params} {e : WinEntry} (hp : p.gfPoly = 0x14D) (htx : tx.params.gfPoly = 0x14D)
    (hr : sent.rx.emitR.toNat ≤ 127) (hrising : e.present.Pairwise fun a b => a < b)
    (hbound : ∀ b ∈ e.present, b < 128 + sent.rx.emitR.toNat) (henough : 128 ≤ e.present.length)
    (hbodies : ∀ b ∈ e.present, bodyOf e.body b = bodyOf sent.rx.fb b) :
    fecDecode p e = dataBodies sent.rx.fb := by
  refine fecDecode_of_holdsWord hp (dataBodies_length_eq _) (dataBodies_length _) hr
    ⟨hrising, hbound, henough, fun b hb => ?_⟩
  rw [hbodies b hb, h.block (hbound b hb), fecEncode_congr (htx.trans hp.symm)]

end PacksFrame

end

/-! ### What is accepted -/

section
variable {s t : State} {e : WinEntry}

/-- The checks of rule R210 pass on a meta body that was built (rule R177). -/
theorem metaBuild_checks (b : Bank) (width r : Byte) (wall : Wall) :
    crc32 (slice (metaBuild b width r wall) 0 20) = le32 (metaBuild b width r wall) 20 ∧
      byteAt (metaBuild b width r wall) 8 = width := by
  have hlen := metaBuild_length b width r wall
  have hhead : slice (metaBuild b width r wall) 0 20 = metaHead b width r wall := by
    rw [slice, List.drop_zero, takeZ_of_le (by rw [hlen]; decide), metaBuild_take_head]
  have hcrc : slice (metaBuild b width r wall) 20 4 = leBytes 4 (crc32 (metaHead b width r wall)).toNat := by
    rw [slice, takeZ_of_le (by rw [List.length_drop, hlen]; decide)]
    rfl
  refine ⟨?_, rfl⟩
  rw [hhead, le32, hcrc, leNat_leBytes_u32, BitVec.ofNat_toNat, BitVec.setWidth_eq]

@[simp] theorem pushed_cnt_ok (q : QueueId) (v : List Sample) (s : State) : (s.pushed q v).cnt.ok = s.cnt.ok := by
  cases q <;> rfl

@[simp] theorem pushed_cnt_late (q : QueueId) (v : List Sample) (s : State) : (s.pushed q v).cnt.late = s.cnt.late := by
  cases q <;> rfl

@[simp] theorem pushed_txq_vecs (v : List Sample) (s : State) : (s.pushed .txq v).txq.vecs = s.txq.vecs ++ [v] := rfl

/-- From `s` to `t` the frame at `tx_base` was accepted, and the vector `v` delivered for it (rules R210, R212, R214). -/
structure AcceptsFrame (v : List Sample) (s t : State) : Prop where
  params : t.params = s.params
  ctl : t.ctl = s.ctl
  cfg : t.cfg = s.cfg
  ok : t.cnt.ok = s.cnt.ok + 1
  late : t.cnt.late = s.cnt.late
  win : t.tx.win = winDrop s.tx.win s.tx.base
  synced : t.tx.synced = s.tx.synced
  base : t.tx.base = s.tx.base + 1
  vecs : t.txq.vecs = s.txq.vecs ++ [v]

theorem acceptFrame_eq_deliver (m : List Byte) (data : List (List Byte)) (s : State) :
    acceptFrame m data s = deliver (unpackExpand (byteAt m 8).toNat (data.drop 1)) (s.frameAccepted m) := rfl

/-- A complete frame with a meta body that was built is accepted, without interpolation with its samples as they are. -/
theorem txRetire_accepts {bank : Bank} {width r : Byte} {wall : Wall} (hs : s.canDeliver) (hi : s.cfg.activeTx.interp = 0)
    (he : winFind s.tx.win s.tx.base = some e) (hc : 128 ≤ e.count) (hb : ∀ b ∈ e.present, b < 255)
    (hw : width = 1 ∨ width = 2) (hmeta : (fecDecode s.params e).headD [] = metaBuild bank width r wall) :
    ∃ t, txRetire s = .ok t ∧ AcceptsFrame (unpackExpand width.toNat ((fecDecode s.params e).drop 1)) s t := by
  obtain ⟨hcrc, hwidth⟩ := metaBuild_checks bank width r wall
  have hsettle := settleHead_of_complete he hc hb
  have hframe := unpackExpand_fecDecode_length width.toNat s.params e
  dsimp only at hsettle
  rw [hmeta] at hsettle
  generalize metaBuild bank width r wall = m at hcrc hwidth hsettle
  rw [if_neg (not_not.2 hcrc), if_neg (by rw [hwidth]; exact fun h => hw.elim h.1 h.2),
    acceptFrame_eq_deliver, hwidth] at hsettle
  generalize unpackExpand width.toNat ((fecDecode s.params e).drop 1) = v at hsettle hframe ⊢
  have hv : (intProcess v (s.frameAccepted m)).2 = v := intProcess_of_interp_zero (s := s.frameAccepted m) hi v
  have hne : (intProcess v (s.frameAccepted m)).2 ≠ [] := by
    rw [hv, ← List.length_pos_iff, hframe]
    exact samplesPerFrame_pos hw
  have hdeliver := deliver_eq_pushed (s := s.frameAccepted m) hs hne
  rw [hv] at hdeliver
  have hsettled := hsettle.trans hdeliver
  have ht : txRetire s = .ok (advanceBase s.tx.base ((intProcess v (s.frameAccepted m)).1.pushed .txq v)) := by
    rw [txRetire, hsettled]
    rfl
  have hsame := settleHead_same hsettled
  refine ⟨_, ht, hsame.params, hsame.ctl, hsame.cfg, ?_, ?_, txRetire_win ht, hsame.synced, txRetire_base ht, ?_⟩
  · rw [advanceBase_cnt, pushed_cnt_ok]
    rfl
  · rw [advanceBase_cnt, pushed_cnt_late]
    rfl
  · rw [advanceBase_txq, pushed_txq_vecs]
    rfl

end

end Sys2Proof.Machine
end

section
/-! PROOFS. The blocks of one frame over the network, each once and in any order (O60, rules R200, R204 to R207, R215, R272). -/

namespace Sys2Proof.Machine

/-! ### The sends -/

section
variable {s t : State}

/-- Sends that were performed were paced (rule R272). -/
theorem paced_of_done {times : List U64} {b : Nat} {rs : List Result} (hs : Sending b s.rx.paceReadyAt s)
    (hr : s.rx.emitR.toNat ≤ 127) (hlen : b + times.length = 128 + s.rx.emitR.toNat)
    (hrun : runAll (times.map .netSend) s = some (t, rs)) (hdone : ∀ r ∈ rs, r = .done) :
    Paced (s.cfg.activeRx.txdelay.setWidth 64) s.rx.paceReadyAt times := by
  induction times generalizing s b rs with
  | nil => trivial
  | cons now rest ih =>
    rw [List.length_cons] at hlen
    rw [List.map_cons] at hrun
    obtain ⟨u, rs', hu, hrest, rfl⟩ := runAll_cons_eq_some hrun
    obtain ⟨hone, hdone⟩ := List.forall_mem_cons.1 hdone
    have hnow : s.rx.paceReadyAt ≤ now := by
      by_contra hnow
      have hready : sendReady now s = false := by simp [sendReady, hnow]
      have hwait : exec (.netSend now) s = .next (s.ret .noStep) := by
        change execNetSend now s = _
        rw [execNetSend, unlessStopped_of_ne hs.lifecycle, netSend, if_pos (by simp [hready]), finish_noStep]
      cases hwait.symm.trans hu
      cases hone
    refine ⟨hnow, ?_⟩
    obtain ⟨u', hu', -, -, hgoes⟩ := exec_netSend_sends hs (by omega) hnow
    cases hu'.symm.trans hu
    by_cases hempty : rest = []
    · rw [hempty]; trivial
    · have hpos := List.length_pos_iff.2 hempty
      obtain ⟨hsu, hsame⟩ := hgoes (by omega)
      have hpace := hsu.pace
      rw [← hpace] at hsu ⊢
      rw [← hsame.txdelay]
      exact ih hsu (by rw [hsame.emitR]; exact hr) (by rw [hsame.emitR]; omega) hrest hdone

/-- A packed frame whose sends were all performed went out block by block (rules R272, R273). -/
theorem PacksFrame.datagrams {tx sent u : State} {times : List U64} {rs : List Result} (h : PacksFrame tx sent)
    (hr : sent.rx.emitR.toNat ≤ 127) (hlen : times.length = 128 + sent.rx.emitR.toNat)
    (hrun : runAll (times.map .netSend) sent = some (u, rs)) (hdone : ∀ r ∈ rs, r = .done) :
    u.io.sent.drop tx.io.sent.length = (List.range (128 + sent.rx.emitR.toNat)).map sent.frameBlock := by
  have hs : Sending 0 sent.rx.paceReadyAt sent := ⟨h.lifecycle, h.emitting, by rw [h.emitIdx]; rfl, rfl⟩
  have hlen0 : 0 + times.length = 128 + sent.rx.emitR.toNat := (Nat.zero_add _).trans hlen
  have hne : times ≠ [] := List.length_pos_iff.1 (by omega)
  obtain ⟨v, rs', hrun', hsends, -⟩ := runAll_netSend hs hr hne hlen0 (paced_of_done hs hr hlen0 hrun hdone)
  obtain ⟨rfl, -⟩ := Prod.mk.inj (Option.some.inj (hrun'.symm.trans hrun))
  rw [hsends.sent, h.dgrams, List.drop_left, hlen, List.range_eq_range']

/-- The header and the body of a block that was sent (rules R90, R91). -/
theorem frameBlock_fields (s : State) {b : Nat} (hb : b < 256) :
    (s.frameBlock b).length = 512 ∧ le16 (s.frameBlock b) 0 = s.rx.frameCtr ∧ (byteAt (s.frameBlock b) 2).toNat = b ∧
      (s.frameBlock b).drop 4 = bodyOf s.rx.fb b := by
  unfold State.frameBlock
  refine ⟨?_, le16_blockBytes _ _ _ _, ?_, drop_blockBytes _ _ _ _⟩
  · rw [blockBytes_eq, List.length_append, bodyOf_length]
    rfl
  · rw [byteAt_blockBytes_blk, BitVec.toNat_ofNat, Nat.mod_eq_of_lt hb]

end

/-! ### The arrivals before the frame is complete -/

section
variable {rx sent u : State}

/-- The receiver has the blocks `got` of the frame of `sent` and nothing else since it was `rx` (rules R204, R205). -/
structure Collecting (rx sent : State) (got : List Nat) (u : State) : Prop where
  params : u.params = rx.params
  ctl : u.ctl = rx.ctl
  cfg : u.cfg = rx.cfg
  txq : u.txq = rx.txq
  cnt : u.cnt = rx.cnt
  synced : u.tx.synced = true
  base : u.tx.base = sent.rx.frameCtr
  only : ∀ e ∈ u.tx.win, e.fidx = sent.rx.frameCtr
  slots : (u.entryOf sent.rx.frameCtr).SlotsSound
  count : (u.entryOf sent.rx.frameCtr).count = got.length
  present : ∀ b, b ∈ (u.entryOf sent.rx.frameCtr).present ↔ b ∈ got
  bodies : ∀ b ∈ got, bodyOf (u.entryOf sent.rx.frameCtr).body b = bodyOf sent.rx.fb b

/-- A receiver that has not synchronised collects from the first block on (rule R204). -/
theorem collecting_syncedAt (hw : rx.tx.win = []) : Collecting rx sent [] (rx.syncedAt sent.rx.frameCtr) := by
  have hempty : (rx.syncedAt sent.rx.frameCtr).entryOf sent.rx.frameCtr = WinEntry.empty sent.rx.frameCtr := by
    simp [State.entryOf, State.syncedAt, hw, winFind]
  refine ⟨rfl, rfl, rfl, rfl, rfl, rfl, rfl, ?_, ?_, ?_, ?_, nofun⟩
  · intro e he
    rw [show (rx.syncedAt sent.rx.frameCtr).tx.win = [] from hw] at he
    exact nomatch he
  all_goals rw [hempty]
  · exact WinEntry.empty_slotsSound _
  · rfl
  · exact fun b => Iff.rfl

/-- An entry put into a window that holds no other frame is its only entry. -/
theorem winPut_of_only {w : List WinEntry} {e : WinEntry} (h : ∀ x ∈ w, x.fidx = e.fidx) : winPut w e = [e] := by
  have hbefore : (w.filter fun x => decide (x.fidx.toNat < e.fidx.toNat)) = [] :=
    List.filter_eq_nil_iff.2 fun x hx => by simp [h x hx]
  have hbehind : (w.filter fun x => decide (e.fidx.toNat < x.fidx.toNat)) = [] :=
    List.filter_eq_nil_iff.2 fun x hx => by simp [h x hx]
  rw [winPut, hbefore, hbehind]
  rfl

/-- The state with one more block of the frame in its slot. -/
def State.withBlock (u sent : State) (b : Nat) : State := u.withBody sent.rx.frameCtr b (bodyOf sent.rx.fb b)

namespace Collecting

variable {got : List Nat} {b : Nat}

theorem headIncomplete (h : Collecting rx sent got u) (hg : got.length < 128) : u.headIncomplete := by
  intro e he
  have hentry : u.entryOf sent.rx.frameCtr = e := by rw [State.entryOf, ← h.base, he]; rfl
  rw [← hentry, h.count]
  exact hg

/-- Behind the first block the frame is found at the base. -/
theorem find (h : Collecting rx sent got u) (hne : got ≠ []) :
    winFind u.tx.win u.tx.base = some (u.entryOf sent.rx.frameCtr) := by
  have hcount := h.count
  rw [h.base]
  unfold State.entryOf at hcount ⊢
  cases hfind : winFind u.tx.win sent.rx.frameCtr with
  | some e => rfl
  | none =>
    rw [hfind] at hcount
    exact absurd (List.length_eq_zero_iff.1 hcount.symm) hne

/-- The window with one more block has the frame as its only entry. -/
theorem withBlock_win (h : Collecting rx sent got u) (b : Nat) :
    (u.withBlock sent b).tx.win = [(u.entryOf sent.rx.frameCtr).store b (bodyOf sent.rx.fb b)] :=
  winPut_of_only fun x hx => (h.only x hx).trans (u.entryOf_fidx _).symm

theorem withBlock (h : Collecting rx sent got u) (hb : b < 255) (hfree : b ∉ got) :
    Collecting rx sent (b :: got) (u.withBlock sent b) := by
  have hentry : (u.withBlock sent b).entryOf sent.rx.frameCtr =
      (u.entryOf sent.rx.frameCtr).store b (bodyOf sent.rx.fb b) := by
    have hfind : winFind (u.withBlock sent b).tx.win sent.rx.frameCtr = _ := winFind_windowWith_same
    rw [State.entryOf, hfind]
    rfl
  refine ⟨h.params, h.ctl, h.cfg, h.txq, h.cnt, h.synced, h.base, fun e he => ?_, ?_, ?_, fun x => ?_, fun x hx => ?_⟩
  · rw [h.withBlock_win b] at he
    rw [List.mem_singleton.1 he]
    exact u.entryOf_fidx _
  all_goals rw [hentry]
  · exact (WinEntry.sound_iff.1 (h.slots.store (fun hp => hfree ((h.present b).1 hp)) hb (bodyOf_length _ _))).1
  · exact congrArg Nat.succ h.count
  · rw [WinEntry.mem_store_present, h.present, List.mem_cons]
  · by_cases hxb : x = b
    · rw [hxb]
      exact bodyOf_write_same _ _ _ (bodyOf_length _ _)
    · rw [← h.bodies x ((List.mem_cons.1 hx).resolve_left hxb)]
      exact bodyOf_write_ne _ _ _ _ (bodyOf_length _ _) hxb

end Collecting

/-- What the receiver needs of a block of the frame: it streams, has nothing to adopt, and the block is one of its frame (rules R200,
R203). -/
structure Receives (rx : State) (b : Nat) : Prop where
  streaming : rx.ctl.lifecycle = .streaming
  adopted : rx.cfg.seqTx = rx.cfg.seqP
  index : b < 128 + rx.cfg.activeTx.fecblk.toNat
  bound : b < 255

theorem Receives.acceptable {b : Nat} (h : Receives rx b) (sent : State) : Acceptable (sent.frameBlock b) rx := by
  obtain ⟨hlen, -, hidx, -⟩ := frameBlock_fields sent (b := b) (h.bound.trans (by decide))
  exact ⟨h.adopted, hlen, hidx.symm ▸ h.index⟩

theorem Receives.congr {b : Nat} (h : Receives rx b) (hctl : u.ctl = rx.ctl) (hcfg : u.cfg = rx.cfg) : Receives u b :=
  ⟨by rw [hctl]; exact h.streaming, by rw [hcfg]; exact h.adopted, by rw [hcfg]; exact h.index, h.bound⟩

/-- A block of the frame that is being collected goes into its slot, and then what is complete is delivered. -/
theorem Collecting.exec_netRecv {got : List Nat} {b : Nat} (h : Collecting rx sent got u) (hrx : Receives rx b)
    (hfree : b ∉ got) :
    exec (.netRecv (sent.frameBlock b)) u =
      finish u .done (deliverComplete (u.withBlock sent b).tx.win.length (u.withBlock sent b)) := by
  obtain ⟨-, hf, hidx, hbody⟩ := frameBlock_fields sent (b := b) (hrx.bound.trans (by decide))
  have hu := hrx.congr h.ctl h.cfg
  have hnear : dist sent.rx.frameCtr u.tx.base ≤ 4 := by rw [h.base, dist_self]; exact Nat.zero_le 4
  rw [exec_acceptable_near rfl hu.streaming (hu.acceptable sent) hf h.synced hnear, hidx, hbody,
    storeAndDeliver_of_stored (storeSlot_inside (fun hp => hfree ((h.present b).1 hp)) hrx.bound (bodyOf_length _ _))]
  rfl

/-- Fewer than 128 blocks, each once and in any order, are collected, and nothing is delivered. -/
theorem Collecting.runAll {l got : List Nat} (h : Collecting rx sent got u) (hrx : ∀ b ∈ l, Receives rx b)
    (hnodup : (l.reverse ++ got).Nodup) (hfew : l.length + got.length < 128) :
    ∃ t rs, runAll (l.map fun b => .netRecv (sent.frameBlock b)) u = some (t, rs) ∧
      Collecting rx sent (l.reverse ++ got) t := by
  induction l generalizing got u with
  | nil => exact ⟨u, [], rfl, h⟩
  | cons b l ih =>
    obtain ⟨hb, hrx⟩ := List.forall_mem_cons.1 hrx
    rw [List.reverse_cons, List.append_assoc, List.singleton_append] at hnodup ⊢
    rw [List.length_cons] at hfew
    have hfree : b ∉ got := (List.nodup_cons.1 hnodup.of_append_right).1
    have hnext := h.withBlock hb.bound hfree
    have hincomplete := hnext.headIncomplete (by rw [List.length_cons]; omega)
    have hexec := h.exec_netRecv hb hfree
    rw [deliverComplete_of_incomplete hincomplete, finish_ok] at hexec
    obtain ⟨t, rs, hrun, ht⟩ := ih (u := (u.withBlock sent b).ret .done) (got := b :: got)
      ⟨hnext.params, hnext.ctl, hnext.cfg, hnext.txq, hnext.cnt, hnext.synced, hnext.base, hnext.only, hnext.slots, hnext.count,
        hnext.present, hnext.bodies⟩ hrx hnodup (by rw [List.length_cons]; omega)
    exact ⟨t, _, runAll_cons hexec hrun, ht⟩

/-! ### The 128th block, and those behind it -/

/-- The frame of `sent` was delivered as the vector `v`, and `n` blocks of it were late since (rules R204, R212, R214). -/
structure Delivered (rx sent : State) (v : List Sample) (n : Nat) (u : State) : Prop where
  ctl : u.ctl = rx.ctl
  cfg : u.cfg = rx.cfg
  ok : u.cnt.ok = rx.cnt.ok + 1
  late : u.cnt.late = rx.cnt.late + BitVec.ofNat 32 n
  synced : u.tx.synced = true
  base : u.tx.base = sent.rx.frameCtr + 1
  win : u.tx.win = []
  vecs : u.txq.vecs = rx.txq.vecs ++ [v]

/-- The entry of a frame of which 128 blocks were collected is complete and holds the packed frame. -/
theorem Collecting.decode {tx : State} {got : List Nat} (h : Collecting rx sent got u) (hpack : PacksFrame tx sent)
    (htx : tx.params.gfPoly = 0x14D) (hp : rx.params.gfPoly = 0x14D) (hr : sent.rx.emitR.toNat ≤ 127)
    (hgot : ∀ b ∈ got, b < 128 + sent.rx.emitR.toNat) (hlen : got.length = 128) :
    fecDecode u.params (u.entryOf sent.rx.frameCtr) = dataBodies sent.rx.fb := by
  have hmem : ∀ b ∈ (u.entryOf sent.rx.frameCtr).present, b ∈ got := fun b => (h.present b).1
  refine hpack.decode (by rw [h.params]; exact hp) htx hr h.slots.rising (fun b hb => hgot b (hmem b hb)) ?_
    fun b hb => h.bodies b (hmem b hb)
  rw [← h.slots.counted, h.count, hlen]

/-- The 128th block of a packed frame delivers it with the sender's samples (rules R207, R212). -/
theorem Collecting.completes {tx : State} {got : List Nat} {b : Nat} (h : Collecting rx sent got u)
    (hpack : PacksFrame tx sent) (htx : tx.params.gfPoly = 0x14D) (hp : rx.params.gfPoly = 0x14D)
    (hw : tx.rx.frameBps = 1 ∨ tx.rx.frameBps = 2) (hr : sent.rx.emitR.toNat ≤ 127) (hcan : rx.canDeliver)
    (hi : rx.cfg.activeTx.interp = 0) (hrx : Receives rx b) (hgot : ∀ x ∈ b :: got, x < 128 + sent.rx.emitR.toNat)
    (hfree : b ∉ got) (hlen : got.length = 127) :
    ∃ t, exec (.netRecv (sent.frameBlock b)) u = .next t ∧
      Delivered rx sent (unpackExpand tx.rx.frameBps.toNat ((dataBodies sent.rx.fb).drop 1)) 0 t := by
  have hnext := h.withBlock hrx.bound hfree
  have hdecode := hnext.decode hpack htx hp hr hgot (by rw [List.length_cons, hlen])
  have hwin := h.withBlock_win b
  have hexec := h.exec_netRecv hrx hfree
  have hcount : ((u.withBlock sent b).entryOf sent.rx.frameCtr).count = 128 := by rw [hnext.count, List.length_cons, hlen]
  generalize u.withBlock sent b = w at hnext hdecode hwin hexec hcount
  have hfind := hnext.find (List.cons_ne_nil b got)
  obtain ⟨bank, r, wall, hmeta⟩ := hpack.head
  have hhead : (dataBodies sent.rx.fb).headD [] = metaBuild bank tx.rx.frameBps r wall := by
    rw [dataBodies_headD, hmeta]
  have hcanw : w.canDeliver := by
    unfold State.canDeliver
    rw [hnext.ctl, hnext.txq, hnext.params]
    exact hcan
  obtain ⟨t, ht, ha⟩ := txRetire_accepts hcanw (by rw [hnext.cfg]; exact hi) hfind hcount.ge hnext.slots.bound hw
    (hdecode ▸ hhead)
  rw [hdecode] at ha
  have hdeliver : deliverComplete w.tx.win.length w = .ok t := by
    rw [hwin]
    rw [List.length_singleton, deliverComplete, headEntry_of_complete hfind hcount.ge, Option.isSome_some, if_pos rfl, ht]
    rfl
  rw [hdeliver, finish_ok] at hexec
  refine ⟨_, hexec, ha.ctl.trans hnext.ctl, ha.cfg.trans hnext.cfg, ?_, ?_, ha.synced.trans hnext.synced, ?_, ?_, ?_⟩
  · rw [State.ret_cnt, ha.ok, hnext.cnt]
  · rw [State.ret_cnt, ha.late, hnext.cnt]
    exact (BitVec.add_zero _).symm
  · rw [State.ret_tx, ha.base, hnext.base]
  · rw [State.ret_tx, ha.win, winDrop, List.filter_eq_nil_iff]
    intro e he
    simp [hnext.only e he, hnext.base]
  · rw [State.ret_txq, ha.vecs, hnext.txq]

/-- Behind its delivery every block of the frame is late (rule R204). -/
theorem Delivered.runAll {v : List Sample} {n : Nat} {l : List Nat} (h : Delivered rx sent v n u)
    (hrx : ∀ b ∈ l, Receives rx b) :
    ∃ t rs, runAll (l.map fun b => .netRecv (sent.frameBlock b)) u = some (t, rs) ∧
      Delivered rx sent v (n + l.length) t := by
  induction l generalizing n u with
  | nil => exact ⟨u, [], rfl, h⟩
  | cons b l ih =>
    obtain ⟨hb, hrx⟩ := List.forall_mem_cons.1 hrx
    obtain ⟨-, hf, -, -⟩ := frameBlock_fields sent (b := b) (hb.bound.trans (by decide))
    have hu := hb.congr h.ctl h.cfg
    have hbehind : 32768 ≤ dist sent.rx.frameCtr u.tx.base := by
      rw [h.base]
      unfold dist
      bv_omega
    have hexec := exec_acceptable (i := .netRecv (sent.frameBlock b)) rfl hu.streaming (hu.acceptable sent) hf
    rw [synchronise_of_synced h.synced, acceptBlock_late hbehind, finish_ok] at hexec
    have hnext : Delivered rx sent v (n + 1)
        (State.ret { u with cnt := { u.cnt with late := u.cnt.late + 1 } } .done) := by
      refine ⟨h.ctl, h.cfg, h.ok, ?_, h.synced, h.base, h.win, h.vecs⟩
      change u.cnt.late + 1 = _
      rw [h.late, BitVec.add_assoc, BitVec.ofNat_add]
      rfl
    obtain ⟨t, rs, hrun, ht⟩ := ih hnext hrx
    rw [List.length_cons, Nat.add_comm l.length 1, ← Nat.add_assoc]
    exact ⟨t, _, runAll_cons hexec hrun, ht⟩

/-! ### The whole frame -/

/-- A run begins with its first operation alone. -/
theorem runAll_cons_congr {i : Instr} {s t : State} (h : exec i s = exec i t) (l : List Instr) :
    Machine.runAll (i :: l) s = Machine.runAll (i :: l) t := by
  simp only [Machine.runAll, h]

/-- A packed frame of which 128 blocks or more arrive, each once and in any order, is delivered with the 128th (rules R215,
R251(d)). -/
theorem PacksFrame.arrives {tx : State} {order : List Nat} (hpack : PacksFrame tx sent) (htx : tx.params.gfPoly = 0x14D)
    (hp : rx.params.gfPoly = 0x14D) (hw : tx.rx.frameBps = 1 ∨ tx.rx.frameBps = 2) (hr : sent.rx.emitR.toNat ≤ 127)
    (hcan : rx.canDeliver) (hi : rx.cfg.activeTx.interp = 0) (hy : rx.tx.synced = false) (hwin : rx.tx.win = [])
    (hrx : ∀ b ∈ order, Receives rx b) (hsent : ∀ b ∈ order, b < 128 + sent.rx.emitR.toNat) (hnodup : order.Nodup)
    (henough : 128 ≤ order.length) :
    ∃ t rs, Machine.runAll (order.map fun b => .netRecv (sent.frameBlock b)) rx = some (t, rs) ∧
      Delivered rx sent (unpackExpand tx.rx.frameBps.toNat ((dataBodies sent.rx.fb).drop 1)) (order.length - 128) t := by
  obtain ⟨c, first, b, rest, rfl, hfirst⟩ : ∃ c first b rest, order = c :: first ++ b :: rest ∧ first.length = 126 := by
    obtain ⟨c, order, rfl⟩ := List.exists_cons_of_length_pos (l := order) (by omega)
    rw [List.length_cons] at henough
    refine ⟨c, order.take 126, order[126], order.drop 127, ?_, by rw [List.length_take]; omega⟩
    rw [List.cons_append, ← List.drop_eq_getElem_cons, List.take_append_drop]
  obtain ⟨hrxFirst, hrxRest⟩ := List.forall_mem_append.1 hrx
  obtain ⟨hrxb, hrxRest⟩ := List.forall_mem_cons.1 hrxRest
  obtain ⟨hnodupFirst, -, hdisjoint⟩ := List.nodup_append.1 hnodup
  have hsync : exec (.netRecv (sent.frameBlock c)) rx =
      exec (.netRecv (sent.frameBlock c)) (rx.syncedAt sent.rx.frameCtr) := by
    have hc := hrxFirst c List.mem_cons_self
    exact exec_acceptable_synchronises rfl hc.streaming (hc.acceptable sent)
      (frameBlock_fields sent (hc.bound.trans (by decide))).2.1 hy hwin
  obtain ⟨t, rs, hrun, ht⟩ := (collecting_syncedAt (sent := sent) hwin).runAll (l := c :: first) hrxFirst
    (by rw [List.append_nil, List.nodup_reverse]; exact hnodupFirst) (by rw [List.length_cons, List.length_nil]; omega)
  rw [List.map_cons, ← runAll_cons_congr hsync] at hrun
  rw [List.append_nil] at ht
  have hfree : b ∉ (c :: first).reverse := fun hb => hdisjoint b (List.mem_reverse.1 hb) b List.mem_cons_self rfl
  have hsentb : ∀ x ∈ b :: (c :: first).reverse, x < 128 + sent.rx.emitR.toNat := fun x hx => hsent x <| by
    rcases List.mem_cons.1 hx with rfl | hx
    · exact List.mem_append_right _ List.mem_cons_self
    · exact List.mem_append_left _ (List.mem_reverse.1 hx)
  obtain ⟨u, hu, hd⟩ := ht.completes hpack htx hp hw hr hcan hi hrxb hsentb hfree
    (by rw [List.length_reverse, List.length_cons, hfirst])
  obtain ⟨v, rs', hrest, hv⟩ := hd.runAll hrxRest
  have hcount : (c :: first ++ b :: rest).length - 128 = 0 + rest.length := by
    rw [List.length_append, List.length_cons, List.length_cons, hfirst]
    omega
  rw [hcount, List.map_append, List.map_cons, List.map_cons]
  exact ⟨v, _, runAll_append hrun (runAll_cons hu hrest), hv⟩

end

end Sys2Proof.Machine

namespace Sys2Proof

open Machine

/-- Settles O60: what is packed is a code word, what is sent are its blocks, the first 128 of them fill an entry of the window, and
any 128 blocks decode to the sender's bodies, whose meta body passes the checks. -/
theorem frameSurvivesErasures : Obligations.FrameSurvivesErasures := by
  refine ⟨fun tx sent u rx wall times rs order hexec hdone htx hp hw hr hlen hrun hall hnodup henough hsent hfec hcan hseq hi
    hy hwin => ?_, fun tx rx sent wall mask e hexec hdone htx hp hw hr hrising hbound henough hpresent hcount hbodies hfind hcan
    hi => ?_⟩
  · have hpack := packsFrame_of_done hexec hdone hr
    have hgrams := hpack.datagrams hr hlen hrun hall
    have hrx : ∀ b ∈ order, Receives rx b := fun b hb =>
      ⟨hcan.1, hseq, hfec b hb, Nat.lt_of_lt_of_le (hsent b hb) (by omega)⟩
    obtain ⟨t, rs', harrive, hd⟩ := hpack.arrives htx hp hw hr hcan hi hy hwin hrx hsent hnodup henough
    intro datagrams
    have hblock : ∀ b ∈ order, Instr.netRecv (datagrams.getD b []) = .netRecv (sent.frameBlock b) := fun b hb => by
      rw [show datagrams = _ from hgrams, List.getD_eq_getElem?_getD, List.getElem?_map, List.getElem?_range (hsent b hb),
        Option.map_some, Option.getD_some]
    refine ⟨by rw [show datagrams = _ from hgrams, List.length_map, List.length_range], t, rs', ?_, hd.ok, hd.late, ?_, hd.win, ?_⟩
    · rw [List.map_congr_left hblock]
      exact harrive
    · rw [hd.base, hpack.frameCtr]
    · rw [hd.vecs, hpack.dataBodies_drop]
  · have hpack := packsFrame_of_done hexec hdone hr
    subst hpresent
    have hdecode := hpack.decode hp htx hr hrising hbound henough hbodies
    obtain ⟨bank, r, wall', hmeta⟩ := hpack.head
    obtain ⟨t, ht, ha⟩ := txRetire_accepts hcan hi hfind (hcount ▸ henough)
      (fun b hb => Nat.lt_of_lt_of_le (hbound b hb) (by omega)) hw (by rw [hdecode, dataBodies_headD, hmeta])
    rw [hdecode, hpack.dataBodies_drop] at ha
    exact ⟨_, exec_txRetire hcan.1 ht, ha.ok, ha.base, ha.vecs⟩

end Sys2Proof
end

section
/-! PROOFS. The field laws of the erasure code (O48, rules R241, R244), and its parity bodies byte by byte (O49, rules R246, R251(a)
to (c)). -/

namespace Sys2Proof.Machine

/-! ### Inverses and Cauchy coefficients -/

section
variable {p : Params} (hp : p.gfPoly = 0x14D)
include hp

/-- A byte that is not 0 has one inverse (rule R241). -/
theorem gmul_eq_one_iff {a : Byte} (ha : a ≠ 0) (b : Byte) : gmul p a b = 1 ↔ b = ginv p a := by
  refine ⟨fun h => ?_, fun h => h ▸ gmul_ginv hp ha⟩
  calc b = gmul p (gmul p (ginv p a) a) b := by rw [gmul_comm hp _ a, gmul_ginv hp ha, gmul_comm hp, gmul_one hp]
    _ = ginv p a := by rw [gmul_assoc hp, h, gmul_one hp]

/-- The inverse is not 0, as its product with the byte is 1. -/
theorem ginv_ne_zero {a : Byte} (ha : a ≠ 0) : ginv p a ≠ 0 := by
  intro h0
  have hone := gmul_ginv hp ha
  rw [h0, gmul_zero] at hone
  exact absurd hone (by decide)

end

/-- The point of a parity block and that of a data block differ (rule R244). -/
theorem parityPoint_xor_dataPoint_ne_zero {i j : Nat} (hi : i ≤ 126) (hj : j ≤ 127) :
    BitVec.ofNat 8 (128 + i) ^^^ BitVec.ofNat 8 j ≠ (0 : Byte) := by
  intro h0
  have hpoints := congrArg BitVec.toNat (BitVec.xor_eq_zero_iff.1 h0)
  rw [BitVec.toNat_ofNat, BitVec.toNat_ofNat] at hpoints
  omega

/-- Cutting numbers to bytes commutes with exclusive-or. -/
theorem byte_ofNat_xor (a b : Nat) : BitVec.ofNat 8 (a ^^^ b) = BitVec.ofNat 8 a ^^^ BitVec.ofNat 8 b := by
  refine BitVec.eq_of_toNat_eq ?_
  rw [BitVec.toNat_xor, BitVec.toNat_ofNat, BitVec.toNat_ofNat, BitVec.toNat_ofNat, Nat.xor_mod_two_pow]

/-! ### Sums of bytes -/

/-- The exclusive-or of sums is the sum of the exclusive-ors, place by place. -/
theorem foldl_xor_map_xor {ι : Type} (l : List ι) (f g : ι → Byte) (a b : Byte) :
    (l.map fun j => f j ^^^ g j).foldl (fun x y => x ^^^ y) (a ^^^ b) =
      (l.map f).foldl (fun x y => x ^^^ y) a ^^^ (l.map g).foldl (fun x y => x ^^^ y) b := by
  induction l generalizing a b with
  | nil => rfl
  | cons j r ih =>
    simp only [List.map_cons, List.foldl_cons]
    rw [← ih, show a ^^^ b ^^^ (f j ^^^ g j) = a ^^^ f j ^^^ (b ^^^ g j) by ac_rfl]

theorem xorAll_map_xor {ι : Type} (l : List ι) (f g : ι → Byte) :
    xorAll (l.map fun j => f j ^^^ g j) = xorAll (l.map f) ^^^ xorAll (l.map g) := by
  have h := foldl_xor_map_xor l f g 0 0
  rwa [byte_xor_self] at h

theorem byteAt_zeroBody (k : Nat) : byteAt zeroBody k = 0 := by
  rw [byteAt, zeroBody, List.getD_eq_getElem?_getD, List.getElem?_replicate]
  split <;> rfl

/-! ### Parity bodies -/

section
variable {p : Params} {data data' : List (List Byte)}

/-- For any polynomial, a body combined from others (rules R246, R248), byte by byte. -/
theorem byteAt_combine_foldl (i : Nat) {l : List (Nat × List Byte)} {acc : List Byte}
    (hl : ∀ y ∈ l, y.2.length = acc.length) (k : Nat) :
    byteAt (combine p i l acc) k =
      (l.map fun y => gmul p (cauchy p i y.1) (byteAt y.2 k)).foldl (fun a b => a ^^^ b) (byteAt acc k) := by
  induction l generalizing acc with
  | nil => rfl
  | cons y r ih =>
    obtain ⟨j, d⟩ := y
    obtain ⟨hd, hr⟩ := List.forall_mem_cons.1 hl
    have hscaled : acc.length = (scaleBytes p (cauchy p i j) d).length := hd.symm.trans (scaleBytes_length p _ d).symm
    have hacc : (xorBytes acc (scaleBytes p (cauchy p i j) d)).length = acc.length := by
      rw [xorBytes_length, ← hscaled, Nat.min_self]
    rw [combine, ih (fun y hy => (hr y hy).trans hacc.symm), byteAt_xorBytes hscaled, byteAt_scaleBytes, List.map_cons,
      List.foldl_cons]

/-- For any polynomial, every byte of a parity body is the Cauchy combination of the same byte of the data bodies (rule R246). -/
theorem byteAt_parityBody_eq_xorAll (hbody : ∀ d ∈ data, d.length = 508) (i k : Nat) :
    byteAt (parityBody p data i) k =
      xorAll ((List.range data.length).map fun j => gmul p (cauchy p i j) (byteAt (data.getD j []) k)) := by
  have hlen : ∀ y ∈ indexed 0 data, y.2.length = zeroBody.length := fun y hy =>
    (hbody _ (indexed_snd hy)).trans List.length_replicate.symm
  rw [parityBody, byteAt_combine_foldl i hlen, byteAt_zeroBody, indexed_eq, List.map_map, xorAll]
  simp only [Function.comp_def, Nat.zero_add]

theorem fecEncode_getElem? (p : Params) (data : List (List Byte)) {m i : Nat} (hi : i < m) :
    (fecEncode p data m)[i]? = some (parityBody p data i) := by
  rw [fecEncode, List.getElem?_map, List.getElem?_range hi, Option.map_some]

/-- Fewer parity bodies are the first of more of them (rule R251(b)). -/
theorem fecEncode_eq_take (p : Params) (data : List (List Byte)) {m n : Nat} (h : m ≤ n) :
    fecEncode p data m = (fecEncode p data n).take m := by
  rw [fecEncode, fecEncode, ← List.map_take, List.take_range, Nat.min_eq_left h]

section
variable (hbody : ∀ d ∈ data, d.length = 508) (hbody' : ∀ d ∈ data', d.length = 508)
include hbody hbody'

theorem length_of_mem_zipWith_xorBytes : ∀ d ∈ List.zipWith xorBytes data data', d.length = 508 := by
  intro d hd
  obtain ⟨j, hj, rfl⟩ := List.mem_iff_getElem.1 hd
  rw [List.getElem_zipWith, xorBytes_length, hbody _ (List.getElem_mem _), hbody' _ (List.getElem_mem _), Nat.min_self]

variable (hlen : data.length = data'.length)
include hlen

theorem byteAt_zipWith_xorBytes {j : Nat} (hj : j < data.length) (k : Nat) :
    byteAt ((List.zipWith xorBytes data data').getD j []) k =
      byteAt (data.getD j []) k ^^^ byteAt (data'.getD j []) k := by
  have hj' : j < data'.length := hlen ▸ hj
  rw [List.getD_eq_getElem _ _ (by rw [List.length_zipWith, ← hlen, Nat.min_self]; exact hj), List.getElem_zipWith,
    List.getD_eq_getElem _ _ hj, List.getD_eq_getElem _ _ hj',
    byteAt_xorBytes ((hbody _ (List.getElem_mem hj)).trans (hbody' _ (List.getElem_mem hj')).symm)]

/-- A parity body is linear in the data bodies: `⊗` distributes over exclusive-or in every byte. -/
theorem parityBody_xor (i : Nat) :
    parityBody p (List.zipWith xorBytes data data') i = xorBytes (parityBody p data i) (parityBody p data' i) := by
  have hsum := length_of_mem_zipWith_xorBytes hbody hbody'
  have h := parityBody_length (p := p) (i := i) hbody
  have h' := parityBody_length (p := p) (i := i) hbody'
  refine bytes_ext (by rw [parityBody_length hsum, xorBytes_length, h, h', Nat.min_self]) fun k => ?_
  rw [byteAt_xorBytes (h.trans h'.symm), byteAt_parityBody_eq_xorAll hsum, byteAt_parityBody_eq_xorAll hbody,
    byteAt_parityBody_eq_xorAll hbody', List.length_zipWith, ← hlen, Nat.min_self, ← xorAll_map_xor]
  refine congrArg xorAll (List.map_congr_left fun j hj => ?_)
  rw [byteAt_zipWith_xorBytes hbody hbody' hlen (List.mem_range.1 hj), gmul_xor_right]

/-- `FEC.ENCODE` is linear (rule R251(a)). -/
theorem fecEncode_xor (m : Nat) :
    fecEncode p (List.zipWith xorBytes data data') m = List.zipWith xorBytes (fecEncode p data m) (fecEncode p data' m) := by
  unfold fecEncode
  rw [List.zipWith_map, List.zipWith_self]
  exact List.map_congr_left fun i _ => parityBody_xor hbody hbody' hlen i

end

end

end Sys2Proof.Machine

namespace Sys2Proof

open Machine

/-- Settles O48: the laws hold of bytes with one bit set and are linear, and the points of a parity and a data block differ. -/
theorem fieldLaws : Obligations.FieldLaws := by
  intro p hp
  have hinv : ∀ a b : Byte, a ≠ 0 → gmul Params.default a b = 1 → ginv p a = b := fun a b ha hab =>
    ((gmul_eq_one_iff hp ha b).1 (by rwa [gmul_eq_default hp])).symm
  refine ⟨gmul_comm hp, gmul_assoc hp, gmul_xor_right p, gmul_one hp, gmul_zero p, fun a ha b => gmul_eq_one_iff hp ha b,
    ?_, ?_, ?_, ?_, ?_, fun i j hi hj => ?_⟩
  · rw [gmul_eq_default hp]; decide
  · rw [gmul_eq_default hp]; decide
  · exact hinv 2 0xA6 (by decide) (by decide)
  · exact hinv 0x80 0x93 (by decide) (by decide)
  · exact hinv 0xFF 0x44 (by decide) (by decide)
  · have hne := parityPoint_xor_dataPoint_ne_zero hi hj
    refine ⟨ginv_ne_zero hp hne, ?_⟩
    rw [byte_ofNat_xor, gmul_comm hp]
    exact gmul_ginv hp hne

/-- Settles O49: each byte of a parity body is a sum of products, which is linear, and each body stands on its own. -/
theorem fecEncodeLaws : Obligations.FecEncodeLaws := by
  intro s data m hdata hbody hm
  obtain ⟨hlength, hparity⟩ := fecEncode_bodies (p := s.params) (m := m.toNat) hbody
  refine ⟨fecEncode s.params data m.toNat, rfl, hlength, fun i b hi _ => ?_, hparity, fecEncode_eq_take _ _ hm,
    fun data' hdata' hbody' => fecEncode_xor hbody hbody' (hdata.trans hdata'.symm) _⟩
  rw [List.getD_eq_getElem?_getD, fecEncode_getElem? _ _ hi, Option.getD_some, byteAt_parityBody_eq_xorAll hbody, hdata]

end Sys2Proof
end

section
/-! PROOFS. `FEC.DECODE` of the slots of its operand (O50, O51, rules R245, R247 to R249, R251(d) and (e)): the entry that they make
holds their bodies. -/

namespace Sys2Proof.Machine

/-! ### The entry that slots make -/

/-- An index above all others goes to the end. -/
theorem insertIndex_of_forall_lt {b : Nat} {l : List Nat} (h : ∀ a ∈ l, a < b) : insertIndex b l = l ++ [b] := by
  have hbelow : l.filter (fun x => decide (x < b)) = l := List.filter_eq_self.2 fun a ha => decide_eq_true (h a ha)
  have habove : l.filter (fun x => decide (b < x)) = [] :=
    List.filter_eq_nil_iff.2 fun a ha => by simpa using (h a ha).le
  rw [insertIndex, hbelow, habove]

theorem entryOfSlots_count (slots : List Slot) (e : WinEntry) : (entryOfSlots slots e).count = e.count + slots.length := by
  induction slots generalizing e with
  | nil => rfl
  | cons x r ih =>
    rw [entryOfSlots, ih, List.length_cons, Nat.add_comm r.length, ← Nat.add_assoc]
    rfl

/-- Rising slots behind those of the entry are populated in their order. -/
theorem entryOfSlots_present {slots : List Slot} (h : slots.Pairwise fun a b => a.blk.toNat < b.blk.toNat) {e : WinEntry}
    (he : ∀ a ∈ e.present, ∀ x ∈ slots, a < x.blk.toNat) :
    (entryOfSlots slots e).present = e.present ++ slots.map fun x => x.blk.toNat := by
  induction slots generalizing e with
  | nil => exact (List.append_nil _).symm
  | cons x r ih =>
    obtain ⟨hx, hr⟩ := List.pairwise_cons.1 h
    have hstore : (e.store x.blk.toNat x.body).present = e.present ++ [x.blk.toNat] :=
      insertIndex_of_forall_lt fun a ha => he a ha x List.mem_cons_self
    rw [entryOfSlots, ih hr, hstore, List.append_assoc]
    · rfl
    · intro a ha y hy
      rcases WinEntry.mem_store_present.1 ha with rfl | ha
      · exact hx y hy
      · exact he a ha y (List.mem_cons_of_mem _ hy)

/-- An entry that rising slots make has these populated. -/
theorem entryOfSlots_empty_present {slots : List Slot} (h : slots.Pairwise fun a b => a.blk.toNat < b.blk.toNat) (f : U16) :
    (entryOfSlots slots (WinEntry.empty f)).present = slots.map fun x => x.blk.toNat :=
  entryOfSlots_present h fun _ ha => absurd ha List.not_mem_nil

section
variable {slots : List Slot} (hbody : ∀ x ∈ slots, x.body.length = 508)
include hbody

/-- A block that no slot names keeps its body. -/
theorem entryOfSlots_bodyOf_ne {e : WinEntry} {b : Nat} (hb : ∀ x ∈ slots, b ≠ x.blk.toNat) :
    bodyOf (entryOfSlots slots e).body b = bodyOf e.body b := by
  induction slots generalizing e with
  | nil => rfl
  | cons x r ih =>
    obtain ⟨hx, hr⟩ := List.forall_mem_cons.1 hbody
    obtain ⟨hbx, hbr⟩ := List.forall_mem_cons.1 hb
    rw [entryOfSlots, ih hr hbr]
    exact bodyOf_write_ne _ _ _ _ hx hbx

/-- Each slot's body stands in its place. -/
theorem entryOfSlots_bodyOf (h : slots.Pairwise fun a b => a.blk.toNat < b.blk.toNat) {e : WinEntry} :
    ∀ x ∈ slots, bodyOf (entryOfSlots slots e).body x.blk.toNat = x.body := by
  induction slots generalizing e with
  | nil => exact nofun
  | cons x r ih =>
    obtain ⟨hx, hr⟩ := List.forall_mem_cons.1 hbody
    obtain ⟨hlt, hrising⟩ := List.pairwise_cons.1 h
    refine List.forall_mem_cons.2 ⟨?_, ih hr hrising⟩
    rw [entryOfSlots, entryOfSlots_bodyOf_ne hr fun y hy => (hlt y hy).ne]
    exact bodyOf_write_same _ _ _ hx

end

/-! ### `FEC.DECODE` -/

theorem exec_fecDecode_of_lt {slots : List Slot} (h : slots.length < 128) (s : State) :
    exec (.fecDecode slots) s = .next (s.ret .insufficientBlocks) :=
  if_pos (by rw [entryOfSlots_count]; exact (Nat.zero_add _).trans_lt h)

theorem exec_fecDecode_of_le {slots : List Slot} (h : 128 ≤ slots.length) (s : State) :
    exec (.fecDecode slots) s = .next (s.ret (.bodies (fecDecode s.params (entryOfSlots slots (WinEntry.empty 0))))) :=
  if_neg (by rw [entryOfSlots_count]; exact Nat.not_lt.2 (h.trans (Nat.zero_add _).ge))

/-- With all data blocks present these are the answer (rules R248, R251(e)). -/
theorem fecDecode_of_dataPresent (p : Params) {e : WinEntry} (h : ∀ j < 128, j ∈ e.present) :
    fecDecode p e = (List.range 128).map (bodyOf e.body) :=
  List.map_congr_left fun j hj => if_pos (List.contains_iff_mem.2 (h j (List.mem_range.1 hj)))

theorem byte_toNat_ofNat {b : Nat} (hb : b < 256) : (BitVec.ofNat 8 b).toNat = b := by
  rw [BitVec.toNat_ofNat, Nat.mod_eq_of_lt hb]

/-- The slots of the blocks `mask` of a word (rule R248). -/
def wordSlots (word : List (List Byte)) (mask : List Nat) : List Slot :=
  mask.map fun b => ⟨BitVec.ofNat 8 b, word.getD b []⟩

/-- The slots of all data blocks, which O50 writes with `zipIdx`. -/
theorem zipIdx_map_slot (data : List (List Byte)) :
    (data.zipIdx.map fun x => (⟨BitVec.ofNat 8 x.2, x.1⟩ : Slot)) = wordSlots data (List.range data.length) := by
  refine List.ext_getElem (by simp [wordSlots]) fun j hj _ => ?_
  rw [List.length_map, List.length_zipIdx] at hj
  simp [wordSlots, hj]

section
variable {word : List (List Byte)} {mask : List Nat}

theorem map_getD_range_length (word : List (List Byte)) : ((List.range word.length).map fun j => word.getD j []) = word := by
  refine List.ext_getElem (by simp) fun j hj hj' => ?_
  rw [List.getElem_map, List.getElem_range, List.getD_eq_getElem _ _ hj']

theorem wordSlots_body_length (hword : ∀ d ∈ word, d.length = 508) (hmask : ∀ b ∈ mask, b < word.length) :
    ∀ x ∈ wordSlots word mask, x.body.length = 508 := by
  refine List.forall_mem_map.2 fun b hb => ?_
  change (word.getD b []).length = 508
  rw [List.getD_eq_getElem _ _ (hmask b hb)]
  exact hword _ (List.getElem_mem _)

section
variable (hmask : ∀ b ∈ mask, b < 256)
include hmask

theorem wordSlots_map_blk : ((wordSlots word mask).map fun x => x.blk.toNat) = mask := by
  rw [wordSlots, List.map_map]
  exact (List.map_congr_left fun b hb => byte_toNat_ofNat (hmask b hb)).trans (List.map_id mask)

theorem wordSlots_rising (hrising : mask.Pairwise fun a b => a < b) :
    (wordSlots word mask).Pairwise fun a b => a.blk.toNat < b.blk.toNat := by
  rw [← List.pairwise_map (f := fun x : Slot => x.blk.toNat) (R := fun a b => a < b), wordSlots_map_blk hmask]
  exact hrising

/-- An entry that slots make holds the blocks of the word that are among them. -/
theorem entryOfSlots_bodyOf_word {slots : List Slot} (hbody : ∀ x ∈ slots, x.body.length = 508)
    (h : slots.Pairwise fun a b => a.blk.toNat < b.blk.toNat) (hsub : wordSlots word mask ⊆ slots) {e : WinEntry} :
    ∀ b ∈ mask, bodyOf (entryOfSlots slots e).body b = word.getD b [] := by
  intro b hb
  have hslot := entryOfSlots_bodyOf hbody h (e := e) _ (hsub (List.mem_map_of_mem hb))
  rwa [byte_toNat_ofNat (hmask b hb)] at hslot

end

/-- The blocks of a code word in the slots are an entry that holds the code word (rules R246, R248). -/
theorem entryOfSlots_holdsWord {p : Params} {data : List (List Byte)} {m : Nat} (hdata : data.length = 128)
    (hbody : ∀ d ∈ data, d.length = 508) (hm : m ≤ 127) (hrising : mask.Pairwise fun a b => a < b)
    (hmask : ∀ b ∈ mask, b < 128 + m) (henough : 128 ≤ mask.length) :
    (entryOfSlots (wordSlots (data ++ fecEncode p data m) mask) (WinEntry.empty 0)).HoldsWord p data m := by
  obtain ⟨hparity, hparityBody⟩ := fecEncode_bodies (p := p) (m := m) hbody
  have hbyte : ∀ b ∈ mask, b < 256 := fun b hb => (hmask b hb).trans (by omega)
  have hslots := wordSlots_rising (word := data ++ fecEncode p data m) hbyte hrising
  have hpresent : (entryOfSlots (wordSlots (data ++ fecEncode p data m) mask) (WinEntry.empty 0)).present = mask := by
    rw [entryOfSlots_empty_present hslots, wordSlots_map_blk hbyte]
  have hwordBody : ∀ d ∈ data ++ fecEncode p data m, d.length = 508 := List.forall_mem_append.2 ⟨hbody, hparityBody⟩
  have hlength : (data ++ fecEncode p data m).length = 128 + m := by rw [List.length_append, hdata, hparity]
  refine ⟨hpresent.symm ▸ hrising, hpresent.symm ▸ hmask, hpresent.symm ▸ henough, hpresent.symm ▸ ?_⟩
  exact entryOfSlots_bodyOf_word hbyte (wordSlots_body_length hwordBody fun b hb => hlength.symm ▸ hmask b hb) hslots
    (List.Subset.refl _)

end

/-- Data slots and any slots behind them decode to the data bodies (rule R251(e)). -/
theorem fecDecode_dataSlots_append (p : Params) {data : List (List Byte)} {parity : List Slot} (hdata : data.length = 128)
    (hbody : ∀ d ∈ data, d.length = 508) (hrising : parity.Pairwise fun a b => a.blk.toNat < b.blk.toNat)
    (hparity : ∀ x ∈ parity, 128 ≤ x.blk.toNat) (hparityBody : ∀ x ∈ parity, x.body.length = 508) :
    fecDecode p (entryOfSlots (wordSlots data (List.range 128) ++ parity) (WinEntry.empty 0)) = data := by
  have hbyte : ∀ b ∈ List.range 128, b < 256 := fun b hb => (List.mem_range.1 hb).trans (by decide)
  have hindex : ((wordSlots data (List.range 128)).map fun x => x.blk.toNat) = List.range 128 := wordSlots_map_blk hbyte
  have hblk : ∀ x ∈ wordSlots data (List.range 128), x.blk.toNat < 128 := fun x hx =>
    List.mem_range.1 (hindex ▸ List.mem_map_of_mem hx)
  have hslots := List.pairwise_append.2 ⟨wordSlots_rising (word := data) hbyte List.pairwise_lt_range, hrising,
    fun x hx y hy => (hblk x hx).trans_le (hparity y hy)⟩
  have hslotBody := List.forall_mem_append.2 ⟨wordSlots_body_length hbody fun b hb => hdata.symm ▸ List.mem_range.1 hb,
    hparityBody⟩
  rw [fecDecode_of_dataPresent]
  · rw [List.map_congr_left (entryOfSlots_bodyOf_word hbyte hslotBody hslots (List.subset_append_left _ _)), ← hdata,
      map_getD_range_length]
  · intro j hj
    rw [entryOfSlots_empty_present hslots, List.map_append, hindex]
    exact List.mem_append_left _ (List.mem_range.2 hj)

end Sys2Proof.Machine

namespace Sys2Proof

open Machine

/-- Settles O50: the present data blocks are not solved for, and the slots are counted. -/
theorem fecDecodeSystematic : Obligations.FecDecodeSystematic := by
  intro s data parity hdata hbody hrising hparity
  refine ⟨?_, fun slots _ hfew => exec_fecDecode_of_lt hfew s⟩
  have hindex : ∀ x ∈ parity, 128 ≤ x.blk.toNat := fun x hx => (hparity x hx).left
  have hparityBody : ∀ x ∈ parity, x.body.length = 508 := fun x hx =>
    have ⟨_, _, hlength⟩ := hparity x hx
    hlength
  have henough : 128 ≤ (wordSlots data (List.range 128) ++ parity).length := by simp [wordSlots]
  rw [zipIdx_map_slot, hdata, exec_fecDecode_of_le henough, fecDecode_dataSlots_append _ hdata hbody hrising hindex
    hparityBody]
  rfl

/-- Settles O51: the slots make an entry that holds the code word, and such an entry decodes to the data. -/
theorem fecRoundTrip : Obligations.FecRoundTrip := by
  intro s data m mask hp hdata hbody hm hrising hmask henough
  change exec (.fecDecode (wordSlots (data ++ fecEncode s.params data m) mask)) s = _
  rw [exec_fecDecode_of_le (by rw [wordSlots, List.length_map]; exact henough),
    fecDecode_of_holdsWord hp hdata hbody hm (entryOfSlots_holdsWord hdata hbody hm hrising hmask henough)]
  rfl

end Sys2Proof
end

section
/-! PROOFS. One send: the datagram, the pacing, the cursors and the counters, and the wait (O39, rule R272; log entry 5). -/

namespace Sys2Proof.Machine

section
variable {now : U64} {s t : State}

theorem sendReady_iff : sendReady now s = true ↔ s.rx.emitting = true ∧ s.rx.paceReadyAt ≤ now := by
  simp [sendReady]

/-- `NET.SEND` waits before its time and where nothing is being sent (log entry 5). -/
theorem netSend_waits (h : sendReady now s = false) : netSend now s = .error .noStep :=
  if_pos (by simp [h])

theorem exec_netSend (hl : s.ctl.lifecycle ≠ .stopped) : exec (.netSend now) s = finish s .done (netSend now s) :=
  unlessStopped_of_ne hl _

/-- A `NET.SEND` that answers that it was done sent a datagram. -/
theorem exec_netSend_done (h : exec (.netSend now) s = .next t) (hdone : t.io.result = .done) :
    ∃ u, netSend now s = .ok u ∧ t = u.ret .done := by
  obtain ⟨-, rfl⟩ | ⟨-, h⟩ := unlessStopped_eq_next.1 h
  · cases hdone
  obtain hsent | ⟨-, rfl⟩ := finish_eq_next.1 h
  · exact hsent
  · cases hdone

end

end Sys2Proof.Machine

namespace Sys2Proof

open Machine

/-- Settles O39: at its time the send is performed with the state of rule R272, whose test for the last block does not wrap below
block 255; elsewhere it waits. -/
theorem netSendEffect : Obligations.NetSendEffect := by
  intro now s hl
  refine ⟨fun he hpace hidx => ⟨?length, ?sends⟩, fun hwait => ?waits⟩
  case length =>
    rw [List.length_append, bodyOf_length]
    rfl
  case sends =>
    obtain ⟨t, ht⟩ := netSend_succeeds (sendReady_iff.2 ⟨he, hpace⟩) (Nat.lt_succ_of_le hidx)
    rw [exec_netSend hl, ht, finish_ok]
    obtain ⟨-, -, rfl⟩ := netSend_ok ht
    have hnext : (s.rx.emitIdx + 1).toNat = s.rx.emitIdx.toNat + 1 := by bv_omega
    simp only [hnext, blockBytes_eq, decide_eq_true_eq]
    rfl
  case waits =>
    have hready : sendReady now s = false := by
      rw [← Bool.not_eq_true, sendReady_iff, not_and_or]
      exact hwait.imp Bool.eq_false_iff.1 BitVec.not_le.2
    rw [exec_netSend hl, netSend_waits hready, finish_noStep]
    rfl

end Sys2Proof
end

section
/-! PROOFS. Two consecutive datagrams leave at least `TXDELAY` apart (O41, rules R272, R274): until the next datagram nothing but
`CTL.RESET` and `CTL.START` moves the time from which it may leave. -/

namespace Sys2Proof.Machine

section
variable {i : Instr} {s t u : State}

/-- From `s` to `t` no datagram was sent, and the time from which the next one may leave stayed. -/
structure KeepsPace (s t : State) : Prop where
  sent : t.io.sent = s.io.sent
  ready : t.rx.paceReadyAt = s.rx.paceReadyAt

theorem KeepsPace.refl (s : State) : KeepsPace s s := ⟨rfl, rfl⟩

theorem KeepsPace.trans (h : KeepsPace s t) (h' : KeepsPace t u) : KeepsPace s u :=
  ⟨h'.sent.trans h.sent, h'.ready.trans h.ready⟩

/-- Until a datagram is sent the pace is kept. -/
def PacedOrSent (s t : State) : Prop := KeepsPace s t ∨ s.io.sent.length < t.io.sent.length

theorem PacedOrSent.trans (h : PacedOrSent s t) (h' : PacedOrSent t u) : PacedOrSent s u := by
  rcases h, h' with ⟨h | h, h' | h'⟩
  · exact .inl (h.trans h')
  · rw [h.sent] at h'; exact .inr h'
  · rw [← h'.sent] at h; exact .inr h
  · exact .inr (h.trans h')

theorem PacedOrSent.ready_of_sent (h : PacedOrSent s t) (hs : t.io.sent = s.io.sent) :
    t.rx.paceReadyAt = s.rx.paceReadyAt := by
  rcases h with h | h
  · exact h.ready
  · rw [hs] at h; exact absurd h (Nat.lt_irrefl _)

/-! ### The parts of the Rx half -/

theorem decProcess_paceReadyAt (p : Params) (b : Bank) (x : Sample) (h : RxHalf) :
    (decProcess p b x h).1.paceReadyAt = h.paceReadyAt := by
  obtain ⟨_, _, hd⟩ := decProcess_writes p b x h
  rw [hd]

theorem packFrame_keepsPace {wall : Wall} (h : packFrame wall s = .ok t) : KeepsPace s t := by
  obtain ⟨fb, -, rfl⟩ := packFrame_ok h
  exact ⟨rfl, rfl⟩

theorem storeSample_keepsPace {y : Sample} {wall : Wall} (h : storeSample y wall s = .ok t) : KeepsPace s t := by
  obtain ⟨-, -, h⟩ := storeSample_ok h
  split at h
  · obtain ⟨hs, hr⟩ := packFrame_keepsPace h
    exact ⟨hs, hr⟩
  · subst h
    exact ⟨rfl, rfl⟩

theorem beginFrame_keepsPace (s : State) : KeepsPace s (beginFrame s) :=
  ⟨by rw [beginFrame_io], beginFrame_rx_paceReadyAt s⟩

theorem rxSample_keepsPace {x : Sample} {wall : Wall} (h : rxSample x wall s = .ok t) : KeepsPace s t := by
  refine (beginFrame_keepsPace s).trans ?_
  have hd := decProcess_paceReadyAt (beginFrame s).params (beginFrame s).cfg.activeRx x (beginFrame s).rx
  obtain ⟨-, ⟨-, rfl⟩ | ⟨y, -, h⟩⟩ := rxSample_ok h
  · exact ⟨rfl, hd⟩
  · obtain ⟨hs, hr⟩ := storeSample_keepsPace h
    exact ⟨hs, hr.trans hd⟩

theorem netSend_sends {now : U64} (h : netSend now s = .ok t) : s.io.sent.length < t.io.sent.length := by
  obtain ⟨-, -, rfl⟩ := netSend_ok h
  simp

/-! ### Every transition -/

theorem pushVec_keepsPace {q : QueueId} {v : List Sample} (h : pushVec q v s = .ok t) : KeepsPace s t := by
  refine ⟨?_, by rw [(pushVec_same h).rx]⟩
  obtain ⟨-, -, -, -, ⟨-, rfl⟩ | ⟨-, rfl⟩⟩ := pushVec_ok h <;> simp

theorem pullVec_keepsPace {q : QueueId} {v : List Sample} (h : pullVec q s = some (t, v)) : KeepsPace s t := by
  refine ⟨?_, by rw [(pullVec_same h).rx]⟩
  obtain ⟨-, ⟨rest, -, rfl⟩ | ⟨-, -, rfl, -⟩⟩ := pullVec_some h <;> simp

theorem QueueMove.keepsPace (h : QueueMove s t) : KeepsPace s t := by
  cases h with
  | push q v h => exact pushVec_keepsPace h
  | pull q v h => exact pullVec_keepsPace h
  | finish q => exact ⟨by simp, by simp⟩

/-- No lifecycle operation but `CTL.RESET` and `CTL.START` sets the pace back (rules R301 to R304). -/
theorem ControlMove.keepsPace (h : ControlMove i s t) (hreset : i ≠ .ctlReset) (hstart : ∀ devOk, i ≠ .ctlStart devOk) :
    KeepsPace s t := by
  cases h with
  | reset => exact absurd rfl hreset
  | start => exact absurd rfl (hstart true)
  | startFails => exact absurd rfl (hstart false)
  | stopStreaming | stopCreated | stopAgain | deviceError | drain => exact ⟨rfl, rfl⟩

theorem RxMove.pacedOrSent (h : RxMove i s t) : PacedOrSent s t := by
  cases h with
  | decimate x => exact .inl ⟨rfl, decProcess_paceReadyAt _ _ _ _⟩
  | mix x => exact .inl ⟨rfl, rfl⟩
  | clear => exact .inl ⟨rfl, rfl⟩
  | adopt hd => exact .inl ⟨by rw [rxAdopt_io], rxAdopt_rx_paceReadyAt s⟩
  | sample cur x wall hi h =>
    obtain ⟨hs, hr⟩ := rxSample_keepsPace h
    exact .inl ⟨hs, hr⟩
  | pack wall hf h => exact .inl (packFrame_keepsPace h)
  | send now h => exact .inr (netSend_sends h)
  | refill v h =>
    obtain ⟨hs, hr⟩ := pullVec_keepsPace h
    exact .inl ⟨hs, hr⟩

theorem TxMove.keepsPace (h : TxMove i s t) : KeepsPace s t := by
  rw [h.writes]
  exact ⟨rfl, rfl⟩

theorem Performs.pacedOrSent (h : Performs i s t) (hreset : i ≠ .ctlReset) (hstart : ∀ devOk, i ≠ .ctlStart devOk) :
    PacedOrSent s t := by
  cases h with
  | control h => exact .inl (h.keepsPace hreset hstart)
  | configure _ _ h => exact .inl ⟨h.same.sent, by rw [h.same.rx]⟩
  | queue h => exact .inl h.keepsPace
  | rx _ h => exact h.pacedOrSent
  | tx _ h => exact .inl h.keepsPace

theorem exec_pacedOrSent (h : exec i s = .next t) (hreset : i ≠ .ctlReset) (hstart : ∀ devOk, i ≠ .ctlStart devOk) :
    PacedOrSent s t := by
  obtain ⟨r, rfl | ⟨u, hu, rfl⟩⟩ := exec_performs h
  · exact .inl ⟨rfl, rfl⟩
  · exact (hu.pacedOrSent hreset hstart).trans (.inl ⟨rfl, rfl⟩)

theorem runAll_pacedOrSent {l : List Instr} {rs : List Result} (h : runAll l s = some (t, rs))
    (hl : ∀ i ∈ l, i ≠ .ctlReset ∧ ∀ devOk, i ≠ .ctlStart devOk) : PacedOrSent s t := by
  induction l generalizing s rs with
  | nil => cases h; exact .inl (.refl _)
  | cons i l ih =>
    obtain ⟨⟨hreset, hstart⟩, hl⟩ := List.forall_mem_cons.1 hl
    obtain ⟨u, rs', hu, hrun, -⟩ := runAll_cons_eq_some h
    exact (exec_pacedOrSent hu hreset hstart).trans (ih hrun hl)

/-! ### The send before and the send behind -/

/-- A send sets the time from which the next datagram may leave (rule R272). -/
theorem netSend_paceReadyAt {now : U64} (h : netSend now s = .ok t) :
    t.rx.paceReadyAt = now + s.cfg.activeRx.txdelay.setWidth 64 := by
  obtain ⟨-, -, rfl⟩ := netSend_ok h
  rfl

/-- A send is not performed before its time (rule R272). -/
theorem netSend_ready {now : U64} (h : netSend now s = .ok t) : s.rx.paceReadyAt ≤ now := by
  obtain ⟨hready, -, -⟩ := netSend_ok h
  obtain ⟨-, hpace⟩ := sendReady_iff.1 hready
  exact hpace

/-- Without a wrap of the clock the delay adds up in microseconds. -/
theorem toNat_add_delay {now : U64} {delay : U32} (h : now.toNat + delay.toNat < 2 ^ 64) :
    (now + delay.setWidth 64).toNat = now.toNat + delay.toNat := by
  rw [BitVec.toNat_add, BitVec.toNat_setWidth_of_le (by decide), Nat.mod_eq_of_lt h]

end

end Sys2Proof.Machine

namespace Sys2Proof

open Machine

/-- Settles O41: the first send sets the time, what runs behind it keeps the time while it sends nothing, and the second send
waits for it. -/
theorem pacingFloor : Obligations.PacingFloor := by
  intro s u v w t1 t2 l rs hfirst hfirstDone hl hrun hsent hsecond hsecondDone hclock
  obtain ⟨a, ha, rfl⟩ := exec_netSend_done hfirst hfirstDone
  obtain ⟨b, hb, -⟩ := exec_netSend_done hsecond hsecondDone
  have hkept : v.rx.paceReadyAt = a.rx.paceReadyAt := (runAll_pacedOrSent hrun hl).ready_of_sent hsent
  calc t1.toNat + s.cfg.activeRx.txdelay.toNat
      = (t1 + s.cfg.activeRx.txdelay.setWidth 64).toNat := (toNat_add_delay hclock).symm
    _ = v.rx.paceReadyAt.toNat := by rw [hkept, netSend_paceReadyAt ha]
    _ ≤ t2.toNat := netSend_ready hb

end Sys2Proof
end

section
/-! PROOFS. The lifecycle operations one by one (O7, O9, O10, rules R300 to R302, R304, R343). -/

namespace Sys2Proof.Machine

section
variable {s : State}

/-! ### `CTL.START` -/

/-- The width of the first frame follows the decimation alone, since the promotion does too (rules R173, R301). -/
theorem effectiveBps_promoted (b : Bank) :
    effectiveBps b (decide (1 ≤ b.decim.toNat)) = if 1 ≤ b.decim.toNat then 2 else b.bps := by
  simp only [effectiveBps, decide_eq_true_eq, or_self]

theorem exec_ctlStart (hl : s.ctl.lifecycle = .created) : exec (.ctlStart true) s = .next ((startStream s).ret .done) :=
  if_neg (not_not.2 hl)

theorem exec_ctlStart_failed (hl : s.ctl.lifecycle = .created) :
    exec (.ctlStart false) s =
      .next ((raise .deviceError { s with ctl := ⟨.stopped, .startupError, true⟩ }).ret .done) :=
  if_neg (not_not.2 hl)

theorem exec_ctlStart_refused (hl : s.ctl.lifecycle ≠ .created) (devOk : Bool) :
    exec (.ctlStart devOk) s = .refused .startOutsideCreated :=
  if_pos hl

/-! ### `CTL.STOP` -/

theorem exec_ctlStop_streaming (hl : s.ctl.lifecycle = .streaming) :
    exec .ctlStop s = .next (({ s with ctl := ⟨.draining, .stopSignal, true⟩ }).ret .done) := by
  change execCtlStop s = _
  simp only [execCtlStop, hl]

theorem exec_ctlStop_created (hl : s.ctl.lifecycle = .created) :
    exec .ctlStop s = .next (({ s with ctl := ⟨.stopped, .stopSignal, true⟩ }).ret .done) := by
  change execCtlStop s = _
  simp only [execCtlStop, hl]

/-- A second stop raises the flag and is ignored otherwise (rules R302, R343(b)). -/
theorem exec_ctlStop_again (hl : s.ctl.lifecycle = .draining ∨ s.ctl.lifecycle = .stopped) :
    exec .ctlStop s = .next (({ s with ctl := { s.ctl with stopFlag := true } }).ret .ignored) := by
  change execCtlStop s = _
  rcases hl with hl | hl <;> simp only [execCtlStop, hl]

/-! ### `CTL.DEVERR` -/

/-- The cause of a device error: before the start it is a startup error (rule R304). -/
def deviceCause (s : State) : StopCause := if s.ctl.lifecycle = .created then .startupError else .deviceError

theorem exec_ctlDeverr (hl : s.ctl.lifecycle ≠ .stopped) :
    exec .ctlDeverr s = .next ((deviceStop (deviceCause s) s).ret .done) := by
  change execCtlDeverr s = _
  cases h : s.ctl.lifecycle with
  | created | streaming | draining => simp only [execCtlDeverr, deviceCause, h, reduceCtorEq, if_true, if_false]
  | stopped => exact absurd h hl

theorem exec_ctlDeverr_stopped (hl : s.ctl.lifecycle = .stopped) : exec .ctlDeverr s = .next (s.ret .ignored) := by
  change execCtlDeverr s = _
  simp only [execCtlDeverr, hl]

end

end Sys2Proof.Machine

namespace Sys2Proof

open Machine

/-- Settles O7: `CTL.RESET` tests no lifecycle state. -/
theorem ctlResetEverywhere : Obligations.CtlResetEverywhere := fun _ => ⟨rfl, rfl⟩

/-- Settles O9: both branches of rule R301 in `Created`, the refusal elsewhere. -/
theorem ctlStartEffect : Obligations.CtlStartEffect := by
  refine fun s => ⟨fun hl => ⟨?started, exec_ctlStart_failed hl⟩, fun hl devOk => exec_ctlStart_refused hl devOk⟩
  case started =>
    rw [exec_ctlStart hl, ← effectiveBps_promoted]
    rfl

/-- Settles O10: the lifecycle states of `CTL.STOP` and `CTL.DEVERR` in turn. -/
theorem ctlStopAndDeverr : Obligations.CtlStopAndDeverr := fun _ =>
  ⟨exec_ctlStop_streaming, exec_ctlStop_created, exec_ctlStop_again, exec_ctlDeverr, exec_ctlDeverr_stopped⟩

end Sys2Proof
end

section
/-! PROOFS. The ranges of the registers and `CFG.WRITE` (O12, rules R293, R296, R305). -/

namespace Sys2Proof

open Machine

namespace Machine

/-! ### `RANGE` -/

section
variable {r : CfgReg} {v : Nat}

theorem clampTop_eq (top v : Nat) : clampTop top v = (min top v, if v ≤ top then .ok else .clamped) := by
  unfold clampTop
  split
  · next h => rw [Nat.min_eq_right h]
  · next h => rw [Nat.min_eq_left (Nat.le_of_not_le h)]

theorem selectOnly_of_iff {legal : Bool} {p : Prop} [Decidable p] (h : legal = true ↔ p) (v : Nat) :
    selectOnly legal v = if p then (v, .ok) else (v, .rejected .range) := by
  simp only [selectOnly, h]

/-- The registers that only select, by the ends of their range (rule R296). -/
theorem range_selects (hs : r.saturates = false) (v : Nat) :
    range r v = if r.low ≤ v ∧ v ≤ r.high then (v, .ok) else (v, .rejected .range) := by
  cases r with
  | txdelay | fecblk | decim | interp | ebits => cases hs
  | fcpos | freq | srate | bps =>
    refine selectOnly_of_iff ?_ v
    simp only [Bool.or_eq_true, decide_eq_true_eq, CfgReg.low, CfgReg.high]
    omega

/-- The registers that clamp, by the ends of their range (rule R296). -/
theorem range_saturates (hs : r.saturates = true) (v : Nat) :
    range r v = (max r.low (min r.high v), if r.low ≤ v ∧ v ≤ r.high then .ok else .clamped) := by
  cases r with
  | fcpos | freq | srate | bps => cases hs
  | txdelay | fecblk | decim | interp =>
    refine (clampTop_eq _ v).trans ?_
    simp only [CfgReg.low, CfgReg.high, Nat.zero_le, true_and, Nat.zero_max, Nat.reducePow, Nat.reduceSub]
  | ebits =>
    by_cases hv : v < 8
    · have hmax : max 8 (min 16 v) = 8 := by omega
      have hout : ¬(8 ≤ v ∧ v ≤ 16) := by omega
      simp only [range, CfgReg.low, CfgReg.high, if_pos hv, hmax, hout, if_false]
    · have hmax : max 8 (min 16 v) = min 16 v := by omega
      simp only [range, CfgReg.low, CfgReg.high, if_neg hv, clampTop_eq, hmax, Nat.le_of_not_lt hv, true_and]

/-- What `RANGE` accepts is the value in the range or the end next to it (rule R296). -/
theorem range_accepts (h : r.low ≤ v ∧ v ≤ r.high ∨ r.saturates = true) :
    range r v = (max r.low (min r.high v), if r.low ≤ v ∧ v ≤ r.high then .ok else .clamped) := by
  cases hs : r.saturates with
  | true => exact range_saturates hs v
  | false =>
    have hin : r.low ≤ v ∧ v ≤ r.high := h.resolve_right (by simp [hs])
    rw [range_selects hs, if_pos hin, if_pos hin, Nat.min_eq_right hin.2, Nat.max_eq_right hin.1]

/-- What `RANGE` rejects (rule R296). -/
theorem range_rejects (h : ¬(r.low ≤ v ∧ v ≤ r.high)) (hs : r.saturates = false) : range r v = (v, .rejected .range) := by
  rw [range_selects hs, if_neg h]

theorem CfgReg.low_le_high (r : CfgReg) : r.low ≤ r.high := by
  cases r <;> decide

/-- A register holds every value of its range (rules R30, R293, R294). -/
theorem Bank.read_write_self (b : Bank) (h : v ≤ r.high) : (b.write r v).read r = v := by
  cases r with
  | txdelay | fecblk | decim | interp | fcpos | freq | srate | bps | ebits =>
    exact (BitVec.toNat_ofNat ..).trans (Nat.mod_eq_of_lt (h.trans_lt (by decide)))

/-! ### `CFG.WRITE` -/

theorem ofCode_of_gt {reg : Byte} (h : 8 < reg.toNat) : CfgReg.ofCode reg = none := by
  unfold CfgReg.ofCode
  split
  case h_10 => rfl
  all_goals omega

theorem not_configurable {s : State} (hl : s.ctl.lifecycle = .draining ∨ s.ctl.lifecycle = .stopped) :
    configurable s = false := by
  rcases hl with hl | hl <;> simp [configurable, hl]

/-- No register is written in `Draining` and `Stopped` (rule R305). -/
theorem exec_cfgWrite_state {s : State} (hl : s.ctl.lifecycle = .draining ∨ s.ctl.lifecycle = .stopped) (reg : Byte)
    (v : Nat) : exec (.cfgWrite reg v) s = .next (s.ret (.outcome (.rejected .state))) :=
  if_pos (by simp [not_configurable hl])

/-- A number that is no configuration register (rule R293). -/
theorem exec_cfgWrite_unknown {s : State} (hl : s.ctl.lifecycle = .created ∨ s.ctl.lifecycle = .streaming) {reg : Byte}
    (h : 8 < reg.toNat) (v : Nat) : exec (.cfgWrite reg v) s = .next (s.ret (.outcome (.rejected .unknown))) := by
  have hc : configurable s = true := decide_eq_true hl
  change execCfgWrite reg v s = _
  simp only [execCfgWrite, hc, not_true_eq_false, if_false, ofCode_of_gt h]

theorem State.withWrite_of_accepted (s : State) {w : Nat} {o : CfgOutcome} (h : range r v = (w, o))
    (ho : o.accepted = true) : s.withWrite r v = updatePending (s.cfg.pending.write r w) s := by
  rw [State.withWrite, h, if_pos ho]

theorem State.withWrite_of_rejected (s : State) {w : Nat} {why : Reason} (h : range r v = (w, .rejected why)) :
    s.withWrite r v = s := by
  rw [State.withWrite, h]
  rfl

end

end Machine

/-- Settles O12: `RANGE` by the ends of the register's range, and the write of what it accepts. -/
theorem cfgWriteRange : Obligations.CfgWriteRange := by
  intro s v
  refine ⟨fun hl => ⟨fun r => ⟨fun h => ?accepted, fun ⟨hout, hs⟩ => ?rejected⟩, fun reg h => exec_cfgWrite_unknown hl h v⟩,
    fun hl reg => exec_cfgWrite_state hl reg v⟩
  case accepted =>
    have hrange := range_accepts h
    have hhigh : max r.low (min r.high v) ≤ r.high := max_le (CfgReg.low_le_high r) (min_le_left _ _)
    refine ⟨_, ?_, Bank.read_write_self s.cfg.pending hhigh, fun r' hne => Bank.read_write_ne _ r r' _ hne⟩
    rw [exec_cfgWrite_code hl, State.withWrite_of_accepted s hrange (by split <;> rfl), hrange]
    rfl
  case rejected =>
    have hrange := range_rejects hout hs
    rw [exec_cfgWrite_code hl, State.withWrite_of_rejected s hrange, hrange]
    rfl

end Sys2Proof
end

section
/-! PROOFS. The configuration operations touch the pending bank, its sequence number, the trace and the answer (O19, rules R290,
R305, R345). -/

namespace Sys2Proof

open Machine

namespace Machine

/-! ### What a configuration operation runs -/

section
variable {i : Instr} {s t : State}

/-- What a configuration operation does from `s` to `t`: it answers and changes nothing, or, where configuration is accepted, it
configures and answers. -/
def AnswersConfiguration (s t : State) : Prop :=
  ∃ r, t = s.ret r ∨ ∃ u, configurable s = true ∧ Configures s u ∧ t = u.ret r

theorem execCfgWrite_answersConfiguration (reg : Byte) (v : Nat) (s : State) :
    ∃ t, execCfgWrite reg v s = .next t ∧ AnswersConfiguration s t := by
  unfold execCfgWrite
  split
  · exact ⟨_, rfl, _, .inl rfl⟩
  next hc =>
  split
  · exact ⟨_, rfl, _, .inl rfl⟩
  next reg _ =>
  dsimp only
  split
  · next ha => exact ⟨_, rfl, _, .inr ⟨_, not_not.1 hc, .write reg v ha, rfl⟩⟩
  · exact ⟨_, rfl, _, .inl rfl⟩

theorem execCfgRead_answersConfiguration (reg : Byte) (s : State) :
    ∃ t, execCfgRead reg s = .next t ∧ AnswersConfiguration s t := by
  unfold execCfgRead
  split <;> exact ⟨_, rfl, _, .inl rfl⟩

theorem configure_answersConfiguration (msg : List Byte) (dev : List DevAnswer) (s : State) :
    ∃ t, configure msg dev s = .next t ∧ AnswersConfiguration s t := by
  obtain ⟨t, ht⟩ := configure_completes msg dev s
  obtain ⟨hc, rfl⟩ | ⟨-, rfl⟩ := configure_eq_next ht
  · exact ⟨_, ht, _, .inr ⟨_, hc, .message msg dev, rfl⟩⟩
  · exact ⟨_, ht, _, .inl rfl⟩

/-- No configuration operation stops the machine (rules R290, R345). -/
theorem exec_configuration (hi : i.isConfiguration = true) (s : State) :
    ∃ t, exec i s = .next t ∧ AnswersConfiguration s t := by
  cases i with
  | ctlReset | ctlStart | ctlStop | ctlDeverr | sbPush | sbPull | sbEnd | sbWaitfill | sbQueued | decProcess | intProcess
  | dspReset | mixFs4 | rxwStep | rxAdopt | rxSample | packFrame | crc32 | netRecv | txAdopt | txRetire | unpackExpand
  | fecEncode | fecDecode | netSend | blkMeta | blkSample | blkParity => cases hi
  | cfgWrite reg v => exact execCfgWrite_answersConfiguration reg v s
  | cfgRead reg => exact execCfgRead_answersConfiguration reg s
  | _ => exact configure_answersConfiguration _ _ s

/-! ### What it touches -/

/-- From `s` to `t` nothing moved but the pending bank, its sequence number, the trace and the answer: in `Draining` and
`Stopped` the answer alone, and the bank only where the sequence number counts it. -/
def TouchesConfiguration (s t : State) : Prop :=
  ∃ (b : Bank) (n : U32) (e : List ErrorEvent) (r : Result),
    t = { s with cfg.pending := b, cfg.seqP := n, io.errors := e, io.result := r } ∧
      (s.ctl.lifecycle = .draining ∨ s.ctl.lifecycle = .stopped →
        b = s.cfg.pending ∧ n = s.cfg.seqP ∧ e = s.io.errors) ∧
      (n = s.cfg.seqP → b = s.cfg.pending)

theorem touchesConfiguration_ret (s : State) (r : Result) : TouchesConfiguration s (s.ret r) :=
  ⟨s.cfg.pending, s.cfg.seqP, s.io.errors, r, rfl, fun _ => ⟨rfl, rfl, rfl⟩, fun _ => rfl⟩

/-- An update counts, so that the bank may move. -/
theorem touchesConfiguration_updatePending (hc : configurable s = true) (b : Bank) (r : Result) :
    TouchesConfiguration s ((updatePending b s).ret r) := by
  refine ⟨b, s.cfg.seqP + 1, s.io.errors, r, rfl, fun hl => ?_, fun hn => absurd (add_eq_left.1 hn) (by decide)⟩
  rw [not_configurable hl] at hc
  cases hc

/-- A parse failure is traced alone: `ConfigParseError` has no counter (rule R332). -/
theorem touchesConfiguration_parseFailure (hc : configurable s = true) (r : Result) :
    TouchesConfiguration s ((raise .configParse s).ret r) := by
  refine ⟨s.cfg.pending, s.cfg.seqP, s.io.errors ++ [.configParse], r, rfl, fun hl => ?_, fun _ => rfl⟩
  rw [not_configurable hl] at hc
  cases hc

theorem touchesConfiguration_applyItems (hc : configurable s = true) (items : List Item) (r : Result) :
    TouchesConfiguration s ((applyItems items s).ret r) := by
  unfold applyItems
  dsimp only
  split
  · exact touchesConfiguration_updatePending hc _ r
  · exact touchesConfiguration_ret s r

theorem Configures.touchesConfiguration (hc : configurable s = true) (h : Configures s t) (r : Result) :
    TouchesConfiguration s (t.ret r) := by
  cases h with
  | write => exact touchesConfiguration_updatePending hc _ r
  | message msg dev =>
    rcases applyMessage_cases msg dev s with ⟨r', h⟩ | ⟨items, -, h⟩
    · rw [h]
      exact touchesConfiguration_parseFailure hc r
    · rw [h]
      exact touchesConfiguration_applyItems hc items r

theorem AnswersConfiguration.touches (h : AnswersConfiguration s t) : TouchesConfiguration s t := by
  obtain ⟨r, rfl | ⟨u, hc, hu, rfl⟩⟩ := h
  · exact touchesConfiguration_ret s r
  · exact hu.touchesConfiguration hc r

/-! ### A key is the message of its one item -/

/-- A `KEY` operation is the `CFG.APPLY` of its one item; a key that is not device-level asks no device (log entry 15). -/
theorem exec_keyInstr (k : Key) (val : Option (List Byte)) (dev : Option DevAnswer) (s : State) :
    exec (keyInstr k val dev) s = exec (.cfgApply (keyValue k.word val) (if k.deviceLevel then dev.toList else [])) s := by
  rw [← itemText_eq]
  cases k <;> rfl

end

end Machine

/-- Settles O19: every configuration operation answers or configures, and a key is the message of its one item. -/
theorem controlOutsideDataPath : Obligations.ControlOutsideDataPath := by
  refine ⟨fun i s hi => ?_, exec_keyInstr⟩
  obtain ⟨t, ht, hanswers⟩ := exec_configuration hi s
  obtain ⟨b, n, e, r, rfl, hquiet, hcounted⟩ := hanswers.touches
  exact ⟨b, n, e, r, ht, hquiet, hcounted⟩

end Sys2Proof
end

section
/-! PROOFS. The device-level keys (O17, O18, rules R101, R103, R297 line 7, R298). -/

namespace Sys2Proof

open Machine

namespace Machine

/-! ### What one item does -/

section
variable {it : Item} {o : CfgOutcome}

/-- An item without a register answers only. -/
theorem State.withItem_of_none (s : State) (h : it.effect = (o, none)) :
    s.withItem it = s.ret (.reply (replyItem it.text o)) := by
  rw [State.withItem, Item.write_of_none (congrArg Prod.snd h), Item.changes, h]
  rfl

/-- An item that writes a register counts one update. -/
theorem State.withItem_of_some (s : State) {r : CfgReg} {v : Nat} (h : it.effect = (o, some (r, v))) :
    s.withItem it = (updatePending (s.cfg.pending.write r v) s).ret (.reply (replyItem it.text o)) := by
  rw [State.withItem, Item.write_of_some (congrArg Prod.snd h), Item.changes, h]
  rfl

end

/-! ### `DEVICE_KEY` -/

section
variable {k : Key} {r : CfgReg} {v : Nat} {a : Option DevAnswer}

theorem deviceKey_of_none (hr : k.reg = none) (v : Nat) (a : Option DevAnswer) : deviceKey k v a = (deviceOutcome a, none) := by
  rw [deviceKey, hr]

/-- A value that the register rejects is not shown to the device. -/
theorem deviceKey_of_range (hr : k.reg = some r) (h : (range r v).2 = .rejected .range) (a : Option DevAnswer) :
    deviceKey k v a = (.rejected .range, none) := by
  simp only [deviceKey, hr, h]
  rfl

theorem deviceKey_of_rejected (hr : k.reg = some r) (h : (range r v).2.accepted = true) {why : Reason}
    (ha : deviceOutcome a = .rejected why) : deviceKey k v a = (.rejected why, none) := by
  simp only [deviceKey, hr, h, ha, not_true_eq_false, if_false]
  rfl

/-- What the device accepts is recorded as it reads back. -/
theorem deviceKey_of_accepted (hr : k.reg = some r) (h : (range r v).2.accepted = true)
    (ha : (deviceOutcome a).accepted = true) : deviceKey k v a = (deviceOutcome a, some (r, readBack r v a)) := by
  simp only [deviceKey, hr, h, ha, not_true_eq_false, if_false]

end

end Machine

/-! ### The message of a device-level key -/

section
variable {s : State} {k : Key} {val : Option (List Byte)} {dev : Option DevAnswer} {v : Nat} {o : CfgOutcome}

/-- The assignment of a device-level key, with the device's answer (rules R101, R298). -/
def deviceAssignment (k : Key) (val : Option (List Byte)) (dev : Option DevAnswer) : Assignment :=
  { keyAssignment k val with answer := dev }

/-- The text of a key's item that may stand in a message: a number, or for `file` any text without a comma (rule R103). -/
structure IsDeviceItem (k : Key) (val : Option (List Byte)) : Prop where
  device : k.group = .device
  wf : (keyAssignment k val).wf = true
  value : (keyAssignment k val).badValue = false

theorem isDeviceItem_number (hk : k.group = .device) (hf : k ≠ .file) (h : numberOf val = some v) : IsDeviceItem k val :=
  ⟨hk, keyAssignment_wf h, (keyAssignment_good h hf).value⟩

theorem keyAssignment_file_wf (h : comma ∉ val.getD []) : (keyAssignment .file val).wf = true := by
  obtain ⟨hcomma, hequals, hne⟩ := keyText_no_separator .file
  refine Assignment.wf_iff.2 ⟨⟨hne, hequals⟩, ?_⟩
  cases val with
  | none => exact hcomma
  | some t =>
    simp only [keyAssignment, Assignment.text, keyValue, List.mem_append, List.mem_singleton, not_or]
    exact ⟨⟨hcomma, by decide⟩, h⟩

theorem isDeviceItem_file (h : comma ∉ val.getD []) : IsDeviceItem .file val := ⟨rfl, keyAssignment_file_wf h, rfl⟩

theorem IsDeviceItem.good (h : IsDeviceItem k val) (dev : Option DevAnswer) : (deviceAssignment k val dev).Good where
  wf := h.wf
  value := h.value
  answer hlevel := by
    have hword : (deviceAssignment k val dev).deviceLevel = k.deviceLevel := by
      rw [Assignment.deviceLevel, deviceAssignment, keyAssignment, keyOfWord_word, Option.any_some]
    rw [hword, (Key.deviceLevel_iff k).2 h.device] at hlevel
    cases hlevel

/-- The effect of a numeric device-level item is `DEVICE_KEY` of its number (rules R297 line 7, R298). -/
theorem effect_deviceAssignment (hk : k.group = .device) (hf : k ≠ .file) (h : numberOf val = some v) :
    (deviceAssignment k val dev).item.effect = deviceKey k v dev := by
  have hclass : (deviceAssignment k val dev).item.cls = .number k v := keyAssignment_class h hf
  rw [Item.effect, hclass]
  exact if_pos hk

theorem effect_deviceAssignment_file (h : comma ∉ val.getD []) :
    (deviceAssignment .file val dev).item.effect = (deviceOutcome dev, none) := by
  have hclass : (deviceAssignment .file val dev).item.cls = .text .file :=
    classify_file (keyAssignment_file_wf h) (keyOfWord_word .file)
  rw [Item.effect, hclass]
  rfl

theorem replyItem_deviceAssignment (h : IsDeviceItem k val) (dev : Option DevAnswer) (o : CfgOutcome) :
    replyItem (deviceAssignment k val dev).item.text o = k.word ++ ascii ['='] ++ outcomeWord o := by
  rw [replyItem, outcomeWord_eq, List.append_assoc]
  exact congrArg (· ++ equals :: o.text) (Assignment.itemKey_text h.wf)

/-- A device-level `KEY` operation is the message of its one item, with the device's answer (rule R297; log entry 15). -/
theorem exec_deviceKey (h : IsDeviceItem k val) (hl : s.ctl.lifecycle = .created ∨ s.ctl.lifecycle = .streaming)
    (hlen : (keyValue k.word val).length ≤ 4096) (dev : Option DevAnswer) :
    exec (keyInstr k val dev) s = .next (s.withItem (deviceAssignment k val dev).item) := by
  rw [exec_keyInstr, if_pos ((Key.deviceLevel_iff k).2 h.device), ← applyItems_singleton]
  exact exec_cfgApply_item hl (h.good dev) hlen

/-- The operation answers only. -/
theorem exec_deviceKey_of_none (h : IsDeviceItem k val) (hl : s.ctl.lifecycle = .created ∨ s.ctl.lifecycle = .streaming)
    (hlen : (keyValue k.word val).length ≤ 4096) (he : (deviceAssignment k val dev).item.effect = (o, none)) :
    exec (keyInstr k val dev) s = .next (s.ret (.reply (k.word ++ ascii ['='] ++ outcomeWord o))) := by
  rw [exec_deviceKey h hl hlen, State.withItem_of_none s he, replyItem_deviceAssignment h]

/-- The operation writes a register. -/
theorem exec_deviceKey_of_some (h : IsDeviceItem k val) (hl : s.ctl.lifecycle = .created ∨ s.ctl.lifecycle = .streaming)
    (hlen : (keyValue k.word val).length ≤ 4096) {r : CfgReg} {w : Nat}
    (he : (deviceAssignment k val dev).item.effect = (o, some (r, w))) :
    exec (keyInstr k val dev) s =
      .next ((updatePending (s.cfg.pending.write r w) s).ret (.reply (k.word ++ ascii ['='] ++ outcomeWord o))) := by
  rw [exec_deviceKey h hl hlen, State.withItem_of_some s he, replyItem_deviceAssignment h]

end

/-! ### The keys of `FREQ` and `SRATE` -/

/-- A device-level key of a register (rule R101). -/
structure IsDeviceRegister (k : Key) (r : CfgReg) : Prop where
  device : k.group = .device
  reg : k.reg = some r

section
variable {s : State} {k : Key} {r : CfgReg} {val : Option (List Byte)} {v : Nat} {dev : Option DevAnswer}

theorem isDeviceRegister_freq : IsDeviceRegister .freq .freq := ⟨rfl, rfl⟩

theorem isDeviceRegister_srate : IsDeviceRegister .srate .srate := ⟨rfl, rfl⟩

theorem IsDeviceRegister.ne_file (hk : IsDeviceRegister k r) : k ≠ .file := by
  rintro rfl
  cases hk.reg

variable (hk : IsDeviceRegister k r) (hl : s.ctl.lifecycle = .created ∨ s.ctl.lifecycle = .streaming)
  (hv : numberOf val = some v)
include hk hl hv

theorem exec_deviceRegister_range (h : range r v = (v, .rejected .range)) (dev : Option DevAnswer)
    (hlen : (keyValue k.word val).length ≤ 4096) :
    exec (keyInstr k val dev) s = .next (s.ret (.reply (k.word ++ ascii ['='] ++ outcomeWord (.rejected .range)))) :=
  exec_deviceKey_of_none (isDeviceItem_number hk.device hk.ne_file hv) hl hlen
    ((effect_deviceAssignment hk.device hk.ne_file hv).trans (deviceKey_of_range hk.reg (congrArg Prod.snd h) dev))

theorem exec_deviceRegister_rejected (h : range r v = (v, .ok)) {why : Reason} (ha : deviceOutcome dev = .rejected why)
    (hlen : (keyValue k.word val).length ≤ 4096) :
    exec (keyInstr k val dev) s = .next (s.ret (.reply (k.word ++ ascii ['='] ++ outcomeWord (.rejected why)))) :=
  exec_deviceKey_of_none (isDeviceItem_number hk.device hk.ne_file hv) hl hlen
    ((effect_deviceAssignment hk.device hk.ne_file hv).trans (deviceKey_of_rejected hk.reg (by rw [h]; rfl) ha))

theorem exec_deviceRegister_accepted (h : range r v = (v, .ok)) (ha : (deviceOutcome dev).accepted = true)
    (hlen : (keyValue k.word val).length ≤ 4096) :
    exec (keyInstr k val dev) s =
      .next ((updatePending (s.cfg.pending.write r (readBack r v dev)) s).ret
        (.reply (k.word ++ ascii ['='] ++ outcomeWord (deviceOutcome dev)))) :=
  exec_deviceKey_of_some (isDeviceItem_number hk.device hk.ne_file hv) hl hlen
    ((effect_deviceAssignment hk.device hk.ne_file hv).trans (deviceKey_of_accepted hk.reg (by rw [h]; rfl) ha))

end

theorem range_freq_of_lt {v : Nat} (h : v < 2 ^ 64) : range .freq v = (v, .ok) := if_pos (decide_eq_true h)

theorem range_freq_of_le {v : Nat} (h : 2 ^ 64 ≤ v) : range .freq v = (v, .rejected .range) :=
  if_neg (by simpa using h)

theorem range_srate_of_lt {v : Nat} (h : v < 2 ^ 32) : range .srate v = (v, .ok) := if_pos (decide_eq_true h)

theorem range_srate_of_le {v : Nat} (h : 2 ^ 32 ≤ v) : range .srate v = (v, .rejected .range) :=
  if_neg (by simpa using h)

/-- `FREQ` takes what the device reports (rule R298). -/
theorem write_freq_readBack (b : Bank) (v : Nat) (a : DevAnswer) :
    b.write .freq (readBack .freq v (some a)) = { b with freq := a.frequency } :=
  congrArg (fun f => { b with freq := f }) ((BitVec.ofNat_toNat _ _).trans (BitVec.setWidth_eq _))

/-- `SRATE` takes what the device reports (rule R298). -/
theorem write_srate_readBack (b : Bank) (v : Nat) (a : DevAnswer) :
    b.write .srate (readBack .srate v (some a)) = { b with srate := a.sampleRate } :=
  congrArg (fun f => { b with srate := f }) ((BitVec.ofNat_toNat _ _).trans (BitVec.setWidth_eq _))

/-- The outcome of a device that does not reject (rule R298). -/
theorem deviceOutcome_of_accepted {o : DevOutcome} (ho : o = .ok ∨ o = .clamped) (f : U64) (r : U32) :
    deviceOutcome (some ⟨o, f, r⟩) = if o = .ok then .ok else .clamped := by
  rcases ho with rfl | rfl <;> rfl

/-- Settles O17: the register's range, then the device's outcome, then what the device reads back. -/
theorem keyFreqSrate : Obligations.KeyFreqSrate := by
  intro s val v dev hl hv answered unchanged
  refine ⟨fun h => ?freqRange, fun h => ?srateRange, fun text f r hdev => ?rejected, fun o f r ho hdev => ?accepted,
    fun hdev => ?ideal⟩
  case freqRange => exact exec_deviceRegister_range isDeviceRegister_freq hl hv (range_freq_of_le h) dev
  case srateRange => exact exec_deviceRegister_range isDeviceRegister_srate hl hv (range_srate_of_le h) dev
  case rejected =>
    subst hdev
    exact ⟨fun h => exec_deviceRegister_rejected isDeviceRegister_freq hl hv (range_freq_of_lt h) rfl,
      fun h => exec_deviceRegister_rejected isDeviceRegister_srate hl hv (range_srate_of_lt h) rfl⟩
  case accepted =>
    subst hdev
    have hword := deviceOutcome_of_accepted ho f r
    have haccepted : (deviceOutcome (some ⟨o, f, r⟩)).accepted = true := by rcases ho with rfl | rfl <;> rfl
    refine ⟨fun h hlen => ?_, fun h hlen => ?_⟩
    · have hexec := exec_deviceRegister_accepted isDeviceRegister_freq hl hv (range_freq_of_lt h) haccepted hlen
      rwa [write_freq_readBack, hword] at hexec
    · have hexec := exec_deviceRegister_accepted isDeviceRegister_srate hl hv (range_srate_of_lt h) haccepted hlen
      rwa [write_srate_readBack, hword] at hexec
  case ideal =>
    subst hdev
    exact ⟨fun h => exec_deviceRegister_accepted isDeviceRegister_freq hl hv (range_freq_of_lt h) rfl,
      fun h => exec_deviceRegister_accepted isDeviceRegister_srate hl hv (range_srate_of_lt h) rfl⟩

/-! ### The keys without a register -/

/-- The device-level keys without a register, in the order of the table of rule R101. -/
def relayedKeys : List Key := Key.all.filter fun k => k.deviceLevel && k.reg.isNone

theorem mem_relayedKeys {k : Key} (h : k ∈ relayedKeys) : k.group = .device ∧ k.reg = none := by
  simpa [Key.deviceLevel_iff] using List.of_mem_filter h

/-- A device-level key without a register relays the device's outcome (rule R298). -/
theorem exec_relayedKey {s : State} {k : Key} {val : Option (List Byte)} (hk : k ∈ relayedKeys)
    (hl : s.ctl.lifecycle = .created ∨ s.ctl.lifecycle = .streaming)
    (hval : if k = .file then comma ∉ val.getD [] else numberOf val ≠ none)
    (hlen : (keyValue k.word val).length ≤ 4096) (dev : Option DevAnswer) :
    exec (keyInstr k val dev) s =
      .next (s.ret (.reply (k.word ++ ascii ['='] ++ outcomeWord (deviceOutcome dev)))) := by
  obtain ⟨hgroup, hreg⟩ := mem_relayedKeys hk
  by_cases hf : k = .file
  · subst hf
    rw [if_pos rfl] at hval
    exact exec_deviceKey_of_none (isDeviceItem_file hval) hl hlen (effect_deviceAssignment_file hval)
  · rw [if_neg hf] at hval
    obtain ⟨v, hv⟩ := Option.ne_none_iff_exists'.1 hval
    have heffect := (effect_deviceAssignment hgroup hf hv).trans (deviceKey_of_none hreg v dev)
    exact exec_deviceKey_of_none (isDeviceItem_number hgroup hf hv) hl hlen heffect

/-- Settles O18: an item without a register answers what the device answered. -/
theorem keyRelaysDevice : Obligations.KeyRelaysDevice := by
  intro x hx s val dev hl hval hlen
  replace hx : x ∈ relayedKeys.map fun k => (keyInstr k, k) := hx
  obtain ⟨k, hk, rfl⟩ := List.mem_map.1 hx
  refine ⟨deviceOutcome dev, exec_relayedKey hk hl hval hlen dev, fun hdev => ?_, fun a hdev => ?_⟩
  · rw [hdev]
    rfl
  · subst hdev
    refine ⟨fun h => ?_, fun h => ?_, fun text h => ?_⟩ <;> simp only [deviceOutcome, h]

end Sys2Proof
end

section
/-! PROOFS. The state after `CTL.RESET` and at power-on (O6, rules R300, R305, R370), and after `CTL.START` (O8, rules
R301, R371). -/

namespace Sys2Proof.Machine

section
variable {s : State}

/-! ### A reset state -/

theorem ret_initial (p : Params) (io : Io) (r : Result) :
    (State.initial p io).ret r = State.initial p { io with result := r } := rfl

theorem exec_ctlReset (s : State) : exec .ctlReset s = .next ((State.initial s.params s.io).ret .done) := rfl

/-- Power-on and `CTL.RESET` leave one state, for given parameters and ports (rule R370). -/
theorem exists_eq_initial (h : s = State.reset ∨ ∃ u, exec .ctlReset u = .next s) : ∃ p io, s = State.initial p io := by
  rcases h with rfl | ⟨u, hu⟩
  · exact ⟨_, _, rfl⟩
  · rw [exec_ctlReset] at hu
    cases hu
    exact ⟨_, _, ret_initial u.params u.io .done⟩

/-- The delay lines of the decimator at reset: six stages of zeros, their parity even (rules R45, R150). -/
theorem decReset_stages (p : Params) :
    (decReset p).length = 6 ∧
      ∀ st ∈ decReset p, st.par = false ∧ st.d = List.replicate p.hbTaps.length ⟨0, 0⟩ := by
  refine ⟨List.length_replicate, fun st hst => ?_⟩
  obtain rfl := List.eq_of_mem_replicate hst
  exact ⟨rfl, rfl⟩

/-- The delay lines of the interpolator at reset: six lines of zeros (rules R46, R150). -/
theorem intReset_stages (p : Params) :
    (intReset p).length = 6 ∧ ∀ d ∈ intReset p, d = List.replicate p.hbTaps.length ⟨0, 0⟩ :=
  ⟨List.length_replicate, fun _ hd => List.eq_of_mem_replicate hd⟩

/-! ### Before `CTL.START` -/

/-- Before `CTL.START` and in `Stopped` a step of the Rx worker waits (rule R171). -/
theorem exec_rxwStep_outside (hl : s.ctl.lifecycle = .created ∨ s.ctl.lifecycle = .stopped) (now : U64) (wall : Wall) :
    exec (.rxwStep now wall) s = .next (s.ret .noStep) := by
  rw [exec_rxwStep, rxwStep_outside hl, finish_noStep]

/-- Outside `Streaming` a push on `RXQ` is ignored (rule R305). -/
theorem exec_sbPush_rxq_outside (hl : s.ctl.lifecycle ≠ .streaming) (v : List Sample) :
    exec (.sbPush .rxq v) s = .next (s.ret .ignored) :=
  if_pos ⟨rfl, hl⟩

/-! ### `CTL.START` -/

/-- From a reset state `CTL.START` moves the lifecycle alone (rule R371): the registers it takes over from the pending bank
have their reset values there. -/
theorem startStream_initial (p : Params) (io : Io) :
    startStream (State.initial p io) = { State.initial p io with ctl.lifecycle := .streaming } := rfl

end

end Sys2Proof.Machine

namespace Sys2Proof

open Machine

/-- Settles O6: both kinds of reset leave `State.initial`, whose elements are read off; in `Created` the Rx worker waits, and
an arrival and a sample pushed are ignored. -/
theorem resetValues : Obligations.ResetValues := by
  intro s hs
  obtain ⟨p, io, rfl⟩ := exists_eq_initial hs
  have hcreated : (State.initial p io).ctl.lifecycle = .created := rfl
  have hidle : (State.initial p io).ctl.lifecycle ≠ .streaming := nofun
  refine ⟨rfl, ?banks, rfl, rfl, rfl, fun _ => rfl, rfl, ?queues, rfl, rfl, rfl, rfl, rfl, rfl, rfl, rfl, rfl, rfl, rfl, rfl,
    rfl, rfl, rfl, exec_rxwStep_outside (.inl hcreated), fun _ _ hd => exec_arrival_outside hd hidle,
    exec_sbPush_rxq_outside hidle, decReset_stages p, intReset_stages p⟩
  case banks =>
    intro b hb
    obtain rfl : b = Bank.reset := List.eq_of_mem_replicate (n := 3) hb
    exact ⟨rfl, rfl, rfl, rfl, rfl, rfl, rfl, rfl, rfl⟩
  case queues =>
    intro q hq
    obtain rfl : q = SampleQueue.empty := List.eq_of_mem_replicate (n := 2) hq
    exact ⟨rfl, rfl, rfl⟩

/-- Settles O8: `CTL.START` is the start of the stream, which from the reset state moves the lifecycle alone, and from any
other state that may start writes the reset values over the stream state. -/
theorem startAfterReset : Obligations.StartAfterReset := by
  refine fun s => ⟨_, exec_ctlReset s, ?fromReset, fun hl => ⟨_, exec_ctlStart hl, ?fromCreated⟩⟩
  case fromReset =>
    rw [ret_initial, exec_ctlStart rfl, startStream_initial]
    rfl
  case fromCreated => exact ⟨rfl, rfl, rfl, rfl, rfl, rfl, rfl, rfl⟩

end Sys2Proof
end
